-- ==== Sys2Proof/Word.lean ====
section
/-! DEFINITION. The words of the Laniram 8600 and their plainest arithmetic (spec/00_scope.md R3, R4): 32-bit
register words, 64-bit addresses, the 96-bit instruction word, and reading a word as a signed number. -/

namespace Sys2Proof

abbrev Byte := BitVec 8
abbrev W32 := BitVec 32
abbrev W64 := BitVec 64
/-- The 96-bit instruction word (R232). -/
abbrev Word96 := BitVec 96

/-- Bits `[h:l]` of a natural number, both ends included (R4). -/
def bits (x h l : Nat) : Nat := (x >>> l) % 2 ^ (h + 1 - l)

/-- Bit `i` of a natural number. -/
def bit (x i : Nat) : Bool := (x >>> i) % 2 == 1

/-- The `w`-bit pattern `x` read as a two's complement integer. -/
def signed (w x : Nat) : Int :=
  let y := x % 2 ^ w
  if y < 2 ^ (w - 1) then (y : Int) else (y : Int) - (2 ^ w : Nat)

/-- An integer modulo `2^w`. -/
def wrap (w : Nat) (r : Int) : Nat := (r % (2 ^ w : Nat)).toNat

/-- A Boolean as a bit. -/
def b2n (b : Bool) : Nat := if b then 1 else 0

end Sys2Proof
end

