-- ==== Sys2Proof/Syntax.lean ====
section
/-! DEFINITION. The abstract syntax of the Laniram 8600: operand fields (R236-R240), one shape per encoding form of the
class tables, and the ONE inductive `Instr` with a constructor for each of the 239 rows of spec/opcode_table.json: the 143
instructions of R246 and the 96 events. An event carries as arguments what comes from outside the machine or what the manual
leaves open (which agent acts, which waiting item, the data of a host access). -/

namespace Sys2Proof

/-- Types of R244, in code order 0x0 to 0xF. -/
inductive Ty where
  | i8 | i16 | i32 | i64 | n8 | n16 | n32 | n64 | f16 | bf16 | f32 | f64 | t8 | t16 | t32 | f32x2
  deriving DecidableEq, Repr

/-- Rounding modes of R135, in code order 0 to 4. -/
inductive Rnd where
  | rn | rz | ru | rd | rs
  deriving DecidableEq, Repr

/-- A specifier: R237, R118. -/
inductive Spec where
  | v (n : BitVec 6) | g (n : BitVec 6) | q (n : BitVec 3) | latch (n : Fin 3)
  | zero | tid | lane | gid | team | nteam | role | core | cyc | arr | tstat
  | imm (s : BitVec 6)
  deriving DecidableEq, Repr

/-- A source field: last-use mark, trap-on-empty mark, specifier (R236). -/
structure Src where
  lu : Bool
  te : Bool
  spec : Spec
  deriving DecidableEq, Repr

/-- The last source of an operation with an immediate form (R242). -/
inductive Opnd where
  | src (s : Src)
  | imm32 (m : W32)
  deriving DecidableEq, Repr

/-- The field that a hold names (R240). -/
inductive HoldField where
  | a | b | c
  deriving DecidableEq, Repr

/-- HOLD and SLOT (R240): a hold into a latch, or none, with a SLOT that is ignored. -/
inductive Hold where
  | none (slot : BitVec 2)
  | of (f : HoldField) (slot : Fin 3)
  deriving DecidableEq, Repr

/-- Guard (R233) and hints (R240) of an instruction. -/
structure Ctl where
  gn : Bool
  gp : BitVec 3
  stall : BitVec 4
  yld : Bool
  hold : Hold
  deriving DecidableEq, Repr

/-- Address spaces of R161, in code order 0 to 4. -/
inductive Space where
  | global | spad | cst | rspad | local
  deriving DecidableEq, Repr

/-- Access widths of R245, in code order 0 to 4. -/
inductive Width where
  | w8 | w16 | w32 | w64 | w128
  deriving DecidableEq, Repr

/-- Orderings of R245, in code order 0 to 3. -/
inductive Ord where
  | plain | acq | rel | acqrel
  deriving DecidableEq, Repr

/-- Scopes of R205, in code order 0 to 5. -/
inductive Scope where
  | thread | group | team | cluster | package | system
  deriving DecidableEq, Repr

/-! Shapes of the arithmetic and convert classes (R244, R257, R282, R286, R293). -/

/-- One source. -/
structure Un where
  ctl : Ctl
  ty : Ty
  rnd : Rnd
  f1 : Bool
  f0 : Bool
  d : Spec
  a : Src
  deriving DecidableEq, Repr

/-- Two sources, the last of which may be an immediate. -/
structure Bin where
  ctl : Ctl
  ty : Ty
  rnd : Rnd
  f1 : Bool
  f0 : Bool
  d : Spec
  a : Src
  b : Opnd
  deriving DecidableEq, Repr

/-- Three sources, the last of which may be an immediate. -/
structure Tri where
  ctl : Ctl
  ty : Ty
  rnd : Rnd
  f1 : Bool
  f0 : Bool
  d : Spec
  a : Src
  b : Src
  c : Opnd
  deriving DecidableEq, Repr

/-- A conversion: `ty` is the destination type, `sty` the source type (R257, R288). -/
structure Cvt where
  ctl : Ctl
  ty : Ty
  rnd : Rnd
  f1 : Bool
  f0 : Bool
  sty : Ty
  d : Spec
  a : Src
  deriving DecidableEq, Repr

/-- CVTP: the second source is read only when packing four elements (R289). -/
structure CvtPack where
  ctl : Ctl
  ty : Ty
  rnd : Rnd
  f1 : Bool
  f0 : Bool
  sty : Ty
  d : Spec
  a : Src
  b : Src
  deriving DecidableEq, Repr

/-- LEA: C is a short immediate shift count (R257). -/
structure Lea where
  ctl : Ctl
  ty : Ty
  d : Spec
  a : Src
  b : Src
  c : Src
  deriving DecidableEq, Repr

/-- BMIX with its 8-bit table (R261). -/
structure BMix where
  ctl : Ctl
  ty : Ty
  d : Spec
  a : Src
  b : Src
  c : Src
  tab : BitVec 8
  deriving DecidableEq, Repr

/-- The selectors of BSWZ: from X, or from C in the .reg form (R261). -/
inductive SwzSel where
  | sel (s : BitVec 20)
  | reg (c : Src)
  deriving DecidableEq, Repr

structure BSwz where
  ctl : Ctl
  ty : Ty
  d : Spec
  a : Src
  b : Src
  sel : SwzSel
  deriving DecidableEq, Repr

/-! Class 0x2 (R262-R264, R290, R291). -/

structure Mov where
  ctl : Ctl
  wide : Bool
  d : Spec
  a : Opnd
  deriving DecidableEq, Repr

structure Movi where
  ctl : Ctl
  d : Spec
  a : Src
  m : W32
  deriving DecidableEq, Repr

structure MovX where
  ctl : Ctl
  wide : Bool
  d : Spec
  a : Src
  b : Src
  xlu : Bool
  xte : Bool
  deriving DecidableEq, Repr

structure MovXW where
  ctl : Ctl
  wide : Bool
  a : Src
  b : Src
  c : Src
  deriving DecidableEq, Repr

/-- A compare: predicate `n`, condition `cc`, optional mask in `d` (zero when absent). -/
structure Cmp where
  ctl : Ctl
  ty : Ty
  f1 : Bool
  f0 : Bool
  n : BitVec 3
  cc : BitVec 3
  d : Spec
  a : Src
  b : Src
  deriving DecidableEq, Repr

structure Sel where
  ctl : Ctl
  wide : Bool
  n : BitVec 3
  neg : Bool
  d : Spec
  a : Src
  b : Src
  deriving DecidableEq, Repr

structure Plop where
  ctl : Ctl
  pd : BitVec 3
  pa : BitVec 3
  pb : BitVec 3
  pc : BitVec 3
  lut : BitVec 8
  deriving DecidableEq, Repr

/-- PMOV: `toPred` is X[0]. -/
structure PMov where
  ctl : Ctl
  toPred : Bool
  mask : BitVec 8
  d : Spec
  a : Src
  deriving DecidableEq, Repr

structure MovS where
  ctl : Ctl
  a : Src
  b : Opnd
  deriving DecidableEq, Repr

structure FClass where
  ctl : Ctl
  ty : Ty
  d : Spec
  a : Src
  deriving DecidableEq, Repr

/-! Classes 0x3 and 0x4 (R267, R274, R462). -/

structure Plain where
  ctl : Ctl
  deriving DecidableEq, Repr

structure Bra where
  ctl : Ctl
  off : BitVec 24
  deriving DecidableEq, Repr

structure OneSrc where
  ctl : Ctl
  a : Src
  deriving DecidableEq, Repr

/-- CALL: `n` is the frame size less 1, `s` the shift divided by 8. -/
structure Call where
  ctl : Ctl
  d : Spec
  n : BitVec 6
  s : BitVec 3
  off : BitVec 24
  deriving DecidableEq, Repr

structure CallX where
  ctl : Ctl
  d : Spec
  n : BitVec 6
  s : BitVec 3
  a : Src
  deriving DecidableEq, Repr

structure Pause where
  ctl : Ctl
  a : Src
  add : BitVec 24
  deriving DecidableEq, Repr

structure Join where
  ctl : Ctl
  limit : BitVec 10
  deriving DecidableEq, Repr

structure TrapOp where
  ctl : Ctl
  a : Src
  code : BitVec 16
  deriving DecidableEq, Repr

structure Brk where
  ctl : Ctl
  code : BitVec 16
  deriving DecidableEq, Repr

structure SysR where
  ctl : Ctl
  d : Spec
  num : BitVec 8
  deriving DecidableEq, Repr

structure SysW where
  ctl : Ctl
  a : Src
  num : BitVec 8
  deriving DecidableEq, Repr

structure Stat where
  ctl : Ctl
  d : Spec
  sel : BitVec 4
  deriving DecidableEq, Repr

/-- MVT (R294): `e8` is e / 8, `rows` and `cols` are the counts less 1. -/
structure Mvt where
  ctl : Ctl
  t16 : Bool
  rnd : Rnd
  ftz : Bool
  d : BitVec 6
  a : BitVec 6
  alu : Bool
  ate : Bool
  b : Src
  e8 : BitVec 14
  act : Fin 3
  cols : BitVec 4
  rows : BitVec 4
  deriving DecidableEq, Repr

/-! Classes 0x8 and 0x9 (R245, R299, R304, R306). -/

/-- The memory operand: base register, offset, space, and the swizzle or bulk bits M[2:0]. -/
structure MemOpnd where
  addr : Src
  off : BitVec 19
  space : Space
  swz : BitVec 3
  deriving DecidableEq, Repr

structure Ld where
  ctl : Ctl
  m : MemOpnd
  width : Width
  sx : Bool
  ord : Ord
  scope : Scope
  d : Spec
  deriving DecidableEq, Repr

structure St where
  ctl : Ctl
  m : MemOpnd
  width : Width
  ord : Ord
  scope : Scope
  b : Src
  deriving DecidableEq, Repr

/-- The volume operand [gN: x, y, z] (R306). -/
structure VolOpnd where
  vol : Src
  x : Src
  y : Src
  z : Spec
  zlu : Bool
  deriving DecidableEq, Repr

structure Ldv where
  ctl : Ctl
  m : VolOpnd
  width : Width
  sx : Bool
  ord : Ord
  scope : Scope
  d : Spec
  deriving DecidableEq, Repr

structure Stv where
  ctl : Ctl
  m : VolOpnd
  width : Width
  ord : Ord
  scope : Scope
  data : Spec
  dlu : Bool
  deriving DecidableEq, Repr

/-- PREF: level 0 L1, 1 L2, 2 LLC (R299). -/
structure Pref where
  ctl : Ctl
  space : Space
  lvl : Fin 3
  addr : Src
  off : BitVec 19
  deriving DecidableEq, Repr

structure Flush where
  ctl : Ctl
  space : Space
  addr : Src
  off : BitVec 19
  deriving DecidableEq, Repr

/-- Atomic operations of R304, in code order 0 to 7. -/
inductive AOp where
  | add | min | max | and | or | xor | exch | cas
  deriving DecidableEq, Repr

/-- Atomic kinds of R304, in code order 0 to 2. -/
inductive AKind where
  | sgn | uns | flt
  deriving DecidableEq, Repr

/-- Placements of R304, in code order 0 to 2. -/
inductive Place where
  | auto | home | near
  deriving DecidableEq, Repr

/-- ATOM and RED (the D of RED is zero). -/
structure Atom where
  ctl : Ctl
  m : MemOpnd
  width : Width
  ord : Ord
  scope : Scope
  aop : AOp
  kind : AKind
  place : Place
  rnd : Rnd
  d : Spec
  b : Src
  deriving DecidableEq, Repr

structure AtomV where
  ctl : Ctl
  m : VolOpnd
  width : Width
  ord : Ord
  scope : Scope
  aop : AOp
  kind : AKind
  rnd : Rnd
  d : Spec
  data : Spec
  dlu : Bool
  deriving DecidableEq, Repr

/-! Class 0xA (R309) and class 0xB (R323). -/

/-- FENCE kinds of R309, in code order 1 to 3. -/
inductive FenceKind where
  | ld | st | all
  deriving DecidableEq, Repr

structure Fence where
  ctl : Ctl
  kind : FenceKind
  bulk : Bool
  scope : Scope
  deriving DecidableEq, Repr

structure Bar where
  ctl : Ctl
  b : BitVec 4
  a : Src
  deriving DecidableEq, Repr

structure Barx where
  ctl : Ctl
  d : Spec
  n : BitVec 3
  addr : Src
  off : BitVec 19
  deriving DecidableEq, Repr

structure BarInit where
  ctl : Ctl
  addr : Src
  off : BitVec 19
  b : Src
  deriving DecidableEq, Repr

structure Waitv where
  ctl : Ctl
  c : BitVec 3
  wide : Bool
  space : Space
  ord : Ord
  scope : Scope
  d : Spec
  addr : Src
  off : BitVec 19
  b : Src
  deriving DecidableEq, Repr

structure Sem where
  ctl : Ctl
  n : BitVec 6
  a : Src
  deriving DecidableEq, Repr

structure SemWait where
  ctl : Ctl
  n : BitVec 6
  dec : Bool
  b : Src
  deriving DecidableEq, Repr

structure Own where
  ctl : Ctl
  toE : Bool
  n : BitVec 3
  a : Src
  deriving DecidableEq, Repr

structure VRead where
  ctl : Ctl
  i : BitVec 4
  n : BitVec 3
  d : Spec
  b : Src
  deriving DecidableEq, Repr

structure VWrite where
  ctl : Ctl
  i : BitVec 4
  n : BitVec 3
  a : Src
  b : Src
  deriving DecidableEq, Repr

/-- VINVAL: under .all the coordinates are absent. -/
structure VInval where
  ctl : Ctl
  all : Bool
  m : VolOpnd
  deriving DecidableEq, Repr

structure LPost where
  ctl : Ctl
  d : Spec
  n : BitVec 3
  e : BitVec 12
  a : Src
  b : Src
  c : Src
  deriving DecidableEq, Repr

structure LTake where
  ctl : Ctl
  d : Spec
  try_ : Bool
  n : BitVec 3
  e : BitVec 12
  b : Src
  deriving DecidableEq, Repr

structure LDone where
  ctl : Ctl
  n : BitVec 3
  e : BitVec 12
  b : Src
  deriving DecidableEq, Repr

structure RDep where
  ctl : Ctl
  n : BitVec 3
  t : BitVec 14
  a : Src
  b : Src
  deriving DecidableEq, Repr

/-! Classes 0xC and 0xD (R334-R349). -/

structure Vote where
  ctl : Ctl
  d : Spec
  n : BitVec 3
  s : BitVec 3
  neg : Bool
  mode : Fin 3
  deriving DecidableEq, Repr

structure Match where
  ctl : Ctl
  wide : Bool
  d : Spec
  n : BitVec 3
  a : Src
  deriving DecidableEq, Repr

structure Elect where
  ctl : Ctl
  d : Spec
  n : BitVec 3
  deriving DecidableEq, Repr

structure Shfl where
  ctl : Ctl
  wide : Bool
  mode : BitVec 2
  seg : Fin 6
  n : BitVec 3
  d : Spec
  a : Src
  b : Src
  deriving DecidableEq, Repr

structure Bfly where
  ctl : Ctl
  s : Fin 5
  d : Spec
  a : Src
  deriving DecidableEq, Repr

/-- Group operations of R338, in code order 0 to 5. -/
inductive GOp where
  | add | min | max | and | or | xor
  deriving DecidableEq, Repr

structure Redg where
  ctl : Ctl
  ty : Ty
  rnd : Rnd
  f1 : Bool
  f0 : Bool
  op : GOp
  excl : Bool
  d : Spec
  a : Src
  deriving DecidableEq, Repr

structure NzMap where
  ctl : Ctl
  ty : Ty
  kd : BitVec 4
  pos : BitVec 3
  a : Src
  deriving DecidableEq, Repr

/-- KOP operations of R340, in code order 0 to 6. -/
inductive KOpc where
  | and | or | xor | andn | not | ld | st
  deriving DecidableEq, Repr

structure Kop where
  ctl : Ctl
  op : KOpc
  kd : BitVec 4
  ka : BitVec 4
  kb : BitVec 4
  d : Spec
  a : Src
  deriving DecidableEq, Repr

/-- CVTB (R344): `sg8` is SG / 8. -/
structure CvtB where
  ctl : Ctl
  rnd : Rnd
  ftz : Bool
  byte : BitVec 2
  q : BitVec 5
  sg8 : BitVec 3
  d : Spec
  a : Src
  c : Src
  deriving DecidableEq, Repr

/-- MMA and MMAZ (R345): `sb8` is SB / 8; C of MMAZ is the zero field. -/
structure Mma where
  ctl : Ctl
  ty : Ty
  rnd : Rnd
  bs : Bool
  ftz : Bool
  sb8 : BitVec 3
  tp : Option (BitVec 4 × BitVec 5)
  sk : Option (BitVec 4)
  d : Spec
  a : Src
  b : Src
  c : Src
  deriving DecidableEq, Repr

/-- Fragment roles of R348, in code order 0 to 2. -/
inductive Role where
  | a | b | c
  deriving DecidableEq, Repr

/-- LDM and STM: shape 0 .e8 to 3 .e64; `blk` is D of LDM or C of STM. -/
structure Frag where
  ctl : Ctl
  space : Space
  shape : BitVec 2
  swz : BitVec 3
  off : BitVec 19
  role : Role
  addr : Src
  stride : Src
  blk : Src
  deriving DecidableEq, Repr

/-! Class 0xE (R350) and class 0xF (R366). -/

structure Cpy where
  ctl : Ctl
  dsp : Space
  ssp : Space
  dim : Fin 3
  a : Src
  b : Src
  c : Src
  sem : BitVec 6
  deriving DecidableEq, Repr

structure CpyV where
  ctl : Ctl
  m : VolOpnd
  dst : Spec
  dlu : Bool
  sem : BitVec 6
  deriving DecidableEq, Repr

/-- GATH and SCAT: `z` is log2 of the element size less 2; `count` is the count less 1; `op` is 0 for GATH. -/
structure Parcel where
  ctl : Ctl
  z : BitVec 2
  i64 : Bool
  sh : BitVec 3
  op : Fin 3
  count : BitVec 16
  a : Src
  b : Src
  c : Src
  sem : BitVec 6
  deriving DecidableEq, Repr

/-- The Relay commands ARED, RSCAT, AGATH, BCAST, CBAR; unused fields are at their fixed values. -/
structure Coll where
  ctl : Ctl
  ty : Ty
  rnd : Rnd
  op : Fin 3
  root : BitVec 6
  a : Src
  b : Src
  c : Src
  sem : BitVec 6
  deriving DecidableEq, Repr

structure SortOp where
  ctl : Ctl
  kt : Fin 3
  desc : Bool
  kv : Bool
  krem : Bool
  vrem : Bool
  phi : BitVec 2
  plo : BitVec 2
  a : Src
  b : Src
  c : Src
  sem : BitVec 6
  deriving DecidableEq, Repr

/-- TRAV: `clog` 1-9, `count` is the count less 1. -/
structure Trav where
  ctl : Ctl
  q : Fin 3
  clog : BitVec 4
  count : BitVec 16
  a : Src
  b : Src
  c : Src
  sem : BitVec 6
  deriving DecidableEq, Repr

/-- SOLVE: `n` is the order less 1; B is the zero field without a log. -/
structure Solve where
  ctl : Ctl
  log : Bool
  f64 : Bool
  rnd : Rnd
  meth : Fin 3
  sweeps : BitVec 16
  n : BitVec 4
  d : Spec
  a : Src
  b : Src
  deriving DecidableEq, Repr

structure SolveB where
  ctl : Ctl
  f64 : Bool
  rnd : Rnd
  d : Spec
  a : Src
  b : Src
  deriving DecidableEq, Repr

structure Compact where
  ctl : Ctl
  d : Spec
  a : Src
  b : Src
  deriving DecidableEq, Repr

/-- RND and RNDF: `w` is log2 of the word count; `nrm` and `rnd` are RNDF's. -/
structure Rand where
  ctl : Ctl
  w : Fin 3
  nrm : Bool
  rnd : Rnd
  d : Spec
  a : Src
  b : Src
  c : Src
  deriving DecidableEq, Repr

structure Epis where
  ctl : Ctl
  d : Spec
  a : Src
  b : Src
  c : Src
  deriving DecidableEq, Repr

/-! Arguments of the events. -/

/-- A thread of the package: key of its team, group and lane. -/
structure TRef where
  team : Nat
  gid : Nat
  lane : Nat
  deriving DecidableEq, Repr

/-- A request that another package sends over Keanik, or that this package sends (R227, R494). -/
inductive RemoteOp where
  | load (pa bytes : Nat)
  | store (pa bytes : Nat) (data : BitVec 256) (psn : Bool)
  | atomic (pa bytes : Nat) (aop : AOp) (kind : AKind) (rnd : Rnd) (b cmp : W64) (rsw : W32) (psn : Bool)
  deriving DecidableEq, Repr

/-- Where a unit detects an error (R411, R436, R449, R476, R478, R482, R484, R492, R498). -/
inductive ErrSite where
  /-- in unit `u`, without an effect beyond the correction -/
  | unit (u : BitVec 16)
  /-- a flit replayed on a UCIe link -/
  | link (u : BitVec 16)
  | l1 (core pa : Nat)
  /-- a line of the L2 of a compute die, or of agent H (2) -/
  | agent (ag pa : Nat)
  | llc (pa : Nat)
  | hbm (pa : Nat)
  | icache (core pa : Nat)
  | scratchpad (team off : Nat)
  | constant (core off : Nat)
  | vreg (t : TRef) (depth : Nat)
  | greg (team gid n : Nat)
  | fill (core k : Nat)
  /-- the results of a lane of a matrix instruction -/
  | matrix (core k lane : Nat)
  /-- an accepted deposit on its way -/
  | deposit (k : Nat)
  | letter (q : Nat)
  | spilled (q : Nat)
  | chunk (q die cluster : Nat)
  | block (pa : Nat)
  | ownerBit (team page : Nat)
  | control (team gid : Nat)
  | vsValue (i : Nat)
  | vsVersion (i : Nat)
  | solver (core : Nat)
  | compactor (core : Nat)
  | latch (t : TRef) (n : Nat)
  | pigeon (team gid key : Nat)
  | tlb (core k : Nat)
  | l2tlb (die k : Nat)
  | filter (line : Nat)
  deriving DecidableEq, Repr

/-- One detected error: its site, whether the check corrected it and how many bits (DETAIL of class 0x01, or the retries of class
0x05), the context of the access where the site itself names none, and the number of the detecting check (R411, R412, R420). -/
structure ErrEvent where
  site : ErrSite
  fixed : Bool
  bits : W32
  ctx : BitVec 8
  check : Nat
  deriving DecidableEq, Repr

/-- A collective that a rank of another package has issued (R361, R364): what the first exchange carries and its source
data, as it reaches this package over Keanik. -/
structure PeerColl where
  commid : W32
  rank : Nat
  /-- issued on a record whose STATE was 0: the rank has formed anew (R361) -/
  forms : Bool
  /-- 0 ARED, 1 RSCAT, 2 AGATH, 3 BCAST, 4 CBAR -/
  cop : Nat
  ty : Ty
  rnd : Rnd
  op : Nat
  count : Nat
  root : Nat
  data : List Byte
  /-- elements that are poisoned -/
  psn : List Nat
  deriving DecidableEq, Repr

/-- The 239 rows of spec/opcode_table.json. -/
inductive Instr where
  -- package, host commands and queue control
  | powerOnBoot (step : Nat) (unit : BitVec 16)
  | powerRemoved
  | placePlan (hcmd : W32) (sigOk : Bool)
  | preEmptContext (hcmd : W32)
  | killContext (hcmd : W32)
  | readErrorLog (hcmd : W32)
  | setPowerProfile (hcmd : W32)
  | attest (hcmd : W32)
  | hpkgWrite (v : W32)
  | registerWrite (off : Nat) (v : W64)
  | qdtbaseWrite (v : W64)
  | qsizeWrite (v : W32)
  | queueEnable (qctl : W32)
  | queueDisable (qctl : W32)
  | queueDiscardDisable (qctl : W32)
  | qctlBadOp (qctl : W32)
  | hostWindowPost (q line : Nat) (data : List Byte) (psn : Bool)
  | spillRefill (q : Nat)
  | spillRefillRetry (q : Nat)
  | distSplit (q : Nat) (die : Option Nat)
  | clusterSteal (die cluster q : Nat)
  | dieSteal (die q : Nat)
  -- scheduling
  | contextGrant
  | fairnessPreempt (ctx : Nat)
  | teamAdmission (ctx : Nat)
  | pick (core sub : Nat)
  | convergenceTimeout (team gid : Nat)
  | parkDue (team : Nat)
  | saveComplete (team : Nat)
  | restoreComplete (team : Nat)
  | waitListRetest (team : Nat)
  | pauseExpire (t : TRef)
  | joinLimitExpire (t : TRef)
  | yieldExpire (t : TRef)
  | engineStopAck (team eng : Nat)
  | stopTimeout (team eng : Nat)
  -- core units
  | matrixStart (core : Nat)
  | matrixComplete (core : Nat)
  | matrixKstepArbitrate (core : Nat)
  | loadFill (core k : Nat)
  | poolObtain (team gid k : Nat)
  -- coherence
  | storeApplyL2 (core k : Nat)
  | homeRds (md k : Nat)
  | homeRdu (md k : Nat)
  | homeUpg (md k : Nat)
  | homeWbd (md k : Nat)
  | homeEvc (md k : Nat)
  | snoopSnps (md line agent : Nat)
  | snoopSnpi (md line agent : Nat)
  | backInv (md line agent : Nat)
  | writeApplyHome (md k : Nat)
  | settleBroadcast (agent : Nat)
  | atomicHomeExec (md k : Nat)
  | llcEvict (md line : Nat)
  | hostMemWrite (pa : Nat) (data : List Byte) (psn : Bool)
  | hostMemRead (pa bytes : Nat)
  | remoteRequestApply (src tag : Nat) (op : RemoteOp)
  | remoteAck (k : Nat) (value : BitVec 256) (psn : Bool)
  | remoteRequestTimeout (k : Nat)
  | flitReplay (port : Nat)
  | planeDown (port : Nat)
  | laneFail (unit : BitVec 16) (lane : Nat)
  | waitvReread (t : TRef)
  | linkRequest (k : Nat)
  | vinvalComplete (k : Nat)
  | shootdownPage (tictl : W32)
  | shootdownContext (tictl : W32)
  | shootdownAll (tictl : W32)
  | shootdownComplete
  | shootdownAckTimeout (core : Nat)
  | rdepAccept (k : Nat)
  | barxArrive (k : Nat)
  | barinitApply (k : Nat)
  -- engines
  | engineComplete (team eng : Nat)
  | engineRetry (team eng : Nat)
  | engineStopFault (team eng : Nat)
  | parcelMarker (team eng : Nat)
  | commForm (team eng : Nat) (peer : Option PeerColl)
  | relayChunkStep
  | relayCollectiveComplete (team eng : Nat)
  | relayLeave (slot rank : Nat)
  | sortPass (team eng : Nat)
  | travBatch (team eng : Nat)
  | solveComplete (core : Nat)
  | compactFill (core : Nat)
  -- power and faults
  | postmasterInterval (die : Nat) (excess : Nat) (moduleExcess : Nat)
  | errorEvent (e : ErrEvent)
  | faultWindowClose (unit : BitVec 16)
  | dieProbe (die : Nat) (answered : Bool)
  | hubLost
  | shadowCommit (t : TRef)
  -- class 0x0
  | iadd (x : Bin) | isub (x : Bin) | imul (x : Bin) | imad (x : Tri) | idiv (x : Bin) | irem (x : Bin)
  | ineg (x : Un) | iabs (x : Un) | imin (x : Bin) | imax (x : Bin) | lea (x : Lea) | cvti (x : Cvt) | idp4 (x : Tri)
  -- class 0x1
  | and (x : Bin) | or (x : Bin) | xor (x : Bin) | not (x : Un) | bmix (x : BMix) | shl (x : Bin) | shr (x : Bin)
  | rot (x : Bin) | shf (x : Tri) | bfe (x : Bin) | bfi (x : Tri) | popc (x : Un) | clz (x : Un) | brev (x : Un)
  | ffs (x : Un) | bswz (x : BSwz)
  -- class 0x2
  | mov (x : Mov) | movi (x : Movi) | movx (x : MovX) | movxw (x : MovXW) | icmp (x : Cmp) | fcmp (x : Cmp)
  | tcmp (x : Cmp) | sel (x : Sel) | plop (x : Plop) | pmov (x : PMov) | movs (x : MovS) | fclass (x : FClass)
  -- class 0x3
  | bra (x : Bra) | brx (x : OneSrc) | call (x : Call) | callx (x : CallX) | ret (x : OneSrc) | exit (x : Plain)
  | yield (x : Plain) | pause (x : Pause) | nop (x : Plain) | join (x : Join)
  -- class 0x4
  | trap (x : TrapOp) | rte (x : Plain) | brk (x : Brk) | sysr (x : SysR) | sysw (x : SysW) | stat (x : Stat)
  -- class 0x5
  | fadd (x : Bin) | fsub (x : Bin) | fmul (x : Bin) | ffma (x : Tri) | fmin (x : Bin) | fmax (x : Bin) | fdiv (x : Bin)
  | fsqrt (x : Un) | frcp (x : Un) | frsq (x : Un) | frnd (x : Un) | fscale (x : Bin)
  -- class 0x6
  | fexp2 (x : Un) | flog2 (x : Un) | fsin (x : Un) | fcos (x : Un) | ftanh (x : Un) | fsigm (x : Un)
  | cvt (x : Cvt) | cvtp (x : CvtPack)
  -- class 0x7
  | tmin (x : Bin) | tmax (x : Bin) | tneg (x : Un) | tabs (x : Un) | mvt (x : Mvt) | nzcnt (x : Bin)
  -- class 0x8
  | ld (x : Ld) | st (x : St) | ldv (x : Ldv) | stv (x : Stv) | pref (x : Pref) | flush (x : Flush)
  -- class 0x9
  | atom (x : Atom) | red (x : Atom) | atomv (x : AtomV)
  -- class 0xA
  | fence (x : Fence) | bar (x : Bar) | barx (x : Barx) | barinit (x : BarInit) | waitv (x : Waitv) | seminc (x : Sem)
  | semwait (x : SemWait) | semset (x : Sem) | own (x : Own) | ownwait (x : OneSrc) | vread (x : VRead)
  | vwrite (x : VWrite) | vinval (x : VInval)
  -- class 0xB
  | lpost (x : LPost) | ltake (x : LTake) | ldone (x : LDone) | rdep (x : RDep) | arrwait (x : OneSrc)
  -- class 0xC
  | vote (x : Vote) | matchg (x : Match) | shfl (x : Shfl) | bfly (x : Bfly) | redg (x : Redg) | scang (x : Redg)
  | elect (x : Elect) | nzmap (x : NzMap) | kop (x : Kop) | cvtb (x : CvtB)
  -- class 0xD
  | mma (x : Mma) | mmaz (x : Mma) | ldm (x : Frag) | stm (x : Frag)
  -- class 0xE
  | cpy (x : Cpy) | cpyv (x : CpyV) | gath (x : Parcel) | scat (x : Parcel) | idem (x : Plain) | idemend (x : Plain)
  | ared (x : Coll) | rscat (x : Coll) | agath (x : Coll) | bcast (x : Coll) | cbar (x : Coll)
  -- class 0xF
  | sort (x : SortOp) | trav (x : Trav) | solve (x : Solve) | solveb (x : SolveB) | compact (x : Compact)
  | rnd (x : Rand) | rndf (x : Rand) | epis (x : Epis)
  -- further events
  | hcmdUnknownOp (hcmd : W32)
  | hubCommandComplete
  | queueCommandComplete
  | tictlBadOp (tictl : W32)
  | rowRemapComplete (md channel : Nat)
  deriving DecidableEq, Repr

end Sys2Proof
end

