-- ==== Sys2Proof/WellFormed.lean ====
section
/-! DEFINITION. Which terms of `Instr` are instructions: the reserved operands, types, flags and combinations of
R234-R245 and of each operation's own description. A word that decodes to an ill-formed term is no instruction (R235).
Events carry no word; they are well formed as they stand. -/

namespace Sys2Proof

/-- The width in bits of a type (R130). -/
def Ty.width : Ty → Nat
  | .i8 | .n8 | .t8 => 8
  | .i16 | .n16 | .f16 | .bf16 | .t16 => 16
  | .i32 | .n32 | .f32 | .t32 => 32
  | .i64 | .n64 | .f64 | .f32x2 => 64

/-- The width of a type in registers: 64 for a pair, else 32 (R130, R238). -/
def Ty.rwidth (t : Ty) : Nat := if t.width = 64 then 64 else 32

def Ty.isInt : Ty → Bool
  | .i8 | .i16 | .i32 | .i64 | .n8 | .n16 | .n32 | .n64 => true
  | _ => false

def Ty.isSigned : Ty → Bool
  | .i8 | .i16 | .i32 | .i64 => true
  | _ => false

/-- f16, bf16, f32, f64: "F" of R282. -/
def Ty.isF : Ty → Bool
  | .f16 | .bf16 | .f32 | .f64 => true
  | _ => false

/-- "F2" of R282. -/
def Ty.isF2 (t : Ty) : Bool := t.isF || t == .f32x2

def Ty.isTapered : Ty → Bool
  | .t8 | .t16 | .t32 => true
  | _ => false

/-- Types that admit .ftz (R132, R244). -/
def Ty.hasFtz : Ty → Bool
  | .f16 | .bf16 | .f32 | .f32x2 => true
  | _ => false

/-- Types of class 0x1 (R260). -/
def Ty.isBit : Ty → Bool
  | .i32 | .i64 | .n32 | .n64 => true
  | _ => false

/-- i32 and i64: the moves of class 0x2 (R262) are told apart by a flag, so this serves R257's LEA and IDP4. -/
def Ty.isWord : Ty → Bool
  | .i32 | .n32 => true
  | _ => false

/-! Operand fields: R237-R239, R297, R329. The width `w` is 32, 64 or 128. -/

/-- A source specifier of width `w`. -/
def Spec.okSrc (w : Nat) : Spec → Bool
  | .v n => w == 32 || (w == 64 && n.toNat % 2 == 0) || (w == 128 && n.toNat % 4 == 0)
  | .g n => w == 32 || (w == 64 && n.toNat % 2 == 0)
  | .latch _ => w == 32
  | _ => w == 32 || w == 64

/-- A destination specifier of width `w`. -/
def Spec.okDst (w : Nat) : Spec → Bool
  | .v n => w == 32 || (w == 64 && n.toNat % 2 == 0) || (w == 128 && n.toNat % 4 == 0)
  | .g n => w == 32 || (w == 64 && n.toNat % 2 == 0)
  | .q _ | .zero => w == 32 || w == 64
  | _ => false

/-- A destination of classes 0x8 to 0xD: no pigeonhole (R297, R329). -/
def Spec.okDstM (w : Nat) : Spec → Bool
  | .q _ => false
  | s => s.okDst w

/-- A v or g destination (R274, R366, R465). -/
def Spec.okDstVG (w : Nat) : Spec → Bool
  | .v n => (Spec.v n).okDst w
  | .g n => (Spec.g n).okDst w
  | _ => false

/-- A single source of classes 0xC and 0xD: 64-bit operands only in v or g, no pigeonhole (R329). -/
def Spec.okSrcG (w : Nat) : Spec → Bool
  | .v n => (Spec.v n).okSrc w
  | .g n => (Spec.g n).okSrc w
  | .q _ => false
  | _ => w == 32

/-- ZSPEC and DSPEC (R306): no pigeonhole and no latch. -/
def Spec.okZ (w : Nat) : Spec → Bool
  | .q _ | .latch _ => false
  | s => s.okSrc w

/-- An address pair in v or g, or zero (R245). -/
def Spec.okAddr : Spec → Bool
  | .v n | .g n => n.toNat % 2 == 0
  | .zero => true
  | _ => false

/-- The first register of a v block of `len` registers (R329). -/
def Spec.okBlock (len : Nat) : Spec → Bool
  | .v n => n.toNat % len == 0 && n.toNat + len ≤ 64
  | _ => false

def Spec.isG : Spec → Bool
  | .g _ => true
  | _ => false

/-- SYSW's source: v, g, immediate, or zero as in the example of R276. -/
def Spec.okSysW (w : Nat) : Spec → Bool
  | .v n => (Spec.v n).okSrc w
  | .g n => (Spec.g n).okSrc w
  | .imm _ | .zero => true
  | _ => false

def Src.ok (w : Nat) (s : Src) : Bool := s.spec.okSrc w

/-- The last source: an immediate only where the operation admits one (R242). -/
def Opnd.ok (immOk : Bool) (w : Nat) : Opnd → Bool
  | .src s => s.ok w
  | .imm32 _ => immOk

/-- Source fields named by a hold must not be block fields in classes 0xC and 0xD (R329). -/
def Ctl.okHold (blocks : List HoldField) (c : Ctl) : Bool :=
  match c.hold with
  | .none _ => true
  | .of f _ => !blocks.contains f

/-- Class 0xD is unguarded (R330); so is RTE (R462). -/
def Ctl.unguarded (c : Ctl) : Bool := !c.gn && c.gp == 7

/-! Class 0x0 and 0x1 shapes (R257, R260): `f1`, `f0` say whether the flag may be set. -/

def Bin.okInt (x : Bin) (wb : Nat) (f1 f0 immOk : Bool) : Bool :=
  x.ty.isInt && x.rnd == .rn && (!x.f1 || f1) && (!x.f0 || f0) &&
  x.d.okDst x.ty.rwidth && x.a.ok x.ty.rwidth && x.b.ok immOk wb

def Un.okInt (x : Un) (dw : Nat) (f0 : Bool) : Bool :=
  x.ty.isInt && x.rnd == .rn && !x.f1 && (!x.f0 || f0) && x.d.okDst dw && x.a.ok x.ty.rwidth

def Tri.okInt (x : Tri) (wab wc : Nat) (f1 f0 : Bool) : Bool :=
  x.ty.isInt && x.rnd == .rn && (!x.f1 || f1) && (!x.f0 || f0) &&
  x.d.okDst x.ty.rwidth && x.a.ok wab && x.b.ok wab && x.c.ok true wc

/-! Class 0x5 to 0x7 shapes (R277, R282). -/

/-- F0 is .ftz: reserved for f64 and tapered types (R244). -/
def ftzOk (ty : Ty) (f0 : Bool) : Bool := !f0 || ty.hasFtz

def Bin.okFlt (x : Bin) (tyOk : Bool) (wb : Nat) (rnds f1 : Bool) : Bool :=
  tyOk && (rnds || x.rnd == .rn) && (f1 || !x.f1) && ftzOk x.ty x.f0 &&
  x.d.okDst x.ty.rwidth && x.a.ok x.ty.rwidth && x.b.ok true wb

def Un.okFlt (x : Un) (tyOk : Bool) : Bool :=
  tyOk && !x.f1 && ftzOk x.ty x.f0 && x.d.okDst x.ty.rwidth && x.a.ok x.ty.rwidth

def Bin.okTap (x : Bin) : Bool :=
  x.ty.isTapered && x.rnd == .rn && !x.f1 && !x.f0 && x.d.okDst 32 && x.a.ok 32 && x.b.ok false 32

def Un.okTap (x : Un) : Bool :=
  x.ty.isTapered && x.rnd == .rn && !x.f1 && !x.f0 && x.d.okDst 32 && x.a.ok 32

/-- F0 and F1 of a conversion between element types `d` and `s` (R288). -/
def cvtFlagsOk (d s : Ty) (f1 f0 : Bool) : Bool :=
  (!f0 || [Ty.f16, .bf16, .f32].contains d || [Ty.f16, .bf16, .f32].contains s) && (!f1 || d.isF)

def Cvt.okF (x : Cvt) : Bool :=
  x.ty != x.sty && x.ty != .f32x2 && x.sty != .f32x2 && !(x.ty.isInt && x.sty.isInt) &&
  cvtFlagsOk x.ty x.sty x.f1 x.f0 && x.d.okDst x.ty.rwidth && x.a.ok x.sty.rwidth

def Src.isUnused (s : Src) : Bool := !s.lu && !s.te && s.spec == .zero

/-- The pairs of R289 with the widths of D, A and whether B is read. -/
def cvtpShape (d s : Ty) : Option (Nat × Nat × Bool) :=
  match d, s with
  | .f16, .f32x2 | .bf16, .f32x2 | .t16, .f32x2 => some (32, 64, false)
  | .t8, .f32x2 => some (32, 64, true)
  | .f32x2, .f16 | .f32x2, .bf16 | .f32x2, .t16 => some (64, 32, false)
  | .f32x2, .t8 => some (128, 32, false)
  | _, _ => none

/-- The element type of a packed side (R289): f32x2 holds f32. -/
def Ty.elem (t : Ty) : Ty := if t == .f32x2 then .f32 else t

def CvtPack.ok (x : CvtPack) : Bool :=
  match cvtpShape x.ty x.sty with
  | none => false
  | some (dw, aw, two) =>
    cvtFlagsOk x.ty.elem x.sty.elem x.f1 x.f0 && x.d.okDst dw && x.a.ok aw &&
    (if two then x.b.ok 64 else x.b.isUnused)

/-- ICMP, FCMP, TCMP: `d` is zero when absent. -/
def Cmp.ok (x : Cmp) (tyOk : Bool) (ccMax : Nat) : Bool :=
  tyOk && x.cc.toNat ≤ ccMax && x.d.okDst 32 && x.a.ok x.ty.rwidth && x.b.ok x.ty.rwidth

/-- The width in bits of a MOV-like operation. -/
def wideW (wide : Bool) : Nat := if wide then 64 else 32

/-! Memory (R217, R245, R299, R306). -/

def Width.bits : Width → Nat
  | .w8 => 8 | .w16 => 16 | .w32 => 32 | .w64 => 64 | .w128 => 128

/-- The operand width of an access: 32 for 8, 16 and 32 bits. -/
def Width.rwidth : Width → Nat
  | .w64 => 64 | .w128 => 128 | _ => 32

/-- M[2:0] by space (R163, R245): bulk in space 0, a swizzle code in spaces 1 and 3, else 0. -/
def MemOpnd.ok (m : MemOpnd) (bulkOk : Bool) : Bool :=
  m.addr.spec.okAddr &&
  (match m.space with
   | .global => m.swz == 0 || (bulkOk && m.swz == 1)
   | .spad | .rspad => true
   | .cst | .local => m.swz == 0)

/-- A bulk access of space 0. -/
def MemOpnd.bulk (m : MemOpnd) : Bool := m.space == .global && m.swz == 1

/-- R217: plain with scope 0; ordered with scopes 1 to 5, never bulk, never on space 2. -/
def ordOk (allowed : List Ord) (o : Ord) (sc : Scope) : Bool :=
  if o == .plain then sc == .thread else allowed.contains o && sc != .thread

def VolOpnd.ok (m : VolOpnd) : Bool :=
  m.vol.spec.isG && m.x.ok 32 && m.y.ok 32 && m.z.okZ 32

/-- R304: which kinds and roundings an atomic operation admits. -/
def aopOk (aop : AOp) (kind : AKind) (rnd : Rnd) : Bool :=
  (match aop with
   | .add | .min | .max => true
   | _ => kind == .uns) && (rnd == .rn || (aop == .add && kind == .flt))

def Atom.ok (x : Atom) (red : Bool) : Bool :=
  (x.width == .w32 || x.width == .w64) && x.m.ok false &&
  aopOk x.aop x.kind x.rnd && (!red || (x.aop != .exch && x.aop != .cas)) &&
  (x.ord == .plain || x.m.space != .cst) &&
  ordOk (if red then [.rel] else [.acq, .rel, .acqrel]) x.ord x.scope &&
  (if red then x.d == .zero else x.d.okDstM x.width.rwidth) &&
  (if x.aop == .cas then
     (match x.b.spec with
      | .v n => if x.width == .w64 then n.toNat % 4 == 0 else n.toNat % 2 == 0
      | .g n => x.width == .w32 && n.toNat % 2 == 0
      | _ => false)
   else x.b.ok x.width.rwidth)

/-! Matrix blocks (R342). -/

/-- Block lengths (A and B operands, accumulator) of the shape of an input type. -/
def fragLens : Ty → Option (Nat × Nat)
  | .t8 | .f16 | .bf16 | .t16 => some (8, 8)
  | .f32 => some (4, 8)
  | .f64 => some (2, 4)
  | _ => none

/-- The shape codes of LDM and STM (R348). -/
def fragLensShape (s : BitVec 2) : Nat × Nat :=
  match s.toNat with
  | 0 | 1 => (8, 8)
  | 2 => (4, 8)
  | _ => (2, 4)

def Mma.ok (x : Mma) (hasC : Bool) : Bool :=
  match fragLens x.ty with
  | none => false
  | some (ab, c) =>
    x.ctl.unguarded && x.ctl.okHold (if hasC then [.a, .b, .c] else [.a, .b]) &&
    (!x.bs || x.ty == .t8) && (!x.ftz || [Ty.f16, .bf16, .f32].contains x.ty) &&
    (if x.bs then x.sb8.toNat ≤ 6 else x.sb8 == 0) &&
    x.d.okBlock c && x.a.spec.okBlock ab && x.b.spec.okBlock ab &&
    (if hasC then x.c.spec.okBlock c else x.c.isUnused)

def Frag.ok (x : Frag) (load : Bool) : Bool :=
  let (ab, c) := fragLensShape x.shape
  let len := if x.role == .c then c else ab
  x.ctl.unguarded && x.ctl.okHold (if load then [] else [.c]) &&
  (load || x.space != .cst) &&
  (x.space == .spad || x.space == .rspad || x.swz == 0) &&
  x.addr.spec.okAddr && x.stride.spec.okSrcG 32 && x.blk.spec.okBlock len &&
  (!load || (!x.blk.lu && !x.blk.te))

/-- Types of Relay (R350). -/
def Ty.isRelay : Ty → Bool
  | .i32 | .i64 | .n32 | .n64 | .f16 | .bf16 | .f32 | .f64 => true
  | _ => false

def Coll.ok (x : Coll) (hasRnd hasRoot bar : Bool) : Bool :=
  (if bar then x.ty == .i8 && x.a.isUnused && x.b.isUnused else x.ty.isRelay && x.a.spec.okAddr && x.b.ok 32) &&
  (if hasRnd then x.rnd != .rs else x.rnd == .rn && x.op == 0) && (hasRoot || x.root == 0) && x.c.spec.okAddr

/-- Widths of the system registers that can be read and written (R275, R453). -/
def sysRegWidth (num : Nat) : Option Nat :=
  match num with
  | 0x00 | 0x01 | 0x08 | 0x10 | 0x13 => some 64
  | 0x02 | 0x03 | 0x04 | 0x05 | 0x06 | 0x07 | 0x11 | 0x12 => some 32
  | _ => none

def sysRegWritable (num : Nat) : Bool := [0x00, 0x01, 0x08, 0x10, 0x11].contains num

/-- The D of RND and RNDF (R366): a register, an even pair or a quad. -/
def Rand.okD (x : Rand) : Bool := x.d.okDstVG (32 * 2 ^ x.w.val)

/-- Every 5-bit code of an immediate BSWZ selector is at most 17 (R261). -/
def swzCodesOk (s : Nat) : Bool := (List.range 4).all fun i => s / 32 ^ i % 32 ≤ 17

/-- Is this term an instruction (R235)? Events are. -/
def wellFormed (i : Instr) : Bool :=
  match i with
  -- events
  | .powerOnBoot _ _ | .powerRemoved | .placePlan _ _ | .preEmptContext _ | .killContext _ | .readErrorLog _
  | .setPowerProfile _ | .attest _ | .hpkgWrite _ | .registerWrite _ _ | .qdtbaseWrite _ | .qsizeWrite _
  | .queueEnable _ | .queueDisable _ | .queueDiscardDisable _ | .qctlBadOp _ | .hostWindowPost _ _ _ _
  | .spillRefill _ | .spillRefillRetry _ | .distSplit _ _ | .clusterSteal _ _ _ | .dieSteal _ _ | .contextGrant
  | .fairnessPreempt _ | .teamAdmission _ | .pick _ _ | .convergenceTimeout _ _ | .parkDue _ | .saveComplete _
  | .restoreComplete _ | .waitListRetest _ | .pauseExpire _ | .joinLimitExpire _ | .yieldExpire _
  | .engineStopAck _ _ | .stopTimeout _ _ | .matrixStart _ | .matrixComplete _ | .matrixKstepArbitrate _
  | .loadFill _ _ | .poolObtain _ _ _ | .storeApplyL2 _ _ | .homeRds _ _ | .homeRdu _ _ | .homeUpg _ _
  | .homeWbd _ _ | .homeEvc _ _ | .snoopSnps _ _ _ | .snoopSnpi _ _ _ | .backInv _ _ _ | .writeApplyHome _ _
  | .settleBroadcast _ | .atomicHomeExec _ _ | .llcEvict _ _ | .hostMemWrite _ _ _ | .hostMemRead _ _
  | .remoteRequestApply _ _ _ | .remoteAck _ _ _ | .remoteRequestTimeout _ | .flitReplay _ | .planeDown _
  | .laneFail _ _ | .waitvReread _ | .linkRequest _ | .vinvalComplete _ | .shootdownPage _ | .shootdownContext _
  | .shootdownAll _ | .shootdownComplete | .shootdownAckTimeout _ | .rdepAccept _ | .barxArrive _ | .barinitApply _
  | .engineComplete _ _ | .engineRetry _ _ | .engineStopFault _ _ | .parcelMarker _ _ | .commForm _ _ _
  | .relayChunkStep | .relayCollectiveComplete _ _ | .relayLeave _ _ | .sortPass _ _ | .travBatch _ _
  | .solveComplete _ | .compactFill _ | .postmasterInterval _ _ _ | .errorEvent _ | .faultWindowClose _
  | .dieProbe _ _ | .hubLost | .shadowCommit _ | .hcmdUnknownOp _ | .hubCommandComplete | .queueCommandComplete
  | .tictlBadOp _ | .rowRemapComplete _ _ => true
  -- class 0x0 (R257)
  | .iadd x | .isub x | .idiv x => x.okInt x.ty.rwidth false true true
  | .imul x => x.okInt x.ty.rwidth true (!x.f1) true
  | .imad x => x.okInt x.ty.rwidth x.ty.rwidth false true
  | .irem x | .imin x | .imax x => x.okInt x.ty.rwidth false false true
  | .ineg x => x.okInt x.ty.rwidth true
  | .iabs x => x.okInt x.ty.rwidth true && x.ty.isSigned
  | .lea x => x.ty.isWord && x.d.okDst 64 && x.a.ok 64 && x.b.ok 32 &&
      (match x.c.spec with | .imm s => s.toNat ≤ 7 | _ => false)
  | .cvti x => x.ty.isInt && x.sty.isInt && x.rnd == .rn && !x.f1 && x.d.okDst x.ty.rwidth && x.a.ok x.sty.rwidth
  | .idp4 x => x.okInt 32 32 (x.ty == .i32) true && x.ty.isWord
  -- class 0x1 (R260, R261)
  | .and x | .or x | .xor x => x.ty.isBit && x.okInt x.ty.rwidth false false true
  | .shl x | .shr x | .bfe x => x.ty.isBit && x.okInt 32 false false true
  | .rot x => x.ty.isBit && x.okInt 32 true false true
  | .not x | .brev x => x.ty.isBit && x.okInt x.ty.rwidth false
  | .popc x | .clz x | .ffs x => x.ty.isBit && x.okInt 32 false
  | .bmix x => x.ty.isBit && x.d.okDst x.ty.rwidth && x.a.ok x.ty.rwidth && x.b.ok x.ty.rwidth && x.c.ok x.ty.rwidth
  | .shf x => x.ty.isBit && x.okInt x.ty.rwidth 32 true false
  | .bfi x => x.ty.isBit && x.okInt x.ty.rwidth 32 false false
  | .bswz x => x.ty.isWord && x.d.okDst 32 && x.a.ok 32 && x.b.ok 32 &&
      (match x.sel with | .sel s => swzCodesOk s.toNat | .reg c => c.ok 32)
  -- class 0x2 (R262-R264, R290-R292)
  | .mov x => x.d.okDst (wideW x.wide) && x.a.ok true (wideW x.wide)
  | .movi x => x.d.okDst 64 && x.a.ok 32
  | .movx x => x.d.okDst (wideW x.wide) && x.a.ok 32 && x.b.ok 32
  | .movxw x => x.a.ok 32 && x.b.ok 32 && x.c.ok (wideW x.wide)
  | .icmp x => x.ok (x.ty.isInt && !x.f1 && !x.f0) 5
  | .fcmp x => x.ok (x.ty.isF && ftzOk x.ty x.f0 && !(x.f1 && [1, 6, 7].contains x.cc.toNat)) 7
  | .tcmp x => x.ok (x.ty.isTapered && !x.f1 && !x.f0) 5
  | .sel x => x.d.okDst (wideW x.wide) && x.a.ok (wideW x.wide) && x.b.ok (wideW x.wide)
  | .plop _ => true
  | .pmov x => x.mask.toNat < 128 &&
      (if x.toPred then x.d == .zero && x.a.ok 32 else x.d.okDst 32 && x.a.isUnused)
  | .movs x => x.a.ok 32 && x.b.ok true 32
  | .fclass x => (x.ty.isF || x.ty.isTapered) && x.d.okDst 32 && x.a.ok x.ty.rwidth
  -- class 0x3 (R267)
  | .bra _ | .exit _ | .yield _ | .nop _ | .join _ => true
  | .brx x | .ret x => x.a.ok 64
  | .call x => x.s != 0 && (match x.d with | .v n => n.toNat % 2 == 0 | _ => false)
  | .callx x => x.s != 0 && (match x.d with | .v n => n.toNat % 2 == 0 | _ => false) && x.a.ok 64
  | .pause x => x.a.ok 32
  -- class 0x4 (R274, R275, R462)
  | .trap x => x.a.ok 32
  | .rte x => x.ctl.unguarded
  | .brk _ => true
  | .sysr x => (match sysRegWidth x.num.toNat with | some w => x.d.okDstVG w | none => false)
  | .sysw x => sysRegWritable x.num.toNat &&
      (match sysRegWidth x.num.toNat with | some w => x.a.spec.okSysW w | none => false)
  | .stat x => x.sel.toNat ≤ 5 && x.d.okDstVG 32
  -- class 0x5 (R282)
  | .fadd x | .fsub x | .fmul x => x.okFlt x.ty.isF2 x.ty.rwidth true false
  | .ffma x => x.ty.isF2 && !x.f1 && ftzOk x.ty x.f0 && x.d.okDst x.ty.rwidth && x.a.ok x.ty.rwidth &&
      x.b.ok x.ty.rwidth && x.c.ok true x.ty.rwidth
  | .fmin x | .fmax x => x.okFlt x.ty.isF2 x.ty.rwidth false true
  | .fdiv x => x.okFlt x.ty.isF x.ty.rwidth true false
  | .fscale x => x.okFlt x.ty.isF 32 true false
  | .fsqrt x | .frcp x | .frsq x | .frnd x => x.okFlt x.ty.isF
  -- class 0x6 (R286, R288, R289)
  | .fexp2 x | .flog2 x | .fsin x | .fcos x | .ftanh x | .fsigm x => x.okFlt (x.ty.isF && x.ty != .f64)
  | .cvt x => x.okF
  | .cvtp x => x.ok
  -- class 0x7 (R293, R294, R296)
  | .tmin x | .tmax x => x.okTap
  | .tneg x | .tabs x => x.okTap
  | .mvt x => x.d.toNat + (x.rows.toNat + 1) ≤ 64 && x.a.toNat + (x.cols.toNat + 1) ≤ 64 && x.b.ok 32
  | .nzcnt x => x.rnd == .rn && !x.f1 && !x.f0 && x.d.okDst 32 && x.a.ok x.ty.rwidth && x.b.ok false 32
  -- class 0x8 (R299, R306)
  | .ld x => x.m.ok true && x.d.okDstM x.width.rwidth && (!x.sx || x.width == .w8 || x.width == .w16) &&
      ordOk [.acq] x.ord x.scope && (x.ord == .plain || (!x.m.bulk && x.m.space != .cst))
  | .st x => x.m.ok true && x.b.ok x.width.rwidth && ordOk [.rel] x.ord x.scope &&
      (x.ord == .plain || (!x.m.bulk && x.m.space != .cst))
  | .ldv x => x.m.ok && x.width != .w128 && x.d.okDstM x.width.rwidth &&
      (!x.sx || x.width == .w8 || x.width == .w16) && ordOk [.acq] x.ord x.scope
  | .stv x => x.m.ok && x.width != .w128 && x.data.okZ x.width.rwidth && ordOk [.rel] x.ord x.scope
  | .pref x => (x.space == .global || x.space == .local) && x.addr.spec.okAddr
  | .flush x => (x.space == .global || x.space == .local) && x.addr.spec.okAddr
  -- class 0x9 (R304, R306)
  | .atom x => x.ok false
  | .red x => x.ok true
  | .atomv x => (x.width == .w32 || x.width == .w64) && x.m.ok && aopOk x.aop x.kind x.rnd &&
      (x.aop == .add || x.aop == .min || x.aop == .max) && x.d.okDstM x.width.rwidth && x.data.okZ x.width.rwidth &&
      ordOk [.acq, .rel, .acqrel] x.ord x.scope
  -- class 0xA (R309, R308)
  | .fence x => x.scope != .thread
  | .bar x => x.a.ok 32
  | .barx x => x.d.okDstM 32 && x.addr.spec.okAddr
  | .barinit x => x.addr.spec.okAddr && x.b.ok 32
  | .waitv x => x.space != .cst && ordOk [.acq] x.ord x.scope && x.d.okDstM (wideW x.wide) && x.addr.spec.okAddr &&
      x.b.ok (wideW x.wide)
  | .seminc x | .semset x => x.a.ok 32
  | .semwait x => x.b.ok 32
  | .own x => x.a.ok 32
  | .ownwait x => x.a.ok 32
  | .vread x => x.d.okDstM 64 && x.b.ok 32
  | .vwrite x => x.a.ok 64 && x.b.ok 32
  | .vinval x => x.m.vol.spec.isG &&
      (if x.all then x.m.x.isUnused && x.m.y.isUnused && x.m.z == .zero && !x.m.zlu
       else x.m.x.ok 32 && x.m.y.ok 32 && x.m.z.okZ 32)
  -- class 0xB (R323)
  | .lpost x => x.d.okDstM 32 && x.a.spec.okBlock 8 && x.b.ok 32 && x.c.spec.okAddr
  | .ltake x => x.d.okBlock 8 && x.b.ok 32
  | .ldone x => x.b.ok 32
  | .rdep x => x.a.ok 32 && x.b.ok 32
  | .arrwait x => x.a.ok 32
  -- class 0xC (R334-R344)
  | .vote x => x.d.okDstM 32
  | .matchg x => x.d.okDstM 32 && x.a.spec.okSrcG (wideW x.wide)
  | .elect x => x.d.okDstM 32
  | .shfl x => x.d.okDstM (wideW x.wide) && x.a.spec.okSrcG (wideW x.wide) && x.b.spec.okSrcG 32
  | .bfly x => x.d.okBlock 32 && x.a.spec.okBlock 32 && x.ctl.okHold [.a]
  | .redg x | .scang x =>
      (x.ty.isBit || x.ty == .f32 || x.ty == .f64) && (!x.ty.isInt || x.rnd == .rn) &&
      (!x.ty.isInt → (x.op != .and && x.op != .or && x.op != .xor)) &&
      (!x.f1 || (!x.ty.isInt && (x.op == .min || x.op == .max))) &&
      (!x.f0 || (if x.ty.isInt then x.op == .add else x.ty == .f32)) &&
      x.d.okDstM x.ty.rwidth && x.a.spec.okSrcG x.ty.rwidth &&
      (match i with | .redg y => !y.excl | _ => true)
  | .nzmap x => x.ctl.okHold [.a] &&
      (match fragLens x.ty with | some (ab, _) => x.a.spec.okBlock ab | none => false)
  | .kop x =>
      (match x.op with
       | .and | .or | .xor | .andn => x.d == .zero && x.a.isUnused
       | .not => x.d == .zero && x.a.isUnused && x.kb == 0
       | .ld => x.d == .zero && x.a.spec.okSrcG 32 && x.ka == 0 && x.kb == 0
       | .st => x.d.okDstVG 32 && x.a.isUnused && x.kd == 0 && x.kb == 0)
  | .cvtb x => (match x.d with | .v _ => true | _ => false) && x.a.spec.okSrcG 32 && x.c.spec.okSrcG 32
  -- class 0xD (R345, R348)
  | .mma x => x.ok true
  | .mmaz x => x.ok false
  | .ldm x => x.ok true
  | .stm x => x.ok false
  -- class 0xE (R350)
  | .cpy x => x.dsp != .rspad && (x.ssp == .global || x.ssp == .spad || x.ssp == .local) && x.a.spec.okAddr &&
      x.b.spec.okAddr && x.c.ok 32
  | .cpyv x => x.m.ok && x.dst.okZ 32
  | .gath x => x.op == 0 && x.a.spec.okAddr && x.b.ok 32 && x.c.ok 32
  | .scat x => (x.op == 0 || x.z.toNat ≤ 1) && x.a.spec.okAddr && x.b.ok 32 && x.c.ok 32
  | .idem _ | .idemend _ => true
  | .ared x => x.ok true false false
  | .rscat x => x.ok true false false
  | .agath x => x.ok false false false
  | .bcast x => x.ok false true false
  | .cbar x => x.ok false false true
  -- class 0xF (R366)
  | .sort x => x.plo.toNat ≤ x.phi.toNat && x.a.ok 32 && x.c.ok 32 && (if x.kv then x.b.ok 32 else x.b.isUnused)
  | .trav x => 1 ≤ x.clog.toNat && x.clog.toNat ≤ 9 && x.a.spec.okAddr && x.b.ok 32 && x.c.ok 32
  | .solve x => x.d.okDstM 32 && x.a.ok 32 && (if x.log then x.b.ok 32 else x.b.isUnused) && x.rnd != .rs &&
      (if x.meth == 2 then x.sweeps != 0 else x.sweeps == 0)
  | .solveb x => x.d.okDstM 32 && x.a.ok 32 && x.b.ok 32 && x.rnd != .rs
  | .compact x => (match x.d with | .v n => n.toNat % 2 == 0 | _ => false) && x.a.ok 32 && x.b.ok 32
  | .rnd x => x.okD && x.a.ok 64 && x.b.ok 128 && x.c.ok 32 && !x.nrm && x.rnd == .rn
  | .rndf x => x.okD && x.a.ok 64 && x.b.ok 128 && x.c.ok 32 && x.rnd != .rs &&
      (if x.nrm then x.w != 0 else x.rnd == .rn)
  | .epis x => x.d.okDst 64 && x.a.ok 64 && x.b.ok 32 && x.c.ok 32

end Sys2Proof
end

