-- ==== Sys2Proof/Machine/Num.lean ====
section
/-! DEFINITION. The number formats of spec/05: IEEE binary and Emcel tapered encodings, the one rounding decision of R135,
round_to (R136, R137), encode_t (R144), and conversions (R148-R152). Exact values are dyadic; quotients and roots are a
truncated value with a sticky mark. -/

namespace Sys2Proof.Machine

/-! Sticky bits in %tstat positions (R119). -/

def fVOIDRD : BitVec 7 := 1
def fINV : BitVec 7 := 2
def fDZ : BitVec 7 := 4
def fOVF : BitVec 7 := 8
def fNARP : BitVec 7 := 16
def fNONFIN : BitVec 7 := 32
def fPSN : BitVec 7 := 64

/-- A flag where a condition holds. -/
def flagIf (c : Bool) (f : BitVec 7) : BitVec 7 := if c then f else 0

/-! Rounding: R135. -/

/-- The remainder below a grid: floor(rest × 2^24), and how it stands to 0 and 1/2. -/
structure Rest where
  r24 : Nat
  nonzero : Bool
  half : Ordering
  deriving DecidableEq, Repr

/-- The remainder of the low `sh` bits `low`, with something more below them when `sticky`. -/
def restOf (low sh : Nat) (sticky : Bool) : Rest where
  r24 := if sh ≤ 24 then low * 2 ^ (24 - sh) else low / 2 ^ (sh - 24)
  nonzero := low != 0 || sticky
  half :=
    match compare (2 * low) (2 ^ sh) with
    | .lt => .lt
    | .eq => if sticky then .gt else .eq
    | .gt => .gt

/-- The decision of R135; `w` is the drawn word, used by rs only. -/
def roundUp (odd : Bool) (r : Rest) (mode : Rnd) (neg : Bool) (w : W32) : Bool :=
  match mode with
  | .rn => r.half == .gt || (r.half == .eq && odd)
  | .rz => false
  | .ru => r.nonzero && !neg
  | .rd => r.nonzero && neg
  | .rs => 2 ^ 24 ≤ r.r24 + w.toNat / 256

/-- The magnitude n × 2^e, plus something in (0, 2^e) when `sticky`. -/
structure Approx where
  n : Nat
  e : Int
  sticky : Bool
  deriving DecidableEq, Repr

/-- Truncate to the grid 2^q: the integer part and the remainder. -/
def Approx.split (a : Approx) (q : Int) : Nat × Rest :=
  if q ≤ a.e then (a.n * 2 ^ (a.e - q).toNat, restOf 0 0 a.sticky)
  else
    let sh := (q - a.e).toNat
    -- far below the grid: nothing but a sticky remainder
    if Nat.log2 a.n + 40 < sh then (0, restOf 0 0 (a.n != 0 || a.sticky))
    else (a.n / 2 ^ sh, restOf (a.n % 2 ^ sh) sh a.sticky)

/-- floor(log2) of a nonzero magnitude. -/
def Approx.log2 (a : Approx) : Int := (Nat.log2 a.n : Int) + a.e

/-! IEEE formats: R131. -/

structure Fmt where
  ew : Nat
  fw : Nat
  deriving DecidableEq, Repr

def fmtF16 : Fmt := ⟨5, 10⟩
def fmtBF16 : Fmt := ⟨8, 7⟩
def fmtF32 : Fmt := ⟨8, 23⟩
def fmtF64 : Fmt := ⟨11, 52⟩

/-- The format of an IEEE type (f32x2 elements are f32). -/
def fmtOf : Ty → Fmt
  | .f16 => fmtF16
  | .bf16 => fmtBF16
  | .f64 => fmtF64
  | _ => fmtF32

def Fmt.bias (f : Fmt) : Nat := 2 ^ (f.ew - 1) - 1
def Fmt.emin (f : Fmt) : Int := 1 - (f.bias : Int)
def Fmt.width (f : Fmt) : Nat := f.ew + f.fw + 1
/-- +∞ -/
def Fmt.inf (f : Fmt) : Nat := (2 ^ f.ew - 1) * 2 ^ f.fw
def Fmt.signBit (f : Fmt) : Nat := 2 ^ (f.ew + f.fw)
def Fmt.defaultNan (f : Fmt) : Nat := f.inf + 2 ^ (f.fw - 1)
def Fmt.maxFinite (f : Fmt) : Nat := f.inf - 1
def Fmt.signed (f : Fmt) (neg : Bool) (mag : Nat) : Nat := if neg then f.signBit + mag else mag

/-- A decoded real or special: a finite value is ±m × 2^e. -/
inductive FV where
  | nan (quiet : Bool)
  | inf (neg : Bool)
  | fin (neg : Bool) (m : Nat) (e : Int)
  deriving DecidableEq, Repr

/-- Decode an IEEE encoding; under .ftz a subnormal is a zero of its own sign (R132). -/
def Fmt.decode (f : Fmt) (ftz : Bool) (x : Nat) : FV :=
  let x := x % 2 ^ f.width
  let neg := x / f.signBit == 1
  let ex := x / 2 ^ f.fw % 2 ^ f.ew
  let fr := x % 2 ^ f.fw
  if ex == 2 ^ f.ew - 1 then (if fr == 0 then .inf neg else .nan (2 ^ (f.fw - 1) ≤ fr))
  else if ex == 0 then .fin neg (if ftz then 0 else fr) (f.emin - f.fw)
  else .fin neg (2 ^ f.fw + fr) (f.emin - f.fw + (ex - 1 : Nat))

def FV.isNan : FV → Bool
  | .nan _ => true
  | _ => false

def FV.isSnan : FV → Bool
  | .nan q => !q
  | _ => false

def FV.isInf : FV → Bool
  | .inf _ => true
  | _ => false

def FV.isZero : FV → Bool
  | .fin _ m _ => m == 0
  | _ => false

def FV.neg : FV → Bool
  | .nan _ => false
  | .inf n => n
  | .fin n _ _ => n

def FV.negate : FV → FV
  | .nan q => .nan q
  | .inf n => .inf !n
  | .fin n m e => .fin (!n) m e

/-- A result encoding with the conditions raised (R134). -/
structure FRes where
  bits : Nat
  flags : BitVec 7
  deriving DecidableEq, Repr

def FRes.nan (f : Fmt) (bits : Nat) (inv : Bool) : FRes := ⟨bits % 2 ^ f.width, fNONFIN ||| flagIf inv fINV⟩
def FRes.dnan (f : Fmt) (inv : Bool) : FRes := FRes.nan f f.defaultNan inv
def FRes.inf (f : Fmt) (neg : Bool) (flags : BitVec 7) : FRes := ⟨f.signed neg f.inf, fNONFIN ||| flags⟩
def FRes.zero (f : Fmt) (neg : Bool) : FRes := ⟨f.signed neg 0, 0⟩

/-- Overflow (R137). -/
def overflow (f : Fmt) (mode : Rnd) (neg : Bool) : FRes :=
  let toInf : Bool := match mode with
    | .rn | .rs => true
    | .rz => false
    | .ru => !neg
    | .rd => neg
  if toInf then FRes.inf f neg fOVF else ⟨f.signed neg f.maxFinite, fOVF⟩

/-- round_to of R136 for a nonzero magnitude. -/
def roundTo (f : Fmt) (mode : Rnd) (ftz : Bool) (w : W32) (neg : Bool) (a : Approx) : FRes :=
  let E := a.log2
  if E > f.bias then overflow f mode neg
  else
    let e := max E f.emin
    let (v, r) := a.split (e - f.fw)
    let v := if roundUp (v % 2 == 1) r mode neg w then v + 1 else v
    let mag := (e - f.emin).toNat * 2 ^ f.fw + v
    if f.inf ≤ mag then overflow f mode neg
    else if ftz && mag < 2 ^ f.fw then FRes.zero f neg
    else ⟨f.signed neg mag, 0⟩

/-- A dyadic number m × 2^e. -/
structure Dy where
  m : Int
  e : Int
  deriving DecidableEq, Repr

def Dy.zero : Dy := ⟨0, 0⟩
def Dy.isZero (d : Dy) : Bool := d.m == 0
def Dy.mul (a b : Dy) : Dy := ⟨a.m * b.m, a.e + b.e⟩
def Dy.neg (a : Dy) : Dy := ⟨-a.m, a.e⟩
def Dy.add (a b : Dy) : Dy :=
  if a.m == 0 then b else if b.m == 0 then a
  else if a.e ≤ b.e then ⟨a.m + b.m * 2 ^ (b.e - a.e).toNat, a.e⟩
  else ⟨a.m * 2 ^ (a.e - b.e).toNat + b.m, b.e⟩
def Dy.sub (a b : Dy) : Dy := a.add b.neg
def Dy.lt (a b : Dy) : Bool := (a.sub b).m < 0
def Dy.le (a b : Dy) : Bool := !b.lt a
def Dy.max (a b : Dy) : Dy := if a.lt b then b else a
def Dy.approx (a : Dy) : Approx := ⟨a.m.natAbs, a.e, false⟩

def FV.dy : FV → Dy
  | .fin neg m e => ⟨if neg then -(m : Int) else m, e⟩
  | _ => Dy.zero

/-- Round an exact sum; a zero takes the sign of R155: `allNegZero` when every term is −0. -/
def roundSum (f : Fmt) (mode : Rnd) (ftz : Bool) (w : W32) (d : Dy) (allNegZero : Bool) : FRes :=
  if d.isZero then FRes.zero f (mode == .rd || allNegZero) else roundTo f mode ftz w (d.m < 0) d.approx

/-- The first NaN of a list of encodings, quieted (R133). -/
def firstNan (f : Fmt) (xs : List Nat) : Nat :=
  match xs.find? fun x => (f.decode false x).isNan with
  | some x => (x % 2 ^ f.width) ||| 2 ^ (f.fw - 1)
  | none => f.defaultNan

def anySnan (f : Fmt) (xs : List Nat) : Bool := xs.any fun x => (f.decode false x).isSnan
def anyNan (f : Fmt) (xs : List Nat) : Bool := xs.any fun x => (f.decode false x).isNan

/-- The NaN result of R133 with INV for a signalling input. -/
def nanRes (f : Fmt) (xs : List Nat) : FRes := FRes.nan f (firstNan f xs) (anySnan f xs)

def isNegZero (x : FV) : Bool := x.isZero && x.neg

/-! The operations of R283-R285 on encodings. -/

/-- a + b of decoded values whose NaN rule looks at `xs`. -/
def addV (f : Fmt) (mode : Rnd) (ftz : Bool) (w : W32) (a b : FV) (xs : List Nat) : FRes :=
  if a.isNan || b.isNan then nanRes f xs
  else if a.isInf && b.isInf && a.neg != b.neg then FRes.dnan f true
  else if a.isInf then FRes.inf f a.neg 0
  else if b.isInf then FRes.inf f b.neg 0
  else roundSum f mode ftz w (a.dy.add b.dy) (isNegZero a && isNegZero b)

def fadd (f : Fmt) (mode : Rnd) (ftz : Bool) (w : W32) (a b : Nat) : FRes :=
  addV f mode ftz w (f.decode ftz a) (f.decode ftz b) [a, b]

def fsub (f : Fmt) (mode : Rnd) (ftz : Bool) (w : W32) (a b : Nat) : FRes :=
  addV f mode ftz w (f.decode ftz a) (f.decode ftz b).negate [a, b]

def fmul (f : Fmt) (mode : Rnd) (ftz : Bool) (w : W32) (a b : Nat) : FRes :=
  let x := f.decode ftz a
  let y := f.decode ftz b
  let neg := x.neg != y.neg
  if x.isNan || y.isNan then nanRes f [a, b]
  else if (x.isInf && y.isZero) || (x.isZero && y.isInf) then FRes.dnan f true
  else if x.isInf || y.isInf then FRes.inf f neg 0
  else if x.isZero || y.isZero then FRes.zero f neg
  else roundTo f mode ftz w neg (x.dy.mul y.dy).approx

/-- a × b + c with one rounding. A NaN operand decides the result (R284); 0 × ∞ raises INV whatever the addend (R134). -/
def ffma (f : Fmt) (mode : Rnd) (ftz : Bool) (w : W32) (a b c : Nat) : FRes :=
  let x := f.decode ftz a
  let y := f.decode ftz b
  let z := f.decode ftz c
  let neg := x.neg != y.neg
  let zeroInf := (x.isInf && y.isZero) || (x.isZero && y.isInf)
  if x.isNan || y.isNan || z.isNan then FRes.nan f (firstNan f [a, b, c]) (anySnan f [a, b, c] || zeroInf)
  else if zeroInf then FRes.dnan f true
  else if x.isInf || y.isInf then
    (if z.isInf && z.neg != neg then FRes.dnan f true else FRes.inf f neg 0)
  else if z.isInf then FRes.inf f z.neg 0
  else
    let p := x.dy.mul y.dy
    roundSum f mode ftz w (p.add z.dy) ((x.isZero || y.isZero) && neg && isNegZero z)

/-- Bits of quotient and root kept before rounding: enough for f64 and the 24 bits of R135. -/
def workBits : Nat := 110

/-- The quotient of two nonzero magnitudes. -/
def quotient (a b : Dy) : Approx :=
  let k := workBits + Nat.log2 b.m.natAbs
  let n := a.m.natAbs * 2 ^ k
  ⟨n / b.m.natAbs, a.e - b.e - k, n % b.m.natAbs != 0⟩

def fdiv (f : Fmt) (mode : Rnd) (ftz : Bool) (w : W32) (a b : Nat) : FRes :=
  let x := f.decode ftz a
  let y := f.decode ftz b
  let neg := x.neg != y.neg
  if x.isNan || y.isNan then nanRes f [a, b]
  else if (x.isZero && y.isZero) || (x.isInf && y.isInf) then FRes.dnan f true
  else if x.isInf then FRes.inf f neg 0
  else if y.isInf then FRes.zero f neg
  else if y.isZero then FRes.inf f neg fDZ
  else if x.isZero then FRes.zero f neg
  else roundTo f mode ftz w neg (quotient x.dy y.dy)

/-- floor of the square root, by bits from `i − 1` down. -/
def isqrtBits (n : Nat) : Nat → Nat → Nat
  | 0, r => r
  | i + 1, r => if (r + 2 ^ i) * (r + 2 ^ i) ≤ n then isqrtBits n i (r + 2 ^ i) else isqrtBits n i r

def isqrt (n : Nat) : Nat := isqrtBits n (Nat.log2 n / 2 + 1) 0

/-- The square root of a positive dyadic. -/
def sqrtApprox (a : Dy) : Approx :=
  let m := a.m.natAbs
  let e := if a.e % 2 = 0 then a.e else a.e - 1
  let m := if a.e % 2 = 0 then m else 2 * m
  let n := m * 2 ^ (2 * workBits)
  let r := isqrt n
  ⟨r, e / 2 - workBits, r * r != n⟩

/-- The reciprocal square root of a positive dyadic. -/
def rsqrtApprox (a : Dy) : Approx :=
  let m := a.m.natAbs
  let e := if a.e % 2 = 0 then a.e else a.e - 1
  let m := if a.e % 2 = 0 then m else 2 * m
  let s := workBits + Nat.log2 m
  let r := isqrt (2 ^ (2 * s) / m)
  ⟨r, -(e / 2) - s, r * r * m != 2 ^ (2 * s)⟩

def fsqrt (f : Fmt) (mode : Rnd) (ftz : Bool) (w : W32) (a : Nat) : FRes :=
  let x := f.decode ftz a
  if x.isNan then nanRes f [a]
  else if x.isZero then FRes.zero f x.neg
  else if x.neg then FRes.dnan f true
  else if x.isInf then FRes.inf f false 0
  else roundTo f mode ftz w false (sqrtApprox x.dy)

def frcp (f : Fmt) (mode : Rnd) (ftz : Bool) (w : W32) (a : Nat) : FRes :=
  let x := f.decode ftz a
  if x.isNan then nanRes f [a]
  else if x.isZero then FRes.inf f x.neg fDZ
  else if x.isInf then FRes.zero f x.neg
  else roundTo f mode ftz w x.neg (quotient ⟨1, 0⟩ x.dy)

def frsq (f : Fmt) (mode : Rnd) (ftz : Bool) (w : W32) (a : Nat) : FRes :=
  let x := f.decode ftz a
  if x.isNan then nanRes f [a]
  else if x.isZero then FRes.inf f x.neg fDZ
  else if x.neg then FRes.dnan f true
  else if x.isInf then FRes.zero f false
  else roundTo f mode ftz w false (rsqrtApprox x.dy)

/-- FRND: to an integral value in the mode (R283); it never overflows. -/
def frnd (f : Fmt) (mode : Rnd) (ftz : Bool) (w : W32) (a : Nat) : FRes :=
  let x := f.decode ftz a
  if x.isNan then nanRes f [a]
  else if x.isInf then FRes.inf f x.neg 0
  else if x.isZero then FRes.zero f x.neg
  else
    let (v, r) := x.dy.approx.split 0
    let v := if roundUp (v % 2 == 1) r mode x.neg w then v + 1 else v
    if v == 0 then FRes.zero f x.neg else roundTo f .rz false 0 x.neg ⟨v, 0, false⟩

def fscale (f : Fmt) (mode : Rnd) (ftz : Bool) (w : W32) (a : Nat) (b : Int) : FRes :=
  let x := f.decode ftz a
  if x.isNan then nanRes f [a]
  else if x.isInf then FRes.inf f x.neg 0
  else if x.isZero then FRes.zero f x.neg
  else roundTo f mode ftz w x.neg ⟨x.dy.m.natAbs, x.dy.e + b, false⟩

/-- x < y on finite values and infinities; −0 = +0. -/
def FV.lt : FV → FV → Bool
  | .inf n, .inf n' => n && !n'
  | .inf n, _ => n
  | _, .inf n => !n
  | a, b => a.dy.lt b.dy

/-- The order of FMIN and FMAX, with −0 below +0 (R285). -/
def FV.below (a b : FV) : Bool := a.lt b || (a.isZero && b.isZero && a.neg && !b.neg)

/-- The encoding of an operand after .ftz. -/
def Fmt.flush (f : Fmt) (ftz : Bool) (x : Nat) : Nat :=
  if ftz && (f.decode true x).isZero then f.signed (f.decode true x).neg 0 else x % 2 ^ f.width

def minMaxRes (f : Fmt) (bits : Nat) (flags : BitVec 7) : FRes :=
  ⟨bits, flags ||| flagIf ((f.decode false bits).isNan || (f.decode false bits).isInf) fNONFIN⟩

/-- FMIN (`isMin`) and FMAX of R285; `nanF` is F1. -/
def fminmax (f : Fmt) (isMin nanF ftz : Bool) (a b : Nat) : FRes :=
  let x := f.decode ftz a
  let y := f.decode ftz b
  if (x.isNan && y.isNan) || (nanF && (x.isNan || y.isNan)) then nanRes f [a, b]
  else if x.isNan then minMaxRes f (f.flush ftz b) (flagIf x.isSnan fINV)
  else if y.isNan then minMaxRes f (f.flush ftz a) (flagIf y.isSnan fINV)
  else
    let takeB := if isMin then y.below x else x.below y
    minMaxRes f (f.flush ftz (if takeB then b else a)) 0

/-! Tapered formats: R142-R145. -/

structure TFmt where
  n : Nat
  es : Nat
  deriving DecidableEq, Repr

def tfmtOf : Ty → TFmt
  | .t8 => ⟨8, 1⟩
  | .t16 => ⟨16, 1⟩
  | _ => ⟨32, 2⟩

def TFmt.nar (t : TFmt) : Nat := 2 ^ (t.n - 1)

/-- Length of the run of bits equal to `r` from bit `i − 1` of `b` downward. -/
def runLen (b : Nat) (r : Bool) : Nat → Nat
  | 0 => 0
  | i + 1 => if bit b i == r then runLen b r i + 1 else 0

/-- decode_t of R143; none is NaR. -/
def TFmt.decode (t : TFmt) (x : Nat) : Option Dy :=
  let b := x % 2 ^ t.n
  if b == 0 then some Dy.zero
  else if b == t.nar then none
  else
    let neg := bit b (t.n - 1)
    let b := if neg then 2 ^ t.n - b else b
    let run := bit b (t.n - 2)
    let m := runLen b run (t.n - 1)
    let k : Int := if run then (m : Int) - 1 else -(m : Int)
    let left := t.n - 2 - m
    let rb := b % 2 ^ left
    let e := if t.es ≤ left then rb / 2 ^ (left - t.es) else rb * 2 ^ (t.es - left)
    let fb := left - t.es
    let mag := 2 ^ fb + rb % 2 ^ fb
    some ⟨if neg then -(mag : Int) else mag, 2 ^ t.es * k + e - fb⟩

/-- encode_t of R144 for an exact value. -/
def TFmt.encode (t : TFmt) (mode : Rnd) (w : W32) (d : Dy) : Nat :=
  if d.isZero then 0
  else
    let neg : Bool := d.m < 0
    let n := d.m.natAbs
    let fb := Nat.log2 n
    let E : Int := fb + d.e
    let u : Nat := 2 ^ t.es
    let k := E / u
    let e := (E % u).toNat
    let (reg, rl) : Nat × Nat :=
      if 0 ≤ k then ((2 ^ (k.toNat + 1) - 1) * 2, k.toNat + 2) else (1, (-k).toNat + 1)
    let s := (reg * u + e) * 2 ^ fb + n % 2 ^ fb
    let len := rl + t.es + fb
    let (v, r) : Nat × Rest :=
      if len ≤ t.n - 1 then (s * 2 ^ (t.n - 1 - len), restOf 0 0 false)
      else (s / 2 ^ (len - (t.n - 1)), restOf (s % 2 ^ (len - (t.n - 1))) (len - (t.n - 1)) false)
    let v := if roundUp (v % 2 == 1) r mode neg w then v + 1 else v
    let v := if v == 0 then 1 else v
    let v := if 2 ^ (t.n - 1) ≤ v then 2 ^ (t.n - 1) - 1 else v
    if neg then (2 ^ t.n - v) % 2 ^ t.n else v

/-! Integers: R129, R138, R150, R258. -/

/-- ival of R258. -/
def ival (t : Ty) (x : Nat) : Int := if t.isSigned then signed t.width x else (x % 2 ^ t.width : Nat)

def Ty.lo (t : Ty) : Int := if t.isSigned then -(2 ^ (t.width - 1) : Nat) else 0
def Ty.hi (t : Ty) : Int := if t.isSigned then (2 ^ (t.width - 1) : Nat) - 1 else (2 ^ t.width : Nat) - 1

def clamp (lo hi r : Int) : Int := if r < lo then lo else if hi < r then hi else r

/-- fit of R258. -/
def fit (t : Ty) (sat : Bool) (r : Int) : Nat := wrap t.width (if sat then clamp (Ty.lo t) (Ty.hi t) r else r)

/-- A w-bit pattern as it fills a register or pair (R130). -/
def regFill (t : Ty) (x : Nat) : Nat :=
  match t with
  | .i8 | .t8 => wrap 32 (signed 8 x)
  | .i16 | .t16 => wrap 32 (signed 16 x)
  | _ => x % 2 ^ t.width

/-! Conversions: R148-R152, R288. -/

/-- A source value of any type. -/
inductive SrcVal where
  | real (d : Dy) (negZero : Bool)
  | inf (neg : Bool)
  | nan (quiet : Bool)
  | nar
  deriving DecidableEq, Repr

def srcVal (s : Ty) (ftz : Bool) (x : Nat) : SrcVal :=
  if s.isInt then .real ⟨ival s x, 0⟩ false
  else if s.isTapered then
    match (tfmtOf s).decode x with
    | some d => .real d false
    | none => .nar
  else
    match (fmtOf s).decode (ftz && s.hasFtz) x with
    | .nan q => .nan q
    | .inf n => .inf n
    | .fin n m e => .real (FV.fin n m e).dy (n && m == 0)

/-- A NaN carried between IEEE formats (R149). -/
def convNan (fs fd : Fmt) (x : Nat) : Nat :=
  let neg := bit x (fs.ew + fs.fw)
  let fr := x % 2 ^ fs.fw
  let fr := if fs.fw ≤ fd.fw then fr * 2 ^ (fd.fw - fs.fw) else fr / 2 ^ (fs.fw - fd.fw)
  fd.signed neg (fd.inf + (fr ||| 2 ^ (fd.fw - 1)))

/-- A real to an integer type, rounded and bounded (R138, R150). -/
def realToInt (t : Ty) (mode : Rnd) (w : W32) (d : Dy) : FRes :=
  let neg : Bool := d.m < 0
  let (v, r) := d.approx.split 0
  let v := if roundUp (v % 2 == 1) r mode neg w then v + 1 else v
  let i : Int := if neg then -(v : Int) else v
  ⟨fit t true i, flagIf (i < Ty.lo t || Ty.hi t < i) fINV⟩

/-- One converted element (R148-R152): destination `dt`, source `st`. -/
def convert (dt st : Ty) (mode : Rnd) (ftz satf : Bool) (w : W32) (x : Nat) : FRes :=
  -- a tapered destination ignores .ftz on the source (R132, R151)
  let v := srcVal st (ftz && !dt.isTapered) x
  if dt.isInt then
    match v with
    | .real d _ => realToInt dt mode w d
    | .inf neg => ⟨wrap dt.width (if neg then Ty.lo dt else Ty.hi dt), fINV⟩
    | .nan _ | .nar => ⟨0, fINV⟩
  else if dt.isTapered then
    let t := tfmtOf dt
    match v with
    | .real d _ => ⟨t.encode mode w d, 0⟩
    | .inf _ => ⟨t.nar, fNARP⟩
    | .nan q => ⟨t.nar, fNARP ||| flagIf (!q) fINV⟩
    | .nar => ⟨t.nar, 0⟩
  else
    let f := fmtOf dt
    match v with
    | .real d nz =>
      if d.isZero then FRes.zero f nz
      else
        let r := roundTo f mode ftz w (d.m < 0) d.approx
        if satf && r.flags &&& fOVF != 0 then ⟨f.signed (d.m < 0) f.maxFinite, fOVF⟩ else r
    | .inf neg => FRes.inf f neg 0
    | .nan q => FRes.nan f (convNan (fmtOf st) f x) (!q)
    | .nar => FRes.dnan f false

/-- Pairs that R152 marks E, which draw nothing (R280). -/
def exactPair (dt st : Ty) : Bool :=
  match st, dt with
  | .i8, .f16 | .n8, .f16 | .i8, .bf16 | .n8, .bf16 | .i8, .f32 | .n8, .f32 | .i8, .f64 | .n8, .f64
  | .i8, .t16 | .n8, .t16 | .i8, .t32 | .n8, .t32 => true
  | .i16, .f32 | .n16, .f32 | .i16, .f64 | .n16, .f64 | .i16, .t32 | .n16, .t32 => true
  | .i32, .f64 | .n32, .f64 => true
  | .f16, .f32 | .f16, .f64 | .f16, .t32 => true
  | .bf16, .f32 | .bf16, .f64 => true
  | .f32, .f64 => true
  | .t8, .f16 | .t8, .bf16 | .t8, .f32 | .t8, .f64 | .t8, .t16 | .t8, .t32 => true
  | .t16, .f32 | .t16, .f64 | .t16, .t32 => true
  | .t32, .f64 => true
  | _, _ => false

/-- Does an encoding count as nonzero (R160)? -/
def countsNonzero (t : Ty) (x : Nat) : Bool :=
  if t.isInt || t.isTapered then x % 2 ^ t.width != 0 else x % 2 ^ (t.width - 1) != 0

/-- floating add of an atomic or an engine: without .ftz, raising nothing (R305). -/
def faddPlain (t : Ty) (mode : Rnd) (w : W32) (a b : Nat) : Nat := (fadd (fmtOf t) mode false w a b).bits

end Sys2Proof.Machine
end

