-- ==== Sys2Proof/Machine/Flags.lean ====
section
/-! DEFINITION. Conditions: the compares of R264, R290, R291 and R317, the classes of R292, the tables of PLOP (R264) and the
sticky bits that the arithmetic rules raise (R119, R134, R279). -/

namespace Sys2Proof.Machine

/-- The conditions that can trap: %tstat bits [5:1] (R453, R454). -/
def condMask : BitVec 7 := 0x3E

/-- The conditions enabled to trap (R454). -/
def enabled (ten : BitVec 5) (conds : BitVec 7) : BitVec 7 :=
  conds &&& (BitVec.ofNat 7 (2 * ten.toNat))

/-- ICMP and TCMP conditions (R264, R291): 0 eq, 1 ne, 2 lt, 3 le, 4 gt, 5 ge. -/
def intCond (c : Nat) (a b : Int) : Bool :=
  match c with
  | 0 => a == b
  | 1 => a != b
  | 2 => a < b
  | 3 => a ≤ b
  | 4 => b < a
  | _ => b ≤ a

/-- FCMP (R290): the result and its condition. `u` is F1. -/
def floatCond (f : Fmt) (ftz u : Bool) (c a b : Nat) : Bool × BitVec 7 :=
  let x := f.decode ftz a
  let y := f.decode ftz b
  let un := x.isNan || y.isNan
  let inv := x.isSnan || y.isSnan || (un && !u && 2 ≤ c && c ≤ 5)
  let eq := !x.lt y && !y.lt x
  let t : Bool :=
    if un then c == 1 || c == 7 || (u && c ≤ 5)
    else match c with
      | 0 => eq
      | 1 => !eq
      | 2 => x.lt y
      | 3 => !y.lt x
      | 4 => y.lt x
      | 5 => !x.lt y
      | 6 => true
      | _ => false
  (t, flagIf inv fINV)

/-- FCLASS (R292): the number of the bit. -/
def classBit (t : Ty) (x : Nat) : Nat :=
  if t.isTapered then
    match (tfmtOf t).decode x with
    | none => 10
    | some d => if d.isZero then 6 else if d.m < 0 then 3 else 8
  else
    let f := fmtOf t
    match f.decode false x with
    | .nan q => if q then 1 else 0
    | .inf n => if n then 2 else 9
    | .fin n m _ =>
      if m == 0 then (if n then 5 else 6)
      else if m < 2 ^ f.fw then (if n then 4 else 7)
      else if n then 3 else 8

/-- WAITV conditions (R317) on words of `w` bits. -/
def waitCond (c w x b : Nat) : Bool :=
  match c with
  | 0 => x == b
  | 1 => x != b
  | 2 => signed w x < signed w b
  | 3 => signed w b ≤ signed w x
  | 4 => x < b
  | 5 => b ≤ x
  | 6 => x &&& b != 0
  | _ => x &&& b == 0

/-- PLOP (R264). -/
def lutBit (lut : BitVec 8) (a b c : Bool) : Bool := bit lut.toNat (4 * b2n a + 2 * b2n b + b2n c)

/-- SEMWAIT compares unsigned (R318); ARRWAIT and VREAD wait for a wrapping distance below half (R321, R322). -/
def reached (now want : Nat) : Bool := (now + 2 ^ 32 - want % 2 ^ 32) % 2 ^ 32 < 2 ^ 31

end Sys2Proof.Machine
end

