-- ==== Sys2Proof/Config.lean ====
section
/-! DEFINITION. What one implementation of the 8600 fixes and the manual does not give: opaque constants without a body, so that no
proof can lean on a value (assumptions 5, 6 and 7), and the figures of R12 and R17 that the model uses. -/

namespace Sys2Proof

/-- The RSA-4096 signature that the device key gives a report (R32): a function of its 256 signed bytes (assumption 7). -/
opaque Config.attestSig : BitVec 2048 → BitVec 4096

/-- The SHA-512 digests of the hub and compute-die firmware that boot measures (R29; assumption 5). -/
opaque Config.measurement : Nat → BitVec 512

/-- The device's ordering number, 8600 or 8601, and serial number after a boot (R32; assumption 5). -/
opaque Config.serial : W64

/-- Free values: nothing constrains them (assumption 6). -/
opaque Config.freeValue : Nat → W64

/-- The smallest compressed form that holds a 256-byte block of page attribute CMP: code 0, 1 or 2 (R180 calls the format not
architectural; assumption 6). -/
opaque Config.compressedForm : BitVec 2048 → BitVec 2

/-- Lanes of a UCIe link, by its unit number (R8 gives rates only; assumption 6). -/
opaque Config.linkLanes : Nat → Nat

/-- A word of another package, at a physical address in an arithmetic cycle, as a load by the core or the hub finds it: 64 bits, and
above them its poison (R45, R65, R324; assumption 6). -/
opaque Config.remoteWord : Nat → Nat → BitVec 65

/-- A die's part of the module's budget in an interval of its clock, and its fixed consumption (R33, R34; assumption 6). -/
opaque Config.powerBudget : Nat → Nat → Nat × Nat

/-- What the matrix, vector and memory classes of a die ask for in an interval (R33, R34; assumption 6). -/
opaque Config.powerDemand : Nat → Nat → Nat × Nat × Nat

/-- By how many percent a die drew more than its grant in an interval, and the module more than its budget (R423; assumption 6). -/
opaque Config.powerDrawn : Nat → Nat → Nat × Nat

/-- Cores of the package (R12). -/
def numCores : Nat := 384

/-- The hub's own cycle count at arithmetic cycle `t`, at the nominal rates of R17 (assumption 4). -/
def hubCycle (t : Nat) : Nat := t / 2

/-- A memory die's own cycle count at arithmetic cycle `t` (R17, assumption 4). -/
def memCycle (t : Nat) : Nat := t * 20 / 33

end Sys2Proof
end

