-- ==== Sys2Proof/Decode.lean ====
section
/-! DEFINITION. The 96-bit instruction word (R232), its fields, the decoder and the encoder. `decode` is total on any bytes and
rejects by name; `encode` gives the word of an instruction. Both are written from the same encoding tables of R232-R246,
R257, R260-R263, R267, R274, R282, R286-R296, R299, R304, R306, R309, R323, R334-R348, R350, R366 and R462. -/

namespace Sys2Proof

/-- The fields of R232. -/
structure Fields where
  opc : Nat
  gn : Nat
  gp : Nat
  d : Nat
  a : Nat
  b : Nat
  c : Nat
  m : Nat
  h : Nat
  x : Nat
  deriving DecidableEq, Repr

/-- The fields of a word (R232). -/
def fieldsOf (w : Nat) : Fields :=
  ⟨bits w 95 86, bits w 85 85, bits w 84 82, bits w 81 74, bits w 73 64, bits w 63 54, bits w 53 44, bits w 43 34,
   bits w 33 24, bits w 23 0⟩

/-- The word of its fields. -/
def Fields.word (f : Fields) : Nat :=
  f.opc * 2 ^ 86 + f.gn * 2 ^ 85 + f.gp * 2 ^ 82 + f.d * 2 ^ 74 + f.a * 2 ^ 64 + f.b * 2 ^ 54 + f.c * 2 ^ 44 +
  f.m * 2 ^ 34 + f.h * 2 ^ 24 + f.x

/-- Why bytes are no instruction. -/
inductive Reject where
  /-- fewer than 12 bytes -/
  | short
  /-- an OPC of R246 that names no operation -/
  | unassigned (opc : Nat)
  /-- a reserved value or a broken fixed field (R234, R235) in the word of an assigned operation -/
  | reserved (opc : Nat)
  deriving DecidableEq, Repr

/-! Codes of the small enumerations. -/

def Ty.code : Ty → Nat
  | .i8 => 0
  | .i16 => 1
  | .i32 => 2
  | .i64 => 3
  | .n8 => 4
  | .n16 => 5
  | .n32 => 6
  | .n64 => 7
  | .f16 => 8
  | .bf16 => 9
  | .f32 => 10
  | .f64 => 11
  | .t8 => 12
  | .t16 => 13
  | .t32 => 14
  | .f32x2 => 15

def Ty.ofCode (n : Nat) : Option Ty :=
  match n with
  | 0 => some .i8
  | 1 => some .i16
  | 2 => some .i32
  | 3 => some .i64
  | 4 => some .n8
  | 5 => some .n16
  | 6 => some .n32
  | 7 => some .n64
  | 8 => some .f16
  | 9 => some .bf16
  | 10 => some .f32
  | 11 => some .f64
  | 12 => some .t8
  | 13 => some .t16
  | 14 => some .t32
  | 15 => some .f32x2
  | _ => none

def Rnd.code : Rnd → Nat
  | .rn => 0
  | .rz => 1
  | .ru => 2
  | .rd => 3
  | .rs => 4

def Rnd.ofCode (n : Nat) : Option Rnd :=
  match n with
  | 0 => some .rn
  | 1 => some .rz
  | 2 => some .ru
  | 3 => some .rd
  | 4 => some .rs
  | _ => none

def Space.code : Space → Nat
  | .global => 0
  | .spad => 1
  | .cst => 2
  | .rspad => 3
  | .local => 4

def Space.ofCode (n : Nat) : Option Space :=
  match n with
  | 0 => some .global
  | 1 => some .spad
  | 2 => some .cst
  | 3 => some .rspad
  | 4 => some .local
  | _ => none

def Width.code : Width → Nat
  | .w8 => 0
  | .w16 => 1
  | .w32 => 2
  | .w64 => 3
  | .w128 => 4

def Width.ofCode (n : Nat) : Option Width :=
  match n with
  | 0 => some .w8
  | 1 => some .w16
  | 2 => some .w32
  | 3 => some .w64
  | 4 => some .w128
  | _ => none

def Ord.code : Ord → Nat
  | .plain => 0
  | .acq => 1
  | .rel => 2
  | .acqrel => 3

def Ord.ofCode (n : Nat) : Option Ord :=
  match n with
  | 0 => some .plain
  | 1 => some .acq
  | 2 => some .rel
  | 3 => some .acqrel
  | _ => none

def Scope.code : Scope → Nat
  | .thread => 0
  | .group => 1
  | .team => 2
  | .cluster => 3
  | .package => 4
  | .system => 5

def Scope.ofCode (n : Nat) : Option Scope :=
  match n with
  | 0 => some .thread
  | 1 => some .group
  | 2 => some .team
  | 3 => some .cluster
  | 4 => some .package
  | 5 => some .system
  | _ => none

def AOp.code : AOp → Nat
  | .add => 0
  | .min => 1
  | .max => 2
  | .and => 3
  | .or => 4
  | .xor => 5
  | .exch => 6
  | .cas => 7

def AOp.ofCode (n : Nat) : Option AOp :=
  match n with
  | 0 => some .add
  | 1 => some .min
  | 2 => some .max
  | 3 => some .and
  | 4 => some .or
  | 5 => some .xor
  | 6 => some .exch
  | 7 => some .cas
  | _ => none

def AKind.code : AKind → Nat
  | .sgn => 0
  | .uns => 1
  | .flt => 2

def AKind.ofCode (n : Nat) : Option AKind :=
  match n with
  | 0 => some .sgn
  | 1 => some .uns
  | 2 => some .flt
  | _ => none

def Place.code : Place → Nat
  | .auto => 0
  | .home => 1
  | .near => 2

def Place.ofCode (n : Nat) : Option Place :=
  match n with
  | 0 => some .auto
  | 1 => some .home
  | 2 => some .near
  | _ => none

def FenceKind.code : FenceKind → Nat
  | .ld => 1
  | .st => 2
  | .all => 3

def FenceKind.ofCode (n : Nat) : Option FenceKind :=
  match n with
  | 1 => some .ld
  | 2 => some .st
  | 3 => some .all
  | _ => none

def GOp.code : GOp → Nat
  | .add => 0
  | .min => 1
  | .max => 2
  | .and => 3
  | .or => 4
  | .xor => 5

def GOp.ofCode (n : Nat) : Option GOp :=
  match n with
  | 0 => some .add
  | 1 => some .min
  | 2 => some .max
  | 3 => some .and
  | 4 => some .or
  | 5 => some .xor
  | _ => none

def KOpc.code : KOpc → Nat
  | .and => 0
  | .or => 1
  | .xor => 2
  | .andn => 3
  | .not => 4
  | .ld => 5
  | .st => 6

def KOpc.ofCode (n : Nat) : Option KOpc :=
  match n with
  | 0 => some .and
  | 1 => some .or
  | 2 => some .xor
  | 3 => some .andn
  | 4 => some .not
  | 5 => some .ld
  | 6 => some .st
  | _ => none

def Role.code : Role → Nat
  | .a => 0
  | .b => 1
  | .c => 2

def Role.ofCode (n : Nat) : Option Role :=
  match n with
  | 0 => some .a
  | 1 => some .b
  | 2 => some .c
  | _ => none

/-- A code below `n`. -/
def finOf (n k : Nat) : Option (Fin n) := if h : k < n then some ⟨k, h⟩ else none

/-- The answer only where the fixed fields hold. -/
def need (c : Bool) {α : Type} (x : Option α) : Option α := if c then x else none

/-! Specifiers and source fields: R236, R237, R118. -/

def Spec.code : Spec → Nat
  | .v n => n.toNat
  | .g n => 0x40 + n.toNat
  | .q n => 0x80 + n.toNat
  | .latch n => 0x88 + n.val
  | .zero => 0x8B
  | .tid => 0x8C
  | .lane => 0x8D
  | .gid => 0x8E
  | .team => 0x8F
  | .nteam => 0x90
  | .role => 0x91
  | .core => 0x92
  | .cyc => 0x93
  | .arr => 0x94
  | .tstat => 0x95
  | .imm s => 0xC0 + s.toNat

def Spec.ofCode (n : Nat) : Option Spec :=
  if n < 0x40 then some (.v (BitVec.ofNat 6 n))
  else if n < 0x80 then some (.g (BitVec.ofNat 6 (n - 0x40)))
  else if n < 0x88 then some (.q (BitVec.ofNat 3 (n - 0x80)))
  else if n < 0x96 then
    match n with
    | 0x88 => some (.latch 0)
    | 0x89 => some (.latch 1)
    | 0x8A => some (.latch 2)
    | 0x8B => some .zero
    | 0x8C => some .tid
    | 0x8D => some .lane
    | 0x8E => some .gid
    | 0x8F => some .team
    | 0x90 => some .nteam
    | 0x91 => some .role
    | 0x92 => some .core
    | 0x93 => some .cyc
    | 0x94 => some .arr
    | _ => some .tstat
  else if n < 0xC0 then none
  else if n < 0x100 then some (.imm (BitVec.ofNat 6 (n - 0xC0)))
  else none

def Src.code (s : Src) : Nat := b2n s.lu * 512 + b2n s.te * 256 + s.spec.code

def Src.ofCode (n : Nat) : Option Src := do
  let sp ← Spec.ofCode (n % 256)
  return ⟨bit n 9, bit n 8, sp⟩

/-- The unused source field 0x08B (R234). -/
def unusedSrc : Src := ⟨false, false, .zero⟩

/-! Guard and hints: R233, R240. -/

def HoldField.code : HoldField → Nat
  | .a => 1 | .b => 2 | .c => 3

def Ctl.hints (c : Ctl) : Nat :=
  c.stall.toNat * 64 + b2n c.yld * 32 +
  (match c.hold with | .none s => s.toNat * 2 | .of f s => f.code * 8 + s.val * 2)

/-- The guard and the hints of a word. SLOT is ignored when HOLD is 0 (R240). -/
def Ctl.ofFields (f : Fields) : Option Ctl := do
  let hold ← match bits f.h 4 3, bits f.h 2 1 with
    | 0, s => some (Hold.none (BitVec.ofNat 2 s))
    | 1, s => (finOf 3 s).map fun s => Hold.of .a s
    | 2, s => (finOf 3 s).map fun s => Hold.of .b s
    | _, s => (finOf 3 s).map fun s => Hold.of .c s
  need (bits f.h 0 0 == 0) (some ⟨f.gn == 1, BitVec.ofNat 3 f.gp, BitVec.ofNat 4 (bits f.h 9 6), bit f.h 5, hold⟩)

/-- The fields with everything unused at its fixed value (R234). -/
def Fields.base (opc : Nat) (c : Ctl) : Fields := ⟨opc, b2n c.gn, c.gp.toNat, 0x8B, 0x08B, 0x08B, 0x08B, 0, c.hints, 0⟩

/-! M of the arithmetic classes (R244) and the immediate form (R242). -/

structure MArith where
  imm : Bool
  ty : Ty
  rnd : Rnd
  f1 : Bool
  f0 : Bool

def mArith (m : Nat) : Option MArith := do
  let ty ← Ty.ofCode (bits m 8 5)
  let rnd ← Rnd.ofCode (bits m 4 2)
  return ⟨bit m 9, ty, rnd, bit m 1, bit m 0⟩

def mArithCode (imm : Bool) (ty : Ty) (rnd : Rnd) (f1 f0 : Bool) : Nat :=
  b2n imm * 512 + ty.code * 32 + rnd.code * 4 + b2n f1 * 2 + b2n f0

/-- The 32-bit immediate {C[7:0], X[23:0]}, C[9:8] = 0 (R242). -/
def immOf (f : Fields) : Option W32 :=
  need (bits f.c 9 8 == 0) (some (BitVec.ofNat 32 (bits f.c 7 0 * 2 ^ 24 + f.x)))

def Opnd.isImm : Opnd → Bool
  | .src _ => false
  | .imm32 _ => true

def Fields.withImm (f : Fields) (m : W32) : Fields := { f with c := m.toNat / 2 ^ 24, x := m.toNat % 2 ^ 24 }

/-! One parser and one writer per shape. -/

def Un.parse (f : Fields) : Option Un := do
  let ctl ← Ctl.ofFields f
  let k ← mArith f.m
  let d ← Spec.ofCode f.d
  let a ← Src.ofCode f.a
  need (!k.imm && f.b == 0x08B && f.c == 0x08B && f.x == 0) (some ⟨ctl, k.ty, k.rnd, k.f1, k.f0, d, a⟩)

def Un.fields (opc : Nat) (x : Un) : Fields :=
  { Fields.base opc x.ctl with d := x.d.code, a := x.a.code, m := mArithCode false x.ty x.rnd x.f1 x.f0 }

def Bin.parse (f : Fields) : Option Bin := do
  let ctl ← Ctl.ofFields f
  let k ← mArith f.m
  let d ← Spec.ofCode f.d
  let a ← Src.ofCode f.a
  let b ← if k.imm then need (f.b == 0x08B) ((immOf f).map .imm32)
          else need (f.c == 0x08B && f.x == 0) ((Src.ofCode f.b).map .src)
  return ⟨ctl, k.ty, k.rnd, k.f1, k.f0, d, a, b⟩

def Bin.fields (opc : Nat) (x : Bin) : Fields :=
  let f := { Fields.base opc x.ctl with d := x.d.code, a := x.a.code, m := mArithCode x.b.isImm x.ty x.rnd x.f1 x.f0 }
  match x.b with
  | .src s => { f with b := s.code }
  | .imm32 m => f.withImm m

def Tri.parse (f : Fields) : Option Tri := do
  let ctl ← Ctl.ofFields f
  let k ← mArith f.m
  let d ← Spec.ofCode f.d
  let a ← Src.ofCode f.a
  let b ← Src.ofCode f.b
  let c ← if k.imm then (immOf f).map .imm32 else need (f.x == 0) ((Src.ofCode f.c).map .src)
  return ⟨ctl, k.ty, k.rnd, k.f1, k.f0, d, a, b, c⟩

def Tri.fields (opc : Nat) (x : Tri) : Fields :=
  let f := { Fields.base opc x.ctl with
    d := x.d.code, a := x.a.code, b := x.b.code, m := mArithCode x.c.isImm x.ty x.rnd x.f1 x.f0 }
  match x.c with
  | .src s => { f with c := s.code }
  | .imm32 m => f.withImm m

def Cvt.parse (f : Fields) : Option Cvt := do
  let ctl ← Ctl.ofFields f
  let k ← mArith f.m
  let sty ← Ty.ofCode f.x
  let d ← Spec.ofCode f.d
  let a ← Src.ofCode f.a
  need (!k.imm && f.b == 0x08B && f.c == 0x08B) (some ⟨ctl, k.ty, k.rnd, k.f1, k.f0, sty, d, a⟩)

def Cvt.fields (opc : Nat) (x : Cvt) : Fields :=
  { Fields.base opc x.ctl with
    d := x.d.code, a := x.a.code, m := mArithCode false x.ty x.rnd x.f1 x.f0, x := x.sty.code }

def CvtPack.parse (f : Fields) : Option CvtPack := do
  let ctl ← Ctl.ofFields f
  let k ← mArith f.m
  let sty ← Ty.ofCode f.x
  let d ← Spec.ofCode f.d
  let a ← Src.ofCode f.a
  let b ← Src.ofCode f.b
  need (!k.imm && f.c == 0x08B) (some ⟨ctl, k.ty, k.rnd, k.f1, k.f0, sty, d, a, b⟩)

def CvtPack.fields (opc : Nat) (x : CvtPack) : Fields :=
  { Fields.base opc x.ctl with
    d := x.d.code, a := x.a.code, b := x.b.code, m := mArithCode false x.ty x.rnd x.f1 x.f0, x := x.sty.code }

def Lea.parse (f : Fields) : Option Lea := do
  let ctl ← Ctl.ofFields f
  let k ← mArith f.m
  let d ← Spec.ofCode f.d
  let a ← Src.ofCode f.a
  let b ← Src.ofCode f.b
  let c ← Src.ofCode f.c
  need (!k.imm && k.rnd == .rn && !k.f1 && !k.f0 && f.x == 0) (some ⟨ctl, k.ty, d, a, b, c⟩)

def Lea.fields (opc : Nat) (x : Lea) : Fields :=
  { Fields.base opc x.ctl with
    d := x.d.code, a := x.a.code, b := x.b.code, c := x.c.code, m := mArithCode false x.ty .rn false false }

def BMix.parse (f : Fields) : Option BMix := do
  let ctl ← Ctl.ofFields f
  let k ← mArith f.m
  let d ← Spec.ofCode f.d
  let a ← Src.ofCode f.a
  let b ← Src.ofCode f.b
  let c ← Src.ofCode f.c
  need (!k.imm && k.rnd == .rn && !k.f1 && !k.f0 && bits f.x 23 8 == 0) (some ⟨ctl, k.ty, d, a, b, c, BitVec.ofNat 8 (f.x)⟩)

def BMix.fields (opc : Nat) (x : BMix) : Fields :=
  { Fields.base opc x.ctl with
    d := x.d.code, a := x.a.code, b := x.b.code, c := x.c.code, m := mArithCode false x.ty .rn false false, x := x.tab.toNat }

def BSwz.parse (f : Fields) : Option BSwz := do
  let ctl ← Ctl.ofFields f
  let k ← mArith f.m
  let d ← Spec.ofCode f.d
  let a ← Src.ofCode f.a
  let b ← Src.ofCode f.b
  let sel ← if k.f1 then need (f.x == 0) ((Src.ofCode f.c).map .reg)
            else need (f.c == 0x08B && bits f.x 23 20 == 0) (some (.sel (BitVec.ofNat 20 f.x)))
  need (!k.imm && k.rnd == .rn && !k.f0) (some ⟨ctl, k.ty, d, a, b, sel⟩)

def BSwz.fields (opc : Nat) (x : BSwz) : Fields :=
  let f := { Fields.base opc x.ctl with d := x.d.code, a := x.a.code, b := x.b.code }
  match x.sel with
  | .sel s => { f with m := mArithCode false x.ty .rn false false, x := s.toNat }
  | .reg c => { f with m := mArithCode false x.ty .rn true false, c := c.code }

/-- TYPE 0x2 or 0x3 of class 0x2 and of MATCH and SHFL: a pair or not (R262, R334, R336). -/
def wideOf (n : Nat) : Option Bool :=
  match n with
  | 2 => some false
  | 3 => some true
  | _ => none

def wideCode (wide : Bool) : Nat := if wide then 3 else 2

def Mov.parse (f : Fields) : Option Mov := do
  let ctl ← Ctl.ofFields f
  let wide ← wideOf (bits f.m 8 5)
  let d ← Spec.ofCode f.d
  let a ← if bit f.m 9 then need (f.a == 0x08B) ((immOf f).map .imm32)
          else need (f.c == 0x08B && f.x == 0) ((Src.ofCode f.a).map .src)
  need (bits f.m 4 0 == 0 && f.b == 0x08B) (some ⟨ctl, wide, d, a⟩)

def Mov.fields (opc : Nat) (x : Mov) : Fields :=
  let f := { Fields.base opc x.ctl with d := x.d.code, m := b2n x.a.isImm * 512 + wideCode x.wide * 32 }
  match x.a with
  | .src s => { f with a := s.code }
  | .imm32 m => f.withImm m

def MovS.parse (f : Fields) : Option MovS := do
  let ctl ← Ctl.ofFields f
  let a ← Src.ofCode f.a
  let b ← if bit f.m 9 then need (f.b == 0x08B) ((immOf f).map .imm32)
          else need (f.c == 0x08B && f.x == 0) ((Src.ofCode f.b).map .src)
  need (bits f.m 8 0 == 0 && f.d == 0x95) (some ⟨ctl, a, b⟩)

def MovS.fields (opc : Nat) (x : MovS) : Fields :=
  let f := { Fields.base opc x.ctl with d := 0x95, a := x.a.code, m := b2n x.b.isImm * 512 }
  match x.b with
  | .src s => { f with b := s.code }
  | .imm32 m => f.withImm m

def Movi.parse (f : Fields) : Option Movi := do
  let ctl ← Ctl.ofFields f
  let d ← Spec.ofCode f.d
  let a ← Src.ofCode f.a
  let m ← immOf f
  need (f.m == 0x260 && f.b == 0x08B) (some ⟨ctl, d, a, m⟩)

def Movi.fields (opc : Nat) (x : Movi) : Fields :=
  { Fields.base opc x.ctl with
    d := x.d.code, a := x.a.code, m := 0x260, c := x.m.toNat / 2 ^ 24, x := x.m.toNat % 2 ^ 24 }

def MovX.parse (f : Fields) : Option MovX := do
  let ctl ← Ctl.ofFields f
  let wide ← wideOf (bits f.m 8 5)
  let d ← Spec.ofCode f.d
  let a ← Src.ofCode f.a
  let b ← Src.ofCode f.b
  need (bit f.m 9 == false && bits f.m 4 0 == 0 && f.c == 0x08B && bits f.x 23 2 == 0) (some ⟨ctl, wide, d, a, b, bit f.x 0, bit f.x 1⟩)

def MovX.fields (opc : Nat) (x : MovX) : Fields :=
  { Fields.base opc x.ctl with
    d := x.d.code, a := x.a.code, b := x.b.code, m := wideCode x.wide * 32, x := b2n x.xte * 2 + b2n x.xlu }

def MovXW.parse (f : Fields) : Option MovXW := do
  let ctl ← Ctl.ofFields f
  let wide ← wideOf (bits f.m 8 5)
  let a ← Src.ofCode f.a
  let b ← Src.ofCode f.b
  let c ← Src.ofCode f.c
  need (bit f.m 9 == false && bits f.m 4 0 == 0 && f.d == 0x8B && f.x == 0) (some ⟨ctl, wide, a, b, c⟩)

def MovXW.fields (opc : Nat) (x : MovXW) : Fields :=
  { Fields.base opc x.ctl with
    a := x.a.code, b := x.b.code, c := x.c.code, m := wideCode x.wide * 32 }

def Cmp.parse (f : Fields) : Option Cmp := do
  let ctl ← Ctl.ofFields f
  let k ← mArith f.m
  let d ← Spec.ofCode f.d
  let a ← Src.ofCode f.a
  let b ← Src.ofCode f.b
  need (!k.imm && k.rnd == .rn && f.c == 0x08B && bit f.x 3 == false && bits f.x 23 7 == 0) (some ⟨ctl, k.ty, k.f1, k.f0, BitVec.ofNat 3 (bits f.x 2 0), BitVec.ofNat 3 (bits f.x 6 4), d, a, b⟩)

def Cmp.fields (opc : Nat) (x : Cmp) : Fields :=
  { Fields.base opc x.ctl with
    d := x.d.code, a := x.a.code, b := x.b.code, m := mArithCode false x.ty .rn x.f1 x.f0, x := x.cc.toNat * 16 + x.n.toNat }

def Sel.parse (f : Fields) : Option Sel := do
  let ctl ← Ctl.ofFields f
  let wide ← wideOf (bits f.m 8 5)
  let d ← Spec.ofCode f.d
  let a ← Src.ofCode f.a
  let b ← Src.ofCode f.b
  need (bit f.m 9 == false && bits f.m 4 0 == 0 && f.c == 0x08B && bits f.x 23 4 == 0) (some ⟨ctl, wide, BitVec.ofNat 3 (bits f.x 2 0), bit f.x 3, d, a, b⟩)

def Sel.fields (opc : Nat) (x : Sel) : Fields :=
  { Fields.base opc x.ctl with
    d := x.d.code, a := x.a.code, b := x.b.code, m := wideCode x.wide * 32, x := b2n x.neg * 8 + x.n.toNat }

def Plop.parse (f : Fields) : Option Plop := do
  let ctl ← Ctl.ofFields f
  need (f.d == 0x8B && f.a == 0x08B && f.b == 0x08B && f.c == 0x08B && f.m == 0 && bits f.x 23 20 == 0) (some ⟨ctl, BitVec.ofNat 3 (bits f.x 2 0), BitVec.ofNat 3 (bits f.x 5 3), BitVec.ofNat 3 (bits f.x 8 6), BitVec.ofNat 3 (bits f.x 11 9), BitVec.ofNat 8 (bits f.x 19 12)⟩)

def Plop.fields (opc : Nat) (x : Plop) : Fields :=
  { Fields.base opc x.ctl with
    x := x.lut.toNat * 4096 + x.pc.toNat * 512 + x.pb.toNat * 64 + x.pa.toNat * 8 + x.pd.toNat }

def PMov.parse (f : Fields) : Option PMov := do
  let ctl ← Ctl.ofFields f
  let d ← Spec.ofCode f.d
  let a ← Src.ofCode f.a
  need (f.b == 0x08B && f.c == 0x08B && f.m == 0 && bits f.x 7 1 == 0 && bits f.x 23 16 == 0) (some ⟨ctl, bit f.x 0, BitVec.ofNat 8 (bits f.x 15 8), d, a⟩)

def PMov.fields (opc : Nat) (x : PMov) : Fields :=
  { Fields.base opc x.ctl with
    d := x.d.code, a := x.a.code, x := x.mask.toNat * 256 + b2n x.toPred }

def FClass.parse (f : Fields) : Option FClass := do
  let ctl ← Ctl.ofFields f
  let ty ← Ty.ofCode (bits f.m 8 5)
  let d ← Spec.ofCode f.d
  let a ← Src.ofCode f.a
  need (bit f.m 9 == false && bits f.m 4 0 == 0 && f.b == 0x08B && f.c == 0x08B && f.x == 0) (some ⟨ctl, ty, d, a⟩)

def FClass.fields (opc : Nat) (x : FClass) : Fields :=
  { Fields.base opc x.ctl with
    d := x.d.code, a := x.a.code, m := x.ty.code * 32 }

def Plain.parse (f : Fields) : Option Plain := do
  let ctl ← Ctl.ofFields f
  need (f.d == 0x8B && f.a == 0x08B && f.b == 0x08B && f.c == 0x08B && f.m == 0 && f.x == 0) (some ⟨ctl⟩)

def Plain.fields (opc : Nat) (x : Plain) : Fields :=
  Fields.base opc x.ctl

def Bra.parse (f : Fields) : Option Bra := do
  let ctl ← Ctl.ofFields f
  need (f.d == 0x8B && f.a == 0x08B && f.b == 0x08B && f.c == 0x08B && f.m == 0) (some ⟨ctl, BitVec.ofNat 24 (f.x)⟩)

def Bra.fields (opc : Nat) (x : Bra) : Fields :=
  { Fields.base opc x.ctl with
    x := x.off.toNat }

def OneSrc.parse (f : Fields) : Option OneSrc := do
  let ctl ← Ctl.ofFields f
  let a ← Src.ofCode f.a
  need (f.d == 0x8B && f.b == 0x08B && f.c == 0x08B && f.m == 0 && f.x == 0) (some ⟨ctl, a⟩)

def OneSrc.fields (opc : Nat) (x : OneSrc) : Fields :=
  { Fields.base opc x.ctl with
    a := x.a.code }

def Call.parse (f : Fields) : Option Call := do
  let ctl ← Ctl.ofFields f
  let d ← Spec.ofCode f.d
  need (f.a == 0x08B && f.b == 0x08B && f.c == 0x08B && bit f.m 9 == false) (some ⟨ctl, d, BitVec.ofNat 6 (bits f.m 8 3), BitVec.ofNat 3 (bits f.m 2 0), BitVec.ofNat 24 (f.x)⟩)

def Call.fields (opc : Nat) (x : Call) : Fields :=
  { Fields.base opc x.ctl with
    d := x.d.code, m := x.n.toNat * 8 + x.s.toNat, x := x.off.toNat }

def CallX.parse (f : Fields) : Option CallX := do
  let ctl ← Ctl.ofFields f
  let d ← Spec.ofCode f.d
  let a ← Src.ofCode f.a
  need (f.b == 0x08B && f.c == 0x08B && bit f.m 9 == false && f.x == 0) (some ⟨ctl, d, BitVec.ofNat 6 (bits f.m 8 3), BitVec.ofNat 3 (bits f.m 2 0), a⟩)

def CallX.fields (opc : Nat) (x : CallX) : Fields :=
  { Fields.base opc x.ctl with
    d := x.d.code, a := x.a.code, m := x.n.toNat * 8 + x.s.toNat }

def Pause.parse (f : Fields) : Option Pause := do
  let ctl ← Ctl.ofFields f
  let a ← Src.ofCode f.a
  need (f.d == 0x8B && f.b == 0x08B && f.c == 0x08B && f.m == 0) (some ⟨ctl, a, BitVec.ofNat 24 (f.x)⟩)

def Pause.fields (opc : Nat) (x : Pause) : Fields :=
  { Fields.base opc x.ctl with
    a := x.a.code, x := x.add.toNat }

def Join.parse (f : Fields) : Option Join := do
  let ctl ← Ctl.ofFields f
  need (f.d == 0x8B && f.a == 0x08B && f.b == 0x08B && f.c == 0x08B && f.m == 0 && bits f.x 23 10 == 0) (some ⟨ctl, BitVec.ofNat 10 (f.x)⟩)

def Join.fields (opc : Nat) (x : Join) : Fields :=
  { Fields.base opc x.ctl with
    x := x.limit.toNat }

def TrapOp.parse (f : Fields) : Option TrapOp := do
  let ctl ← Ctl.ofFields f
  let a ← Src.ofCode f.a
  need (f.d == 0x8B && f.b == 0x08B && f.c == 0x08B && f.m == 0 && bits f.x 23 16 == 0) (some ⟨ctl, a, BitVec.ofNat 16 (f.x)⟩)

def TrapOp.fields (opc : Nat) (x : TrapOp) : Fields :=
  { Fields.base opc x.ctl with
    a := x.a.code, x := x.code.toNat }

def Brk.parse (f : Fields) : Option Brk := do
  let ctl ← Ctl.ofFields f
  need (f.d == 0x8B && f.a == 0x08B && f.b == 0x08B && f.c == 0x08B && f.m == 0 && bits f.x 23 16 == 0) (some ⟨ctl, BitVec.ofNat 16 (f.x)⟩)

def Brk.fields (opc : Nat) (x : Brk) : Fields :=
  { Fields.base opc x.ctl with
    x := x.code.toNat }

def SysR.parse (f : Fields) : Option SysR := do
  let ctl ← Ctl.ofFields f
  let d ← Spec.ofCode f.d
  need (f.a == 0x08B && f.b == 0x08B && f.c == 0x08B && f.m == 0 && bits f.x 23 8 == 0) (some ⟨ctl, d, BitVec.ofNat 8 (f.x)⟩)

def SysR.fields (opc : Nat) (x : SysR) : Fields :=
  { Fields.base opc x.ctl with
    d := x.d.code, x := x.num.toNat }

def SysW.parse (f : Fields) : Option SysW := do
  let ctl ← Ctl.ofFields f
  let a ← Src.ofCode f.a
  need (f.d == 0x8B && f.b == 0x08B && f.c == 0x08B && f.m == 0 && bits f.x 23 8 == 0) (some ⟨ctl, a, BitVec.ofNat 8 (f.x)⟩)

def SysW.fields (opc : Nat) (x : SysW) : Fields :=
  { Fields.base opc x.ctl with
    a := x.a.code, x := x.num.toNat }

def Stat.parse (f : Fields) : Option Stat := do
  let ctl ← Ctl.ofFields f
  let d ← Spec.ofCode f.d
  need (f.a == 0x08B && f.b == 0x08B && f.c == 0x08B && f.m == 0 && bits f.x 23 4 == 0) (some ⟨ctl, d, BitVec.ofNat 4 (f.x)⟩)

def Stat.fields (opc : Nat) (x : Stat) : Fields :=
  { Fields.base opc x.ctl with
    d := x.d.code, x := x.sel.toNat }

def Mvt.parse (f : Fields) : Option Mvt := do
  let ctl ← Ctl.ofFields f
  let k ← mArith f.m
  let t16 ← match k.ty with
    | .f32 => some false
    | .t16 => some true
    | _ => none
  let b ← Src.ofCode f.b
  let act ← finOf 3 (bits f.x 9 8)
  need (!k.imm && !k.f1 && f.c == 0x08B && f.d < 64 && bits f.a 7 0 < 64)
    (some ⟨ctl, t16, k.rnd, k.f0, BitVec.ofNat 6 f.d, BitVec.ofNat 6 f.a, bit f.a 9, bit f.a 8, b,
      BitVec.ofNat 14 (bits f.x 23 10), act, BitVec.ofNat 4 (bits f.x 7 4), BitVec.ofNat 4 (bits f.x 3 0)⟩)

def Mvt.fields (opc : Nat) (x : Mvt) : Fields :=
  { Fields.base opc x.ctl with
    d := x.d.toNat, a := b2n x.alu * 512 + b2n x.ate * 256 + x.a.toNat, b := x.b.code,
    m := mArithCode false (if x.t16 then .t16 else .f32) x.rnd false x.ftz,
    x := x.e8.toNat * 1024 + x.act.val * 256 + x.cols.toNat * 16 + x.rows.toNat }

/-! Memory operands (R245, R306). -/

def memOpndOf (f : Fields) : Option MemOpnd := do
  let a ← Src.ofCode f.a
  let sp ← Space.ofCode (bits f.m 8 6)
  return ⟨a, BitVec.ofNat 19 (bits f.x 23 5), sp, BitVec.ofNat 3 (bits f.m 2 0)⟩

def volOpndOf (f : Fields) : Option VolOpnd := do
  let vol ← Src.ofCode f.a
  let x ← Src.ofCode f.b
  let y ← Src.ofCode f.c
  let z ← Spec.ofCode (bits f.x 23 16)
  return ⟨vol, x, y, z, bit f.x 7⟩

/-- A base-and-offset operand whose X[4:0] is 0. -/
def offOf (f : Fields) : Option (BitVec 19) := need (bits f.x 4 0 == 0) (some (BitVec.ofNat 19 (bits f.x 23 5)))

def Ld.parse (f : Fields) : Option Ld := do
  let ctl ← Ctl.ofFields f
  let mo ← memOpndOf f
  let width ← Width.ofCode (bits f.m 5 3)
  let ord ← Ord.ofCode (bits f.x 4 3)
  let scope ← Scope.ofCode (bits f.x 2 0)
  let d ← Spec.ofCode f.d
  need (f.b == 0x08B && f.c == 0x08B) (some ⟨ctl, mo, width, bit f.m 9, ord, scope, d⟩)

def Ld.fields (opc : Nat) (x : Ld) : Fields :=
  { Fields.base opc x.ctl with
    d := x.d.code, a := x.m.addr.code, m := b2n x.sx * 512 + x.m.space.code * 64 + x.width.code * 8 + x.m.swz.toNat, x := x.m.off.toNat * 32 + x.ord.code * 8 + x.scope.code }

def St.parse (f : Fields) : Option St := do
  let ctl ← Ctl.ofFields f
  let mo ← memOpndOf f
  let width ← Width.ofCode (bits f.m 5 3)
  let ord ← Ord.ofCode (bits f.x 4 3)
  let scope ← Scope.ofCode (bits f.x 2 0)
  let b ← Src.ofCode f.b
  need (f.d == 0x8B && f.c == 0x08B && bit f.m 9 == false) (some ⟨ctl, mo, width, ord, scope, b⟩)

def St.fields (opc : Nat) (x : St) : Fields :=
  { Fields.base opc x.ctl with
    a := x.m.addr.code, b := x.b.code, m := 0 + x.m.space.code * 64 + x.width.code * 8 + x.m.swz.toNat, x := x.m.off.toNat * 32 + x.ord.code * 8 + x.scope.code }

def Ldv.parse (f : Fields) : Option Ldv := do
  let ctl ← Ctl.ofFields f
  let vo ← volOpndOf f
  let width ← Width.ofCode (bits f.m 5 3)
  let ord ← Ord.ofCode (bits f.x 4 3)
  let scope ← Scope.ofCode (bits f.x 2 0)
  let d ← Spec.ofCode f.d
  need (bits f.m 8 6 == 0 && bits f.m 2 0 == 0 && bits f.x 15 8 == 0x8B && bits f.x 6 5 == 0) (some ⟨ctl, vo, width, bit f.m 9, ord, scope, d⟩)

def Ldv.fields (opc : Nat) (x : Ldv) : Fields :=
  { Fields.base opc x.ctl with
    d := x.d.code, a := x.m.vol.code, b := x.m.x.code, c := x.m.y.code, m := b2n x.sx * 512 + x.width.code * 8,
    x := x.m.z.code * 65536 + 0x8B * 256 + b2n x.m.zlu * 128 + x.ord.code * 8 + x.scope.code }

def Stv.parse (f : Fields) : Option Stv := do
  let ctl ← Ctl.ofFields f
  let vo ← volOpndOf f
  let width ← Width.ofCode (bits f.m 5 3)
  let ord ← Ord.ofCode (bits f.x 4 3)
  let scope ← Scope.ofCode (bits f.x 2 0)
  let data ← Spec.ofCode (bits f.x 15 8)
  need (f.d == 0x8B && bits f.m 9 6 == 0 && bits f.m 2 0 == 0 && bit f.x 5 == false) (some ⟨ctl, vo, width, ord, scope, data, bit f.x 6⟩)

def Stv.fields (opc : Nat) (x : Stv) : Fields :=
  { Fields.base opc x.ctl with
    a := x.m.vol.code, b := x.m.x.code, c := x.m.y.code, m := x.width.code * 8,
    x := x.m.z.code * 65536 + x.data.code * 256 + b2n x.m.zlu * 128 + b2n x.dlu * 64 + x.ord.code * 8 + x.scope.code }

def Pref.parse (f : Fields) : Option Pref := do
  let ctl ← Ctl.ofFields f
  let space ← Space.ofCode (bits f.m 8 6)
  let lvl ← finOf 3 (bits f.m 5 3)
  let addr ← Src.ofCode f.a
  let off ← offOf f
  need (f.d == 0x8B && f.b == 0x08B && f.c == 0x08B && bit f.m 9 == false && bits f.m 2 0 == 0) (some ⟨ctl, space, lvl, addr, off⟩)

def Pref.fields (opc : Nat) (x : Pref) : Fields :=
  { Fields.base opc x.ctl with
    a := x.addr.code, m := x.space.code * 64 + x.lvl.val * 8, x := x.off.toNat * 32 }

def Flush.parse (f : Fields) : Option Flush := do
  let ctl ← Ctl.ofFields f
  let space ← Space.ofCode (bits f.m 8 6)
  let addr ← Src.ofCode f.a
  let off ← offOf f
  need (f.d == 0x8B && f.b == 0x08B && f.c == 0x08B && bit f.m 9 == false && bits f.m 5 0 == 0) (some ⟨ctl, space, addr, off⟩)

def Flush.fields (opc : Nat) (x : Flush) : Fields :=
  { Fields.base opc x.ctl with
    a := x.addr.code, m := x.space.code * 64, x := x.off.toNat * 32 }

def Atom.parse (f : Fields) : Option Atom := do
  let ctl ← Ctl.ofFields f
  let mo ← memOpndOf f
  let width ← Width.ofCode (bits f.m 5 3)
  let ord ← Ord.ofCode (bits f.x 4 3)
  let scope ← Scope.ofCode (bits f.x 2 0)
  let aop ← AOp.ofCode (bits f.c 9 7)
  let kind ← AKind.ofCode (bits f.c 6 5)
  let place ← Place.ofCode (bits f.c 4 3)
  let rnd ← Rnd.ofCode (bits f.c 2 0)
  let d ← Spec.ofCode f.d
  let b ← Src.ofCode f.b
  need (bit f.m 9 == false) (some ⟨ctl, mo, width, ord, scope, aop, kind, place, rnd, d, b⟩)

def Atom.fields (opc : Nat) (x : Atom) : Fields :=
  { Fields.base opc x.ctl with
    d := x.d.code, a := x.m.addr.code, b := x.b.code, c := x.aop.code * 128 + x.kind.code * 32 + x.place.code * 8 + x.rnd.code,
    m := 0 + x.m.space.code * 64 + x.width.code * 8 + x.m.swz.toNat, x := x.m.off.toNat * 32 + x.ord.code * 8 + x.scope.code }

def AtomV.parse (f : Fields) : Option AtomV := do
  let ctl ← Ctl.ofFields f
  let vo ← volOpndOf f
  let width ← Width.ofCode (bits f.m 5 3)
  let ord ← Ord.ofCode (bits f.x 4 3)
  let scope ← Scope.ofCode (bits f.x 2 0)
  let aop ← AOp.ofCode (bits f.m 9 8)
  let kind ← AKind.ofCode (bits f.m 7 6)
  let rnd ← Rnd.ofCode (bits f.m 2 0)
  let d ← Spec.ofCode f.d
  let data ← Spec.ofCode (bits f.x 15 8)
  need (bit f.x 5 == false) (some ⟨ctl, vo, width, ord, scope, aop, kind, rnd, d, data, bit f.x 6⟩)

def AtomV.fields (opc : Nat) (x : AtomV) : Fields :=
  { Fields.base opc x.ctl with
    d := x.d.code, a := x.m.vol.code, b := x.m.x.code, c := x.m.y.code, m := x.aop.code * 256 + x.kind.code * 64 + x.width.code * 8 + x.rnd.code,
    x := x.m.z.code * 65536 + x.data.code * 256 + b2n x.m.zlu * 128 + b2n x.dlu * 64 + x.ord.code * 8 + x.scope.code }

def Fence.parse (f : Fields) : Option Fence := do
  let ctl ← Ctl.ofFields f
  let kind ← FenceKind.ofCode (bits f.m 1 0)
  let scope ← Scope.ofCode (bits f.x 2 0)
  need (f.d == 0x8B && f.a == 0x08B && f.b == 0x08B && f.c == 0x08B && bits f.m 9 3 == 0 && bits f.x 23 3 == 0) (some ⟨ctl, kind, bit f.m 2, scope⟩)

def Fence.fields (opc : Nat) (x : Fence) : Fields :=
  { Fields.base opc x.ctl with
    m := b2n x.bulk * 4 + x.kind.code, x := x.scope.code }

def Bar.parse (f : Fields) : Option Bar := do
  let ctl ← Ctl.ofFields f
  let a ← Src.ofCode f.a
  need (f.d == 0x8B && f.b == 0x08B && f.c == 0x08B && f.m == 0 && bits f.x 23 4 == 0) (some ⟨ctl, BitVec.ofNat 4 (f.x), a⟩)

def Bar.fields (opc : Nat) (x : Bar) : Fields :=
  { Fields.base opc x.ctl with
    a := x.a.code, x := x.b.toNat }

def Barx.parse (f : Fields) : Option Barx := do
  let ctl ← Ctl.ofFields f
  let d ← Spec.ofCode f.d
  let addr ← Src.ofCode f.a
  let off ← offOf f
  need (f.b == 0x08B && f.c == 0x08B && bits f.m 9 3 == 0) (some ⟨ctl, d, BitVec.ofNat 3 (f.m), addr, off⟩)

def Barx.fields (opc : Nat) (x : Barx) : Fields :=
  { Fields.base opc x.ctl with
    d := x.d.code, a := x.addr.code, m := x.n.toNat, x := x.off.toNat * 32 }

def BarInit.parse (f : Fields) : Option BarInit := do
  let ctl ← Ctl.ofFields f
  let addr ← Src.ofCode f.a
  let off ← offOf f
  let b ← Src.ofCode f.b
  need (f.d == 0x8B && f.c == 0x08B && f.m == 0) (some ⟨ctl, addr, off, b⟩)

def BarInit.fields (opc : Nat) (x : BarInit) : Fields :=
  { Fields.base opc x.ctl with
    a := x.addr.code, b := x.b.code, x := x.off.toNat * 32 }

def Waitv.parse (f : Fields) : Option Waitv := do
  let ctl ← Ctl.ofFields f
  let wide ← wideOf (bits f.m 5 3)
  let space ← Space.ofCode (bits f.m 8 6)
  let ord ← Ord.ofCode (bits f.x 4 3)
  let scope ← Scope.ofCode (bits f.x 2 0)
  let d ← Spec.ofCode f.d
  let addr ← Src.ofCode f.a
  let b ← Src.ofCode f.b
  need (f.c == 0x08B && bit f.m 9 == false) (some ⟨ctl, BitVec.ofNat 3 (bits f.m 2 0), wide, space, ord, scope, d, addr, BitVec.ofNat 19 (bits f.x 23 5), b⟩)

def Waitv.fields (opc : Nat) (x : Waitv) : Fields :=
  { Fields.base opc x.ctl with
    d := x.d.code, a := x.addr.code, b := x.b.code, m := x.space.code * 64 + wideCode x.wide * 8 + x.c.toNat, x := x.off.toNat * 32 + x.ord.code * 8 + x.scope.code }

def Sem.parse (f : Fields) : Option Sem := do
  let ctl ← Ctl.ofFields f
  let a ← Src.ofCode f.a
  need (f.d == 0x8B && f.b == 0x08B && f.c == 0x08B && f.m == 0 && bits f.x 23 6 == 0) (some ⟨ctl, BitVec.ofNat 6 (f.x), a⟩)

def Sem.fields (opc : Nat) (x : Sem) : Fields :=
  { Fields.base opc x.ctl with
    a := x.a.code, x := x.n.toNat }

def SemWait.parse (f : Fields) : Option SemWait := do
  let ctl ← Ctl.ofFields f
  let b ← Src.ofCode f.b
  need (f.d == 0x8B && f.a == 0x08B && f.c == 0x08B && bits f.m 9 1 == 0 && bits f.x 23 6 == 0) (some ⟨ctl, BitVec.ofNat 6 (f.x), bit f.m 0, b⟩)

def SemWait.fields (opc : Nat) (x : SemWait) : Fields :=
  { Fields.base opc x.ctl with
    b := x.b.code, m := b2n x.dec, x := x.n.toNat }

def Own.parse (f : Fields) : Option Own := do
  let ctl ← Ctl.ofFields f
  let a ← Src.ofCode f.a
  need (f.d == 0x8B && f.b == 0x08B && f.c == 0x08B && bits f.m 9 1 == 0 && bits f.x 23 3 == 0) (some ⟨ctl, bit f.m 0, BitVec.ofNat 3 (f.x), a⟩)

def Own.fields (opc : Nat) (x : Own) : Fields :=
  { Fields.base opc x.ctl with
    a := x.a.code, m := b2n x.toE, x := x.n.toNat }

def VRead.parse (f : Fields) : Option VRead := do
  let ctl ← Ctl.ofFields f
  let d ← Spec.ofCode f.d
  let b ← Src.ofCode f.b
  need (f.a == 0x08B && f.c == 0x08B && f.m == 0 && bits f.x 23 7 == 0) (some ⟨ctl, BitVec.ofNat 4 (bits f.x 3 0), BitVec.ofNat 3 (bits f.x 6 4), d, b⟩)

def VRead.fields (opc : Nat) (x : VRead) : Fields :=
  { Fields.base opc x.ctl with
    d := x.d.code, b := x.b.code, x := x.n.toNat * 16 + x.i.toNat }

def VWrite.parse (f : Fields) : Option VWrite := do
  let ctl ← Ctl.ofFields f
  let a ← Src.ofCode f.a
  let b ← Src.ofCode f.b
  need (f.d == 0x8B && f.c == 0x08B && f.m == 0 && bits f.x 23 7 == 0) (some ⟨ctl, BitVec.ofNat 4 (bits f.x 3 0), BitVec.ofNat 3 (bits f.x 6 4), a, b⟩)

def VWrite.fields (opc : Nat) (x : VWrite) : Fields :=
  { Fields.base opc x.ctl with
    a := x.a.code, b := x.b.code, x := x.n.toNat * 16 + x.i.toNat }

def VInval.parse (f : Fields) : Option VInval := do
  let ctl ← Ctl.ofFields f
  let vo ← volOpndOf f
  need (f.d == 0x8B && bits f.m 9 1 == 0 && bits f.x 15 8 == 0 && bits f.x 6 0 == 0) (some ⟨ctl, bit f.m 0, vo⟩)

def VInval.fields (opc : Nat) (x : VInval) : Fields :=
  { Fields.base opc x.ctl with
    a := x.m.vol.code, b := x.m.x.code, c := x.m.y.code, m := b2n x.all, x := x.m.z.code * 65536 + b2n x.m.zlu * 128 }

def LPost.parse (f : Fields) : Option LPost := do
  let ctl ← Ctl.ofFields f
  let d ← Spec.ofCode f.d
  let a ← Src.ofCode f.a
  let b ← Src.ofCode f.b
  let c ← Src.ofCode f.c
  need (f.m == 0 && bits f.x 23 15 == 0) (some ⟨ctl, d, BitVec.ofNat 3 (bits f.x 14 12), BitVec.ofNat 12 (bits f.x 11 0), a, b, c⟩)

def LPost.fields (opc : Nat) (x : LPost) : Fields :=
  { Fields.base opc x.ctl with
    d := x.d.code, a := x.a.code, b := x.b.code, c := x.c.code, x := x.n.toNat * 4096 + x.e.toNat }

def LTake.parse (f : Fields) : Option LTake := do
  let ctl ← Ctl.ofFields f
  let d ← Spec.ofCode f.d
  let b ← Src.ofCode f.b
  need (f.a == 0x08B && f.c == 0x08B && f.m == 0 && bits f.x 23 16 == 0) (some ⟨ctl, d, bit f.x 12, BitVec.ofNat 3 (bits f.x 15 13), BitVec.ofNat 12 (bits f.x 11 0), b⟩)

def LTake.fields (opc : Nat) (x : LTake) : Fields :=
  { Fields.base opc x.ctl with
    d := x.d.code, b := x.b.code, x := x.n.toNat * 8192 + b2n x.try_ * 4096 + x.e.toNat }

def LDone.parse (f : Fields) : Option LDone := do
  let ctl ← Ctl.ofFields f
  let b ← Src.ofCode f.b
  need (f.d == 0x8B && f.a == 0x08B && f.c == 0x08B && f.m == 0 && bits f.x 23 15 == 0) (some ⟨ctl, BitVec.ofNat 3 (bits f.x 14 12), BitVec.ofNat 12 (bits f.x 11 0), b⟩)

def LDone.fields (opc : Nat) (x : LDone) : Fields :=
  { Fields.base opc x.ctl with
    b := x.b.code, x := x.n.toNat * 4096 + x.e.toNat }

def RDep.parse (f : Fields) : Option RDep := do
  let ctl ← Ctl.ofFields f
  let a ← Src.ofCode f.a
  let b ← Src.ofCode f.b
  need (f.d == 0x8B && f.c == 0x08B && f.m == 0 && bits f.x 23 17 == 0) (some ⟨ctl, BitVec.ofNat 3 (bits f.x 16 14), BitVec.ofNat 14 (bits f.x 13 0), a, b⟩)

def RDep.fields (opc : Nat) (x : RDep) : Fields :=
  { Fields.base opc x.ctl with
    a := x.a.code, b := x.b.code, x := x.n.toNat * 16384 + x.t.toNat }

def Vote.parse (f : Fields) : Option Vote := do
  let ctl ← Ctl.ofFields f
  let d ← Spec.ofCode f.d
  let mode ← finOf 3 (bits f.x 8 7)
  need (f.a == 0x08B && f.b == 0x08B && f.c == 0x08B && f.m == 0 && bits f.x 23 9 == 0) (some ⟨ctl, d, BitVec.ofNat 3 (bits f.x 2 0), BitVec.ofNat 3 (bits f.x 5 3), bit f.x 6, mode⟩)

def Vote.fields (opc : Nat) (x : Vote) : Fields :=
  { Fields.base opc x.ctl with
    d := x.d.code, x := x.mode.val * 128 + b2n x.neg * 64 + x.s.toNat * 8 + x.n.toNat }

def Match.parse (f : Fields) : Option Match := do
  let ctl ← Ctl.ofFields f
  let wide ← wideOf (bits f.m 8 5)
  let d ← Spec.ofCode f.d
  let a ← Src.ofCode f.a
  need (bit f.m 9 == false && bits f.m 4 0 == 0 && f.b == 0x08B && f.c == 0x08B && bits f.x 23 3 == 0) (some ⟨ctl, wide, d, BitVec.ofNat 3 (f.x), a⟩)

def Match.fields (opc : Nat) (x : Match) : Fields :=
  { Fields.base opc x.ctl with
    d := x.d.code, a := x.a.code, m := wideCode x.wide * 32, x := x.n.toNat }

def Elect.parse (f : Fields) : Option Elect := do
  let ctl ← Ctl.ofFields f
  let d ← Spec.ofCode f.d
  need (f.a == 0x08B && f.b == 0x08B && f.c == 0x08B && f.m == 0 && bits f.x 23 3 == 0) (some ⟨ctl, d, BitVec.ofNat 3 (f.x)⟩)

def Elect.fields (opc : Nat) (x : Elect) : Fields :=
  { Fields.base opc x.ctl with
    d := x.d.code, x := x.n.toNat }

def Shfl.parse (f : Fields) : Option Shfl := do
  let ctl ← Ctl.ofFields f
  let wide ← wideOf (bits f.m 8 5)
  let seg ← finOf 6 (bits f.x 4 2)
  let d ← Spec.ofCode f.d
  let a ← Src.ofCode f.a
  let b ← Src.ofCode f.b
  need (bit f.m 9 == false && bits f.m 4 0 == 0 && f.c == 0x08B && bits f.x 23 8 == 0) (some ⟨ctl, wide, BitVec.ofNat 2 (bits f.x 1 0), seg, BitVec.ofNat 3 (bits f.x 7 5), d, a, b⟩)

def Shfl.fields (opc : Nat) (x : Shfl) : Fields :=
  { Fields.base opc x.ctl with
    d := x.d.code, a := x.a.code, b := x.b.code, m := wideCode x.wide * 32, x := x.n.toNat * 32 + x.seg.val * 4 + x.mode.toNat }

def Bfly.parse (f : Fields) : Option Bfly := do
  let ctl ← Ctl.ofFields f
  let s ← finOf 5 f.x
  let d ← Spec.ofCode f.d
  let a ← Src.ofCode f.a
  need (f.b == 0x08B && f.c == 0x08B && f.m == 0) (some ⟨ctl, s, d, a⟩)

def Bfly.fields (opc : Nat) (x : Bfly) : Fields :=
  { Fields.base opc x.ctl with
    d := x.d.code, a := x.a.code, x := x.s.val }

def Redg.parse (f : Fields) : Option Redg := do
  let ctl ← Ctl.ofFields f
  let k ← mArith f.m
  let op ← GOp.ofCode (bits f.x 2 0)
  let d ← Spec.ofCode f.d
  let a ← Src.ofCode f.a
  need (!k.imm && f.b == 0x08B && f.c == 0x08B && bits f.x 23 4 == 0) (some ⟨ctl, k.ty, k.rnd, k.f1, k.f0, op, bit f.x 3, d, a⟩)

def Redg.fields (opc : Nat) (x : Redg) : Fields :=
  { Fields.base opc x.ctl with
    d := x.d.code, a := x.a.code, m := mArithCode false x.ty x.rnd x.f1 x.f0, x := b2n x.excl * 8 + x.op.code }

def NzMap.parse (f : Fields) : Option NzMap := do
  let ctl ← Ctl.ofFields f
  let ty ← Ty.ofCode (bits f.m 8 5)
  let a ← Src.ofCode f.a
  need (f.d == 0x8B && bit f.m 9 == false && bits f.m 4 0 == 0 && f.b == 0x08B && f.c == 0x08B && bits f.x 23 7 == 0) (some ⟨ctl, ty, BitVec.ofNat 4 (bits f.x 3 0), BitVec.ofNat 3 (bits f.x 6 4), a⟩)

def NzMap.fields (opc : Nat) (x : NzMap) : Fields :=
  { Fields.base opc x.ctl with
    a := x.a.code, m := x.ty.code * 32, x := x.pos.toNat * 16 + x.kd.toNat }

def Kop.parse (f : Fields) : Option Kop := do
  let ctl ← Ctl.ofFields f
  let op ← KOpc.ofCode (bits f.x 14 12)
  let d ← Spec.ofCode f.d
  let a ← Src.ofCode f.a
  need (f.b == 0x08B && f.c == 0x08B && f.m == 0 && bits f.x 23 15 == 0) (some ⟨ctl, op, BitVec.ofNat 4 (bits f.x 3 0), BitVec.ofNat 4 (bits f.x 7 4), BitVec.ofNat 4 (bits f.x 11 8), d, a⟩)

def Kop.fields (opc : Nat) (x : Kop) : Fields :=
  { Fields.base opc x.ctl with
    d := x.d.code, a := x.a.code, x := x.op.code * 4096 + x.kb.toNat * 256 + x.ka.toNat * 16 + x.kd.toNat }

def CvtB.parse (f : Fields) : Option CvtB := do
  let ctl ← Ctl.ofFields f
  let k ← mArith f.m
  let d ← Spec.ofCode f.d
  let a ← Src.ofCode f.a
  let c ← Src.ofCode f.c
  need (!k.imm && k.ty == .t8 && !k.f1 && f.b == 0x08B && bits f.x 23 13 == 0 && bits f.x 9 7 == 0) (some ⟨ctl, k.rnd, k.f0, BitVec.ofNat 2 (bits f.x 1 0), BitVec.ofNat 5 (bits f.x 6 2), BitVec.ofNat 3 (bits f.x 12 10), d, a, c⟩)

def CvtB.fields (opc : Nat) (x : CvtB) : Fields :=
  { Fields.base opc x.ctl with
    d := x.d.code, a := x.a.code, c := x.c.code, m := mArithCode false .t8 x.rnd false x.ftz, x := x.sg8.toNat * 1024 + x.q.toNat * 4 + x.byte.toNat }

/-- The optional tile predicate and sub-tile mask of MMA (R345). -/
def mmaTp (x : Nat) : Option (Option (BitVec 4 × BitVec 5)) :=
  if bit x 15 then some (some (BitVec.ofNat 4 (bits x 14 11), BitVec.ofNat 5 (bits x 10 6)))
  else need (bits x 14 6 == 0) (some none)

def mmaSk (x : Nat) : Option (Option (BitVec 4)) :=
  if bit x 5 then some (some (BitVec.ofNat 4 (bits x 4 1))) else need (bits x 4 1 == 0) (some none)

def mmaTpCode : Option (BitVec 4 × BitVec 5) → Nat
  | none => 0
  | some (k, b) => 32768 + k.toNat * 2048 + b.toNat * 64

def mmaSkCode : Option (BitVec 4) → Nat
  | none => 0
  | some k => 32 + k.toNat * 2

def Mma.parse (f : Fields) : Option Mma := do
  let ctl ← Ctl.ofFields f
  let k ← mArith f.m
  let tp ← mmaTp f.x
  let sk ← mmaSk f.x
  let d ← Spec.ofCode f.d
  let a ← Src.ofCode f.a
  let b ← Src.ofCode f.b
  let c ← Src.ofCode f.c
  need (!k.imm && bits f.x 23 22 == 0 && bits f.x 18 16 == 0 && bit f.x 0 == false) (some ⟨ctl, k.ty, k.rnd, k.f1, k.f0, BitVec.ofNat 3 (bits f.x 21 19), tp, sk, d, a, b, c⟩)

def Mma.fields (opc : Nat) (x : Mma) : Fields :=
  { Fields.base opc x.ctl with
    d := x.d.code, a := x.a.code, b := x.b.code, c := x.c.code, m := mArithCode false x.ty x.rnd x.bs x.ftz,
    x := x.sb8.toNat * 524288 + mmaTpCode x.tp + mmaSkCode x.sk }

/-- LDM and STM: the block is D of LDM and C of STM (R348). -/
def Frag.parse (load : Bool) (f : Fields) : Option Frag := do
  let ctl ← Ctl.ofFields f
  let space ← Space.ofCode (bits f.m 8 6)
  let role ← Role.ofCode (bits f.x 4 3)
  let addr ← Src.ofCode f.a
  let stride ← Src.ofCode f.b
  let blk ← if load then need (f.c == 0x08B) ((Spec.ofCode f.d).map fun d => ⟨false, false, d⟩)
            else need (f.d == 0x8B) (Src.ofCode f.c)
  need (bit f.m 9 == false && bit f.m 3 == false && bits f.x 2 0 == 0)
    (some ⟨ctl, space, BitVec.ofNat 2 (bits f.m 5 4), BitVec.ofNat 3 (bits f.m 2 0), BitVec.ofNat 19 (bits f.x 23 5),
      role, addr, stride, blk⟩)

def Frag.fields (load : Bool) (opc : Nat) (x : Frag) : Fields :=
  let f := { Fields.base opc x.ctl with
    a := x.addr.code, b := x.stride.code, m := x.space.code * 64 + x.shape.toNat * 16 + x.swz.toNat,
    x := x.off.toNat * 32 + x.role.code * 8 }
  if load then { f with d := x.blk.spec.code } else { f with c := x.blk.code }

def Cpy.parse (f : Fields) : Option Cpy := do
  let ctl ← Ctl.ofFields f
  let dsp ← Space.ofCode (bits f.m 8 6)
  let ssp ← Space.ofCode (bits f.m 5 3)
  let dim ← finOf 3 (bits f.m 2 1)
  let a ← Src.ofCode f.a
  let b ← Src.ofCode f.b
  let c ← Src.ofCode f.c
  need (f.d == 0x8B && bit f.m 9 == false && bit f.m 0 == false && bits f.x 23 6 == 0) (some ⟨ctl, dsp, ssp, dim, a, b, c, BitVec.ofNat 6 (f.x)⟩)

def Cpy.fields (opc : Nat) (x : Cpy) : Fields :=
  { Fields.base opc x.ctl with
    a := x.a.code, b := x.b.code, c := x.c.code, m := x.dsp.code * 64 + x.ssp.code * 8 + x.dim.val * 2, x := x.sem.toNat }

def CpyV.parse (f : Fields) : Option CpyV := do
  let ctl ← Ctl.ofFields f
  let vo ← volOpndOf f
  let dst ← Spec.ofCode (bits f.x 15 8)
  need (f.d == 0x8B && f.m == 0) (some ⟨ctl, vo, dst, bit f.x 6, BitVec.ofNat 6 (bits f.x 5 0)⟩)

def CpyV.fields (opc : Nat) (x : CpyV) : Fields :=
  { Fields.base opc x.ctl with
    a := x.m.vol.code, b := x.m.x.code, c := x.m.y.code,
    x := x.m.z.code * 65536 + x.dst.code * 256 + b2n x.m.zlu * 128 + b2n x.dlu * 64 + x.sem.toNat }

def Parcel.parse (f : Fields) : Option Parcel := do
  let ctl ← Ctl.ofFields f
  let op ← finOf 3 (bits f.m 2 1)
  let a ← Src.ofCode f.a
  let b ← Src.ofCode f.b
  let c ← Src.ofCode f.c
  need (f.d == 0x8B && bit f.m 9 == false && bit f.m 0 == false && bits f.x 7 6 == 0) (some ⟨ctl, BitVec.ofNat 2 (bits f.m 8 7), bit f.m 6, BitVec.ofNat 3 (bits f.m 5 3), op, BitVec.ofNat 16 (bits f.x 23 8), a, b, c, BitVec.ofNat 6 (bits f.x 5 0)⟩)

def Parcel.fields (opc : Nat) (x : Parcel) : Fields :=
  { Fields.base opc x.ctl with
    a := x.a.code, b := x.b.code, c := x.c.code, m := x.z.toNat * 128 + b2n x.i64 * 64 + x.sh.toNat * 8 + x.op.val * 2, x := x.count.toNat * 256 + x.sem.toNat }

def Coll.parse (f : Fields) : Option Coll := do
  let ctl ← Ctl.ofFields f
  let ty ← Ty.ofCode (bits f.m 8 5)
  let rnd ← Rnd.ofCode (bits f.m 4 2)
  let op ← finOf 3 (bits f.m 1 0)
  let a ← Src.ofCode f.a
  let b ← Src.ofCode f.b
  let c ← Src.ofCode f.c
  need (f.d == 0x8B && bit f.m 9 == false && bits f.x 23 12 == 0) (some ⟨ctl, ty, rnd, op, BitVec.ofNat 6 (bits f.x 11 6), a, b, c, BitVec.ofNat 6 (bits f.x 5 0)⟩)

def Coll.fields (opc : Nat) (x : Coll) : Fields :=
  { Fields.base opc x.ctl with
    a := x.a.code, b := x.b.code, c := x.c.code, m := x.ty.code * 32 + x.rnd.code * 4 + x.op.val, x := x.root.toNat * 64 + x.sem.toNat }

def SortOp.parse (f : Fields) : Option SortOp := do
  let ctl ← Ctl.ofFields f
  let kt ← finOf 3 (bits f.m 8 7)
  let a ← Src.ofCode f.a
  let b ← Src.ofCode f.b
  let c ← Src.ofCode f.c
  need (f.d == 0x8B && bit f.m 9 == false && bits f.m 2 0 == 0 && bits f.x 23 10 == 0) (some ⟨ctl, kt, bit f.m 6, bit f.m 5, bit f.m 4, bit f.m 3, BitVec.ofNat 2 (bits f.x 9 8), BitVec.ofNat 2 (bits f.x 7 6), a, b, c, BitVec.ofNat 6 (bits f.x 5 0)⟩)

def SortOp.fields (opc : Nat) (x : SortOp) : Fields :=
  { Fields.base opc x.ctl with
    a := x.a.code, b := x.b.code, c := x.c.code, m := x.kt.val * 128 + b2n x.desc * 64 + b2n x.kv * 32 + b2n x.krem * 16 + b2n x.vrem * 8,
    x := x.phi.toNat * 256 + x.plo.toNat * 64 + x.sem.toNat }

def Trav.parse (f : Fields) : Option Trav := do
  let ctl ← Ctl.ofFields f
  let q ← finOf 3 (bits f.m 8 7)
  let a ← Src.ofCode f.a
  let b ← Src.ofCode f.b
  let c ← Src.ofCode f.c
  need (f.d == 0x8B && bit f.m 9 == false && bits f.m 2 0 == 0 && bits f.x 7 6 == 0) (some ⟨ctl, q, BitVec.ofNat 4 (bits f.m 6 3), BitVec.ofNat 16 (bits f.x 23 8), a, b, c, BitVec.ofNat 6 (bits f.x 5 0)⟩)

def Trav.fields (opc : Nat) (x : Trav) : Fields :=
  { Fields.base opc x.ctl with
    a := x.a.code, b := x.b.code, c := x.c.code, m := x.q.val * 128 + x.clog.toNat * 8, x := x.count.toNat * 256 + x.sem.toNat }

/-- The element type of the solver: f32 or f64 (R366). -/
def f64Of (n : Nat) : Option Bool :=
  match n with
  | 0xA => some false
  | 0xB => some true
  | _ => none

def f64Code (b : Bool) : Nat := if b then 0xB else 0xA

def Solve.parse (f : Fields) : Option Solve := do
  let ctl ← Ctl.ofFields f
  let f64 ← f64Of (bits f.m 8 5)
  let rnd ← Rnd.ofCode (bits f.m 4 2)
  let meth ← finOf 3 (bits f.m 1 0)
  let d ← Spec.ofCode f.d
  let a ← Src.ofCode f.a
  let b ← Src.ofCode f.b
  need (f.c == 0x08B && bits f.x 23 20 == 0) (some ⟨ctl, bit f.m 9, f64, rnd, meth, BitVec.ofNat 16 (bits f.x 19 4), BitVec.ofNat 4 (bits f.x 3 0), d, a, b⟩)

def Solve.fields (opc : Nat) (x : Solve) : Fields :=
  { Fields.base opc x.ctl with
    d := x.d.code, a := x.a.code, b := x.b.code, m := b2n x.log * 512 + f64Code x.f64 * 32 + x.rnd.code * 4 + x.meth.val, x := x.sweeps.toNat * 16 + x.n.toNat }

def SolveB.parse (f : Fields) : Option SolveB := do
  let ctl ← Ctl.ofFields f
  let f64 ← f64Of (bits f.m 8 5)
  let rnd ← Rnd.ofCode (bits f.m 4 2)
  let d ← Spec.ofCode f.d
  let a ← Src.ofCode f.a
  let b ← Src.ofCode f.b
  need (f.c == 0x08B && bit f.m 9 == false && bits f.m 1 0 == 0 && f.x == 0) (some ⟨ctl, f64, rnd, d, a, b⟩)

def SolveB.fields (opc : Nat) (x : SolveB) : Fields :=
  { Fields.base opc x.ctl with
    d := x.d.code, a := x.a.code, b := x.b.code, m := f64Code x.f64 * 32 + x.rnd.code * 4 }

def Compact.parse (f : Fields) : Option Compact := do
  let ctl ← Ctl.ofFields f
  let d ← Spec.ofCode f.d
  let a ← Src.ofCode f.a
  let b ← Src.ofCode f.b
  need (f.c == 0x08B && f.m == 0 && f.x == 0) (some ⟨ctl, d, a, b⟩)

def Compact.fields (opc : Nat) (x : Compact) : Fields :=
  { Fields.base opc x.ctl with
    d := x.d.code, a := x.a.code, b := x.b.code }

def Rand.parse (f : Fields) : Option Rand := do
  let ctl ← Ctl.ofFields f
  let w ← finOf 3 (bits f.m 8 7)
  let nrm ← (finOf 2 (bits f.m 6 5)).map fun k => k.val == 1
  let rnd ← Rnd.ofCode (bits f.m 4 2)
  let d ← Spec.ofCode f.d
  let a ← Src.ofCode f.a
  let b ← Src.ofCode f.b
  let c ← Src.ofCode f.c
  need (bit f.m 9 == false && bits f.m 1 0 == 0 && f.x == 0) (some ⟨ctl, w, nrm, rnd, d, a, b, c⟩)

def Rand.fields (opc : Nat) (x : Rand) : Fields :=
  { Fields.base opc x.ctl with
    d := x.d.code, a := x.a.code, b := x.b.code, c := x.c.code, m := x.w.val * 128 + b2n x.nrm * 32 + x.rnd.code * 4 }

def Epis.parse (f : Fields) : Option Epis := do
  let ctl ← Ctl.ofFields f
  let d ← Spec.ofCode f.d
  let a ← Src.ofCode f.a
  let b ← Src.ofCode f.b
  let c ← Src.ofCode f.c
  need (f.m == 0 && f.x == 0) (some ⟨ctl, d, a, b, c⟩)

def Epis.fields (opc : Nat) (x : Epis) : Fields :=
  { Fields.base opc x.ctl with
    d := x.d.code, a := x.a.code, b := x.b.code, c := x.c.code }

/-! The opcode map (R246): one reader and one writer per class. -/

def parseClass0 (f : Fields) (op : Nat) : Option Instr :=
  match op with
  | 0 => (Bin.parse f).map .iadd
  | 1 => (Bin.parse f).map .isub
  | 2 => (Bin.parse f).map .imul
  | 3 => (Tri.parse f).map .imad
  | 4 => (Bin.parse f).map .idiv
  | 5 => (Bin.parse f).map .irem
  | 6 => (Un.parse f).map .ineg
  | 7 => (Un.parse f).map .iabs
  | 8 => (Bin.parse f).map .imin
  | 9 => (Bin.parse f).map .imax
  | 10 => (Lea.parse f).map .lea
  | 11 => (Cvt.parse f).map .cvti
  | 12 => (Tri.parse f).map .idp4
  | _ => none

def parseClass1 (f : Fields) (op : Nat) : Option Instr :=
  match op with
  | 0 => (Bin.parse f).map .and
  | 1 => (Bin.parse f).map .or
  | 2 => (Bin.parse f).map .xor
  | 3 => (Un.parse f).map .not
  | 4 => (BMix.parse f).map .bmix
  | 5 => (Bin.parse f).map .shl
  | 6 => (Bin.parse f).map .shr
  | 7 => (Bin.parse f).map .rot
  | 8 => (Tri.parse f).map .shf
  | 9 => (Bin.parse f).map .bfe
  | 10 => (Tri.parse f).map .bfi
  | 11 => (Un.parse f).map .popc
  | 12 => (Un.parse f).map .clz
  | 13 => (Un.parse f).map .brev
  | 14 => (Un.parse f).map .ffs
  | 15 => (BSwz.parse f).map .bswz
  | _ => none

def parseClass2 (f : Fields) (op : Nat) : Option Instr :=
  match op with
  | 0 => (Mov.parse f).map .mov
  | 1 => (Movi.parse f).map .movi
  | 2 => (MovX.parse f).map .movx
  | 3 => (MovXW.parse f).map .movxw
  | 4 => (Cmp.parse f).map .icmp
  | 5 => (Cmp.parse f).map .fcmp
  | 6 => (Cmp.parse f).map .tcmp
  | 7 => (Sel.parse f).map .sel
  | 8 => (Plop.parse f).map .plop
  | 9 => (PMov.parse f).map .pmov
  | 10 => (MovS.parse f).map .movs
  | 11 => (FClass.parse f).map .fclass
  | _ => none

def parseClass3 (f : Fields) (op : Nat) : Option Instr :=
  match op with
  | 0 => (Bra.parse f).map .bra
  | 1 => (OneSrc.parse f).map .brx
  | 2 => (Call.parse f).map .call
  | 3 => (CallX.parse f).map .callx
  | 4 => (OneSrc.parse f).map .ret
  | 5 => (Plain.parse f).map .exit
  | 6 => (Plain.parse f).map .yield
  | 7 => (Pause.parse f).map .pause
  | 8 => (Plain.parse f).map .nop
  | 9 => (Join.parse f).map .join
  | _ => none

def parseClass4 (f : Fields) (op : Nat) : Option Instr :=
  match op with
  | 0 => (TrapOp.parse f).map .trap
  | 1 => (Plain.parse f).map .rte
  | 2 => (Brk.parse f).map .brk
  | 3 => (SysR.parse f).map .sysr
  | 4 => (SysW.parse f).map .sysw
  | 5 => (Stat.parse f).map .stat
  | _ => none

def parseClass5 (f : Fields) (op : Nat) : Option Instr :=
  match op with
  | 0 => (Bin.parse f).map .fadd
  | 1 => (Bin.parse f).map .fsub
  | 2 => (Bin.parse f).map .fmul
  | 3 => (Tri.parse f).map .ffma
  | 4 => (Bin.parse f).map .fmin
  | 5 => (Bin.parse f).map .fmax
  | 6 => (Bin.parse f).map .fdiv
  | 7 => (Un.parse f).map .fsqrt
  | 8 => (Un.parse f).map .frcp
  | 9 => (Un.parse f).map .frsq
  | 10 => (Un.parse f).map .frnd
  | 11 => (Bin.parse f).map .fscale
  | _ => none

def parseClass6 (f : Fields) (op : Nat) : Option Instr :=
  match op with
  | 0 => (Un.parse f).map .fexp2
  | 1 => (Un.parse f).map .flog2
  | 2 => (Un.parse f).map .fsin
  | 3 => (Un.parse f).map .fcos
  | 4 => (Un.parse f).map .ftanh
  | 5 => (Un.parse f).map .fsigm
  | 6 => (Cvt.parse f).map .cvt
  | 7 => (CvtPack.parse f).map .cvtp
  | _ => none

def parseClass7 (f : Fields) (op : Nat) : Option Instr :=
  match op with
  | 0 => (Bin.parse f).map .tmin
  | 1 => (Bin.parse f).map .tmax
  | 2 => (Un.parse f).map .tneg
  | 3 => (Un.parse f).map .tabs
  | 4 => (Mvt.parse f).map .mvt
  | 5 => (Bin.parse f).map .nzcnt
  | _ => none

def parseClass8 (f : Fields) (op : Nat) : Option Instr :=
  match op with
  | 0 => (Ld.parse f).map .ld
  | 1 => (St.parse f).map .st
  | 2 => (Ldv.parse f).map .ldv
  | 3 => (Stv.parse f).map .stv
  | 4 => (Pref.parse f).map .pref
  | 5 => (Flush.parse f).map .flush
  | _ => none

def parseClass9 (f : Fields) (op : Nat) : Option Instr :=
  match op with
  | 0 => (Atom.parse f).map .atom
  | 1 => (Atom.parse f).map .red
  | 2 => (AtomV.parse f).map .atomv
  | _ => none

def parseClassA (f : Fields) (op : Nat) : Option Instr :=
  match op with
  | 0 => (Fence.parse f).map .fence
  | 1 => (Bar.parse f).map .bar
  | 2 => (Barx.parse f).map .barx
  | 3 => (BarInit.parse f).map .barinit
  | 4 => (Waitv.parse f).map .waitv
  | 5 => (Sem.parse f).map .seminc
  | 6 => (SemWait.parse f).map .semwait
  | 7 => (Sem.parse f).map .semset
  | 8 => (Own.parse f).map .own
  | 9 => (OneSrc.parse f).map .ownwait
  | 10 => (VRead.parse f).map .vread
  | 11 => (VWrite.parse f).map .vwrite
  | 12 => (VInval.parse f).map .vinval
  | _ => none

def parseClassB (f : Fields) (op : Nat) : Option Instr :=
  match op with
  | 0 => (LPost.parse f).map .lpost
  | 1 => (LTake.parse f).map .ltake
  | 2 => (LDone.parse f).map .ldone
  | 3 => (RDep.parse f).map .rdep
  | 4 => (OneSrc.parse f).map .arrwait
  | _ => none

def parseClassC (f : Fields) (op : Nat) : Option Instr :=
  match op with
  | 0 => (Vote.parse f).map .vote
  | 1 => (Match.parse f).map .matchg
  | 2 => (Shfl.parse f).map .shfl
  | 3 => (Bfly.parse f).map .bfly
  | 4 => (Redg.parse f).map .redg
  | 5 => (Redg.parse f).map .scang
  | 6 => (Elect.parse f).map .elect
  | 7 => (NzMap.parse f).map .nzmap
  | 8 => (Kop.parse f).map .kop
  | 9 => (CvtB.parse f).map .cvtb
  | _ => none

def parseClassD (f : Fields) (op : Nat) : Option Instr :=
  match op with
  | 0 => (Mma.parse f).map .mma
  | 1 => (Mma.parse f).map .mmaz
  | 2 => (Frag.parse true f).map .ldm
  | 3 => (Frag.parse false f).map .stm
  | _ => none

def parseClassE (f : Fields) (op : Nat) : Option Instr :=
  match op with
  | 0 => (Cpy.parse f).map .cpy
  | 1 => (CpyV.parse f).map .cpyv
  | 2 => (Parcel.parse f).map .gath
  | 3 => (Parcel.parse f).map .scat
  | 4 => (Plain.parse f).map .idem
  | 5 => (Plain.parse f).map .idemend
  | 6 => (Coll.parse f).map .ared
  | 7 => (Coll.parse f).map .rscat
  | 8 => (Coll.parse f).map .agath
  | 9 => (Coll.parse f).map .bcast
  | 10 => (Coll.parse f).map .cbar
  | _ => none

def parseClassF (f : Fields) (op : Nat) : Option Instr :=
  match op with
  | 0 => (SortOp.parse f).map .sort
  | 1 => (Trav.parse f).map .trav
  | 2 => (Solve.parse f).map .solve
  | 3 => (SolveB.parse f).map .solveb
  | 4 => (Compact.parse f).map .compact
  | 5 => (Rand.parse f).map .rnd
  | 6 => (Rand.parse f).map .rndf
  | 7 => (Epis.parse f).map .epis
  | _ => none

/-- The instruction that the fields spell, before the checks of `wellFormed`. -/
def parseFields (f : Fields) : Option Instr :=
  match f.opc / 64 with
  | 0 => parseClass0 f (f.opc % 64)
  | 1 => parseClass1 f (f.opc % 64)
  | 2 => parseClass2 f (f.opc % 64)
  | 3 => parseClass3 f (f.opc % 64)
  | 4 => parseClass4 f (f.opc % 64)
  | 5 => parseClass5 f (f.opc % 64)
  | 6 => parseClass6 f (f.opc % 64)
  | 7 => parseClass7 f (f.opc % 64)
  | 8 => parseClass8 f (f.opc % 64)
  | 9 => parseClass9 f (f.opc % 64)
  | 10 => parseClassA f (f.opc % 64)
  | 11 => parseClassB f (f.opc % 64)
  | 12 => parseClassC f (f.opc % 64)
  | 13 => parseClassD f (f.opc % 64)
  | 14 => parseClassE f (f.opc % 64)
  | 15 => parseClassF f (f.opc % 64)
  | _ => none

/-- How many operations each class assigns (R246). -/
def opsInClass (c : Nat) : Nat :=
  match c with
  | 0 => 13
  | 1 => 16
  | 2 => 12
  | 3 => 10
  | 4 => 6
  | 5 => 12
  | 6 => 8
  | 7 => 6
  | 8 => 6
  | 9 => 3
  | 10 => 13
  | 11 => 5
  | 12 => 10
  | 13 => 4
  | 14 => 11
  | 15 => 8
  | _ => 0

/-- The instruction of a 96-bit word, or why it is none (R235, R246). -/
def decodeWord (w : Nat) : Except Reject Instr :=
  let f := fieldsOf w
  if opsInClass (f.opc / 64) ≤ f.opc % 64 then .error (.unassigned f.opc)
  else
    match parseFields f with
    | none => .error (.reserved f.opc)
    | some i => if wellFormed i then .ok i else .error (.reserved f.opc)

/-- A little-endian number (R4). -/
def leNat : List Byte → Nat
  | [] => 0
  | b :: bs => b.toNat + 256 * leNat bs

/-- `n` little-endian bytes of a number. -/
def leBytes : Nat → Nat → List Byte
  | 0, _ => []
  | n + 1, x => BitVec.ofNat 8 x :: leBytes n (x / 256)

/-- Decode the instruction at the head of a byte list: total, with the rest of the list (R232). -/
def decode (bs : List Byte) : Except Reject (Instr × List Byte) :=
  if bs.length < 12 then .error .short
  else
    match decodeWord (leNat (bs.take 12)) with
    | .ok i => .ok (i, bs.drop 12)
    | .error e => .error e

/-- The fields of an instruction's word; none for an event, which has no word. -/
def encodeFields (i : Instr) : Option Fields :=
  match i with
  | .iadd x => some (Bin.fields 0x000 x)
  | .isub x => some (Bin.fields 0x001 x)
  | .imul x => some (Bin.fields 0x002 x)
  | .imad x => some (Tri.fields 0x003 x)
  | .idiv x => some (Bin.fields 0x004 x)
  | .irem x => some (Bin.fields 0x005 x)
  | .ineg x => some (Un.fields 0x006 x)
  | .iabs x => some (Un.fields 0x007 x)
  | .imin x => some (Bin.fields 0x008 x)
  | .imax x => some (Bin.fields 0x009 x)
  | .lea x => some (Lea.fields 0x00A x)
  | .cvti x => some (Cvt.fields 0x00B x)
  | .idp4 x => some (Tri.fields 0x00C x)
  | .and x => some (Bin.fields 0x040 x)
  | .or x => some (Bin.fields 0x041 x)
  | .xor x => some (Bin.fields 0x042 x)
  | .not x => some (Un.fields 0x043 x)
  | .bmix x => some (BMix.fields 0x044 x)
  | .shl x => some (Bin.fields 0x045 x)
  | .shr x => some (Bin.fields 0x046 x)
  | .rot x => some (Bin.fields 0x047 x)
  | .shf x => some (Tri.fields 0x048 x)
  | .bfe x => some (Bin.fields 0x049 x)
  | .bfi x => some (Tri.fields 0x04A x)
  | .popc x => some (Un.fields 0x04B x)
  | .clz x => some (Un.fields 0x04C x)
  | .brev x => some (Un.fields 0x04D x)
  | .ffs x => some (Un.fields 0x04E x)
  | .bswz x => some (BSwz.fields 0x04F x)
  | .mov x => some (Mov.fields 0x080 x)
  | .movi x => some (Movi.fields 0x081 x)
  | .movx x => some (MovX.fields 0x082 x)
  | .movxw x => some (MovXW.fields 0x083 x)
  | .icmp x => some (Cmp.fields 0x084 x)
  | .fcmp x => some (Cmp.fields 0x085 x)
  | .tcmp x => some (Cmp.fields 0x086 x)
  | .sel x => some (Sel.fields 0x087 x)
  | .plop x => some (Plop.fields 0x088 x)
  | .pmov x => some (PMov.fields 0x089 x)
  | .movs x => some (MovS.fields 0x08A x)
  | .fclass x => some (FClass.fields 0x08B x)
  | .bra x => some (Bra.fields 0x0C0 x)
  | .brx x => some (OneSrc.fields 0x0C1 x)
  | .call x => some (Call.fields 0x0C2 x)
  | .callx x => some (CallX.fields 0x0C3 x)
  | .ret x => some (OneSrc.fields 0x0C4 x)
  | .exit x => some (Plain.fields 0x0C5 x)
  | .yield x => some (Plain.fields 0x0C6 x)
  | .pause x => some (Pause.fields 0x0C7 x)
  | .nop x => some (Plain.fields 0x0C8 x)
  | .join x => some (Join.fields 0x0C9 x)
  | .trap x => some (TrapOp.fields 0x100 x)
  | .rte x => some (Plain.fields 0x101 x)
  | .brk x => some (Brk.fields 0x102 x)
  | .sysr x => some (SysR.fields 0x103 x)
  | .sysw x => some (SysW.fields 0x104 x)
  | .stat x => some (Stat.fields 0x105 x)
  | .fadd x => some (Bin.fields 0x140 x)
  | .fsub x => some (Bin.fields 0x141 x)
  | .fmul x => some (Bin.fields 0x142 x)
  | .ffma x => some (Tri.fields 0x143 x)
  | .fmin x => some (Bin.fields 0x144 x)
  | .fmax x => some (Bin.fields 0x145 x)
  | .fdiv x => some (Bin.fields 0x146 x)
  | .fsqrt x => some (Un.fields 0x147 x)
  | .frcp x => some (Un.fields 0x148 x)
  | .frsq x => some (Un.fields 0x149 x)
  | .frnd x => some (Un.fields 0x14A x)
  | .fscale x => some (Bin.fields 0x14B x)
  | .fexp2 x => some (Un.fields 0x180 x)
  | .flog2 x => some (Un.fields 0x181 x)
  | .fsin x => some (Un.fields 0x182 x)
  | .fcos x => some (Un.fields 0x183 x)
  | .ftanh x => some (Un.fields 0x184 x)
  | .fsigm x => some (Un.fields 0x185 x)
  | .cvt x => some (Cvt.fields 0x186 x)
  | .cvtp x => some (CvtPack.fields 0x187 x)
  | .tmin x => some (Bin.fields 0x1C0 x)
  | .tmax x => some (Bin.fields 0x1C1 x)
  | .tneg x => some (Un.fields 0x1C2 x)
  | .tabs x => some (Un.fields 0x1C3 x)
  | .mvt x => some (Mvt.fields 0x1C4 x)
  | .nzcnt x => some (Bin.fields 0x1C5 x)
  | .ld x => some (Ld.fields 0x200 x)
  | .st x => some (St.fields 0x201 x)
  | .ldv x => some (Ldv.fields 0x202 x)
  | .stv x => some (Stv.fields 0x203 x)
  | .pref x => some (Pref.fields 0x204 x)
  | .flush x => some (Flush.fields 0x205 x)
  | .atom x => some (Atom.fields 0x240 x)
  | .red x => some (Atom.fields 0x241 x)
  | .atomv x => some (AtomV.fields 0x242 x)
  | .fence x => some (Fence.fields 0x280 x)
  | .bar x => some (Bar.fields 0x281 x)
  | .barx x => some (Barx.fields 0x282 x)
  | .barinit x => some (BarInit.fields 0x283 x)
  | .waitv x => some (Waitv.fields 0x284 x)
  | .seminc x => some (Sem.fields 0x285 x)
  | .semwait x => some (SemWait.fields 0x286 x)
  | .semset x => some (Sem.fields 0x287 x)
  | .own x => some (Own.fields 0x288 x)
  | .ownwait x => some (OneSrc.fields 0x289 x)
  | .vread x => some (VRead.fields 0x28A x)
  | .vwrite x => some (VWrite.fields 0x28B x)
  | .vinval x => some (VInval.fields 0x28C x)
  | .lpost x => some (LPost.fields 0x2C0 x)
  | .ltake x => some (LTake.fields 0x2C1 x)
  | .ldone x => some (LDone.fields 0x2C2 x)
  | .rdep x => some (RDep.fields 0x2C3 x)
  | .arrwait x => some (OneSrc.fields 0x2C4 x)
  | .vote x => some (Vote.fields 0x300 x)
  | .matchg x => some (Match.fields 0x301 x)
  | .shfl x => some (Shfl.fields 0x302 x)
  | .bfly x => some (Bfly.fields 0x303 x)
  | .redg x => some (Redg.fields 0x304 x)
  | .scang x => some (Redg.fields 0x305 x)
  | .elect x => some (Elect.fields 0x306 x)
  | .nzmap x => some (NzMap.fields 0x307 x)
  | .kop x => some (Kop.fields 0x308 x)
  | .cvtb x => some (CvtB.fields 0x309 x)
  | .mma x => some (Mma.fields 0x340 x)
  | .mmaz x => some (Mma.fields 0x341 x)
  | .ldm x => some (Frag.fields true 0x342 x)
  | .stm x => some (Frag.fields false 0x343 x)
  | .cpy x => some (Cpy.fields 0x380 x)
  | .cpyv x => some (CpyV.fields 0x381 x)
  | .gath x => some (Parcel.fields 0x382 x)
  | .scat x => some (Parcel.fields 0x383 x)
  | .idem x => some (Plain.fields 0x384 x)
  | .idemend x => some (Plain.fields 0x385 x)
  | .ared x => some (Coll.fields 0x386 x)
  | .rscat x => some (Coll.fields 0x387 x)
  | .agath x => some (Coll.fields 0x388 x)
  | .bcast x => some (Coll.fields 0x389 x)
  | .cbar x => some (Coll.fields 0x38A x)
  | .sort x => some (SortOp.fields 0x3C0 x)
  | .trav x => some (Trav.fields 0x3C1 x)
  | .solve x => some (Solve.fields 0x3C2 x)
  | .solveb x => some (SolveB.fields 0x3C3 x)
  | .compact x => some (Compact.fields 0x3C4 x)
  | .rnd x => some (Rand.fields 0x3C5 x)
  | .rndf x => some (Rand.fields 0x3C6 x)
  | .epis x => some (Epis.fields 0x3C7 x)
  | _ => none

/-- The word of an instruction (R232). -/
def encode (i : Instr) : Option Nat := (encodeFields i).map Fields.word

/-- Is this row an instruction of R246 (and not an event)? -/
def isInsn (i : Instr) : Bool := (encodeFields i).isSome

/-- The host's question: the instruction read from a word of `nbits` bits, every bit above them 0, laid out as memory
holds it (R4, R232). -/
def decodeTableWord (nbits w : Nat) : Option Instr :=
  match decode (leBytes 12 (w % 2 ^ nbits)) with
  | .ok (i, _) => some i
  | .error _ => none

end Sys2Proof
end

