-- ==== Sys2Proof/Machine/Tab.lean ====
section
/-! DEFINITION. Finite tables keyed by a number and canonical byte memories: the plain data that State is made of. A table is
a list of pairs with rising keys; a memory is a list of cells in the canonical form of `Host.Cell` lists (addresses rising, no
zero byte listed). -/

namespace Sys2Proof.Machine

/-- A finite map from numbers, as pairs with rising keys. -/
abbrev Tab (α : Type) := List (Nat × α)

/-- The entry of key `k`. -/
def Tab.get? {α : Type} : List (Nat × α) → Nat → Option α
  | [], _ => none
  | (j, a) :: t, k => if j = k then some a else Tab.get? t k

/-- The entry of key `k`, or a default. -/
def Tab.getD {α : Type} (t : List (Nat × α)) (k : Nat) (d : α) : α := (Tab.get? t k).getD d

/-- Set the entry of key `k`. -/
def Tab.set {α : Type} : List (Nat × α) → Nat → α → List (Nat × α)
  | [], k, v => [(k, v)]
  | (j, a) :: t, k, v =>
    if k < j then (k, v) :: (j, a) :: t else if k = j then (k, v) :: t else (j, a) :: Tab.set t k v

/-- Remove every entry of key `k`. -/
def Tab.erase {α : Type} : List (Nat × α) → Nat → List (Nat × α)
  | [], _ => []
  | (j, a) :: t, k => if j = k then Tab.erase t k else (j, a) :: Tab.erase t k

/-- Change the entry of key `k`, if there is one. -/
def Tab.modify {α : Type} : List (Nat × α) → Nat → (α → α) → List (Nat × α)
  | [], _, _ => []
  | (j, a) :: t, k, f => if j = k then (j, f a) :: t else (j, a) :: Tab.modify t k f

/-! Stable insertion sort: `le a b` keeps `a` before `b`. -/

def insertBy {α : Type} (le : α → α → Bool) (x : α) : List α → List α
  | [] => [x]
  | y :: t => if le x y then x :: y :: t else y :: insertBy le x t

def sortBy {α : Type} (le : α → α → Bool) : List α → List α
  | [] => []
  | x :: t => insertBy le x (sortBy le t)

/-! Sets of numbers as rising lists. -/

def setInsert : List Nat → Nat → List Nat
  | [], k => [k]
  | j :: t, k => if k < j then k :: j :: t else if k = j then j :: t else j :: setInsert t k

def setErase : List Nat → Nat → List Nat
  | [], _ => []
  | j :: t, k => if j = k then t else j :: setErase t k

/-- Insert or remove. -/
def setPut (l : List Nat) (k : Nat) (b : Bool) : List Nat := if b then setInsert l k else setErase l k

/-! Byte memories: an unlisted address reads as zero (assumption 1). -/

abbrev ByteMem := List Host.Cell

/-- The byte at address `a`. -/
def memGet : ByteMem → Nat → Byte
  | [], _ => 0
  | c :: t, a => if c.1 = a then c.2 else memGet t a

/-- Write one byte, keeping the canonical form. -/
def memPut : ByteMem → Nat → Byte → ByteMem
  | [], a, b => if b = 0 then [] else [(a, b)]
  | c :: t, a, b =>
    if a < c.1 then (if b = 0 then c :: t else (a, b) :: c :: t)
    else if a = c.1 then (if b = 0 then t else (a, b) :: t)
    else c :: memPut t a b

/-- The canonical form: rising addresses above `lo`, no zero byte. -/
def memWfFrom : Option Nat → ByteMem → Bool
  | _, [] => true
  | lo, c :: t => (match lo with | none => true | some k => k < c.1) && c.2 != 0 && memWfFrom (some c.1) t

/-- The canonical form of a memory. -/
def Memory.wf (m : ByteMem) : Bool := memWfFrom none m

/-- `n` bytes from address `a` as a little-endian number (R4). -/
def memLoad (m : ByteMem) : Nat → Nat → Nat
  | _, 0 => 0
  | a, n + 1 => (memGet m a).toNat + 256 * memLoad m (a + 1) n

/-- Store the low `n` bytes of `x` at `a`, little-endian (R4). -/
def memStore (m : ByteMem) : Nat → Nat → Nat → ByteMem
  | _, 0, _ => m
  | a, n + 1, x => memStore (memPut m a (BitVec.ofNat 8 x)) (a + 1) n (x / 256)

end Sys2Proof.Machine
end

