-- ==== Sys2Proof/Machine/State.lean ====
section
/-! DEFINITION. The whole package as plain data: hub, dies, clusters, cores, memory dies, contexts, teams, groups and threads
(INVENTORY.md, State, lists every piece with its rule and its reset value), the three reasons a step can stop, and the machine
right after reset. -/

namespace Sys2Proof.Machine

/-- A 32-bit value with its poison bit (R417). -/
structure Val where
  v : W32
  psn : Bool
  deriving DecidableEq, Repr

/-- What an empty register awaits: a claim, by its number, or a later instruction's write (no number), which waits for the fills
before it (R108); `x` once it has come. -/
structure Pend where
  tag : Option Nat
  x : Option Val
  deriving DecidableEq, Repr

/-- A v or g register that is not void (R107, R108). Void registers are absent from their table. -/
inductive Reg where
  /-- claimed, with what it awaits in the order of the instructions -/
  | empty (q : List Pend)
  /-- full, in the pool -/
  | full (x : Val)
  /-- full, its value in the backing store (R104, R108, R114) -/
  | stored
  deriving DecidableEq, Repr

/-- An operand latch entry (R123, R124): void when no use is left. -/
structure Latch where
  x : Val
  left : Nat
  deriving DecidableEq, Repr

def Latch.void : Latch := ⟨⟨0, false⟩, 0⟩

/-- What a blocked thread waits for (R67, R117, R273). -/
inductive Block where
  | reg (depth : Nat)
  | greg (n : Nat)
  | pop (j need : Nat)
  | push (j need : Nat)
  | join (limit : Nat)
  /-- its group stands complete at a COMPACT (R381) -/
  | compact
  /-- held by the shadow rule of R456 until the unresolved instruction completes -/
  | shadow
  /-- a resource of the core: retried at the next pick -/
  | busy
  /-- an answer of a unit: a link (R198), a VINVAL (R203), a BARINIT (R314) -/
  | unit
  deriving DecidableEq, Repr

/-- The waits of R61, with the waiting instruction and its operands (R328). -/
inductive Wait where
  | bar (x : Bar) (e : Nat)
  | barx (x : Barx) (addr : W64) (sent : Bool) (phase : Nat)
  | waitv (x : Waitv) (addr : W64) (b : Nat)
  | vread (x : VRead) (b : W32)
  | ltake (x : LTake) (q : Nat)
  | semwait (x : SemWait) (b : W32)
  | ownwait (x : OneSrc) (off : W32)
  | arrwait (x : OneSrc) (cnt : W32)
  deriving DecidableEq, Repr

/-- The states of R67. -/
inductive TState where
  | eligible
  | blocked (b : Block)
  | waiting (w : Wait)
  | held
  | paused (limit : Nat)
  | exited
  | halted
  /-- the thread has ended its save or restore handler (R101, R102) -/
  | handlerDone
  deriving DecidableEq, Repr

/-- A trap or fault of one thread at one instruction. Codes 0x01 to 0x07 are recoverable. -/
structure Exc where
  cause : Nat
  sub : Nat
  /-- ADDR, where the cause has one -/
  addr : Option Nat
  isVa : Bool
  detail : Nat
  deriving DecidableEq, Repr

/-- What an instruction does to one thread besides its reads. -/
structure LaneEff where
  exc : Option Exc := none
  writes : List (Spec × List Val) := []
  preds : List (Nat × Bool) := []
  /-- conditions raised by each result element (R134) -/
  conds : List (BitVec 7) := []
  /-- MOVS: the bits of %tstat that the second mask selects take those of the first (R266) -/
  tstat : Option (BitVec 7 × BitVec 7) := none
  draws : Nat := 0
  pc : Option W64 := none
  deriving DecidableEq, Repr

/-- An instruction issued in a trap's shadow: what its fields delivered (R459) and its effect, which
is written later (R456). `dsts` are the destinations with their widths; `gw`: it is the lane that writes g registers (R115), with
the order number of its issue. -/
structure HeldRes where
  ins : Instr
  pc : W64
  a : W64
  b : W64
  c : W64
  psn : BitVec 3
  eff : LaneEff
  dsts : List (Spec × Nat)
  gw : Option Nat
  deriving DecidableEq, Repr

/-- The trappable instruction a shadow hangs on: issued, not yet complete (R456, R278). Its effect, whether it traps and where its
handler stands are those of its issue, with the RKEY, the TEN and the TVEC in force then (R140, R453). -/
structure Unres where
  ins : Instr
  pc : W64
  due : Nat
  eff : LaneEff
  trap : Option Exc
  lanes : BitVec 32
  dsts : List (Spec × Nat)
  gw : Option Nat
  tvec : W64
  deriving DecidableEq, Repr

/-- A trap entry or an RTE that has begun and waits: it completes before a stop of its team takes effect (R468). -/
inductive Begun where
  | trap (e : Exc) (lanes : BitVec 32) (pc resume : W64) (rep : List HeldRes) (tvec : W64)
  | rte
  deriving DecidableEq, Repr

/-- Why an engine command stopped (R490). -/
structure EngStop where
  reason : Nat
  addr : W64
  isVa : Bool
  deriving DecidableEq, Repr

/-- An accepted engine command: its engine record (R98) and its progress. -/
structure Eng where
  id : Nat
  cls : Nat
  sem : Nat
  gid : Nat
  lane : Nat
  pc : W64
  done : Nat
  opa : W64
  opb : W64
  opc : W64
  imm : W32
  ins : Instr
  /-- pages named: team key and page (R351) -/
  pages : List (Nat × Nat)
  idem : Bool
  retries : Nat
  /-- CPYV: the brick's VA, or none for an absent brick with its BG and element size -/
  brick : Option W64
  bg : W64
  esz : Nat
  /-- CPYV: the VA of its volume's descriptor (R203) -/
  dva : Nat
  /-- stop sent, awaiting its acknowledgement since this cycle (R94, R441) -/
  stopSent : Option Nat
  stopped : Bool
  failed : Option EngStop
  /-- Relay: communicator slot and number of the collective -/
  slot : Option Nat
  /-- Relay: status to report at completion; 255 while it runs -/
  cstat : Nat
  /-- remote values that have come in for the unit in progress, by position -/
  replies : List (Nat × Nat × Bool)
  /-- every access of the unit in progress has been made; its remote writes are still on their way (R354, R358) -/
  sent : Bool
  /-- SORT: the pairs of the pass in progress in the working store, keys first (R369) -/
  work : Option (List ((Nat × Bool) × (Nat × Bool)))
  /-- SORT: the write-back of the pass has begun (R489) -/
  wback : Bool
  /-- its fault has been delivered (R490) -/
  delivered : Bool
  deriving DecidableEq, Repr

/-- What a waiting instruction read at its issue (R61, R108): its operand values, whether one was void, its pops, the destinations
that it will write, and whether it is the lane that writes g registers (R115); and the same of an engine command that is blocked (R351).
The reads take effect when the wait ends. -/
structure WaitIn where
  vals : List (List Val)
  void : Bool
  pops : List (Nat × Nat)
  dsts : List (Spec × Nat)
  gw : Bool
  /-- an engine command that has passed its checks and is not accepted yet, with its pages (R351) -/
  cmd : Option (Eng × List (Nat × Nat))
  deriving DecidableEq, Repr

/-- A pending translation or permission fault of the backing store (R451). -/
structure BsFault where
  va : W64
  perm : Bool
  deriving DecidableEq, Repr

/-- What a team's save keeps of a thread beside its record, which has no field for it: where a retry in progress continues (R461),
the kind of the trap being handled, the state that the wait list names (R64) and a pending fault of its backing store (R451). -/
structure Kept where
  after : Option W64
  tfix : Bool
  tretry : Bool
  st : TState
  bsFault : Option BsFault
  deriving DecidableEq, Repr

/-- A thread (R38, R67, R103-R128). -/
structure Thread where
  pc : W64
  st : TState
  /-- the register stack by depth (R103); absent: void -/
  regs : Tab Reg
  wbase : Nat
  bot : Nat
  nregs : Nat
  preds : BitVec 7
  lat0 : Latch
  lat1 : Latch
  lat2 : Latch
  tstat : BitVec 7
  draws : W64
  idem : Bool
  tdepth : Bool
  /-- the trap being handled was a fetch or backing-store fault (R461); kept beside the record, which RTE does not consult (R500) -/
  tfix : Bool
  /-- that trap met an instruction being retried, whose thread goes on at RESUME (R461, R500) -/
  tretry : Bool
  seq : W32
  /-- cycle in which it became eligible for its current instruction, or its PAUSE issued (R54, R63) -/
  since : Nat
  /-- first cycle in which STALL lets it issue (R241) -/
  ready : Nat
  /-- kept out by YLD until this cycle (R241) -/
  yld : Option Nat
  held : List HeldRes
  unres : Option Unres
  /-- RESUME of a retry in progress: where the thread continues after one instruction (R461) -/
  after : Option W64
  bsFault : Option BsFault
  /-- the arrival phase and the address of a BARX that has arrived and is to be repeated after a restore (R316) -/
  barxSent : Option (Nat × W64)
  /-- kept while its team is saved (R100) or stands in the save area -/
  kept : Option Kept
  win : Option WaitIn
  /-- the hold of the JOIN at which it stands has ended (R273) -/
  joined : Bool
  begun : Option Begun
  /-- it takes, or handles, a translation fault of its team's save: it runs although its team is stopped (R97, R164) -/
  fixing : Bool
  deriving DecidableEq, Repr

/-- A destination of a fill: register by depth or g number, its claim, and how the value is extended (R245). -/
structure Dst where
  isG : Bool
  idx : Nat
  tag : Nat
  at_ : Nat
  deriving DecidableEq, Repr

/-- A matrix instruction in the engine (R93, R346): `step` is its next k-step, `frm` the first of the sum in progress, `base` the
step at which it last started or resumed, in cycle `since`; operands and rounding words by lane. -/
structure MJob where
  id : Nat
  team : Nat
  gid : Nat
  pc : W64
  ins : Instr
  prio : Nat
  waited : Nat
  step : Nat
  frm : Nat
  base : Nat
  since : Nat
  started : Bool
  a : List (List Val)
  b : List (List Val)
  c : List (List Val)
  scales : List Val
  mask : BitVec 4
  /-- RKEY at issue, and the rounding words by lane (R140) -/
  rkey : W64
  words : List (List W32)
  dsts : List (List Dst)
  due : Nat
  /-- lanes whose results are lost to an error (R449) -/
  lost : List Nat
  deriving DecidableEq, Repr

structure Group where
  gregs : Tab Reg
  /-- lanes that have issued a last-use read of a g register since it was last written (R109) -/
  gseen : Tab (BitVec 32)
  /-- lanes that wait with such a read, which counts when their wait ends (R61, R109) -/
  gwait : Tab (BitVec 32)
  /-- g registers whose latest write is a result held in a shadow: the order number of its issue (R456) -/
  gown : Tab Nat
  ks : Tab W32
  arr : W32
  /-- pigeonhole qj of lane l at key 32 × j + l, oldest first; held by the consumer group (R117) -/
  ph : Tab (List Val)
  /-- start cycle of the convergence timer (R59) -/
  conv : Option Nat
  /-- a matrix instruction stopped by a pre-emption (R96, R99) -/
  mr : Option MJob
  halted : Bool
  /-- halted, with its stacks and its block written (R466 steps 4 and 5) -/
  dumped : Bool
  finished : Bool
  subcore : Nat
  deriving DecidableEq, Repr

/-- A team barrier (R311). -/
structure BarSt where
  count : Nat
  target : Nat
  deriving DecidableEq, Repr

/-- The states of R69. -/
inductive TeamSt where
  | pending
  | resident
  /-- reason 1 park, 2 pre-empt (R98); `again`: a pre-emption has arrived during a save for parking (R70) -/
  | saving (reason : Nat) (again : Bool)
  | parked
  /-- `asParked`: saved for parking, then pre-empted (R70) -/
  | preempted (asParked : Bool)
  | restoring
  | retired
  deriving DecidableEq, Repr

structure Team where
  ctx : Nat
  grid : Nat
  team : Nat
  st : TeamSt
  core : Nat
  /-- admission or resumption order: smaller is older (R113) -/
  age : Nat
  ngrp : Nat
  /-- scratchpad bytes and poisoned granules (R166, R445) -/
  spad : ByteMem
  spsn : List Nat
  /-- owner bits: 1 is E (R98, R166) -/
  owner : BitVec 96
  rkey : W64
  vtbase : W64
  tvec : W64
  ten : BitVec 5
  /-- SYSW writes of this cycle to team registers, by number: in force from the next cycle (R140, R276) -/
  sysw : List (Nat × W64)
  bars : Tab BarSt
  /-- %tid of the threads that have arrived at a barrier in this cycle (R311) -/
  arrivals : List Nat
  engs : List Eng
  /-- vector issue stopped for a pre-emption (R94) -/
  stopped : Bool
  /-- cycle in which the claim or the parking dates (R66, R90) -/
  claim : Nat
  saveSeq : Nat
  ready : Bool
  deriving DecidableEq, Repr

/-- A grid record (R43). -/
structure GridRec where
  pentry : W64
  centry : W64
  nteam : Nat
  ngrp : Nat
  nprod : Nat
  pfloor : Nat
  cfloor : Nat
  gregs : Nat
  pages : Nat
  prio : Nat
  pinned : Bool
  gang : Bool
  fuse : Bool
  ctimeout : Nat
  park : Nat
  deriving DecidableEq, Repr

/-- A placed plan (R42). -/
structure Plan where
  cores : Bool
  ptroot : Nat
  savebase : W64
  saveh : W64
  resth : W64
  constva : W64
  constlen : Nat
  grids : List GridRec
  deriving DecidableEq, Repr

/-- A pre-emption in progress (R94): whether its teams resume only with their wait (R70) is in each team. -/
structure StopSt where
  since : Nat
  deriving DecidableEq, Repr

structure Ctx where
  plan : Plan
  prio : Nat
  placed : Nat
  /-- physical cores in the order of their virtual numbers (R40) -/
  vcores : List Nat
  stop : Option StopSt
  /-- cycle since which the context holds cores (R91) -/
  coresSince : Nat
  deriving DecidableEq, Repr

/-! Memory system. -/

/-- A 128-byte line with poison per 32-byte granule and its CMP bit (R181, R416). -/
structure Line where
  data : BitVec 1024
  psn : BitVec 4
  cmp : Bool
  deriving DecidableEq, Repr

def Line.zero : Line := ⟨0, 0, false⟩

/-- MOESI states other than I (R174). -/
inductive Moesi where
  | m | o | e | s
  deriving DecidableEq, Repr

/-- A line held by a coherent agent: 0 C0, 1 C1, 2 H (R174). -/
structure AgLine where
  st : Moesi
  line : Line
  /-- L1s that hold the line: core numbers (R170) -/
  pres : List Nat
  /-- every store since it became dirty was bulk (R213) -/
  bulk : Bool
  /-- held by the host in H's name (R174) -/
  host : Bool
  use : Nat
  deriving DecidableEq, Repr

/-- A line of an L1 data cache (R169, R208). -/
structure L1Line where
  valid : BitVec 128
  pend : BitVec 128
  line : Line
  use : Nat
  deriving DecidableEq, Repr

structure LlcLine where
  line : Line
  dirty : Bool
  use : Nat
  deriving DecidableEq, Repr

/-- A snoop-filter entry (R175). -/
structure DirEnt where
  mask : BitVec 3
  owner : Option Nat
  use : Nat
  deriving DecidableEq, Repr

/-- Three counters, one each for C0, C1 and H (R212). -/
structure V3 where
  c0 : Nat
  c1 : Nat
  h : Nat
  deriving DecidableEq, Repr

/-- Requests that stand at a home (R175, R177). -/
inductive HKind where
  | rds | rdu | upg
  /-- a write-back of this data (R175); `bulk` carries no postmark -/
  | wbd (line : Line) (bulk : Bool)
  | evc
  /-- an atomic of core access `acc` to execute at the home (R177) -/
  | atomic (core acc : Nat)
  deriving DecidableEq, Repr

structure HReq where
  line : Nat
  agent : Nat
  kind : HKind
  post : V3
  deriving DecidableEq, Repr

/-- A transaction in progress: the snoops it awaits (R173, R175). -/
structure Txn where
  req : HReq
  await : List Nat
  /-- 0 SnpS, 1 SnpI with dirty data forwarded, 2 BackInv, 3 SnpI with dirty data written back (an atomic's recall, R177) -/
  snoop : Nat
  /-- data forwarded by a holder -/
  data : Option Line
  /-- the forwarded dirty data hold bulk stores only (R213) -/
  bulk : Bool
  deriving DecidableEq, Repr

/-- A write that has arrived at its home and is not applied (R214). -/
structure PWrite where
  line : Nat
  agent : Nat
  post : V3
  bulk : Bool
  data : Line
  deriving DecidableEq, Repr

/-- Where a part of an access goes. -/
inductive Loc where
  | mem (pa : Nat) (cmp : Bool)
  | spad (team off : Nat)
  | cst (off : Nat)
  | remote (pa : Nat)
  | dev (off : Nat)
  deriving DecidableEq, Repr

/-- One naturally aligned piece of an access: `at_` is its byte position in the value. -/
structure Part where
  loc : Loc
  bytes : Nat
  at_ : Nat
  deriving DecidableEq, Repr

/-- The operation of an atomic (R304, R305). -/
structure AtomOp where
  aop : AOp
  kind : AKind
  rnd : Rnd
  place : Place
  bytes : Nat
  b : W64
  cmp : W64
  rsw : W32
  psn : Bool
  deriving DecidableEq, Repr

inductive AccKind where
  | load (sx : Bool) (bits : Nat)
  /-- the elements of an LDM in one lane: `parts` is what is still to come, the rest stands in these registers (R349) -/
  | frag (got : List Val)
  | store (data : Nat) (psn : Bool)
  | atomic (op : AtomOp)
  /-- a FLUSH of the line (R303) -/
  | flush
  /-- a PREF of the line into L1 (R302) -/
  | pref
  /-- the reading of another package's word for a WAITV (R317) -/
  | poll
  deriving DecidableEq, Repr

/-- A memory access of a thread in flight at its core (R107, R208). -/
structure Acc where
  id : Nat
  t : TRef
  kind : AccKind
  parts : List Part
  dsts : List Dst
  bulk : Bool
  ord : Ord
  scope : Scope
  /-- a store that stands in L1 as pending bytes, or an atomic sent to its home -/
  inL1 : Bool
  /-- order in which stores entered L1 (R208) -/
  l1seq : Nat
  /-- cycle before which no dependent instruction issues (R16) -/
  due : Nat
  /-- a value that came back: an atomic's old value, a remote load's data -/
  reply : Option (Nat × Bool)
  /-- a store in L1 that a load has read, or that a FENCE with bulk or a release of its thread has passed: stores that enter the L1 at
  this number or later keep behind it, whatever their kind (R209, R218, R221) -/
  mark : Option Nat
  /-- the cycle of its issue: with its group it names the issue (R297) -/
  cyc : Nat := 0
  deriving DecidableEq, Repr

/-- A cached leaf translation (R184). -/
structure TlbEnt where
  ctx : Nat
  va : Nat
  size : Nat
  pa : Nat
  w : Bool
  x : Bool
  cmp : Bool
  deriving DecidableEq, Repr

/-- A look-aside entry of a brick (R196). -/
structure ClbEnt where
  ctx : Nat
  dva : Nat
  key : Nat
  brick : Nat
  esz : Nat
  use : Nat
  deriving DecidableEq, Repr

/-- What a walk has found (R194): a brick with its ESZ; the word where it met absent space (0 bucket, 1 level-2 entry, 2 level-1
entry), or a full root, with the descriptor's line as the walk read it; an exception, with the ESZ of a descriptor that was read. -/
inductive WalkEnd where
  | brick (va esz : Nat)
  | absent (level va : Nat) (desc : BitVec 1024)
  | full (desc : BitVec 1024)
  | exc (esz : Option Nat) (e : Exc)
  deriving DecidableEq, Repr

/-- A walk of a core (R197): its brick, the cycle of its start, the threads that wait for it and, once it has ended, its result for
those that have not taken it yet. A link leaves its result in the same form (R198). -/
structure Walk where
  id : Nat
  ctx : Nat
  dva : Nat
  key : Nat
  since : Nat
  /-- the threads that wait for it, each with the PC where it stands -/
  waiters : List (TRef × W64)
  res : Option WalkEnd
  deriving DecidableEq, Repr

structure MEngine where
  queue : List MJob
  suspended : Option MJob
  running : Option MJob
  pipe : List MJob
  deriving DecidableEq, Repr

/-- A queued solve (R376). -/
structure SJob where
  t : TRef
  ins : Instr
  blk : Nat
  log : Nat
  pages : List (Nat × Nat)
  dst : Option Dst
  failed : Bool
  deriving DecidableEq, Repr

/-- A COMPACT in the compactor (R382). -/
structure CJob where
  team : Nat
  due : Nat
  /-- participant, key, value, destinations -/
  parts : List (TRef × Val × Val × List Dst)
  failed : Bool
  deriving DecidableEq, Repr

structure Core where
  ctx : Option Nat
  sems : Tab W32
  cst : ByteMem
  cpsn : List Nat
  acc : List Acc
  tlb : List TlbEnt
  clb : List ClbEnt
  walks : List Walk
  icache : List Nat
  meng : MEngine
  solves : List SJob
  compacts : List CJob
  acks : Nat
  /-- arithmetic cycle of the core's reset (R120) -/
  cyc0 : Nat
  deriving DecidableEq, Repr

/-- The core as it stands with nothing in it. -/
def Core.idle : Core := ⟨none, [], [], [], [], [], [], [], [], ⟨[], none, none, []⟩, [], [], 0, 0⟩

/-- Cluster units (R367). -/
structure Cluster where
  fused : Bool
  sortQ : List (Nat × Nat)
  travQ : List (Nat × Nat)
  deriving DecidableEq, Repr

/-! Queues (R75-R89). -/

structure Letter where
  bytes : BitVec 256
  seq : Nat
  /-- uncorrectable (R436) -/
  bad : Bool
  deriving DecidableEq, Repr

/-- A letter taken and not released (R84, R326). -/
structure Taken where
  t : TRef
  letter : Letter
  outst : Bool
  deriving DecidableEq, Repr

structure MailSlot where
  used : Bool
  gen : Nat
  bytes : ByteMem
  psn : List Nat
  deriving DecidableEq, Repr

/-- A waiting take, in the order of arrival at the hub (R325). -/
structure QWait where
  t : TRef
  deriving DecidableEq, Repr

/-- Chunks [lo, hi) of the range being handed out (R86). -/
structure Span where
  lo : Nat
  hi : Nat
  deriving DecidableEq, Repr

structure Queue where
  ack : Bool
  dist : Bool
  prio : Nat
  ctx : Nat
  ring : Nat
  spill : Nat
  spillbase : W64
  mailn : Nat
  letters : List Letter
  sphead : Nat
  sptail : Nat
  /-- sequence numbers of the letters in the spill ring, oldest first -/
  spseq : List Nat
  posted : Nat
  refused : Nat
  dropped : Nat
  returned : Nat
  taken : List Taken
  mail : Tab MailSlot
  die : Nat
  store : Nat
  waits : List QWait
  /-- the range in the distributors, with the chunks still there -/
  range : Option Letter
  pkgSpans : List Span
  dieSpans : Tab (List Span)
  cluSpans : Tab (List Span)
  badChunks : List Nat
  deriving DecidableEq, Repr

/-- A versioned register (R322). -/
structure VsReg where
  value : W64
  version : W32
  psn : Bool
  deriving DecidableEq, Repr

/-! Hub. -/

/-- An error-log record without its reserved bytes (R412). -/
structure LogRec where
  seq : W32
  cls : BitVec 8
  sev : BitVec 8
  unit : BitVec 16
  addr : W64
  ctx : BitVec 8
  flags : BitVec 8
  count : BitVec 16
  detail : W32
  ucyc : W64
  hcyc : W64
  deriving DecidableEq, Repr

/-- An event counter of a unit (R419). -/
structure Counter where
  /-- cycle of the unit's clock at which the open window closes -/
  closes : Option Nat
  count : Nat
  stopped : Bool
  deriving DecidableEq, Repr

/-- A detected event that is counted and logged when the unit's cycle ends, in the order of the detecting checks (R412, R420). -/
structure ErrRec where
  unit : Nat
  cls : Nat
  addr : Nat
  flags : Nat
  ctx : Nat
  detail : Nat
  check : Nat
  deriving DecidableEq, Repr

/-- A communicator slot of Relay (R360, R361). -/
structure Slot where
  commid : W32
  rank : Nat
  ctx : Nat
  va : W64
  nrank : Nat
  pkgs : List Nat
  prio : Nat
  chunklog : Nat
  /-- the virtual channel of its messages and leave messages (R363, R496) -/
  vc : Nat
  /-- the compute die whose L2 TLB Relay uses for the rank (R181) -/
  die : Nat
  /-- the forming that it belongs to: 0 until every rank has formed (R361) -/
  epoch : Nat
  ready : Bool
  degraded : Bool
  /-- collectives completed since forming -/
  cdone : Nat
  lost : List Nat
  /-- steps started for other communicators since this one had a step ready and not chosen (R363) -/
  w : Nat
  deriving DecidableEq, Repr

/-- What the ranks of a collective compare at their first exchange (R364); `cop` 0 ARED, 1 RSCAT, 2 AGATH, 3 BCAST, 4 CBAR. -/
structure CollKind where
  cop : Nat
  ty : Ty
  rnd : Rnd
  op : Nat
  count : Nat
  root : Nat
  deriving DecidableEq, Repr

/-- A chunk on its way round the ring (R362, R363): the next place of its course, the ranks whose contributions it holds, and what
its reserved chunk buffer holds: values with their poison. -/
structure RChunk where
  idx : Nat
  pos : Nat
  inc : List Nat
  vals : List (Nat × Bool)
  deriving DecidableEq, Repr

/-- A collective that every rank has issued: the `num`-th of a forming (R361). -/
structure RColl where
  epoch : Nat
  num : Nat
  nrank : Nat
  chunklog : Nat
  pkgs : List Nat
  /-- what it is; none where the ranks differ -/
  kind : Option CollKind
  /-- what the ranks of other packages have sent -/
  peers : List PeerColl
  /-- the chunks whose course has begun, the first chunks first -/
  chunks : List RChunk
  deriving DecidableEq, Repr

/-- A chunk step: place `place` of the course of chunk `idx`. -/
structure RStep where
  epoch : Nat
  num : Nat
  idx : Nat
  place : Nat
  deriving DecidableEq, Repr

/-- A request to another package (R494, R495). -/
structure RReq where
  tag : Nat
  core : Nat
  acc : Nat
  ctx : Nat
  pa : Nat
  op : RemoteOp
  port : Option Nat
  sent : Nat
  /-- sent by an engine: team, command, position in its unit -/
  eng : Option (Nat × Nat × Nat)
  deriving DecidableEq, Repr

/-- A link request sent and not executed (R198). -/
structure LinkReq where
  id : Nat
  t : TRef
  ins : Instr
  pc : W64
  /-- 0 bucket, 1 level-2 entry, 2 level-1 entry -/
  level : Nat
  wva : Nat
  dva : Nat
  /-- the descriptor's line as the walk read it -/
  desc : BitVec 1024
  vol : Nat
  x : Int
  y : Int
  z : Int
  /-- the operand B of the store or atomic, and the word of its rounding, for a group that halts meanwhile (R466) -/
  b : List Val
  word : W32
  deriving DecidableEq, Repr

/-- A VINVAL in progress (R203): it awaits the context's accesses and links older than `upto`. -/
structure VInvJob where
  t : TRef
  ctl : Ctl
  ctx : Nat
  dva : Nat
  key : Option Nat
  upto : Nat
  /-- hub cycle of its start (R477) -/
  since : Nat
  deriving DecidableEq, Repr

/-- A shoot-down in progress (R185): the cores that have not acknowledged, which await their context's accesses older than `upto`;
`since` is the hub cycle of its start. -/
structure ShootSt where
  tictl : W32
  tiva : W64
  await : List Nat
  upto : Nat
  since : Nat
  deriving DecidableEq, Repr

/-- A deposit, with its claim on the register (R107), a team arrival or a BARINIT on its way (R125, R314, R315). -/
inductive Msg where
  | deposit (src : TRef) (team gid n tag : Nat) (x : Val) (claimed : Bool)
  | barx (team : Nat) (pa : Nat) (addr : W64) (cmp : Bool) (id : Nat)
  | barinit (t : TRef) (ctl : Ctl) (ctx : Nat) (pa : Nat) (expect : W32) (cmp : Bool) (id : Nat)
  deriving DecidableEq, Repr

/-- A team waiting at a package barrier record (R315). -/
structure BarxWait where
  team : Nat
  pa : Nat
  phase : Nat
  deriving DecidableEq, Repr

/-- The hub command in progress (R25): code to end with and result. -/
structure HubRun where
  code : W32
  result : W64
  /-- records that a Read error log has copied; they leave the log when it ends (R413, R415) -/
  taken : Nat
  deriving DecidableEq, Repr

/-- Power bookkeeping of a die (R33, R34, R423): the interval's number and the cycle of the die's clock at which it began, the die's
part of the module's budget, and of the part that fixed consumption leaves the percentages granted to matrix, vector and memory. -/
structure Power where
  profile : BitVec 2
  next : BitVec 2
  reduce : Nat
  interval : Nat
  since : Nat
  budget : Nat
  grants : Nat × Nat × Nat
  logged : Option Nat
  deriving DecidableEq, Repr

inductive Phase where
  | off
  | ready
  /-- `reach`: the CXL port is up, so that the host reaches the device (R30, R31) -/
  | recovery (step : Nat) (reach : Bool)
  | hubLost
  deriving DecidableEq, Repr

/-- A Keanik port (R27, R493). -/
structure Port where
  lanes : Nat
  up : Bool
  replays : Nat
  deriving DecidableEq, Repr

/-- The instruction a pick has issued: its core, subcore, PC, word and lanes in ascending order (R56). -/
structure Issue where
  core : Nat
  sub : Nat
  pc : W64
  word : Word96
  ins : Instr
  lanes : List TRef
  deriving DecidableEq, Repr

/-- An entry of a subcore's ready list (R55): the group of its lowest lane, the slot (8 for a collective) and the PC. -/
structure RdyKey where
  team : Nat
  gid : Nat
  slot : Nat
  pc : W64
  deriving DecidableEq, Repr

structure State where
  phase : Phase
  /-- arithmetic cycles (assumption 4) -/
  now : Nat
  -- steps of other agents still to come, the picks left in this cycle, the issue a pick has chosen (assumption 3)
  agenda : List Instr
  todo : List (Nat × Nat)
  cur : Option Issue
  /-- the ready lists (R55), by 4 × core + subcore: what stands in them after the last pick -/
  rdy : Tab (List RdyKey)
  -- the model's own counters: free values, claims, identities, orders
  free : Nat
  claims : Nat
  ids : Nat
  -- hub command window (R22)
  hcmd : W32
  harg0 : W64
  harg1 : W64
  harg2 : W64
  hstat : W32
  hresult : W64
  hreject : W32
  hpkg : Nat
  hubRun : Option HubRun
  rlog : List Byte
  mr0 : BitVec 512
  mr1 : BitVec 512
  order : W32
  serial : W64
  -- error log and counters (R412-R422)
  log : List LogRec
  logSeq : W32
  logLost : Nat
  counters : Tab Counter
  /-- events of this cycle that are still to be counted (R420) -/
  errs : List ErrRec
  retired : List Nat
  retiring : List Nat
  spareRows : Tab Nat
  /-- rows that are being remapped: memory die, channel, PA (R421) -/
  remaps : List (Nat × Nat × Nat)
  -- power (R33-R36)
  power : Tab Power
  halved : Bool
  moduleLogged : Option Nat
  -- versioned registers (R322)
  vs : Tab VsReg
  -- queues (R79-R89)
  qdtbase : W64
  qsize : W32
  qstat : W32
  /-- the status with which the queue command in progress will end (R80) -/
  qrun : Option W32
  queues : Tab Queue
  storeUsed : Tab Nat
  /-- posts refused by queues that are not enabled, until they are (R80, R82) -/
  refusedOff : Tab Nat
  /-- threads that had taken letters of a queue when it was discarded (R80): queue number and thread -/
  discarded : List (Nat × TRef)
  /-- for each PRIO the queue served last (R85) -/
  qturn : Tab Nat
  -- translation control page (R185)
  tictl : W32
  tiva : W64
  tistat : W32
  shoot : Option ShootSt
  /-- shoot-downs that wait for their turn: TICTL and TIVA (R185) -/
  shootQ : List (W32 × W64)
  -- contexts, teams, groups, threads
  ctxs : Tab Ctx
  teams : Tab Team
  groups : Tab Group
  threads : Tab Thread
  ages : Nat
  saveSeq : Nat
  -- cores, clusters, dies
  cores : Tab Core
  clusters : Tab Cluster
  l2tlb : Tab (List TlbEnt)
  lostDies : List Nat
  probes : Tab Nat
  /-- hub cycle of the last probe of each die (R424) -/
  probeAt : Tab Nat
  linkLanes : Tab Nat
  -- caches, homes, HBM
  l1 : Tab L1Line
  ag : Tab AgLine
  llc : Tab LlcLine
  dir : Tab DirEnt
  homeQ : List HReq
  txns : List Txn
  pwrites : List PWrite
  clock : Tab V3
  settle : V3
  sent : V3
  applied : Tab V3
  homeSettle : Tab V3
  /-- the settle values that each die has been told (R214) -/
  dieSettle : Tab V3
  predictor : Tab (List (Nat × Nat))
  mem : ByteMem
  mpsn : List Nat
  ccode : Tab Nat
  /-- the blocks in a memory die's metadata cache, newest first (R180) -/
  mdcache : Tab (List Nat)
  -- messages, links, VINVALs, package barriers
  msgs : List Msg
  links : List LinkReq
  vinvs : List VInvJob
  barxs : List BarxWait
  /-- package barrier records that the barrier units serve, by PA (R313, R425) -/
  barRecs : List Nat
  -- Relay (R360-R365)
  slots : Tab Slot
  peers : List PeerColl
  colls : List RColl
  /-- chunk steps that are ready, with the cycle in which they became so (R363) -/
  relayReady : List (RStep × Nat)
  -- Keanik (R27, R493-R495)
  ports : Tab Port
  rreqs : List RReq
  rtag : Nat
  rdone : List (Nat × Nat × Nat)
  fenced : List Nat
  deriving DecidableEq, Repr

/-- The reasons a step stops with a fault. -/
inductive Fault where
  /-- A page table maps to a physical address whose PKG is 192 to 255, which R18 reserves: raised by an access, a fetch or a
  walk that reaches it. Safe: the manual gives such an address no effect. -/
  | reservedPackage (pa : Nat)
  deriving DecidableEq, Repr

/-- The reasons a step is refused. -/
inductive Refusal where
  /-- The instruction has no meaning in this model yet: raised by Dispatch only. Safe. -/
  | notModelled (mnemonic : String)
  deriving DecidableEq, Repr

/-- The outcome of a meaning. -/
abbrev Result := Host.Outcome State Fault Refusal

/-- The package after a boot that succeeded (R29 step 5): HSTAT 0x00, no plan, no queue, all memory zero and clean
(assumptions 1, 2, 5). -/
def State.reset : State where
  phase := .ready
  now := 0
  agenda := []
  todo := []
  cur := none
  rdy := []
  free := 0
  claims := 0
  ids := 0
  hcmd := 0
  harg0 := 0
  harg1 := 0
  harg2 := 0
  hstat := 0
  hresult := 0
  hreject := 0
  hpkg := 0
  hubRun := none
  rlog := []
  mr0 := 0
  mr1 := 0
  order := 8600
  serial := 0
  log := []
  logSeq := 0
  logLost := 0
  counters := []
  errs := []
  retired := []
  retiring := []
  spareRows := []
  remaps := []
  power := []
  halved := false
  moduleLogged := none
  vs := []
  qdtbase := 0
  qsize := 0
  qstat := 0
  qrun := none
  queues := []
  storeUsed := []
  refusedOff := []
  discarded := []
  qturn := []
  tictl := 0
  tiva := 0
  tistat := 0
  shoot := none
  shootQ := []
  ctxs := []
  teams := []
  groups := []
  threads := []
  ages := 0
  saveSeq := 0
  cores := []
  clusters := []
  l2tlb := []
  lostDies := []
  probes := []
  probeAt := []
  linkLanes := []
  l1 := []
  ag := []
  llc := []
  dir := []
  homeQ := []
  txns := []
  pwrites := []
  clock := []
  settle := ⟨0, 0, 0⟩
  sent := ⟨0, 0, 0⟩
  applied := []
  homeSettle := []
  dieSettle := []
  predictor := []
  mem := []
  mpsn := []
  ccode := []
  mdcache := []
  msgs := []
  links := []
  vinvs := []
  barxs := []
  barRecs := []
  slots := []
  peers := []
  colls := []
  relayReady := []
  ports := []
  rreqs := []
  rtag := 0
  rdone := []
  fenced := []

end Sys2Proof.Machine
end

