-- ==== Sys2Proof/Machine/Log.lean ====
section
/-! DEFINITION. Physical addresses (R18), the error log and the event counters of the units (R411-R415, R419-R422). -/

namespace Sys2Proof.Machine

/-! Physical addresses: R18. -/

def paPkg (pa : Nat) : Nat := pa / 2 ^ 40 % 256
def paDev (pa : Nat) : Bool := bit pa 39
def paMdie (pa : Nat) : Nat := pa / 2 ^ 36 % 8

/-- Memory of this package, not device space. -/
def isOwnMem (s : State) (pa : Nat) : Bool := paPkg pa == s.hpkg && !paDev pa

/-- Does the package run, with CXL.mem and Keanik up (R29, R31, R427)? -/
def isUp (s : State) : Bool := s.phase == .ready

/-- Line number within the package. -/
def lineOf (pa : Nat) : Nat := pa % 2 ^ 39 / 128

/-- Memory die of a line. -/
def lineMdie (ln : Nat) : Nat := ln / 2 ^ 29 % 8

/-- Dies by number: 0 C0, 1 C1, 2 to 9 M0 to M7. -/
def dieLost (s : State) (d : Nat) : Bool := s.lostDies.contains d

/-- A canonical address (R161): bits [63:57] equal bit 56. -/
def canonical (va : Nat) : Bool := va / 2 ^ 56 % 256 == 0 || va / 2 ^ 56 % 256 == 255

/-- An address sign-extended from bit 56. -/
def sx57 (x : Nat) : Nat := wrap 64 (signed 57 x)

/-! Units: R412. -/

def unitDie (d : Nat) : Nat := d * 4096
def unitCore (c : Nat) : Nat := c / 192 * 4096 + 256 + c % 192
def unitCluster (c : Nat) : Nat := c / 24 * 4096 + 512 + c % 24
def unitHbm (md ch : Nat) : Nat := (2 + md) * 4096 + 768 + ch
def unitLlc (md : Nat) : Nat := (2 + md) * 4096 + 1024
def unitPort (p : Nat) : Nat := 10 * 4096 + 1536 + p
def unitHub (i : Nat) : Nat := 10 * 4096 + 1792 + i
/-- The hub as a whole. -/
def unitH : Nat := 10 * 4096

def unitDieOf (u : Nat) : Nat := u / 4096
def unitKind (u : Nat) : Nat := u / 256 % 16

/-- The HBM channel of a physical address within its memory die (R20). -/
def hbmChannel (pa : Nat) : Nat := bits pa 12 8 ^^^ bits pa 20 16

/-- Is a unit of kind 5 an end of a UCIe link (R8)? -/
def isLink (u : Nat) : Bool :=
  let b := u % 256
  unitKind u == 5 && (match unitDieOf u with
    | 0 => b == 1 || b == 10 || (2 ≤ b && b < 6)
    | 1 => b == 0 || b == 10 || (6 ≤ b && b < 10)
    | 10 => b < 2
    | a => a < 10 && b == (a - 2) / 4)

/-- The cycle count of a unit's own clock (assumption 4). -/
def unitCycle (s : State) (u : Nat) : Nat :=
  if unitDieOf u < 2 then s.now else if unitDieOf u < 10 then memCycle s.now else hubCycle s.now

/-- Is a core retiring or retired, itself or with its cluster (R421, R422)? -/
def coreOut (s : State) (c : Nat) : Bool :=
  let l := s.retired ++ s.retiring
  l.contains (unitCore c) || l.contains (unitCluster (c / 8)) || dieLost s (c / 192)

/-- Records that the log holds (R412). -/
def logCap : Nat := 8192

/-- Enter a record, or count it as lost (R415). -/
def logRec (s : State) (u cls sev addr flags ctx detail count : Nat) : State :=
  if s.phase == .off || s.phase == .hubLost then s
  else if logCap ≤ s.log.length then { s with logLost := s.logLost + 1 }
  else { s with
    log := s.log ++ [{ seq := s.logSeq, cls := BitVec.ofNat 8 cls, sev := BitVec.ofNat 8 sev, unit := BitVec.ofNat 16 u
                       addr := BitVec.ofNat 64 addr, ctx := BitVec.ofNat 8 ctx, flags := BitVec.ofNat 8 flags
                       count := BitVec.ofNat 16 (min count 65535), detail := BitVec.ofNat 32 detail
                       ucyc := BitVec.ofNat 64 (unitCycle s u), hcyc := BitVec.ofNat 64 (hubCycle s.now) }]
    logSeq := s.logSeq + 1 }

/-- Close a window whose end has come (R419, R420). -/
def Counter.settle (c : Counter) (cyc : Nat) : Counter :=
  match c.closes with
  | some e => if e ≤ cyc && !c.stopped then { c with closes := none, count := 0 } else c
  | none => c

/-- Spare rows of an HBM channel (R421). -/
def spareMax : Nat := 64

/-- Has an HBM channel a spare row left for one more remap? -/
def spareLeft (s : State) (u : Nat) : Bool := Tab.getD s.spareRows u 0 + (s.remaps.filter fun r => unitHbm r.1 r.2.1 == u).length < spareMax

/-- Retirement of a unit with a lasting fault (R421): a channel remaps a row, a core or a cluster retires. -/
def retireUnit (s : State) (u addr : Nat) : State :=
  if unitKind u == 3 then { s with remaps := s.remaps ++ [(unitDieOf u - 2, u % 256, addr)] }
  else { s with retiring := setInsert s.retiring u }

/-- One detected event: counted in its unit's window and logged as R414 and R419 direct. -/
def logEvent (s : State) (u cls sev addr flags ctx detail : Nat) : State :=
  let c := (Tab.getD s.counters u ⟨none, 0, false⟩).settle (unitCycle s u)
  let quiet := cls == 1 || cls == 5
  if c.stopped then (if quiet then s else logRec s u cls sev addr flags ctx detail c.count)
  else
    let first := c.closes.isNone
    let c : Counter := { c with closes := if first then some (unitCycle s u + 2 ^ 32) else c.closes, count := c.count + 1 }
    let s := if quiet && !first then s else logRec s u cls sev addr flags ctx detail c.count
    if 8 < c.count then
      -- an HBM channel without a spare row reports the page that holds the row
      let page := unitKind u == 3 && !spareLeft s u
      let s := logRec s u 7 2 (if page then addr / 65536 * 65536 else 0) (b2n page) 0xFF c.count c.count
      retireUnit { s with counters := Tab.set s.counters u { c with stopped := true } } u addr
    else { s with counters := Tab.set s.counters u c }

/-- The units of R412 of a die's kinds. -/
def unitExists (u : Nat) : Bool :=
  let d := unitDieOf u
  let i := u % 256
  match unitKind u with
  | 0 => d ≤ 10 && i == 0
  | 1 => d < 2 && i < 192
  | 2 => d < 2 && i < 24
  | 3 => 2 ≤ d && d < 10 && i < 32
  | 4 => 2 ≤ d && d < 10 && i == 0
  | 5 => isLink u
  | 6 => d == 10 && i < 18
  | 7 => d == 10 && i < 6
  | _ => false

/-- Count and log an event: a corrected one or a link retry has SEV 0, what is contained SEV 1 (R412). -/
def ErrRec.enter (s : State) (r : ErrRec) : State :=
  logEvent s r.unit r.cls (if r.cls == 1 || r.cls == 5 then 0 else 1) r.addr r.flags r.ctx r.detail

/-- The events of a unit's cycle that ends with this arithmetic cycle are counted, in ascending order of detecting check (R420). -/
def errSettle (s : State) : State :=
  let closes := fun (r : ErrRec) => unitCycle s r.unit != unitCycle { s with now := s.now + 1 } r.unit
  let l := s.errs.filter closes
  if l.isEmpty then s
  else ((l.map (·.unit)).eraseDups.flatMap fun u => sortBy (fun a b => a.check ≤ b.check) (l.filter fun r => r.unit == u)).foldl
    ErrRec.enter { s with errs := s.errs.filter fun r => !closes r }

/-- A write to a lost memory die is discarded and counted (R426, R487). -/
def lostWrite (s : State) (pa ctx : Nat) : State :=
  if dieLost s (2 + paMdie pa) then logEvent s unitH 3 1 pa 1 ctx 1 else s

end Sys2Proof.Machine
end

