-- ==== Sys2Proof/Machine/Home.lean ====
section
/-! DEFINITION. Lines and their poison (R181, R416), L1 and agent lines (R169-R172, R174, R208), the homes
with their requests, snoops, write-backs and postmarked writes (R173-R176, R212-R214), atomics at the home (R177-R179), and the
point of coherence (R206) with the reads and writes that go to it. -/

namespace Sys2Proof.Machine

/-! Lines. -/

/-- `n` bytes at offset `o` of a line. -/
def Line.get (l : Line) (o n : Nat) : Nat := l.data.toNat / 2 ^ (8 * o) % 2 ^ (8 * n)

/-- The granules that bytes [o, o + n) touch, as bits. -/
def granMask (o n : Nat) : Nat := if n == 0 then 0 else 2 ^ ((o + n - 1) / 32 + 1) - 2 ^ (o / 32)

/-- The granules that bytes [o, o + n) cover whole. -/
def granFull (o n : Nat) : Nat :=
  let lo := (o + 31) / 32
  let hi := (o + n) / 32
  if lo < hi then 2 ^ hi - 2 ^ lo else 0

def Line.poisoned (l : Line) (o n : Nat) : Bool := l.psn.toNat &&& granMask o n != 0

/-- Write `n` bytes at offset `o` (R416). -/
def Line.put (l : Line) (o n x : Nat) (psn : Bool) : Line :=
  let m := (2 ^ (8 * n) - 1) * 2 ^ (8 * o)
  { l with
    data := (l.data &&& ~~~(BitVec.ofNat 1024 m)) ||| BitVec.ofNat 1024 (x % 2 ^ (8 * n) * 2 ^ (8 * o))
    psn := if psn then l.psn ||| BitVec.ofNat 4 (granMask o n) else l.psn &&& ~~~(BitVec.ofNat 4 (granFull o n)) }

/-! The point of coherence. -/

def agKey (agent ln : Nat) : Nat := agent * 2 ^ 32 + ln
def l1Key (core ln : Nat) : Nat := core * 2 ^ 32 + ln

def agLine? (s : State) (agent ln : Nat) : Option AgLine := Tab.get? s.ag (agKey agent ln)

def Moesi.owns : Moesi → Bool
  | .s => false
  | _ => true

def Moesi.dirty : Moesi → Bool
  | .m | .o => true
  | _ => false

/-- The agent that holds a line in M, O or E, if one does. -/
def owner? (s : State) (ln : Nat) : Option (Nat × AgLine) :=
  [0, 1, 2].findSome? fun a => match agLine? s a ln with
    | some l => if l.st.owns then some (a, l) else none
    | none => none

/-- The newest write-back of a line on its way to the home or waiting there. -/
def wbInFlight (s : State) (ln : Nat) : Option Line :=
  let a := s.pwrites.foldl (fun acc w => if w.line == ln then some w.data else acc) none
  s.homeQ.foldl (fun acc r => if r.line == ln then (match r.kind with | .wbd d _ => some d | _ => acc) else acc) a

/-- The recorded code of a block (R180): nothing has been written to one that is not listed, and it is all zero (assumption 1). -/
def blockCodeOf (s : State) (blk : Nat) : Nat := Tab.getD s.ccode blk 3

/-- Does HBM hold a block compressed? Both its lines carried CMP 1 (R181). -/
def blockCmp (s : State) (blk : Nat) : Bool := blockCodeOf s blk == 1 || blockCodeOf s blk == 2

/-- A line as HBM holds it. -/
def hbmLine (s : State) (ln : Nat) : Line :=
  ⟨BitVec.ofNat 1024 (memLoad s.mem (ln * 128) 128),
   BitVec.ofNat 4 ((List.range 4).foldl (fun a i => if s.mpsn.contains (ln * 4 + i) then a + 2 ^ i else a) 0), blockCmp s (ln / 2)⟩

/-- A line as its home holds it: LLC, else HBM (R173). -/
def homeLine (s : State) (ln : Nat) : Line :=
  match Tab.get? s.llc ln with
  | some l => l.line
  | none => hbmLine s ln

/-- The CMP bit of a write at the home: its translation's, else the one that the line has in the LLC, 0 where it is not there (R181). -/
def homeCmp (s : State) (ln : Nat) (cmp : Option Bool) : Bool :=
  cmp.getD (match Tab.get? s.llc ln with | some l => l.line.cmp | none => false)

/-! L1 lines. -/

/-- Bytes [o, o + n) of a line as a mask. -/
def byteMask (o n : Nat) : BitVec 128 := BitVec.ofNat 128 ((2 ^ n - 1) * 2 ^ o)

/-- Drop the bytes of a line that are not pending from every L1 that `p` selects (R170, R208). -/
def l1InvalWhere (s : State) (ln : Nat) (p : Nat → Bool) : State :=
  { s with l1 := s.l1.filterMap fun (k, l) =>
      if k % 2 ^ 32 == ln && p (k / 2 ^ 32) then
        (if l.pend == 0 then none else some (k, { l with valid := l.pend })) else some (k, l) }

def l1Inval (s : State) (ln : Nat) : State := l1InvalWhere s ln fun _ => true

/-- The coherent agent of a core: its die's L2 (R174). -/
def agentOf (core : Nat) : Nat := core / 192

def getCore (s : State) (c : Nat) : Core := Tab.getD s.cores c Core.idle
def setCore (s : State) (c : Nat) (k : Core) : State := { s with cores := Tab.set s.cores c k }
def modCore (s : State) (c : Nat) (f : Core → Core) : State := setCore s c (f (getCore s c))

def findAcc (s : State) (core k : Nat) : Option Acc := (getCore s core).acc.find? fun a => a.id == k

def modAcc (s : State) (core k : Nat) (f : Acc → Acc) : State :=
  modCore s core fun c => { c with acc := c.acc.map fun a => if a.id == k then f a else a }

def Acc.part (a : Acc) : Part := a.parts.headD ⟨.cst 0, 0, 0⟩

def modAg (s : State) (agent ln : Nat) (f : AgLine → AgLine) : State :=
  { s with ag := Tab.modify s.ag (agKey agent ln) f }

/-- The L2 tracks the L1s of its die that hold a line (R170). -/
def setPres (s : State) (agent ln : Nat) : State :=
  modAg s agent ln fun a => { a with pres := s.l1.filterMap fun (k, _) =>
    if k % 2 ^ 32 == ln && k / 2 ^ 32 / 192 == agent then some (k / 2 ^ 32) else none }

/-- The L1 that may hold a line for a core: its own, or the slice of its fused cluster (R171). -/
def l1Slice (s : State) (core ln : Nat) : Nat :=
  match Tab.get? s.clusters (core / 8) with
  | some c => if c.fused then core / 8 * 8 + ((ln % 8) ^^^ (ln / 8 % 8)) else core
  | none => core

def l1Line? (s : State) (slice ln : Nat) : Option L1Line := Tab.get? s.l1 (l1Key slice ln)

/-- The set of a line: in a fused cluster the slice fixes three of its low bits, so the bits above the lowest three choose the set
(R171, assumption 11). -/
def l1SetOf (s : State) (slice ln : Nat) : Nat :=
  if (match Tab.get? s.clusters (slice / 8) with | some c => c.fused | none => false) then ln / 8 % 128 else ln % 128

/-- What an L1 of 16 ways does with a new line: there is room, its least recently used line without a pending byte goes, or none may
(R169, R208). -/
inductive L1Room where
  | free
  | evict (ln : Nat)
  | none
  deriving DecidableEq, Repr

def l1Room (s : State) (slice ln : Nat) : L1Room :=
  if (l1Line? s slice ln).isSome then .free
  else
    let mine := s.l1.filter fun (k, _) => k / 2 ^ 32 == slice && l1SetOf s slice (k % 2 ^ 32) == l1SetOf s slice ln
    if mine.length < 16 then .free
    else match mine.filter fun (_, x) => x.pend == 0 with
      | [] => .none
      | c :: rest => .evict ((rest.foldl (fun m x => if x.2.use < m.2.use then x else m) c).1 % 2 ^ 32)

/-- Put a line into an L1; where every way holds pending bytes, nothing enters. -/
def l1Put (s : State) (slice ln : Nat) (l : L1Line) : State :=
  let put := fun (s : State) => setPres { s with l1 := Tab.set s.l1 (l1Key slice ln) l } (slice / 192) ln
  match l1Room s slice ln with
  | .free => put s
  | .evict v => put (setPres { s with l1 := Tab.erase s.l1 (l1Key slice v) } (slice / 192) v)
  | .none => s

/-- A line with the bytes of a store pending. -/
def L1Line.store (l : L1Line) (o n x : Nat) (psn : Bool) (now : Nat) : L1Line :=
  { valid := l.valid ||| byteMask o n, pend := l.pend ||| byteMask o n, line := l.line.put o n x psn, use := now }

def Acc.isStore (a : Acc) : Bool := match a.kind with | .store .. => true | _ => false

/-- A cluster's L1s become one, or private again: every line is invalidated first, which leaves the bytes that are pending
(R171, R208). They stand afterwards where the line then lives; a set may hold them above its 16 ways until its L2 has applied them
(assumption 11). -/
def reshapeL1 (s : State) (cl : Nat) (fused : Bool) : State :=
  let stores := sortBy (fun a b => a.2.l1seq ≤ b.2.l1seq) ((List.range 8).flatMap fun i =>
    ((getCore s (cl * 8 + i)).acc.filter fun a => a.isStore && a.inL1).map fun a => (cl * 8 + i, a))
  let c := Tab.getD s.clusters cl ⟨false, [], []⟩
  let s := { s with clusters := Tab.set s.clusters cl { c with fused := fused }, l1 := s.l1.filter fun (k, _) => k / 2 ^ 32 / 8 != cl }
  stores.foldl (fun s (core, a) => match a.kind, a.part.loc with
    | .store d psn, .mem pa _ =>
      let ln := lineOf pa
      let sl := l1Slice s core ln
      setPres { s with l1 := Tab.set s.l1 (l1Key sl ln) (((l1Line? s sl ln).getD ⟨0, 0, Line.zero, 0⟩).store (pa % 128) a.part.bytes d psn s.now) }
        (agentOf core) ln
    | _, _ => s) s

/-- Drop the line from an agent; a compute die drops it from its L1s first (R170). -/
def dropAgent (s : State) (agent ln : Nat) : State :=
  let s := { s with ag := Tab.erase s.ag (agKey agent ln) }
  if agent < 2 then l1InvalWhere s ln fun c => c / 192 == agent else s

/-- Write a line into the LLC of its home (R173, R175). -/
def llcPut (s : State) (ln : Nat) (l : Line) : State :=
  { s with llc := Tab.set s.llc ln ⟨l, true, s.now⟩ }

/-! Die clocks: R212, R213. -/

def V3.zero : V3 := ⟨0, 0, 0⟩
def V3.get (v : V3) (a : Nat) : Nat := match a with | 0 => v.c0 | 1 => v.c1 | _ => v.h
def V3.set (v : V3) (a n : Nat) : V3 := match a with | 0 => { v with c0 := n } | 1 => { v with c1 := n } | _ => { v with h := n }
def V3.max (a b : V3) : V3 := ⟨Nat.max a.c0 b.c0, Nat.max a.c1 b.c1, Nat.max a.h b.h⟩

def clockOf (s : State) (agent : Nat) : V3 := Tab.getD s.clock agent V3.zero
def mergeClock (s : State) (agent : Nat) (p : V3) : State :=
  { s with clock := Tab.set s.clock agent ((clockOf s agent).max p) }

/-- Would the next number of a die leave its 64 bits? -/
def wraps (s : State) (agent : Nat) : Bool := 2 ^ 64 ≤ s.sent.get agent + 1

/-- May a die number a write now? A counter that would wrap waits until every one of its writes has settled (R212). -/
def mayNumber (s : State) (agent : Nat) : Bool := !wraps s agent || s.settle.get agent == s.sent.get agent

/-- A die numbers on from 0: what other dies and homes have recorded of it is settled and falls to 0 (R212, assumption 69). -/
def renumber (s : State) (agent : Nat) : State :=
  let z := fun (t : Tab V3) => t.map fun (k, v) => (k, v.set agent 0)
  { s with
    sent := s.sent.set agent 0, settle := s.settle.set agent 0, clock := z s.clock, applied := z s.applied
    homeSettle := z s.homeSettle, dieSettle := z s.dieSettle }

/-- Number a non-bulk write that a die sends toward a home: its postmark is the sender's clock at that moment. -/
def numberWrite (s : State) (agent : Nat) : V3 × State :=
  if wraps s agent then
    let s := renumber s agent
    ((clockOf s agent).set agent 0, s)
  else
    let n := s.sent.get agent + 1
    let p := (clockOf s agent).set agent n
    (p, { s with sent := s.sent.set agent n, clock := Tab.set s.clock agent p })

/-! Settling: R214. -/

/-- The number of a write of an agent that is not applied yet. -/
def outstanding (s : State) (d : Nat) : List Nat :=
  (s.homeQ.filterMap fun r => if r.agent == d then (match r.kind with
    | .wbd _ false | .atomic .. => some (r.post.get d)
    | _ => none) else none) ++
  s.pwrites.filterMap fun w => if w.agent == d && !w.bulk then some (w.post.get d) else none

/-- The settle value of a die: every write numbered so or lower has been applied. -/
def resettle (s : State) (d : Nat) : State :=
  let l := outstanding s d
  { s with settle := s.settle.set d (l.foldl (fun m n => min m (n - 1)) (s.sent.get d)) }

def homeView (s : State) (md : Nat) : V3 := Tab.getD s.homeSettle md V3.zero

/-- May a home apply a write of die `d` with postmark `p`? -/
def covered (s : State) (md d : Nat) (p : V3) : Bool :=
  let v := homeView s md
  p.get d ≤ v.get d + 1 && [0, 1, 2].all fun e => e == d || p.get e ≤ v.get e

def appliedAt (s : State) (md : Nat) : V3 := Tab.getD s.applied md V3.zero

def applyMark (s : State) (md : Nat) (p : V3) : State :=
  { s with applied := Tab.set s.applied md ((appliedAt s md).max p) }

/-- Have the eight homes and the other two dies been told the settle value of a die? -/
def settleTold (s : State) (d : Nat) : Bool :=
  let v := s.settle.get d
  ((List.range 8).all fun m => (homeView s m).get d == v) &&
  [0, 1, 2].all fun e => e == d || (Tab.getD s.dieSettle e V3.zero).get d == v

/-- A die tells the eight homes and the two other dies its settle value (R214). -/
def settleTell (s : State) (d : Nat) : State :=
  let v := s.settle.get d
  { s with
    homeSettle := (List.range 8).map fun m => (m, (homeView s m).set d v)
    dieSettle := [0, 1, 2].map fun e => let x := Tab.getD s.dieSettle e V3.zero; (e, if e == d then x else x.set d v) }

/-- A numbered write of a die is performed at a home at once: everything before it is. -/
def performMark (s : State) (md agent : Nat) : State :=
  let (p, s) := numberWrite s agent
  resettle (applyMark s md p) agent

/-! Requests to homes: R173, R175. -/

def isLineReq : HKind → Bool
  | .rds | .rdu | .upg => true
  | _ => false

/-- Has the agent a request for the line outstanding? -/
def reqOut (s : State) (agent ln : Nat) : Bool :=
  (s.homeQ.any fun r => r.line == ln && r.agent == agent && isLineReq r.kind) ||
  s.txns.any fun x => x.req.line == ln && x.req.agent == agent

def postReq (s : State) (agent ln : Nat) (k : HKind) : State :=
  if reqOut s agent ln then s else { s with homeQ := s.homeQ ++ [⟨ln, agent, k, V3.zero⟩] }

/-! L2 lines: R170, R172. -/

/-- An agent lets go of a line: WbD from M or O, EvC from E or S (R175, R213). -/
def evictLine (s : State) (agent ln : Nat) : State :=
  match agLine? s agent ln with
  | none => s
  | some l =>
    let s := if l.st.dirty then
        (if l.bulk then { s with homeQ := s.homeQ ++ [⟨ln, agent, .wbd l.line true, V3.zero⟩] }
         else
          let (p, s) := numberWrite s agent
          { s with homeQ := s.homeQ ++ [⟨ln, agent, .wbd l.line false, p⟩] })
      else { s with homeQ := s.homeQ ++ [⟨ln, agent, .evc, V3.zero⟩] }
    dropAgent s agent ln

/-- May the agent let go of its line now (R212)? -/
def mayEvict (s : State) (agent : Nat) (l : AgLine) : Bool := !l.st.dirty || l.bulk || mayNumber s agent

/-- Ways of an L2 left by queue store (R172). -/
def l2Ways (s : State) : Nat := 24 - (s.qsize.toNat + 3) / 4

/-- Does an L1 of the agent's die hold pending bytes of the line? -/
def linePending (s : State) (agent ln : Nat) : Bool :=
  s.l1.any fun (k, l) => k % 2 ^ 32 == ln && k / 2 ^ 32 / 192 == agent && l.pend != 0

/-- Bring an L2 set of 32,768 down to the ways it has: least recently used lines go, but for line `keep` and lines with pending
bytes (R172, R208; assumption 11). -/
def trimSet : Nat → State → Nat → Nat → Option Nat → State
  | 0, s, _, _, _ => s
  | fuel + 1, s, agent, set, keep =>
    let mine := s.ag.filter fun (k, _) => k / 2 ^ 32 == agent && k % 2 ^ 32 % 32768 == set
    if mine.length ≤ l2Ways s then s
    else
      match mine.filter fun (k, l) => some (k % 2 ^ 32) != keep && !linePending s agent (k % 2 ^ 32) && mayEvict s agent l with
      | [] => s
      | c :: rest =>
        let v := rest.foldl (fun m x => if x.2.use < m.2.use then x else m) c
        trimSet fuel (evictLine s agent (v.1 % 2 ^ 32)) agent set keep

/-- Install a line in an agent; an L2 set that is full makes room. -/
def agInstall (s : State) (agent ln : Nat) (st : Moesi) (line : Line) (host : Bool) : State :=
  let s := setPres { s with ag := Tab.set s.ag (agKey agent ln) ⟨st, line, [], false, host, s.now⟩ } agent ln
  if agent == 2 then s else trimSet 24 s agent (ln % 32768) (some ln)

/-- The ways that queue store has taken hold nothing any more (R172). -/
def trimL2 (s : State) : State :=
  [0, 1].foldl (fun s a =>
    ((s.ag.filter fun (k, _) => k / 2 ^ 32 == a).map fun (k, _) => k % 2 ^ 32 % 32768).eraseDups.foldl
      (fun s set => trimSet 24 s a set none) s) s

/-- An agent that holds a line in M or E writes it (R170, R175, R208): every L1 of its die but `keep` drops the line's bytes. -/
def agStore (s : State) (agent pa n x : Nat) (psn cmp bulk : Bool) (keep : Option Nat) : State :=
  let ln := lineOf pa
  let s := modAg s agent ln fun a =>
    { a with st := .m, line := { a.line.put (pa % 128) n x psn with cmp := cmp }
             bulk := if a.st.dirty then a.bulk && bulk else bulk, use := s.now }
  setPres (l1InvalWhere s ln fun c => c / 192 == agent && some c != keep) agent ln

/-- Does the agent hold the line so that it may write it? -/
def canWrite (s : State) (agent ln : Nat) : Bool :=
  match agLine? s agent ln with
  | some l => l.st == .m || l.st == .e
  | none => false

/-- Ask the home for the right to write a line. -/
def askWrite (s : State) (agent ln : Nat) : State :=
  postReq s agent ln (if (agLine? s agent ln).isSome then .upg else .rdu)

/-! The directory: R175. -/

def dirEnt? (s : State) (ln : Nat) : Option DirEnt := Tab.get? s.dir ln
def dirHolders (s : State) (ln : Nat) : List Nat :=
  match dirEnt? s ln with
  | some d => [0, 1, 2].filter fun a => bit d.mask.toNat a
  | none => []

/-- Record an agent as a holder; `own`: in M, O or E. -/
def dirAdd (s : State) (ln agent : Nat) (own : Bool) : State :=
  let d := (dirEnt? s ln).getD ⟨0, none, 0⟩
  { s with dir := Tab.set s.dir ln ⟨d.mask ||| BitVec.ofNat 3 (2 ^ agent), if own then some agent else d.owner, s.now⟩ }

/-- The directory entry after an agent has let go of a line. -/
def dirDrop (s : State) (ln agent : Nat) : State :=
  match dirEnt? s ln with
  | none => s
  | some d =>
    let m := d.mask &&& ~~~(BitVec.ofNat 3 (2 ^ agent))
    if m == 0 then { s with dir := Tab.erase s.dir ln }
    else { s with dir := Tab.set s.dir ln { d with mask := m, owner := if d.owner == some agent then none else d.owner } }

/-- The holder no longer answers for the line: it keeps it in S. -/
def dirDisown (s : State) (ln agent : Nat) : State :=
  { s with dir := Tab.modify s.dir ln fun d => { d with owner := if d.owner == some agent then none else d.owner } }

/-- Entries of the set that a line falls in: 16 ways of 16,384 sets for each die. -/
def dirSet (s : State) (ln : Nat) : List (Nat × DirEnt) :=
  s.dir.filter fun (l, _) => lineMdie l == lineMdie ln && l % 16384 == ln % 16384

/-- Is there an entry for the line, or room for one? -/
def dirRoom (s : State) (ln : Nat) : Bool := (dirEnt? s ln).isSome || (dirSet s ln).length < 16

/-! Atomics: R304, R305. -/

/-- The type of an atomic. -/
def AtomOp.ty (o : AtomOp) : Ty :=
  match o.kind, o.bytes with
  | .flt, 8 => .f64
  | .flt, _ => .f32
  | .sgn, 8 => .i64
  | .sgn, _ => .i32
  | .uns, 8 => .n64
  | .uns, _ => .n32

/-- The new word, or none where nothing is written (R305). -/
def AtomOp.new (o : AtomOp) (old : Nat) : Option Nat :=
  let t := o.ty
  let b := o.b.toNat % 2 ^ (8 * o.bytes)
  match o.aop with
  | .add => some (if o.kind == .flt then faddPlain t o.rnd o.rsw old b else fit t false (ival t old + ival t b))
  | .min => some (if o.kind == .flt then (fminmax (fmtOf t) true false false old b).bits
      else if ival t old ≤ ival t b then old else b)
  | .max => some (if o.kind == .flt then (fminmax (fmtOf t) false false false old b).bits
      else if ival t b ≤ ival t old then old else b)
  | .and => some (old &&& b)
  | .or => some (old ||| b)
  | .xor => some (old ^^^ b)
  | .exch => some b
  | .cas => if old == o.cmp.toNat % 2 ^ (8 * o.bytes) then some b else none

/-- An atomic applied to a word of a line, with the CMP bit of its translation (R181): the line after it. -/
def AtomOp.onLine (o : AtomOp) (l : Line) (off : Nat) (cmp : Bool) : Line :=
  match o.new (l.get off o.bytes) with
  | some x => { l.put off o.bytes x (o.psn || l.poisoned off o.bytes) with cmp := cmp }
  | none => l

/-! Transactions: R173, R175, R176. -/

def txnOf (s : State) (ln : Nat) : Option Txn := s.txns.find? fun t => t.req.line == ln
def dropTxn (s : State) (ln : Nat) : State := { s with txns := s.txns.filter fun t => t.req.line != ln }
def modTxn (s : State) (ln : Nat) (f : Txn → Txn) : State :=
  { s with txns := s.txns.map fun t => if t.req.line == ln then f t else t }

/-- The home evicts its least recently used entry of a full set: BackInv to every holder (R175). -/
def startBackInv (s : State) (ln : Nat) : Option State :=
  match (dirSet s ln).filter fun (l, _) => (txnOf s l).isNone with
  | [] => none
  | c :: rest =>
    let v := rest.foldl (fun m x => if x.2.use < m.2.use then x else m) c
    some { s with txns := s.txns ++ [⟨⟨v.1, 3, .evc, V3.zero⟩, dirHolders s v.1, 2, none, false⟩] }

/-- Blocks in the metadata cache of a memory die: 1 MiB of 2-bit codes (R180, assumption 11). -/
def mdBlocks : Nat := 4194304

/-- The metadata of a block comes into its die's metadata cache (R180). -/
def mdTouch (s : State) (ln : Nat) : State :=
  let md := lineMdie ln
  let l := Tab.getD s.mdcache md []
  { s with mdcache := Tab.set s.mdcache md ((ln / 2 :: l.filter (· != ln / 2)).take mdBlocks) }

/-- A line as its home reads it; a line read from HBM stays in the LLC clean (assumption 11). -/
def homeFetch (s : State) (ln : Nat) : Line × State :=
  match Tab.get? s.llc ln with
  | some l => (l.line, { s with llc := Tab.set s.llc ln { l with use := s.now } })
  | none => let l := hbmLine s ln; (l, mdTouch { s with llc := Tab.set s.llc ln ⟨l, false, s.now⟩ } ln)

/-- The home answers a request with a line: the agent ends in state `st`. -/
def grant (s : State) (ln agent : Nat) (st : Moesi) (line : Line) : State :=
  agInstall (dirAdd s ln agent st.owns) agent ln st line false

/-- The home answers with its own data, which carry its applied vector (R213). -/
def grantHome (s : State) (ln agent : Nat) (st : Moesi) : State :=
  let (l, s) := homeFetch s ln
  grant (mergeClock s agent (appliedAt s (lineMdie ln))) ln agent st l

/-- The home applies an atomic to its line, which no agent holds any more, and answers (R177, R213). -/
def atomicApply (s : State) (r : HReq) (core id : Nat) : State :=
  match findAcc s core id with
  | none => s
  | some a => match a.kind, a.part.loc with
    | .atomic o, .mem pa cmp =>
      let md := lineMdie r.line
      let l := homeLine s r.line
      let s := applyMark (llcPut s r.line (o.onLine l (pa % 128) cmp)) md r.post
      modAcc (mergeClock s r.agent (appliedAt s md)) core id fun a =>
        { a with reply := some (l.get (pa % 128) o.bytes, l.poisoned (pa % 128) o.bytes || o.psn) }
    | _, _ => s

/-- A transaction whose snoops have all been answered, and whose line has no write-back on its way, ends (R175-R177). An agent that
asks to write a line it still holds keeps its own data; one that has lost its copy is served as by RdU. -/
def settleTxn (s : State) (ln : Nat) : State :=
  match txnOf s ln with
  | none => s
  | some x =>
    if !x.await.isEmpty || (wbInFlight s ln).isSome then s
    else
      let s := dropTxn s ln
      let a := x.req.agent
      match x.req.kind with
      | .rds =>
        let st : Moesi := if (dirHolders s ln).isEmpty then .e else .s
        (match x.data with
         | some l => grant s ln a st l
         | none => grantHome s ln a st)
      | .rdu | .upg => (match agLine? s a ln with
        | some _ => modAg (dirAdd s ln a true) a ln fun b => { b with st := .m, bulk := b.st.dirty && b.bulk }
        | none => match x.data with
          | some l => modAg (grant s ln a .m l) a ln fun b => { b with bulk := x.bulk }
          | none => grantHome s ln a .e)
      | .atomic core id => atomicApply { s with dir := Tab.erase s.dir ln } x.req core id
      | _ => { s with dir := Tab.erase s.dir ln }

/-! Requests at a home: R175. -/

def dropReq (s : State) (k : Nat) : State := { s with homeQ := s.homeQ.eraseIdx k }

/-- May request `k` be served at die `md`: no earlier request of its line waits and no transaction or write of the line is in
progress (R173)? -/
def reqReady (s : State) (md k : Nat) : Option HReq :=
  match s.homeQ[k]? with
  | none => none
  | some r =>
    if lineMdie r.line == md && (txnOf s r.line).isNone && !((s.homeQ.take k).any fun q => q.line == r.line) &&
       !(s.pwrites.any fun w => w.line == r.line) then some r else none

/-- Serve RdS, RdU or Upg; none while an eviction from the full set of the directory is in progress. -/
def serveReq (s : State) (k : Nat) (r : HReq) : Option State :=
  let ln := r.line
  if dieLost s (2 + lineMdie ln) then some (dropReq s k)
  else if (agLine? s r.agent ln).isSome && r.kind == .rds then some (dropReq s k)
  else if !dirRoom s ln then
    (if s.txns.any fun t => t.snoop == 2 && t.req.line % 16384 == ln % 16384 && lineMdie t.req.line == lineMdie ln then none
     else startBackInv s ln)
  else
    let s := dropReq s k
    let others := (dirHolders s ln).filter (· != r.agent)
    let (await, snoop) : List Nat × Nat := match r.kind with
      | .rds => (match (dirEnt? s ln).bind (·.owner) with | some x => if x == r.agent then [] else [x] | none => [], 0)
      | _ => (others, 1)
    some (settleTxn { s with txns := s.txns ++ [⟨r, await, snoop, none, false⟩] } ln)

/-- The agent has let go of the line, unless the home has granted it again since. -/
def letGo (s : State) (ln agent : Nat) : State := if (agLine? s agent ln).isSome then s else dirDrop s ln agent

/-- Write a write-back's data into the LLC: the agent no longer holds the line (R175). -/
def applyWb (s : State) (ln agent : Nat) (l : Line) : State :=
  let s := if dieLost s (2 + lineMdie ln) then s else llcPut s ln l
  settleTxn (letGo s ln agent) ln

/-- A write-back `k` arrives at die `md`. A bulk one is applied at once unless a write of its line stands before it; any other waits
for its postmark (R214, R216). -/
def wbdArrive (s : State) (md k : Nat) : Option State :=
  match s.homeQ[k]? with
  | none => none
  | some r => match r.kind with
    | .wbd l bulk =>
      if lineMdie r.line != md || ((s.homeQ.take k).any fun q => q.line == r.line && !isLineReq q.kind) then none
      else
        let s := dropReq s k
        some (if bulk && !(s.pwrites.any fun w => w.line == r.line) then applyWb s r.line r.agent l
          else { s with pwrites := s.pwrites ++ [⟨r.line, r.agent, r.post, bulk, l⟩] })
    | _ => none

/-- An EvC notice `k` arrives. -/
def evcArrive (s : State) (md k : Nat) : Option State :=
  match s.homeQ[k]? with
  | none => none
  | some r => match r.kind with
    | .evc =>
      if lineMdie r.line != md || ((s.homeQ.take k).any fun q => q.line == r.line && q.agent == r.agent) then none
      else some (settleTxn (letGo (dropReq s k) r.line r.agent) r.line)
    | _ => none

/-- Write `k` of those that have arrived is applied (R214). -/
def writeApply (s : State) (md k : Nat) : Option State :=
  match s.pwrites[k]? with
  | none => none
  | some w =>
    if lineMdie w.line != md || ((s.pwrites.take k).any fun x => x.line == w.line) ||
       !(w.bulk || covered s md w.agent w.post) then none
    else
      let s := { s with pwrites := s.pwrites.eraseIdx k }
      let s := if w.bulk then s else resettle (applyMark s md w.post) w.agent
      some (applyWb s w.line w.agent w.data)

/-! Snoops: R170, R175, R176. -/

/-- Has the home sent this snoop to the agent, and awaits its answer? -/
def snoopDue (s : State) (md ln agent snoop : Nat) : Bool :=
  lineMdie ln == md && (match txnOf s ln with
    | some x => x.snoop == snoop && x.await.contains agent
    | none => false)

/-- The agent's answer: forwarded data, merged with its clock where it is dirty (R213). -/
def answer (s : State) (ln agent : Nat) (l : Option AgLine) : State :=
  match txnOf s ln with
  | none => s
  | some x =>
    let fwd : Option Line := match l with
      | some a => if x.snoop == 0 then (if a.st.owns then some a.line else none)
                  else if x.snoop == 1 && a.st.dirty then some a.line else none
      | none => none
    let s := match l with
      | some a => if a.st.dirty && x.snoop < 2 && x.req.agent < 3 then mergeClock s x.req.agent (clockOf s agent) else s
      | none => s
    let bulk := match l with | some a => a.bulk | none => false
    settleTxn (modTxn s ln fun x =>
      { x with await := x.await.filter (· != agent), data := fwd.or x.data, bulk := if fwd.isSome then bulk else x.bulk }) ln

/-- SnpS: M and O become O, E becomes S; the data is forwarded. A line held for the host is recalled first (R174). -/
def snpsAnswer (s : State) (ln agent : Nat) : State :=
  let l := agLine? s agent ln
  let s := modAg s agent ln fun a => { a with host := false, st := match a.st with
    | .m | .o => .o
    | _ => .s }
  answer (if (match l with | some a => a.st.dirty | none => false) then s else dirDisown s ln agent) ln agent l

/-- SnpI: the agent drops the line, its L1s first, and forwards dirty data. -/
def snpiAnswer (s : State) (ln agent : Nat) : State :=
  answer (dirDrop (dropAgent s agent ln) ln agent) ln agent (agLine? s agent ln)

/-- BackInv, and the SnpI that recalls a line for an atomic: the agent drops the line; dirty data goes to the home as a numbered write
(R177, R213). -/
def backInvAnswer (s : State) (ln agent : Nat) : Option State :=
  match agLine? s agent ln with
  | none => some (answer (dropAgent s agent ln) ln agent none)
  | some a =>
    if !mayEvict s agent a then none
    else
      let s1 := if !a.st.dirty then s
        else if a.bulk then { s with pwrites := s.pwrites ++ [⟨ln, agent, V3.zero, true, a.line⟩] }
        else
          let (p, s) := numberWrite s agent
          { s with pwrites := s.pwrites ++ [⟨ln, agent, p, false, a.line⟩] }
      some (answer (dropAgent s1 agent ln) ln agent (some a))

/-- The answer that a transaction's snoop gets from an agent. -/
def snoopAnswer (s : State) (x : Txn) (agent : Nat) : Option State :=
  match x.snoop with
  | 0 => some (snpsAnswer s x.req.line agent)
  | 1 => some (snpiAnswer s x.req.line agent)
  | _ => backInvAnswer s x.req.line agent

/-! Atomics at the home: R177-R179. -/

/-- The predictor's index of a word. -/
def predIndex (pa : Nat) : Nat := bits pa 21 12 ^^^ bits pa 31 22

/-- Record an agent's atomic, and tell whether the predictor names home: two or more agents in the last 8,192 cycles (R178). -/
def predict (s : State) (md pa agent : Nat) : Bool × State :=
  let key := md * 1024 + predIndex pa
  let now := memCycle s.now
  let l := (agent, now) :: (Tab.getD s.predictor key []).filter fun (a, c) => a != agent && now ≤ c + 8192
  (2 ≤ l.length, { s with predictor := Tab.set s.predictor key l })

/-- Take a line back from every agent by SnpI: an M or O holder writes it back as a numbered write, and no agent holds it. What
stands at the homes before it has been performed. -/
def recallLine (s : State) (ln : Nat) : State :=
  let s := match owner? s ln with
    | some (a, l) =>
      if !l.st.dirty then s
      else
        let s := llcPut s ln l.line
        if l.bulk then s else performMark s (lineMdie ln) a
    | none => s
  let s := [0, 1, 2].foldl (fun s a => if (agLine? s a ln).isSome then dropAgent s a ln else s) s
  l1Inval { s with dir := Tab.erase s.dir ln } ln

/-- The home applies an atomic that a unit sends it whole (R177): the old word with its poison. -/
def homeAtomic (s : State) (pa : Nat) (o : AtomOp) (cmp : Option Bool) : Nat × Bool × State :=
  let ln := lineOf pa
  let s := recallLine s ln
  let l := homeLine s ln
  (l.get (pa % 128) o.bytes, l.poisoned (pa % 128) o.bytes, llcPut s ln (o.onLine l (pa % 128) (homeCmp s ln cmp)))

/-- Request `k`, an atomic of a core's access, at die `md` (R177): sent back to be executed near, or taken up. The home then recalls the
line by SnpI from every agent that holds it, and holders write it back; write-backs on their way are applied first (R176). The
atomic has its place in its die's order from then on, so that no write-back it waits for waits for it (assumption 83). -/
def atomicServe (s : State) (md k : Nat) : Option State :=
  match reqReady s md k with
  | none => none
  | some r => match r.kind with
    | .atomic core id => (match findAcc s core id with
      | none => some (resettle (dropReq s k) r.agent)
      | some a => match a.kind, a.part.loc with
        | .atomic o, .mem pa _ =>
          if dieLost s (2 + md) then
            let s := logEvent (dropReq s k) unitH 3 1 pa 1 (a.t.team / 2 ^ 28) 1
            some (resettle (modAcc s core id fun a => { a with reply := some (0, true) }) r.agent)
          else if !covered s md r.agent r.post then none
          else
            let (home, s) := predict s md pa r.agent
            let s := resettle (dropReq s k) r.agent
            if o.place == .auto && !home then
              some (askWrite (modAcc s core id fun a => { a with kind := .atomic { o with place := .near }, inL1 := false }) r.agent r.line)
            else some (settleTxn { s with txns := s.txns ++ [⟨r, dirHolders s r.line, 3, none, false⟩] } r.line)
        | _, _ => some (dropReq s k))
    | _ => none

/-! What stands at the homes. -/

/-- Request `k` of the homes moves on. -/
def reqTurn (s : State) (k : Nat) (r : HReq) : Option State :=
  let md := lineMdie r.line
  match r.kind with
  | .rds | .rdu | .upg => (reqReady s md k).bind fun r => serveReq s k r
  | .wbd .. => wbdArrive s md k
  | .evc => evcArrive s md k
  | .atomic .. => atomicServe s md k

/-- One step of what stands at the homes. -/
def homeTurn (s : State) : Option State :=
  (s.txns.findSome? fun x => x.await.findSome? fun a => snoopAnswer s x a).orElse fun _ =>
  (s.homeQ.zipIdx.findSome? fun (r, k) => reqTurn s k r).orElse fun _ =>
  (s.pwrites.zipIdx.findSome? fun (w, k) => writeApply s (lineMdie w.line) k).orElse fun _ =>
  ([0, 1, 2].find? fun d => !settleTold (resettle s d) d).map fun d => settleTell (resettle s d) d

def homesIdle (s : State) : Bool := s.homeQ.isEmpty && s.txns.isEmpty && s.pwrites.isEmpty

def homeTurns : Nat → State → State
  | 0, s => s
  | n + 1, s => if homesIdle s then s else match homeTurn s with
    | some s' => homeTurns n s'
    | none => s

/-- A transaction that a unit performs whole comes after those that stand at the homes, in their order (R173, R214; assumption 70). -/
def settleHomes (s : State) : State :=
  if homesIdle s then s else homeTurns (64 * (s.homeQ.length + s.txns.length + s.pwrites.length)) s

/-- An agent obtains a line to read it (RdS). -/
def fetchLine (s : State) (agent ln : Nat) : State :=
  if (agLine? s agent ln).isSome || dieLost s (2 + lineMdie ln) then s
  else settleHomes (postReq (settleHomes s) agent ln .rds)

/-- An agent obtains a line to write it (RdU, Upg). -/
def claimLine (s : State) (agent ln : Nat) : State :=
  if canWrite s agent ln || dieLost s (2 + lineMdie ln) then s else settleHomes (askWrite (settleHomes s) agent ln)

/-! The point of coherence: R206. -/

/-- The line at its point of coherence: data forwarded to a requester, the line's owner, a write-back in flight, or its home. Lines
of a lost memory die read as poisoned zeros (R426). -/
def cohLine (s : State) (ln : Nat) : Line :=
  if dieLost s (2 + lineMdie ln) then ⟨0, 15, false⟩
  else match (txnOf s ln).bind (·.data) with
    | some l => l
    | none => match owner? s ln with
      | some (_, l) => l.line
      | none => (wbInFlight s ln).getD (homeLine s ln)

/-- Is the line only in HBM? -/
def onlyHbm (s : State) (ln : Nat) : Bool :=
  !dieLost s (2 + lineMdie ln) && (txnOf s ln).isNone && (owner? s ln).isNone && (wbInFlight s ln).isNone && (Tab.get? s.llc ln).isNone

/-- `n` bytes of one line at the point of coherence: value and poison. -/
def cohRead1 (s : State) (pa n : Nat) : Nat × Bool :=
  let ln := lineOf pa
  let o := pa % 128
  if onlyHbm s ln then
    (memLoad s.mem (ln * 128 + o) n,
     (List.range 4).any fun i => bit (granMask o n) i && s.mpsn.contains (ln * 4 + i))
  else let l := cohLine s ln; (l.get o n, l.poisoned o n)

/-- `n` bytes at the point of coherence, over any number of lines; `fuel` lines at most. -/
def cohReadN (s : State) : Nat → Nat → Nat → Nat × Bool
  | 0, _, _ => (0, false)
  | fuel + 1, pa, n =>
    if n == 0 then (0, false)
    else
      let k := min n (128 - pa % 128)
      let (v, p) := cohRead1 s pa k
      let (v', p') := cohReadN s fuel (pa + k) (n - k)
      (v + 2 ^ (8 * k) * v', p || p')

def cohRead (s : State) (pa n : Nat) : Nat × Bool := cohReadN s (n / 128 + 2) pa n

/-- One byte at the point of coherence. -/
def cohByte (s : State) (pa : Nat) : Byte := BitVec.ofNat 8 (cohRead1 s pa 1).1

/-- Bytes of a line as an agent reads them: it obtains the line first (R230). -/
def agentRead1 (s : State) (agent pa n : Nat) : (Nat × Bool) × State :=
  let ln := lineOf pa
  let s := fetchLine s agent ln
  match agLine? s agent ln with
  | some a => ((a.line.get (pa % 128) n, a.line.poisoned (pa % 128) n), modAg s agent ln fun a => { a with use := s.now })
  | none => (cohRead1 s pa n, s)

def agentReadN : Nat → State → Nat → Nat → Nat → (Nat × Bool) × State
  | 0, s, _, _, _ => ((0, false), s)
  | fuel + 1, s, agent, pa, n =>
    if n == 0 then ((0, false), s)
    else
      let k := min n (128 - pa % 128)
      let ((v, p), s) := agentRead1 s agent pa k
      let ((v', p'), s) := agentReadN fuel s agent (pa + k) (n - k)
      ((v + 2 ^ (8 * k) * v', p || p'), s)

/-- `n` bytes as an agent reads them. -/
def agentRead (s : State) (agent pa n : Nat) : (Nat × Bool) × State := agentReadN (n / 128 + 2) s agent pa n

/-- Write bytes of one line at its home, by an agent that does not keep it. `cmp` none keeps the line's bit (R181). Writes to a lost
die are discarded (R426). -/
def cohWrite1 (s : State) (agent pa n x : Nat) (psn : Bool) (cmp : Option Bool) : State :=
  let ln := lineOf pa
  if dieLost s (2 + lineMdie ln) then s
  else
    let s := recallLine (settleHomes s) ln
    let l := (homeLine s ln).put (pa % 128) n x psn
    let s := performMark (llcPut s ln { l with cmp := homeCmp s ln cmp }) (lineMdie ln) agent
    -- the reply (R213)
    mergeClock s agent (appliedAt s (lineMdie ln))

/-- An atomic that an agent sends to the home, after what stands there (R177-R179): the old word with its poison. -/
def atomicAtHome (s : State) (agent pa : Nat) (o : AtomOp) (cmp : Option Bool) : Nat × Bool × State :=
  let md := lineMdie (lineOf pa)
  let (_, s) := predict (settleHomes s) md pa agent
  let (old, q, s) := homeAtomic s pa o cmp
  let s := performMark s md agent
  (old, q, mergeClock s agent (appliedAt s md))

/-- Write bytes of one line in an agent that obtains it first (R172, R230). -/
def agentWrite1 (s : State) (agent pa n x : Nat) (psn : Bool) (cmp : Option Bool) : State :=
  let ln := lineOf pa
  let s := claimLine s agent ln
  if canWrite s agent ln then agStore s agent pa n x psn (cmp.getD false) false none
  else cohWrite1 s agent pa n x psn cmp

/-- A write line by line. -/
def writeN (f : State → Nat → Nat → Nat → State) : Nat → State → Nat → Nat → Nat → State
  | 0, s, _, _, _ => s
  | fuel + 1, s, pa, n, x =>
    if n == 0 then s
    else
      let k := min n (128 - pa % 128)
      writeN f fuel (f s pa k (x % 2 ^ (8 * k))) (pa + k) (n - k) (x / 2 ^ (8 * k))

/-- A package-scope write of `n` bytes at the home, on behalf of an agent. -/
def homeWrite (s : State) (agent pa n x : Nat) (psn : Bool) (cmp : Option Bool) : State :=
  writeN (fun s pa n x => cohWrite1 s agent pa n x psn cmp) (n / 128 + 2) s pa n x

/-- The hub's and the host's writes: H carries them (R174). -/
def cohWrite (s : State) (pa n x : Nat) (psn : Bool) (cmp : Option Bool) : State := homeWrite s 2 pa n x psn cmp

/-- A package-scope write of `n` bytes by a unit of a compute die, or by Relay. -/
def agentWrite (s : State) (agent pa n x : Nat) (psn cmp : Bool) : State :=
  writeN (fun s pa n x => agentWrite1 s agent pa n x psn (some cmp)) (n / 128 + 2) s pa n x

end Sys2Proof.Machine
end

