-- ==== Sys2Proof/Machine/Mem.lean ====
section
/-! DEFINITION. Translation with its TLBs (R182-R184), and the accesses that a core makes on a thread's behalf. -/

namespace Sys2Proof.Machine

/-! Translation: R182-R184. -/

/-- What an access needs of a page. -/
inductive Need where
  | read | write | exec
  deriving DecidableEq, Repr

inductive XRes where
  | ok (pa : Nat) (cmp : Bool)
  | trans
  | perm
  deriving DecidableEq, Repr

/-- A page-table entry; none where its granule is poisoned (R476) or it is not in this package's memory (assumption 16). -/
def pteAt (s : State) (pa : Nat) : Option Nat :=
  if isOwnMem s pa then (match cohRead s pa 8 with | (v, p) => if p then none else some v) else none

/-- One level of the walk: level, lowest VA bit it indexes, index bits. -/
def walkLevels (s : State) (va ctx : Nat) : List (Nat × Nat × Nat) → Nat → Option TlbEnt
  | [], _ => none
  | (lv, lo, w) :: rest, base =>
    match pteAt s (base + 8 * (va / 2 ^ lo % 2 ^ w)) with
    | none => none
    | some e =>
      let leaf := bit e 1
      let pa := bits e 47 8 * 256
      if !bit e 0 || bits e 63 48 != 0 || bits e 7 5 != 0 then none
      else if leaf then
        (if lv == 3 || pa % 2 ^ lo != 0 then none
         else some ⟨ctx, va / 2 ^ lo * 2 ^ lo, 2 ^ lo, pa, bit e 2, bit e 3, bit e 4⟩)
      else if lv == 0 || bits e 4 2 != 0 || (lv == 3 && pa % 262144 != 0) || (lv == 2 && pa % 512 != 0) then none
      else walkLevels s va ctx rest pa

/-- The walk of R182 and R183 from a root. -/
def walk (s : State) (ctx root va : Nat) : Option TlbEnt :=
  if canonical va then walkLevels s (va % 2 ^ 57) ctx [(3, 42, 15), (2, 27, 15), (1, 21, 6), (0, 16, 5)] root else none

def TlbEnt.covers (e : TlbEnt) (ctx va : Nat) : Bool := e.ctx == ctx && e.va == va % 2 ^ 57 / e.size * e.size

def TlbEnt.grants (e : TlbEnt) (need : Need) : Bool :=
  match need with
  | .read => true
  | .write => e.w
  | .exec => e.x

def TlbEnt.use (e : TlbEnt) (va : Nat) (need : Need) : XRes :=
  if e.grants need then .ok (e.pa + va % e.size) e.cmp else .perm

def ctxRoot (s : State) (ctx : Nat) : Option Nat := (Tab.get? s.ctxs ctx).map fun c => c.plan.ptroot

/-- A translation through no TLB: the hub's and a check's. -/
def hubXlate (s : State) (ctx va : Nat) (need : Need) : XRes :=
  match ctxRoot s ctx with
  | none => .trans
  | some root => match walk s ctx root va with
    | some e => e.use va need
    | none => .trans

/-- Insert into a TLB of `n` entries, newest first (assumption 11). -/
def tlbPut (l : List TlbEnt) (e : TlbEnt) (n : Nat) : List TlbEnt := (e :: l.filter fun x => x != e).take n

/-- A translation through the L2 TLB of a compute die (R184). -/
def dieXlate (s : State) (die ctx va : Nat) (need : Need) : XRes × State :=
  if !canonical va then (.trans, s)
  else match (Tab.getD s.l2tlb die []).find? fun e => e.covers ctx va with
    | some e => (e.use va need, s)
    | none => match ctxRoot s ctx with
      | none => (.trans, s)
      | some root => match walk s ctx root va with
        | none => (.trans, s)
        | some e => (e.use va need, { s with l2tlb := Tab.set s.l2tlb die (tlbPut (Tab.getD s.l2tlb die []) e 4096) })

/-- A translation through a core's L1 TLB, then its die's L2 TLB and walker (R184). -/
def xlate (s : State) (core ctx va : Nat) (need : Need) : XRes × State :=
  if !canonical va then (.trans, s)
  else match (getCore s core).tlb.find? fun e => e.covers ctx va with
    | some e => (e.use va need, s)
    | none =>
      let (r, s) := dieXlate s (core / 192) ctx va need
      match (Tab.getD s.l2tlb (core / 192) []).find? fun e => e.covers ctx va with
      | some e => (r, modCore s core fun k => { k with tlb := tlbPut k.tlb e 128 })
      | none => (r, s)

/-! Accesses that a core makes on a thread's behalf: package-scope, within one page. -/

/-- Read `n` bytes at a VA, or the fault. -/
def vaRead (s : State) (core ctx va n : Nat) : Except Bool (Nat × Bool) × State :=
  match xlate s core ctx va .read with
  | (.ok pa _, s) => (if isOwnMem s pa then .ok (cohRead s pa n) else .error false, s)
  | (.trans, s) => (.error false, s)
  | (.perm, s) => (.error true, s)

/-- Write `n` bytes at a VA, or the fault (true: permission) with what its walk has cached (R184). -/
def vaWrite (s : State) (core ctx va n x : Nat) (psn : Bool) : Except (Bool × State) State :=
  match xlate s core ctx va .write with
  | (.ok pa cmp, s) =>
    if isOwnMem s pa then .ok (homeWrite (lostWrite s pa ctx) (agentOf core) pa n x psn (some cmp)) else .error (false, s)
  | (.trans, s) => .error (false, s)
  | (.perm, s) => .error (true, s)

/-- A state with the translations that another one has cached for a core (R184). -/
def cacheFrom (s s' : State) (core : Nat) : State :=
  modCore { s with l2tlb := s'.l2tlb } core fun k => { k with tlb := (getCore s' core).tlb }

end Sys2Proof.Machine
end

