-- ==== Sys2Proof/Machine/Letter.lean ====
section
/-! DEFINITION. Letters and the state of one queue (R75-R84): validity, the ring and the spill ring, mail slots, posting, taking
and returning. Delivery to a waiting thread and the distributor tree are in Machine/Letters.lean. -/

namespace Sys2Proof.Machine

/-! The letter: R75. -/

/-- Byte `i` of a letter. -/
def letByte (b : BitVec 256) (i : Nat) : Nat := b.toNat / 2 ^ (8 * i) % 256
/-- `n` bytes of a letter from offset `i`. -/
def letField (b : BitVec 256) (i n : Nat) : Nat := b.toNat / 2 ^ (8 * i) % 2 ^ (8 * n)
def letKind (b : BitVec 256) : Nat := letByte b 0
def letSet (b : BitVec 256) (i n x : Nat) : BitVec 256 :=
  (b &&& ~~~(BitVec.ofNat 256 ((2 ^ (8 * n) - 1) * 2 ^ (8 * i)))) ||| BitVec.ofNat 256 (x % 2 ^ (8 * n) * 2 ^ (8 * i))

/-- Is the letter valid (R75)? -/
def validLetter (b : BitVec 256) : Bool :=
  match letKind b with
  | 1 => letByte b 1 ≤ 1 && letField b 2 2 != 0
  | 2 => letField b 1 7 == 0
  | 3 => letByte b 1 ≤ 24 && letField b 4 4 == 0
  | 4 => letByte b 1 == 0 && 1 ≤ letField b 4 4 && letField b 4 4 ≤ 256 && letField b 12 4 == 0 && letField b 16 16 == 0
  | 5 => letByte b 1 == 0 && letField b 4 28 == 0
  | _ => false

/-! Capacities: R81, R82. -/

def Queue.cap (q : Queue) : Nat := if q.ring == 0 then 256 else 2 ^ q.ring
def Queue.spillCap (q : Queue) : Nat := if q.spill == 0 then 0 else 2 ^ q.spill
def Queue.nout (q : Queue) : Nat := (q.taken.filter (·.outst)).length
def Queue.entryVa (q : Queue) (i : Nat) : Nat := (q.spillbase.toNat + 32 * (i % 2 ^ q.spill)) % 2 ^ 64

def getQueue? (s : State) (q : Nat) : Option Queue := Tab.get? s.queues q
def setQueue (s : State) (q : Nat) (x : Queue) : State := { s with queues := Tab.set s.queues q x }

/-- A read by the hub on behalf of a context. An address that reaches another package or device space counts as one that does not
translate (DESIGN CHOICE: R81 says nothing of it, assumption 71). -/
def hubRead (s : State) (ctx va n : Nat) : Option (Nat × Bool) :=
  match hubXlate s ctx va .read with
  | .ok pa _ => if isOwnMem s pa then some (cohRead s pa n) else none
  | _ => none

/-- A write by the hub, in the same way. -/
def hubWrite (s : State) (ctx va n x : Nat) (psn : Bool) : Option State :=
  match hubXlate s ctx va .write with
  | .ok pa cmp => if isOwnMem s pa then some (cohWrite (lostWrite s pa ctx) pa n x psn (some cmp)) else none
  | _ => none

/-- Put a letter in the spill ring at index `i`. -/
def spillWrite (s : State) (q : Queue) (i : Nat) (b : BitVec 256) : Option State :=
  hubWrite s q.ctx (q.entryVa i) 32 b.toNat false

/-- One refill (R82): the spill head letter moves to the ring tail. A poisoned entry is uncorrectable (R436); one that does not
translate stays (R81). -/
def refillOnce (s : State) (q : Queue) : Option Queue :=
  match q.spseq with
  | [] => none
  | n :: rest =>
    if q.cap ≤ q.letters.length then none
    else match hubRead s q.ctx (q.entryVa q.sphead) 32 with
      | none => none
      | some (v, p) => some { q with
          letters := q.letters ++ [⟨BitVec.ofNat 256 v, n, p⟩]
          sphead := (q.sphead + 1) % 2 ^ 32
          spseq := rest }

/-- Refills run whenever the ring has room and the spill ring a letter (R82). -/
def refillAll (s : State) : Nat → Queue → Queue
  | 0, q => q
  | fuel + 1, q => match refillOnce s q with
    | some q' => refillAll s fuel q'
    | none => q

/-- The mail slot that a post gets: the lowest free one (DESIGN CHOICE: R78 names none, assumption 71). -/
def freeSlot (q : Queue) : Option Nat :=
  (List.range q.mailn).find? fun i => match Tab.get? q.mail i with
    | some m => !m.used
    | none => true

/-- Allocate a slot for a body and give its handle (R78). -/
def slotAlloc (q : Queue) (qn i : Nat) (bytes : ByteMem) (psn : List Nat) : Queue × Nat :=
  let gen := match Tab.get? q.mail i with | some m => m.gen | none => 0
  ({ q with mail := Tab.set q.mail i ⟨true, gen, bytes, psn⟩ }, qn * 2 ^ 20 + gen * 2 ^ 10 + i)

/-- Free the slot that a letter's handle names, if it is the letter's own. -/
def slotFree (q : Queue) (b : BitVec 256) : Queue :=
  if letKind b == 4 then
    let h := letField b 8 4
    match Tab.get? q.mail (h % 1024) with
    | some m =>
      if m.used && m.gen == h / 1024 % 1024 then
        { q with mail := Tab.set q.mail (h % 1024) { m with used := false, gen := (m.gen + 1) % 1024 } }
      else q
    | none => q
  else q

/-- A post that a queue refuses counts in REFUSED; of one that is not enabled in the hub, until it is (R80, R82; assumption 75). -/
def countRefused (s : State) (qn : Nat) : State :=
  match getQueue? s qn with
  | some q => setQueue s qn { q with refused := (q.refused + 1) % 2 ^ 32 }
  | none => if qn < 4096 then { s with refusedOff := Tab.set s.refusedOff qn ((Tab.getD s.refusedOff qn 0 + 1) % 2 ^ 32) } else s

/-- post_letter of R82. `ctx` is the poster's context, none for the host; `body` the bytes of a mail-slot message. Answers the
status of R324. -/
def postLetter (s : State) (qn : Nat) (b : BitVec 256) (psn : Bool) (ctx : Option Nat) (body : ByteMem × List Nat) :
    Nat × State :=
  match getQueue? s qn with
  | none => (3, countRefused s qn)
  | some q =>
    let refuse := fun (st : Nat) => (st, countRefused s qn)
    if (match ctx with | some c => c != q.ctx | none => false) then refuse 3
    else if !validLetter b || psn || (letKind b == 4 && letField b 8 8 != 0) then refuse 2
    else if letKind b == 4 && (freeSlot q).isNone then refuse 4
    else if q.cap + q.spillCap ≤ q.letters.length + q.spseq.length + q.nout then refuse 1
    else
      let (q1, b) := if letKind b == 4 then
          (match freeSlot q with
           | some i => let (q1, h) := slotAlloc q qn i body.1 body.2; (q1, letSet b 8 4 h)
           | none => (q, b))
        else (q, b)
      let n := q1.posted
      if q1.spseq.isEmpty && q1.letters.length < q1.cap then
        (0, setQueue s qn { q1 with letters := q1.letters ++ [⟨b, n, false⟩], posted := (n + 1) % 2 ^ 64 })
      else match spillWrite s q1 q1.sptail b with
        | none => refuse 5
        | some s => (0, setQueue s qn { q1 with
            sptail := (q1.sptail + 1) % 2 ^ 32, spseq := q1.spseq ++ [n], posted := (n + 1) % 2 ^ 64 })

/-- Insert a letter by sequence number. -/
def seqInsert : List Letter → Letter → List Letter
  | [], l => [l]
  | x :: t, l => if l.seq < x.seq then l :: x :: t else x :: seqInsert t l

/-- PA of a queue's descriptor (R81). -/
def qdPa (s : State) (q : Nat) : Nat := s.qdtbase.toNat + 64 * q

/-- An uncorrectable letter is dropped, counted and logged; its mail slot is freed (R436). -/
def dropLetter (s : State) (qn : Nat) (q : Queue) (b : BitVec 256) : State :=
  let s := setQueue s qn (slotFree { q with dropped := (q.dropped + 1) % 2 ^ 32 } b)
  logEvent s unitH 3 1 (qdPa s qn) 1 q.ctx 1

/-- The queue as it stands after letters of it have been dropped. -/
def requeue (s : State) (qn : Nat) (q : Queue) : Queue := (getQueue? s qn).getD q

/-- The ring tail moves to the spill head while the ring is too long (R84); an uncorrectable letter is dropped (R436). -/
def overflowBack (qn : Nat) : Nat → State → Queue → State × Queue
  | 0, s, q => (s, q)
  | fuel + 1, s, q =>
    if q.letters.length ≤ q.cap then (s, q)
    else match q.letters.getLast? with
      | none => (s, q)
      | some l =>
        if l.bad then
          let s := dropLetter s qn { q with letters := q.letters.dropLast } l.bytes
          overflowBack qn fuel s (requeue s qn q)
        else
        let i := (q.sphead + 2 ^ 32 - 1) % 2 ^ 32
        match spillWrite s q i l.bytes with
        | none => (s, q)
        | some s => overflowBack qn fuel s { q with letters := q.letters.dropLast, sphead := i, spseq := l.seq :: q.spseq }

/-- return_letters of R84, for the outstanding letters of the threads that `p` selects. Their other taken letters are no longer
theirs; mail slots of those are freed when `free` (R78). -/
def returnLetters (s : State) (p : TRef → Bool) (free : Bool) : State :=
  s.queues.foldl (fun s (qn, q) =>
    let mine := q.taken.filter fun t => p t.t
    if mine.isEmpty then s
    else
      let back := ((mine.filter (·.outst)).filter fun t => !t.letter.bad).foldl (fun l t => seqInsert l t.letter) []
      let lost := (mine.filter fun t => t.outst && t.letter.bad).map (·.letter.bytes)
      let q := (if free then (mine.filter (!·.outst)).foldl (fun q t => slotFree q t.letter.bytes) q else q)
      let q := { q with
        taken := q.taken.filter fun t => !(p t.t && (t.outst || free))
        letters := back ++ q.letters
        returned := (q.returned + back.length) % 2 ^ 32 }
      let (s, q) := lost.foldl (fun (s, q) b => let s := dropLetter s qn q b; (s, requeue s qn q)) (s, q)
      let (s, q) := overflowBack qn back.length s q
      setQueue s qn q) s

end Sys2Proof.Machine
end

