-- ==== Sys2Proof/Machine/Transcend.lean ====
section
/-! DEFINITION. The special functions of R286 and R287 and the normal deviates of R385, each the exact value rounded once. An
irrational value is enclosed between two fixed-point bounds at rising precision until the bounds agree on 64 bits; UNVERIFIED:
that the last precision always settles is not proved (assumption 15). -/

namespace Sys2Proof.Machine

/-! Fixed point at scale 2^-P: each function returns its value to within a few thousand units. -/

/-- Σ term_k with term_(k+1) = term_k × y / (k + 1), at scale 2^P: exp(y). -/
def expSeries (P y : Nat) : Nat → Nat → Nat → Nat → Nat
  | 0, _, _, acc => acc
  | fuel + 1, k, term, acc =>
    if term == 0 then acc else expSeries P y fuel (k + 1) (term * y / 2 ^ P / (k + 1)) (acc + term)

/-- exp(y) for 0 ≤ y < 1. -/
def fxExp (P y : Nat) : Nat := expSeries P y P 0 (2 ^ P) 0

/-- Σ z^(2k+1) / (2k+1), at scale 2^P: atanh(z). -/
def atanhSeries (P z2 : Nat) : Nat → Nat → Nat → Nat → Nat
  | 0, _, _, acc => acc
  | fuel + 1, k, pow, acc =>
    if pow == 0 then acc else atanhSeries P z2 fuel (k + 2) (pow * z2 / 2 ^ P) (acc + pow / k)

def fxAtanh (P z : Nat) : Nat := atanhSeries P (z * z / 2 ^ P) P 1 z 0

/-- ln 2 = 2 atanh(1/3). -/
def fxLn2 (P : Nat) : Nat := 2 * fxAtanh P (2 ^ P / 3)

/-- ln(m / 2^j) for 2^j ≤ m < 2^(j+1). -/
def fxLn (P m j : Nat) : Nat := 2 * fxAtanh P ((m - 2 ^ j) * 2 ^ P / (m + 2 ^ j))

/-- Σ ± z^(2k+1) / (2k+1) for z = 1/q: atan(1/q). -/
def atanSeries (P q : Nat) : Nat → Nat → Nat → Bool → Int → Int
  | 0, _, _, _, acc => acc
  | fuel + 1, k, pow, neg, acc =>
    if pow == 0 then acc
    else atanSeries P q fuel (k + 2) (pow / (q * q)) (!neg) (if neg then acc - (pow / k : Nat) else acc + (pow / k : Nat))

def fxAtanInv (P q : Nat) : Int := atanSeries P q P 1 (2 ^ P / q) false 0

/-- π by Machin's formula. -/
def fxPi (P : Nat) : Nat := (16 * fxAtanInv P 5 - 4 * fxAtanInv P 239).toNat

/-- Alternating series of sine (`k` starts at 1) and cosine (`k` starts at 0). -/
def trigSeries (P y2 : Nat) : Nat → Nat → Nat → Bool → Int → Int
  | 0, _, _, _, acc => acc
  | fuel + 1, k, term, neg, acc =>
    if term == 0 then acc
    else trigSeries P y2 fuel (k + 2) (term * y2 / 2 ^ P / ((k + 1) * (k + 2))) (!neg)
      (if neg then acc - (term : Nat) else acc + (term : Nat))

def fxSin (P y : Nat) : Nat := (trigSeries P (y * y / 2 ^ P) P 1 y false 0).toNat
def fxCos (P y : Nat) : Nat := (trigSeries P (y * y / 2 ^ P) P 0 (2 ^ P) false 0).toNat

/-- A magnitude as fixed point, truncated. -/
def fxOf (P : Nat) (d : Dy) : Nat :=
  let s := d.e + P
  if 0 ≤ s then d.m.natAbs * 2 ^ s.toNat else d.m.natAbs / 2 ^ (-s).toNat

/-- Units of error allowed for every function below. -/
def fxErr : Nat := 2 ^ 40

/-- Do the bounds N ± fxErr agree on 64 bits? -/
def settle64 (P N : Nat) : Option Approx :=
  let lo := N - fxErr
  let hi := N + fxErr
  let k := Nat.log2 lo
  if k < 64 || Nat.log2 hi != k then none
  else if lo / 2 ^ (k - 64) != hi / 2 ^ (k - 64) then none
  else some ⟨lo / 2 ^ (k - 64), (k - 64 : Nat) - (P : Int), true⟩

/-- The first precision that settles. -/
def ziv (f : Nat → Nat) : List Nat → Approx
  | [] => ⟨1, 0, true⟩
  | P :: ps => match settle64 P (f P) with
    | some a => a
    | none => ziv f ps

def precisions : List Nat := [192, 384, 768, 1536]

/-- exp2 of a fixed-point number with integer part k and fraction: (k, 2^fraction). -/
def fxExp2 (P x : Nat) : Nat × Nat := (x / 2 ^ P, fxExp P (x % 2 ^ P * fxLn2 P / 2 ^ P))

/-- e^x as an integer part of the base-2 exponent and a mantissa in [1, 2). -/
def fxExpE (P x : Nat) : Nat × Nat := fxExp2 P (x * 2 ^ P / fxLn2 P)

/-- Results too near 0, or too near 1, to tell apart at any grid. -/
def tiny : Approx := ⟨1, -4000, true⟩
def nearOne : Approx := ⟨2 ^ 300 - 1, -300, true⟩

/-- Is |d| at least 2^k? -/
def Dy.atLeast (d : Dy) (k : Int) : Bool := !d.isZero && k ≤ (Nat.log2 d.m.natAbs : Int) + d.e

/-- Is d an integer? -/
def Dy.isInt (d : Dy) : Bool := 0 ≤ d.e || d.m % 2 ^ (-d.e).toNat == 0

def Dy.floor (d : Dy) : Int := if 0 ≤ d.e then d.m * 2 ^ d.e.toNat else d.m / 2 ^ (-d.e).toNat

/-- 2^a for a nonzero a. -/
def exp2Approx (d : Dy) : Approx :=
  if d.atLeast 12 then (if d.m < 0 then tiny else ⟨1, 5000, false⟩)
  else
    let k := d.floor
    if d.isInt then ⟨1, k, false⟩
    else
      let r := d.sub ⟨k, 0⟩
      let a := ziv (fun P => (fxExp2 P (fxOf P r)).2) precisions
      ⟨a.n, a.e + k, true⟩

/-- log2 of a positive value that is no power of 2: sign and magnitude. -/
def log2Approx (d : Dy) : Bool × Approx :=
  let j := Nat.log2 d.m.natAbs
  let E : Int := j + d.e
  let frac := fun P => fxLn P d.m.natAbs j * 2 ^ P / fxLn2 P
  (E < 0, ziv (fun P => if 0 ≤ E then E.toNat * 2 ^ P + frac P else (-E).toNat * 2 ^ P - frac P) precisions)

/-- The argument reduced to [0, 1/2] with the sign of sin(π a), or of cos(π a). -/
def reduceHalf (isSin : Bool) (d : Dy) : Bool × Dy :=
  let t := d.sub ⟨2 * (Dy.floor ⟨d.m, d.e - 1⟩), 0⟩     -- in [0, 2)
  if isSin then
    let neg := !t.lt ⟨1, 0⟩
    let t := if neg then t.sub ⟨1, 0⟩ else t
    (neg, if Dy.lt ⟨1, -1⟩ t then Dy.sub ⟨1, 0⟩ t else t)
  else
    let t := if Dy.lt ⟨1, 0⟩ t then Dy.sub ⟨2, 0⟩ t else t
    let neg := Dy.lt ⟨1, -1⟩ t
    (neg, if neg then Dy.sub ⟨1, 0⟩ t else t)

/-- |sin(π t)| or |cos(π t)| at scale 2^P for t in [0, 1/2]. -/
def fxTrigPi (isSin : Bool) (t : Dy) (P : Nat) : Nat :=
  let quarter := t.le ⟨1, -2⟩
  let u := if quarter then t else Dy.sub ⟨1, -1⟩ t
  let y := fxOf P u * fxPi P / 2 ^ P
  if isSin == quarter then fxSin P y else fxCos P y

/-- tanh |a| for a nonzero a: 1 − 2 / (e^(2|a|) + 1). -/
def tanhApprox (d : Dy) : Approx :=
  if d.atLeast 7 then nearOne
  else
    ziv (fun P =>
      let (k, m) := fxExpE P (2 * fxOf P d)
      2 ^ P - 2 * 2 ^ (2 * P) / (m * 2 ^ k + 2 ^ P)) precisions

/-- 1 / (1 + e^(−a)). -/
def sigmApprox (d : Dy) : Approx :=
  if d.atLeast 9 then (if d.m < 0 then tiny else nearOne)
  else
    ziv (fun P =>
      let (k, m) := fxExpE P (fxOf P d)
      let ex := m * 2 ^ k
      if d.m < 0 then 2 ^ (2 * P) / (ex + 2 ^ P) else ex * 2 ^ P / (ex + 2 ^ P)) precisions

/-! The instructions: R286, R287. -/

inductive SpecFn where
  | exp2 | log2 | sin | cos | tanh | sigm
  deriving DecidableEq, Repr

def one (f : Fmt) (neg : Bool) : FRes := ⟨f.signed neg (f.bias * 2 ^ f.fw), 0⟩
def half (f : Fmt) : FRes := ⟨(f.bias - 1) * 2 ^ f.fw, 0⟩

def specFn (fn : SpecFn) (f : Fmt) (mode : Rnd) (ftz : Bool) (w : W32) (a : Nat) : FRes :=
  let x := f.decode ftz a
  let d := x.dy
  match fn, x with
  | _, .nan _ => nanRes f [a]
  | .exp2, .inf neg => if neg then FRes.zero f false else FRes.inf f false 0
  | .log2, .inf neg => if neg then FRes.dnan f true else FRes.inf f false 0
  | .sin, .inf _ | .cos, .inf _ => FRes.dnan f true
  | .tanh, .inf neg => one f neg
  | .sigm, .inf neg => if neg then FRes.zero f false else one f false
  | .exp2, .fin .. => if d.isZero then one f false else roundTo f mode ftz w false (exp2Approx d)
  | .log2, .fin neg _ _ =>
    if d.isZero then FRes.inf f true fDZ
    else if neg then FRes.dnan f true
    else if d.m.natAbs == 2 ^ Nat.log2 d.m.natAbs then
      let E : Int := Nat.log2 d.m.natAbs + d.e
      if E == 0 then FRes.zero f false else roundTo f mode ftz w (E < 0) ⟨E.natAbs, 0, false⟩
    else
      let (ng, ap) := log2Approx d
      roundTo f mode ftz w ng ap
  | .sin, .fin neg _ _ =>
    let (ng, t) := reduceHalf true d
    if t.isZero then FRes.zero f neg
    else if t == ⟨1, -1⟩ || (t.sub ⟨1, -1⟩).isZero then one f ng
    else roundTo f mode ftz w ng (ziv (fxTrigPi true t) precisions)
  | .cos, .fin .. =>
    let (ng, t) := reduceHalf false d
    if t.isZero then one f ng
    else if (t.sub ⟨1, -1⟩).isZero then FRes.zero f false
    else roundTo f mode ftz w ng (ziv (fxTrigPi false t) precisions)
  | .tanh, .fin neg _ _ => if d.isZero then FRes.zero f neg else roundTo f mode ftz w neg (tanhApprox d)
  | .sigm, .fin .. => if d.isZero then half f else roundTo f mode ftz w false (sigmApprox d)

/-- One value of a pair of normal deviates (R385): ρ cos(2π u2), or ρ sin(2π u2); u = (2w + 1) / 2^24 for 23-bit w. -/
def normalDeviate (isSin : Bool) (mode : Rnd) (w1 w2 : Nat) : Nat :=
  let u1 := 2 * w1 + 1
  let j := Nat.log2 u1
  let (ng, t) := reduceHalf isSin ⟨2 * (2 * w2 + 1 : Nat), -24⟩
  let rho := fun P => isqrt (2 * ((24 - j) * fxLn2 P - fxLn P u1 j) * 2 ^ P)
  (roundTo fmtF32 mode false 0 ng (ziv (fun P => rho P * fxTrigPi isSin t P / 2 ^ P) precisions)).bits

end Sys2Proof.Machine
end

