-- ==== Sys2Proof/Machine/Ops.lean ====
section
/-! DEFINITION. The named operations over teams, groups and threads: local areas and save blocks (R97, R164), the register stack
with its pool and backing store (R103-R114), the rounding stream (R139), taking a recoverable trap (R455-R458), halting a group
(R466), and the records both write. -/

namespace Sys2Proof.Machine

/-! Lookup. -/

def teamKey (ctx grid team : Nat) : Nat := ctx * 2 ^ 28 + grid * 2 ^ 20 + team
def groupKey (team gid : Nat) : Nat := team * 32 + gid

end Sys2Proof.Machine

namespace Sys2Proof

def TRef.gkey (t : TRef) : Nat := Machine.groupKey t.team t.gid
def TRef.key (t : TRef) : Nat := t.gkey * 32 + t.lane
/-- %tid (R38). -/
def TRef.tid (t : TRef) : Nat := 32 * t.gid + t.lane

end Sys2Proof

namespace Sys2Proof.Machine

def thread? (s : State) (t : TRef) : Option Thread := Tab.get? s.threads t.key
def setThread (s : State) (t : TRef) (th : Thread) : State := { s with threads := Tab.set s.threads t.key th }
def modThread (s : State) (t : TRef) (f : Thread → Thread) : State := { s with threads := Tab.modify s.threads t.key f }

def group? (s : State) (team gid : Nat) : Option Group := Tab.get? s.groups (groupKey team gid)
def modGroup (s : State) (team gid : Nat) (f : Group → Group) : State :=
  { s with groups := Tab.modify s.groups (groupKey team gid) f }

def team? (s : State) (tm : Nat) : Option Team := Tab.get? s.teams tm
def modTeam (s : State) (tm : Nat) (f : Team → Team) : State := { s with teams := Tab.modify s.teams tm f }

/-- The grid record of a team (R43). -/
def gridOf (s : State) (tm : Nat) : Option GridRec :=
  match team? s tm with
  | none => none
  | some t => match Tab.get? s.ctxs t.ctx with
    | none => none
    | some c => c.plan.grids[t.grid]?

def coreOf (s : State) (tm : Nat) : Nat := match team? s tm with | some t => t.core | none => 0
def ctxOf (s : State) (tm : Nat) : Nat := match team? s tm with | some t => t.ctx | none => 0

/-- The lanes of a group as threads. -/
def lanesOf (team gid : Nat) : List TRef := (List.range 32).map fun l => ⟨team, gid, l⟩

/-- Every thread of a team. -/
def threadsOf (s : State) (tm : Nat) : List TRef :=
  match team? s tm with
  | none => []
  | some t => (List.range t.ngrp).flatMap fun g => lanesOf tm g

def Thread.exited (th : Thread) : Bool := th.st == .exited
def Thread.halted (th : Thread) : Bool := th.st == .halted

/-- Producer of its pair (R39)? -/
def isProducer (s : State) (team gid : Nat) : Bool :=
  match gridOf s team with
  | some g => gid < g.nprod
  | none => false

/-- The group that holds the pigeonholes a group uses: the consumer of its pair (R39, R117). -/
def phGroup (s : State) (team gid : Nat) : Option Nat :=
  match gridOf s team with
  | some g => if gid < g.nprod then some (gid + g.nprod) else if gid < 2 * g.nprod then some gid else none
  | none => none

/-- Is the thread's team in its save or restore handler (R101, R102)? -/
def inHandler (s : State) (tm : Nat) : Bool :=
  match team? s tm with
  | some t => (match t.st with | .saving _ _ | .restoring => true | _ => false)
  | none => false

/-- Does the team hold slots on its core (R68, R69)? -/
def Team.onCore (t : Team) : Bool :=
  match t.st with
  | .resident | .saving _ _ | .restoring => true
  | _ => false

def teamsOn (s : State) (core : Nat) : List (Nat × Team) := s.teams.filter fun (_, t) => t.onCore && t.core == core

/-! Local areas and save blocks: R97, R164. -/

/-- Threads and teams before grid record `n` of a plan. -/
def threadsBefore (p : Plan) (n : Nat) : Nat := ((p.grids.take n).map fun g => 32 * g.ngrp * g.nteam).sum
def teamsBefore (p : Plan) (n : Nat) : Nat := ((p.grids.take n).map fun g => g.nteam).sum

def planOf (s : State) (ctx : Nat) : Option Plan := (Tab.get? s.ctxs ctx).map (·.plan)

/-- VA of a thread's local area (R164). -/
def localBase (s : State) (t : TRef) : Nat :=
  match team? s t.team with
  | none => 0
  | some tm => match planOf s tm.ctx with
    | none => 0
    | some p => (0xFF00000000000000 + 0x800000 * (threadsBefore p tm.grid + 32 * tm.ngrp * tm.team + t.tid)) % 2 ^ 64

/-- VA of a team's save block (R97). -/
def blockBase (s : State) (tm : Nat) : Nat :=
  match team? s tm with
  | none => 0
  | some t => match planOf s t.ctx with
    | none => 0
    | some p => (p.savebase.toNat + 0x200000 * (teamsBefore p t.grid + t.team)) % 2 ^ 64

def groupBlock (s : State) (tm gid : Nat) : Nat := (blockBase s tm + 0x1000 + 0x8000 * gid) % 2 ^ 64
def threadRec (s : State) (t : TRef) : Nat := (groupBlock s t.team t.gid + 0x200 * t.lane) % 2 ^ 64

/-- Where a thread's trap record goes (R457). -/
def trapRecVa (s : State) (t : TRef) : Nat :=
  if inHandler s t.team then (blockBase s t.team + 0x162000 + 0x2000 * t.gid + 0x100 * t.lane) % 2 ^ 64
  else (localBase s t + 0x480000) % 2 ^ 64

/-- A write that is dropped where it does not translate (R466). -/
def vaPut (s : State) (core ctx va n x : Nat) (psn : Bool) : State :=
  match vaWrite s core ctx va n x psn with
  | .ok s => s
  | .error (_, s) => s

/-- A block of fields (offset, bytes, value) as one little-endian number. -/
def packFields (l : List (Nat × Nat × Nat)) : Nat :=
  l.foldl (fun a (o, n, x) => a + x % 2 ^ (8 * n) * 2 ^ (8 * o)) 0

/-! The stream function (R383) and the rounding stream (R139). -/

def rotl32 (v k : Nat) : Nat := v * 2 ^ k % 2 ^ 32 + v / 2 ^ (32 - k)

def streamRounds : Nat → Nat → Nat → Nat → Nat → Nat → Nat → List Nat
  | 0, c0, c1, c2, c3, _, _ => [c0, c1, c2, c3]
  | n + 1, c0, c1, c2, c3, kl, kh =>
    let p := c0 * 0xD2E74A5B
    let q := c2 * 0xC84F3A97
    streamRounds n ((q / 2 ^ 32) ^^^ c1 ^^^ kl) (rotl32 (q % 2 ^ 32) 11) ((p / 2 ^ 32) ^^^ c3 ^^^ kh) (p % 2 ^ 32)
      ((kl + 0xB5AD4ECF) % 2 ^ 32) ((kh + 0x63D83595) % 2 ^ 32)

/-- stream(K, c) of R383. -/
def stream (key ctr : Nat) : List Nat :=
  streamRounds 10 (ctr % 2 ^ 32) (ctr / 2 ^ 32 % 2 ^ 32) (ctr / 2 ^ 64 % 2 ^ 32) (ctr / 2 ^ 96 % 2 ^ 32)
    (key % 2 ^ 32) (key / 2 ^ 32 % 2 ^ 32)

/-- The RKEY of a team now. -/
def rkeyOf (s : State) (tm : Nat) : W64 := match team? s tm with | some t => t.rkey | none => 0

/-- The word of rounding `k` under a key, after a draw count. -/
def drawKey (key : W64) (t : TRef) (draws : W64) (k : Nat) : W32 :=
  BitVec.ofNat 32 ((stream key.toNat (t.tid * 2 ^ 96 + (draws.toNat + k) % 2 ^ 64)).headD 0)

/-- The word of rounding `k` after the thread's present draw count. -/
def drawWord (s : State) (t : TRef) (draws : W64) (k : Nat) : W32 := drawKey (rkeyOf s t.team) t draws k

/-! Registers. -/

def getReg (th : Thread) (d : Nat) : Option Reg := Tab.get? th.regs d

def Reg.allocated : Reg → Bool
  | .stored => false
  | _ => true

def Reg.isEmpty : Reg → Bool
  | .empty _ => true
  | _ => false

/-- A register that a producer claims: behind what it awaits already (R108). -/
def Reg.claim (r : Option Reg) (tag : Nat) : Reg :=
  match r with
  | some (.empty q) => .empty (q ++ [⟨some tag, none⟩])
  | _ => .empty [⟨some tag, none⟩]

/-- A register that an instruction writes: at once, or behind what it awaits (R108). -/
def Reg.write (r : Option Reg) (x : Val) : Reg :=
  match r with
  | some (.empty q) => .empty (q ++ [⟨none, some x⟩])
  | _ => .full x

/-- Does a register await the fill of a claim? -/
def Reg.awaits (r : Option Reg) (tag : Nat) : Bool :=
  match r with
  | some (.empty q) => q.any fun p => p.tag == some tag && p.x.isNone
  | _ => false

/-- The fill of a claim: the register is full, with the last value, once everything it awaits has come (R108). -/
def Reg.fill (r : Reg) (tag : Nat) (x : Val) : Reg :=
  match r with
  | .empty q =>
    let q := q.map fun p => if p.tag == some tag then { p with x := some x } else p
    if q.all (·.x.isSome) then (match q.getLast? with
      | some ⟨_, some y⟩ => .full y
      | _ => .empty q)
    else .empty q
  | r => r

/-- v entries allocated to a thread. -/
def Thread.held_ (th : Thread) : Nat := (th.regs.filter fun (_, r) => r.allocated).length

/-- Claims of a thread whose register has been released since: their entries are freed when the fill arrives (R108). -/
def lostClaims (s : State) (t : TRef) (ds : List Dst) : Nat :=
  match thread? s t with
  | some th => (ds.filter fun d => !d.isG && !Reg.awaits (getReg th d.idx) d.tag).length
  | none => 0

/-- The claims of a matrix instruction, lane by lane. -/
def MJob.claims (j : MJob) : List (TRef × List Dst) := j.dsts.zipIdx.map fun (ds, l) => (⟨j.team, j.gid, l⟩, ds)

/-- Every claim in flight on a core: accesses, matrix instructions, solves, compactions (R107). -/
def claimsOn (c : Core) : List (TRef × List Dst) :=
  (c.acc.map fun a => (a.t, a.dsts)) ++
  ((c.meng.queue ++ c.meng.suspended.toList ++ c.meng.running.toList ++ c.meng.pipe).flatMap MJob.claims) ++
  (c.solves.map fun j => (j.t, j.dst.toList)) ++
  (c.compacts.flatMap fun j => j.parts.map fun (t, _, _, ds) => (t, ds))

/-- Fills on their way to registers that have been released. -/
def orphanFills (s : State) (core gk : Nat) : Nat :=
  (((claimsOn (getCore s core)).filter fun x => x.1.gkey == gk).map fun (t, ds) => lostClaims s t ds).sum

/-- The held count of a group (R112). -/
def heldOf (s : State) (tm gid : Nat) : Nat :=
  ((lanesOf tm gid).map fun t => match thread? s t with | some th => th.held_ | none => 0).sum +
  orphanFills s (coreOf s tm) (groupKey tm gid)

/-- Groups on a core as (team, gid). -/
def groupsOn (s : State) (core : Nat) : List (Nat × Nat) :=
  (teamsOn s core).flatMap fun (k, t) => (List.range t.ngrp).map fun g => (k, g)

/-- The destinations that a thread's issued instructions are still to write: those of its shadow (R456) and of its wait (R61). -/
def Thread.toWrite (th : Thread) : List (Spec × Nat) :=
  (match th.unres with | some u => u.dsts | none => []) ++ th.held.flatMap (·.dsts) ++
  (match th.win with | some w => w.dsts | none => [])

/-- Entries allocated to what a thread is still to write (R114). -/
def Thread.owed (th : Thread) : Nat :=
  if th.unres.isNone && th.win.isNone then 0
  else
    (th.toWrite.foldl (fun l (sp, w) => match sp with
      | .v k => (List.range (w / 32)).foldl (fun l i => setInsert l (th.wbase + k.toNat + i)) l
      | _ => l) []).countP fun d => match getReg th d with
        | none | some .stored => true
        | _ => false

/-- The entries allocated to the shadows and waits of a group. -/
def owedOf (s : State) (tm gid : Nat) : Nat :=
  ((lanesOf tm gid).map fun t => match thread? s t with | some th => th.owed | none => 0).sum

/-- Free v entries of a core (R51, R112): the pair reserve is taken out, and what shadows will write. -/
def poolFree (s : State) (core : Nat) : Nat :=
  131072 - ((groupsOn s core).map fun (k, g) => heldOf s k g + owedOf s k g).sum -
    2048 * ((teamsOn s core).map fun (k, _) => match gridOf s k with | some g => g.nprod | none => 0).sum

/-- The floor of a group in entries (R112). -/
def floorOf (s : State) (tm gid : Nat) : Nat :=
  match gridOf s tm with
  | some g => 32 * (if gid < g.nprod then g.pfloor else g.cfloor)
  | none => 0

/-! The register backing store: R106. -/

/-- A fault of the backing store: the VA that does not translate, whether it is a permission fault, and the state with what its walk
has cached. -/
abbrev BsErr := Nat × Bool × State

/-- The outcome of an access of the backing store at `va`. -/
def bsWrite (s : State) (core ctx va n x : Nat) : Except BsErr State :=
  match vaWrite s core ctx va n x false with
  | .ok s => .ok s
  | .error (e, s) => .error (va, e, s)

/-- Write one bit field of a byte in memory; the fault where it does not translate. -/
def vaBits (s : State) (core ctx va sh w x : Nat) : Except BsErr State :=
  match vaRead s core ctx va 1 with
  | (.error e, s) => .error (va, e, s)
  | (.ok (b, _), s) =>
    bsWrite s core ctx va 1 (b % 2 ^ sh + x % 2 ^ w * 2 ^ sh + b / 2 ^ (sh + w) * 2 ^ (sh + w))

/-- Write the value, state and poison of one full entry (R106). -/
def bsStore (s : State) (t : TRef) (d : Nat) (x : Val) : Except BsErr State :=
  let core := coreOf s t.team
  let ctx := ctxOf s t.team
  let b := localBase s t
  match bsWrite s core ctx (b + 4 * d) 4 x.v.toNat with
  | .error e => .error e
  | .ok s => match vaBits s core ctx (b + 0x400000 + d / 4) (2 * (d % 4)) 2 2 with
    | .error e => .error e
    | .ok s => vaBits s core ctx (b + 0x440000 + d / 8) (d % 8) 1 (b2n x.psn)

/-- Read a full entry back (R106): poisoned where its granule is. -/
def bsLoad (s : State) (t : TRef) (d : Nat) : Except BsErr (Val × State) :=
  let core := coreOf s t.team
  let ctx := ctxOf s t.team
  let b := localBase s t
  match vaRead s core ctx (b + 4 * d) 4 with
  | (.error e, s) => .error (b + 4 * d, e, s)
  | (.ok (v, p), s) => match vaRead s core ctx (b + 0x440000 + d / 8) 1 with
    | (.error e, s) => .error (b + 0x440000 + d / 8, e, s)
    | (.ok (q, qp), s) => .ok (⟨BitVec.ofNat 32 v, p || qp || bit q (d % 8)⟩, s)

/-- The value of an entry as the backing store holds it, where it can be read. -/
def bsValue (s : State) (t : TRef) (d : Nat) : Val := match bsLoad s t d with | .ok (x, _) => x | .error _ => ⟨0, true⟩

/-- Move one full entry of a thread out of the pool (R114); a write that does not translate is not performed and the thread
faults before its next issue (R451). -/
def spillEntry (s : State) (t : TRef) (d : Nat) (x : Val) : State × Bool :=
  match bsStore s t d x with
  | .ok s => (modThread s t fun th => { th with regs := Tab.set th.regs d .stored }, true)
  | .error (va, e, s') => (modThread (cacheFrom s s' (coreOf s t.team)) t fun th =>
      { th with bsFault := some ⟨BitVec.ofNat 64 va, e⟩ }, false)

/-- Full entries of a group in ascending depth, then ascending lane (R114). -/
def fullEntries (s : State) (tm gid : Nat) (keep : Thread → Nat → Bool) : List (Nat × TRef × Val) :=
  let all := (lanesOf tm gid).flatMap fun t => match thread? s t with
    | some th => th.regs.filterMap fun (d, r) => match r with
        | .full x => if keep th d then some (d, t, x) else none
        | _ => none
    | none => []
  sortBy (fun a b => a.1 < b.1 || (a.1 == b.1 && a.2.1.lane ≤ b.2.1.lane)) all

def spillSome : List (Nat × TRef × Val) → Nat → State → State
  | [], _, s => s
  | (d, t, x) :: rest, n, s =>
    if n == 0 then s
    else
      let (s, ok) := spillEntry s t d x
      spillSome rest (if ok then n - 1 else n) s

/-- Victim groups of an obtain, youngest first (R113). -/
def victims (s : State) (core tm gid : Nat) : List (Nat × Nat) :=
  let ages := fun (k : Nat) => match team? s k with | some t => t.age | none => 0
  sortBy (fun a b => ages a.1 > ages b.1 || (ages a.1 == ages b.1 && a.2 ≥ b.2))
    ((groupsOn s core).filter fun g => g != (tm, gid))

/-- obtain of R114: spill until `k` entries are free, as far as entries can be spilled; true when they are. -/
def obtain (s : State) (tm gid k : Nat) : State × Bool :=
  let core := coreOf s tm
  if k ≤ poolFree s core then (s, true)
  else
    let s := (victims s core tm gid).foldl (fun s (vt, vg) =>
      let free := poolFree s core
      let extra := heldOf s vt vg - floorOf s vt vg
      if k ≤ free || extra == 0 then s
      else spillSome (fullEntries s vt vg fun _ _ => true) (min (k - free) extra) s) s
    let free := poolFree s core
    let s := if k ≤ free then s
      else spillSome (fullEntries s tm gid fun th d => !(th.wbase ≤ d && d < th.wbase + 64)) (k - free) s
    (s, k ≤ poolFree s core)

/-! Window shifts: R104. -/

inductive Shift where
  | ok (s : State)
  | wait
  | index (d : Nat)
  /-- with the state as its walks have cached it -/
  | fault (va : Nat) (perm : Bool) (s : State)

def spillDepths (t : TRef) : List (Nat × Reg) → State → Except BsErr State
  | [], s => .ok s
  | (d, .full x) :: rest, s => match bsStore s t d x with
    | .ok s => spillDepths t rest s
    | .error e => .error e
  | _ :: rest, s => spillDepths t rest s

/-- The states of entries d to d + 63 as spilled: 2 where full. -/
def stateBits (th : Thread) (d n : Nat) : Nat :=
  (List.range n).foldl (fun a i => match getReg th (d + i) with
    | some _ => a + 2 * 2 ^ (2 * i)
    | none => a) 0

/-- spill_unit of R104. -/
def spillUnit (s : State) (t : TRef) (th : Thread) (d : Nat) : Shift :=
  let mine := th.regs.filter fun (k, _) => d ≤ k && k < d + 64
  if mine.any fun (_, r) => r.isEmpty then .wait
  else match spillDepths t mine s with
    | .error (va, e, s') => .fault va e (cacheFrom s s' (coreOf s t.team))
    | .ok s1 => match bsWrite s1 (coreOf s t.team) (ctxOf s t.team) (localBase s t + 0x400000 + d / 4) 16 (stateBits th d 64) with
      | .error (va, e, s') => .fault va e (cacheFrom s s' (coreOf s t.team))
      | .ok s => .ok (modThread s t fun th =>
          { th with regs := th.regs.filter fun (k, _) => !(d ≤ k && k < d + 64), bot := d + 64 })

/-- call_shift of R104. -/
def callShift (s : State) (t : TRef) (S : Nat) : Shift :=
  match thread? s t with
  | none => .wait
  | some th =>
    if 2 ^ 20 < th.wbase + S + 64 then .index (th.wbase + S + 64)
    else
      let r := if th.bot + 512 < th.wbase + S + 64 then spillUnit s t th th.bot else .ok s
      match r with
      | .ok s => .ok (modThread s t fun th => { th with wbase := th.wbase + S })
      | r => r

/-- Read back the full entries of a unit whose state bits are `st`, while the pool has entries (R104). -/
def refillDepths (t : TRef) (d st free : Nat) : List Nat → State → Except BsErr State
  | [], s => .ok s
  | i :: rest, s =>
    if st / 2 ^ (2 * i) % 4 == 2 then
      (if 0 < free - ((match thread? s t with | some th => th.held_ | none => 0)) then
        match bsLoad s t (d + i) with
        | .error e => .error e
        | .ok (x, s) => refillDepths t d st free rest
            (modThread s t fun th => { th with regs := Tab.set th.regs (d + i) (.full x) })
       else refillDepths t d st free rest
          (modThread s t fun th => { th with regs := Tab.set th.regs (d + i) .stored }))
    else refillDepths t d st free rest s

/-- The state bits of a unit of 64 entries as the backing store holds them. Where they are poisoned each entry reads as full, and is
marked poisoned there, so that refills deliver it poisoned (R410, R487; assumption 80). -/
def unitStates (s : State) (t : TRef) (d : Nat) : Except BsErr (Nat × State) :=
  let core := coreOf s t.team
  let ctx := ctxOf s t.team
  let b := localBase s t
  match vaRead s core ctx (b + 0x400000 + d / 4) 16 with
  | (.error e, s) => .error (b + 0x400000 + d / 4, e, s)
  | (.ok (st, false), s) => .ok (st, s)
  | (.ok (_, true), s) => .ok ((2 ^ 128 - 1) / 3 * 2, vaPut s core ctx (b + 0x440000 + d / 8) 8 (2 ^ 64 - 1) false)

/-- ret_shift of R104; `S` is at most WBASE. -/
def retShift (s : State) (t : TRef) (S : Nat) : Shift :=
  match thread? s t with
  | none => .wait
  | some th =>
    let w := th.wbase - S
    let s0 := s
    let s := modThread s t fun th => { th with regs := th.regs.filter fun (k, _) => k < w + 64, wbase := w }
    if th.bot ≤ w then .ok s
    else
      let d := th.bot - 64
      match unitStates s t d with
      | .error (va, e, s') => .fault va e (cacheFrom s0 s' (coreOf s t.team))
      | .ok (st, s) =>
        let held := match thread? s t with | some th => th.held_ | none => 0
        match refillDepths t d st (poolFree s (coreOf s t.team) + held) (List.range 64) s with
        | .error (va, e, s') => .fault va e (cacheFrom s0 s' (coreOf s t.team))
        | .ok s => .ok (modThread s t fun th => { th with bot := d })

/-! Writing results: R108, R115-R117. -/

/-- The pigeonhole qj as a thread sees it: its consumer group's (R117). -/
def phOf (s : State) (t : TRef) (j : Nat) : List Val :=
  match phGroup s t.team t.gid with
  | none => []
  | some cg => match group? s t.team cg with
    | some g => Tab.getD g.ph (32 * j + t.lane) []
    | none => []

def modPh (s : State) (t : TRef) (j : Nat) (f : List Val → List Val) : State :=
  match phGroup s t.team t.gid with
  | none => s
  | some cg => modGroup s t.team cg fun g =>
      let l := f (Tab.getD g.ph (32 * j + t.lane) [])
      { g with ph := if l.isEmpty then Tab.erase g.ph (32 * j + t.lane) else Tab.set g.ph (32 * j + t.lane) l }

/-- A predicate write; p7 is discarded (R116). -/
def setPred (th : Thread) (n : Nat) (b : Bool) : Thread :=
  if 7 ≤ n then th
  else { th with preds := if b then th.preds ||| BitVec.ofNat 7 (2 ^ n) else th.preds &&& ~~~(BitVec.ofNat 7 (2 ^ n)) }

/-- Write a run of v registers (R108). -/
def writeV (th : Thread) (d : Nat) : List Val → Thread
  | [] => th
  | x :: rest => writeV { th with regs := Tab.set th.regs d (Reg.write (getReg th d) x) } (d + 1) rest

/-- Give a g register a new state by a write or a claim: what was noted of its value before is past (R109). -/
def setG (g : Group) (n : Nat) (r : Reg) : Group :=
  { g with gregs := Tab.set g.gregs n r, gseen := Tab.erase g.gseen n, gwait := Tab.erase g.gwait n, gown := Tab.erase g.gown n }

/-- Write a run of g registers (R108). -/
def writeG (g : Group) (n : Nat) : List Val → Group
  | [] => g
  | x :: rest => writeG (setG g n (Reg.write (Tab.get? g.gregs n) x)) (n + 1) rest

/-- Write a destination (R108, R115, R117, R239); `gOk` for the lane that writes g registers. -/
def writeDst (s : State) (t : TRef) (gOk : Bool) (spec : Spec) (vals : List Val) : State :=
  match spec with
  | .v k => modThread s t fun th => writeV th (th.wbase + k.toNat) vals
  | .g k => if gOk then modGroup s t.team t.gid fun g => writeG g k.toNat vals else s
  | .q j => modPh s t j.toNat fun l => l ++ vals
  | _ => s

def LaneEff.flags (e : LaneEff) : BitVec 7 := e.conds.foldl (· ||| ·) 0

/-- Apply an effect to its thread; `gOk`: it is the lane that writes g registers (R115). -/
def applyEff (s : State) (t : TRef) (gOk : Bool) (e : LaneEff) : State :=
  let s := modThread s t fun th =>
    let th := e.preds.foldl (fun th (n, b) => setPred th n b) th
    let st := th.tstat ||| e.flags
    { th with
      tstat := match e.tstat with
        | some (a, m) => (st &&& ~~~m) ||| (a &&& m)
        | none => st
      draws := th.draws + BitVec.ofNat 64 e.draws }
  e.writes.foldl (fun s (d, vals) => writeDst s t gOk d vals) s

/-- Results held in a shadow own the g registers they name until another write or claim (R115, R456). -/
def ownG (s : State) (t : TRef) (k : Option Nat) (ds : List (Spec × Nat)) : State :=
  match k with
  | none => s
  | some k => ds.foldl (fun s (sp, w) => match sp with
      | .g n => modGroup s t.team t.gid fun g =>
          { g with gown := (List.range (w / 32)).foldl (fun m i => Tab.set m (n.toNat + i) k) g.gown }
      | _ => s) s

/-- The writes of a held result: of g registers those that nothing has written or claimed since its issue (R108, R456). -/
def ownWrites (s : State) (t : TRef) (k : Option Nat) (l : List (Spec × List Val)) : List (Spec × List Val) :=
  l.flatMap fun (sp, vals) => match sp with
    | .g n => vals.zipIdx.filterMap fun (v, i) => match k, group? s t.team t.gid with
        | some k, some g => if Tab.get? g.gown (n.toNat + i) == some k then some (.g (n + BitVec.ofNat 6 i), [v]) else none
        | _, _ => none
    | _ => [(sp, vals)]

/-- Write a held result. -/
def applyHeld (s : State) (t : TRef) (k : Option Nat) (e : LaneEff) : State :=
  applyEff s t k.isSome { e with writes := ownWrites s t k e.writes }

/-- The instruction that could trap has completed without one: its result and those held behind it are written in issue order
(R456). -/
def commitShadow (s : State) (t : TRef) : State :=
  match thread? s t with
  | none => s
  | some th => match th.unres with
    | none => s
    | some u =>
      let s := modThread s t fun th => { th with unres := none, held := [] }
      let s := applyHeld s t u.gw u.eff
      let s := th.held.foldl (fun s h => applyHeld s t h.gw h.eff) s
      modThread s t fun th => match th.st with
        | .blocked .shadow => { th with st := .eligible, since := s.now }
        | _ => th

/-! Trap records: R452, R458, R459. -/

def Exc.recoverable (e : Exc) : Bool := 1 ≤ e.cause && e.cause ≤ 7

def excArith (conds : BitVec 7) (elems : Nat) : Exc := ⟨1, (conds &&& 0x3E).toNat, none, false, elems⟩
def excEmpty (fld spec : Nat) : Exc := ⟨2, fld, none, false, spec⟩
def excIndex (sub detail : Nat) : Exc := ⟨3, sub, none, false, detail % 2 ^ 32⟩
def excXlate (perm : Bool) (sub va : Nat) : Exc := ⟨if perm then 6 else 5, sub, some va, true, 0⟩
def excIllegal (w : Nat) : Exc := ⟨0x10, 0, some (w % 2 ^ 64), false, w / 2 ^ 64 % 2 ^ 32⟩
def excAlign (a : Nat) (va : Bool) : Exc := ⟨0x11, 0, some a, va, 0⟩
def excAddr (sub a : Nat) (va : Bool) : Exc := ⟨0x12, sub, some a, va, 0⟩
def excOwner (off : Nat) : Exc := ⟨0x13, 0, some off, false, 0⟩
def excPoison (sub pc : Nat) : Exc := ⟨0x18, sub, some pc, true, 0⟩
def excBadReturn (sub va : Nat) : Exc := ⟨0x1C, sub, some va, true, 0⟩
def excBystander : Exc := ⟨0, 0, none, false, 0⟩
def excHandlerWait : Exc := ⟨0x19, 0, none, false, 0⟩
def excControl : Exc := ⟨0x1F, 0, none, false, 0⟩

/-- LSTATE of R106. -/
def lstate (th : Thread) : Nat :=
  th.lat0.left + 4 * th.lat1.left + 16 * th.lat2.left + 64 * b2n th.lat0.x.psn + 128 * b2n th.lat1.x.psn +
  256 * b2n th.lat2.x.psn

def lval (th : Thread) : Nat :=
  th.lat0.x.v.toNat + 2 ^ 32 * th.lat1.x.v.toNat + 2 ^ 64 * th.lat2.x.v.toNat

def HeldRes.entry (h : HeldRes) : Nat :=
  ((encode h.ins).getD 0) + 2 ^ 96 * (h.a.toNat % 2 ^ 32) + 2 ^ 128 * (h.b.toNat % 2 ^ 32) +
  2 ^ 160 * (h.c.toNat % 2 ^ 32)

/-- The 256 bytes of a trap record (R458). DEDUCED: FLAGS of R490 are its bits [1:0], beside the halted bit of R466 (assumption 80). -/
def trapRecord (e : Exc) (th : Thread) (lanes : BitVec 32) (pc resume : W64) (halted handler : Bool)
    (rep : List HeldRes) : Nat :=
  packFields ([(0x00, 1, e.cause), (0x01, 1, e.sub), (0x02, 1, rep.length),
    (0x03, 1, b2n (e.addr.isSome && (e.cause != 0x16 || e.isVa)) + 2 * b2n (e.addr.isSome && e.isVa) +
      4 * b2n halted + 8 * b2n handler),
    (0x04, 4, lanes.toNat), (0x08, 8, pc.toNat), (0x10, 8, resume.toNat), (0x18, 8, e.addr.getD 0), (0x20, 4, e.detail),
    (0x38, 4, (rep.zipIdx.map fun (h, i) => h.psn.toNat * 2 ^ (3 * i)).sum), (0x3C, 4, th.seq.toNat),
    (0x40, 1, th.nregs), (0x41, 1, th.preds.toNat), (0x44, 4, lstate th), (0x48, 12, lval th)] ++
    rep.zipIdx.map fun (h, i) => (0x58 + 24 * i, 24, h.entry))

/-! Instruction fetch: R182, R232, R417, R469. -/

inductive FetchRes where
  | word (w : Nat)
  | exc (e : Exc)
  | reserved (pa : Nat)
  deriving DecidableEq, Repr

/-- Bytes of code at one translated address; a word outside this package's memory does not translate (assumption 16). -/
def fetchPart (s : State) (core ctx va n : Nat) : Except FetchRes (Nat × Bool) × State :=
  match xlate s core ctx va .exec with
  | (.ok pa _, s) =>
    (if isOwnMem s pa then .ok (cohRead s pa n)
     else if 192 ≤ paPkg pa then .error (.reserved pa) else .error (.exc (excXlate false 2 va)), s)
  | (.trans, s) => (.error (.exc (excXlate false 2 va)), s)
  | (.perm, s) => (.error (.exc (excXlate true 2 va)), s)

/-- Lines held by an instruction cache of 128 KiB, newest first (assumption 12). -/
def icacheTouch (s : State) (core ln : Nat) : State :=
  modCore s core fun c => { c with icache := (ln :: c.icache.filter (· != ln)).take 1024 }

/-- The 12 bytes at a PC, which may lie in two pages. -/
def fetchWord (s : State) (core ctx : Nat) (pc : W64) : FetchRes × State :=
  let va := pc.toNat
  let k := min 12 (65536 - va % 65536)
  match fetchPart s core ctx va k with
  | (.error r, s) => (r, s)
  | (.ok (v, p), s) =>
    let s := icacheTouch s core (va / 128)
    if k == 12 then (if p then .exc (excPoison 2 va) else .word v, s)
    else match fetchPart s core ctx (va + k) (12 - k) with
      | (.error r, s) => (r, s)
      | (.ok (h, hp), s) => (if p || hp then .exc (excPoison 2 va) else .word (v + 2 ^ (8 * k) * h), s)

/-! The thread and group records of R99 that the core writes. -/

def waitCode : Wait → Nat
  | .bar .. => 1
  | .barx .. => 2
  | .waitv .. => 3
  | .vread .. => 4
  | .ltake .. => 5
  | .semwait .. => 7
  | .ownwait .. => 8
  | .arrwait .. => 9

/-- WAIT0 and WAIT1 (R316, R328). -/
def waitOps : Wait → Nat × Nat
  | .bar x e => (x.b.toNat, e)
  | .barx _ a sent ph => (a.toNat, if sent then 2 ^ 63 + ph else 0)
  | .waitv _ a b => (a.toNat, b)
  | .vread x b => (x.i.toNat, b.toNat)
  | .ltake _ q => (q, 0)
  | .semwait x b => (x.n.toNat, b.toNat)
  | .ownwait _ o => (o.toNat, 0)
  | .arrwait _ c => (c.toNat, 0)

def Block.isPop : Block → Bool
  | .pop .. => true
  | _ => false

/-- The blocks that R62 counts as waits of a team that may park. -/
def Block.parks : Block → Bool
  | .pop .. | .push .. | .compact => true
  | _ => false

/-- The wait that a thread's record shows: one that has not yet repeated a BARX that has arrived waits there still (R316). -/
def savedWait (th : Thread) : Option (Nat × Nat × Nat) :=
  match th.st, th.barxSent with
  | .waiting w, _ => some (waitCode w, waitOps w)
  | .exited, _ | .halted, _ => none
  | _, some (ph, a) => some (2, a.toNat, 2 ^ 63 + ph)
  | _, none => none

/-- TSTATE of R99. -/
def tstateCode (th : Thread) : Nat :=
  let (st, w) : Nat × Nat := match savedWait th with | some (c, _) => (2, c) | none => match th.st with
    | .eligible => (0, 0)
    | .blocked .compact => (3, 0)
    | .blocked b => (1, if b.isPop then 6 else 0)
    | .waiting w => (2, waitCode w)
    | .held => (3, 0)
    | .paused _ => (4, 0)
    | .exited => (5, 0)
    | .halted => (6, 0)
    | .handlerDone => (0, 0)
  st + 8 * b2n th.idem + 16 * w

/-- The fields of a thread record from PC on (R99), as the core writes them. -/
def threadFields (s : State) (th : Thread) : Nat :=
  let (w0, w1) := match savedWait th with | some (_, w) => w | none => (0, 0)
  let pause := match th.st with | .paused lim => lim - s.now | _ => 0
  packFields [(0x00, 8, th.pc.toNat), (0x08, 4, tstateCode th), (0x0C, 4, th.preds.toNat), (0x10, 4, th.tstat.toNat),
    (0x14, 4, th.wbase), (0x18, 4, th.nregs), (0x1C, 4, pause), (0x20, 8, th.draws.toNat), (0x28, 8, w0), (0x30, 8, w1),
    (0x38, 4, b2n th.tdepth)]

def saveThreadFields (s : State) (t : TRef) (th : Thread) : State :=
  vaPut s (coreOf s t.team) (ctxOf s t.team) (threadRec s t + 0x118) 0xE8 (threadFields s th) false

/-- VSTATE and VPOISON of the window (R99). -/
def windowMaps (th : Thread) (pois : Nat → Bool) : Nat × Nat :=
  (List.range 64).foldl (fun (a, p) i => match getReg th (th.wbase + i) with
    | none => (a, p)
    | some (.empty _) => (a + 2 ^ (2 * i), p)
    | some (.full x) => (a + 2 * 2 ^ (2 * i), p + b2n x.psn * 2 ^ i)
    | some .stored => (a + 2 * 2 ^ (2 * i), p + b2n (pois (th.wbase + i)) * 2 ^ i)) (0, 0)

def saveWindowMaps (s : State) (t : TRef) (th : Thread) : State :=
  let b := localBase s t
  let pois := fun d => match (vaRead s (coreOf s t.team) (ctxOf s t.team) (b + 0x440000 + d / 8) 1).1 with
    | .ok (q, _) => bit q (d % 8)
    | .error _ => true
  let (vs, vp) := windowMaps th pois
  vaPut s (coreOf s t.team) (ctxOf s t.team) (threadRec s t + 0x100) 24 (vs + 2 ^ 128 * vp) false

/-- GSTATE and GPOISON (R99). -/
def gMaps (g : Group) : Nat × Nat :=
  g.gregs.foldl (fun (a, p) (i, r) => match r with
    | .empty _ => (a + 2 ^ (2 * i), p)
    | .full x => (a + 2 * 2 ^ (2 * i), p + b2n x.psn * 2 ^ i)
    | .stored => (a, p)) (0, 0)

/-- The group fields of R99 that the core writes. -/
def saveGroupFields (s : State) (tm gid : Nat) (g : Group) : State :=
  let (gs, gp) := gMaps g
  let cons := phGroup s tm gid == some gid
  let s := vaPut s (coreOf s tm) (ctxOf s tm) (groupBlock s tm gid + 0x4100) 0x70 (packFields
    [(0x00, 16, gs), (0x10, 8, gp), (0x18, 4, g.arr.toNat), (0x1C, 4, b2n g.mr.isSome + 2 * b2n g.conv.isSome),
     (0x20, 64, packFields ((List.range 16).map fun i => (4 * i, 4, (Tab.getD g.ks i 0).toNat))),
     (0x60, 8, match g.mr with | some j => j.pc.toNat | none => 0),
     (0x68, 4, match g.mr with | some j => j.step | none => 0)]) false
  let s := if cons then
      vaPut s (coreOf s tm) (ctxOf s tm) (groupBlock s tm gid + 0x4170) 256
        (packFields ((List.range 256).map fun i => (i, 1, ((Tab.getD g.ph i []).length)))) false
    else s
  let s := vaPut s (coreOf s tm) (ctxOf s tm) (groupBlock s tm gid + 0x4270) 0xD90 0 false
  vaPut s (coreOf s tm) (ctxOf s tm) (groupBlock s tm gid + 0x7000) 0x1000 0 false

/-- Move a thread's whole register stack, its states and its latches to the backing store (R100, R106); the stack ends at depth
2^20 (R103). -/
def dumpStack (s : State) (t : TRef) (th : Thread) : State :=
  let core := coreOf s t.team
  let ctx := ctxOf s t.team
  let b := localBase s t
  let n := min 512 (2 ^ 20 - th.bot)
  let s := vaPut s core ctx (b + 0x400000 + th.bot / 4) (n / 4) (stateBits th th.bot n) false
  let s := th.regs.foldl (fun s (d, r) => match r with
    | .full x => (match bsStore s t d x with | .ok s => s | .error _ => s)
    | _ => s) s
  vaPut s core ctx (b + 0x460000) 16 (lval th + 2 ^ 96 * lstate th) false

/-! Halting a group: R466. -/

/-- Has every fill due to the group arrived, those of its links and of its matrix instructions that have not started included? -/
def fillsDone (s : State) (tm gid : Nat) : Bool :=
  (s.links.all fun l => !(l.t.team == tm && l.t.gid == gid)) &&
  ((getCore s (coreOf s tm)).meng.queue.all fun j => !(j.team == tm && j.gid == gid)) &&
  ((lanesOf tm gid).all fun t => match thread? s t with
    | some th => th.regs.all fun (_, r) => !r.isEmpty
    | none => true) &&
  (match group? s tm gid with
   | some g => g.gregs.all fun (_, r) => !r.isEmpty
   | none => true)

/-- Steps 4 and 5 of R466, once no register of the halted group is empty. -/
def haltSettle (s : State) (tm gid : Nat) : State :=
  match group? s tm gid with
  | none => s
  | some g =>
    if !g.halted || g.dumped || !fillsDone s tm gid then s
    else
      let s := (lanesOf tm gid).foldl (fun s t => match thread? s t with
        | none => s
        | some th =>
          let s := saveWindowMaps s t th
          let s := dumpStack s t th
          modThread s t fun th => { th with regs := th.regs.map fun (d, _) => (d, .stored) }) s
      let s := saveGroupFields s tm gid g
      let core := coreOf s tm
      let ctx := ctxOf s tm
      let s := g.gregs.foldl (fun s (i, r) => match r with
        | .full x => vaPut s core ctx (groupBlock s tm gid + 0x4000 + 4 * i) 4 x.v.toNat x.psn
        | _ => s) s
      let h := match (vaRead s core ctx (blockBase s tm + 0x28) 8).1 with | .ok (v, _) => v | .error _ => 0
      let s := vaPut s core ctx (blockBase s tm + 0x28) 8
        ((h % 2 ^ 32 + 1) % 2 ^ 32 + 2 ^ 32 * (h / 2 ^ 32 ||| 2 ^ gid)) false
      modGroup s tm gid fun g => { g with dumped := true }

/-- Withdraw a waiting thread's wait (R466): a take is withdrawn at the hub, a barrier arrival leaves the open phase. -/
def withdrawWait (s : State) (t : TRef) (th : Thread) : State :=
  match th.st with
  | .waiting (.bar x _) => modTeam s t.team fun tm =>
      if tm.arrivals.contains t.tid then { tm with arrivals := tm.arrivals.filter (· != t.tid) }
      else { tm with bars := Tab.modify tm.bars x.b.toNat fun b => { b with count := b.count - 1 } }
  | .waiting (.ltake _ q) =>
      { s with queues := Tab.modify s.queues q fun q => { q with waits := q.waits.filter fun w => w.t != t } }
  | _ => s

/-- A thread that causes a halt: its cause, its instruction and its next one. -/
structure Culprit where
  lane : Nat
  exc : Exc
  pc : W64
  resume : W64
  deriving DecidableEq, Repr

/-- Halt a group (R466). `lanes` gives LANES for a cause. -/
def haltGroup (s : State) (tm gid : Nat) (who : List Culprit) (lanes : Culprit → BitVec 32) : State :=
  match group? s tm gid with
  | none => s
  | some g =>
    if g.halted then s
    else
      -- what was issued completes (step 2), but for an instruction that traps and what hangs on it (assumption 13)
      let s := (lanesOf tm gid).foldl (fun s t => match thread? s t with
        | some th => (match th.unres with
          | some u => if u.trap.isNone then commitShadow s t else s
          | none => s)
        | none => s) s
      let s := (lanesOf tm gid).foldl (fun s t => match thread? s t with
        | none => s
        | some th =>
          let th := { th with seq := th.seq + 1 }
          let waiting := (match th.st with | .waiting _ => true | _ => false)
          -- an instruction that awaits a unit's answer has issued (R92, R198, R203, R314)
          let pc := match th.unres, th.begun with
            | some u, _ => u.pc
            | none, some (.trap _ _ pc ..) => pc
            | _, _ => if th.st == .blocked .unit || s.links.any (·.t == t) then th.after.getD (th.pc + 12) else th.pc
          let (e, pc, res, ln) : Exc × W64 × W64 × BitVec 32 := match who.find? fun c => c.lane == t.lane with
            | some c => (c.exc, c.pc, c.resume, lanes c)
            | none => (excBystander, pc, if waiting then pc + 12 else pc, 0)
          let s := vaPut s (coreOf s tm) (ctxOf s tm) (trapRecVa s t) 256
            (trapRecord e th ln pc res true (inHandler s tm) []) false
          let s := saveThreadFields s t { th with pc := pc }
          let s := withdrawWait s t th
          modThread s t fun th => { th with seq := th.seq + 1, pc := pc, held := [], unres := none, begun := none, win := none,
                                            st := if th.exited then .exited else .halted }) s
      let s := modGroup s tm gid fun g => { g with halted := true, conv := none }
      let s := returnLetters s (fun t => t.team == tm && t.gid == gid) false
      haltSettle s tm gid

/-- Halt with causes 0x1A and 0x1B, whose SUB is the recoverable cause (R457). -/
def Exc.asHalt (e : Exc) (cause : Nat) : Exc := { e with cause := cause, sub := e.cause }

/-! Taking a recoverable trap: R457. -/

/-- Fetch and backing-store faults: nothing has issued, and RTE goes on at PC (R461). -/
def Exc.atFetch (e : Exc) : Bool := (e.cause == 5 || e.cause == 6) && 2 ≤ e.sub

/-- A trap of one thread, as it is taken: its record's LANES, PC and RESUME, the replay queue, and the TVEC in force at its issue
(R140, R453, R458). -/
structure Raise where
  t : TRef
  exc : Exc
  lanes : BitVec 32
  pc : W64
  resume : W64
  rep : List HeldRes
  tvec : W64

/-- Can the record of a thread's trap be written? -/
def recordWritable (s : State) (t : TRef) : Bool :=
  match xlate s (coreOf s t.team) (ctxOf s t.team) (trapRecVa s t) .write with
  | (.ok pa _, _) => isOwnMem s pa
  | _ => false

/-- The cause with which a recoverable trap halts the group instead, if it does (R457). -/
def trapHalts (s : State) (t : TRef) (tvec : W64) : Option Nat :=
  match thread? s t with
  | some th =>
    if th.tdepth || (inHandler s t.team && !recordWritable s t) then some 0x1B
    else if tvec == 0 then some 0x1A
    else match callShift s t 64 with
      | .index _ | .fault .. => some 0x1B
      | _ => if recordWritable s t then none else some 0x1B
  | none => none

/-- The handler's first state of a thread whose record stands at `va` (R457). -/
def enterTrap (s : State) (x : Raise) (va : Nat) : State :=
  modThread s x.t fun th =>
    let b := th.wbase
    { th with
      seq := th.seq + 1
      nregs := 64
      tdepth := true
      tfix := x.exc.atFetch
      tretry := th.after.isSome
      regs := Tab.set (Tab.set th.regs b (.full ⟨BitVec.ofNat 32 va, false⟩)) (b + 1)
        (.full ⟨BitVec.ofNat 32 (va / 2 ^ 32), false⟩)
      pc := x.tvec
      st := .eligible
      since := s.now + 1
      after := none
      held := []
      unres := none
      joined := false
      begun := none }

/-- A recoverable trap is taken. While call_shift or the pool makes the entry wait, the thread is blocked with it (R468). -/
def takeTrap (s : State) (x : Raise) : State :=
  let t := x.t
  match thread? s t with
  | some th =>
    let halt := fun (s : State) (cause : Nat) =>
      haltGroup s t.team t.gid [⟨t.lane, x.exc.asHalt cause, x.pc, x.resume⟩] fun _ => x.lanes
    let wait := modThread s t fun th => { th with
      st := .blocked .busy, since := s.now + 1, held := [], unres := none
      begun := some (.trap x.exc x.lanes x.pc x.resume x.rep x.tvec) }
    match trapHalts s t x.tvec with
    | some c => halt s c
    | none => match callShift s t 64 with
      | .ok s1 =>
        let (s1, room) := obtain s1 t.team t.gid 2
        if !room then wait
        else
          let va := trapRecVa s t
          match vaWrite s1 (coreOf s t.team) (ctxOf s t.team) va 256
              (trapRecord x.exc { th with seq := th.seq + 1 } x.lanes x.pc x.resume false (inHandler s t.team) x.rep) false with
          | .error _ => halt s 0x1B
          | .ok s2 => enterTrap s2 x va
      | _ => wait
  | none => s

/-- Trap entries that wait try again at the end of a cycle (R468). -/
def retryEntries (s : State) : State :=
  s.threads.foldl (fun s (k, _) =>
    let t : TRef := ⟨k / 1024, k / 32 % 32, k % 32⟩
    match thread? s t with
    | some th => (match th.begun with
      | some (.trap e lanes pc resume rep tvec) => takeTrap s ⟨t, e, lanes, pc, resume, rep, tvec⟩
      | _ => s)
    | none => s) s

/-- Where a thread goes on after its instruction: RESUME during a retry (R461), else the next instruction. -/
def Thread.next (th : Thread) : W64 := th.after.getD (th.pc + 12)

/-- A thread that cannot go on yet stands at its instruction and tries again (assumption 17). -/
def busy (s : State) (t : TRef) : State :=
  modThread s t fun th => { th with st := .blocked .busy, since := s.now + 1 }

/-- RESUME of a trap that thread takes at its instruction (R458, R461). -/
def resumeOf (th : Thread) (e : Exc) : W64 := if e.atFetch then th.after.getD th.pc else th.next

/-- The TVEC of a team now. -/
def tvecOf (s : State) (tm : Nat) : W64 := match team? s tm with | some t => t.tvec | none => 0

/-- The exception as the thread takes it: a recoverable one that cannot run a handler halts. -/
def excFinal (s : State) (t : TRef) (e : Exc) : Exc :=
  if e.recoverable then (match trapHalts s t (tvecOf s t.team) with | some c => e.asHalt c | none => e) else e

/-- The lanes of an issue that raised each cause (R458). -/
def causeLanes (l : List (TRef × Exc)) (cause : Nat) : BitVec 32 :=
  l.foldl (fun m (t, e) => if e.cause == cause then m ||| BitVec.ofNat 32 (2 ^ t.lane) else m) 0

/-- The distinct groups of some lanes. -/
def groupsIn (l : List TRef) : List (Nat × Nat) :=
  l.foldl (fun a t => if a.contains (t.team, t.gid) then a else a ++ [(t.team, t.gid)]) []

/-- The traps and faults of one issue, in the form in which they end (`excFinal`): recoverable ones are taken where the group does not
halt; a group with a fault that is not recoverable halts, and every lane with such a fault causes it (R455, R466, assumption 18). -/
def raiseList (s : State) (l : List Raise) : State :=
  let halts := l.filter fun x => !x.exc.recoverable
  let s := l.foldl (fun s x =>
    if x.exc.recoverable && !(halts.any fun y => y.t.gkey == x.t.gkey) then takeTrap s x else s) s
  (groupsIn (halts.map (·.t))).foldl (fun s (tm, gid) =>
    let who := halts.filter fun y => y.t.team == tm && y.t.gid == gid
    haltGroup s tm gid (who.map fun y => ⟨y.t.lane, y.exc, y.pc, y.resume⟩) fun c =>
      match who.find? fun y => y.t.lane == c.lane with | some y => y.lanes | none => 0) s

/-- The traps and faults of some threads at the instructions where they stand; `also` are those of the same issue that are not yet
complete (R456). -/
def raiseAll (s : State) (also l : List (TRef × Exc)) : State :=
  let l := l.map fun (t, e) => (t, excFinal s t e)
  raiseList s (l.filterMap fun (t, e) => (thread? s t).map fun th =>
    { t := t, exc := e, lanes := causeLanes (l ++ also) e.cause, pc := th.pc, resume := resumeOf th e, rep := []
      tvec := tvecOf s t.team })

/-- One trap or fault of one thread outside an issue. -/
def raiseOne (s : State) (t : TRef) (e : Exc) : State := raiseAll s [] [(t, e)]

end Sys2Proof.Machine
end

