-- ==== Sys2Proof/Machine/Operands.lean ====
section
/-! DEFINITION. Operands of an instruction word: which fields it reads and writes and at what width (the encoding tables of
R257-R366), guards (R233), immediates (R243), specials (R118), reading and releasing sources (R108-R111), pigeonholes (R117),
latches (R123, R124), writing destinations (R115), blocking and trapping on empty registers (R108, R448), and the frame in which
an issue runs its lanes. -/

namespace Sys2Proof.Machine

/-! What an instruction names. -/

/-- A source: field 0 A, 1 B, 2 C, 3 any other; its width in bits (a block of n registers is 32 × n); the type of an
immediate there; and whether R452 calls it an indexed or block register. -/
structure SrcOp where
  fld : Nat
  op : Opnd
  w : Nat
  ty : Ty
  block : Bool
  deriving DecidableEq, Repr

structure DstOp where
  spec : Spec
  w : Nat
  deriving DecidableEq, Repr

/-! Tile predicates: R346. -/

/-- A k register (R340). -/
def kReg (s : State) (tm gid n : Nat) : W32 := match group? s tm gid with | some g => Tab.getD g.ks n 0 | none => 0

/-- Is a tile predicate named, and its bit 0? -/
def tileOff (s : State) (tm gid : Nat) (x : Mma) : Bool :=
  match x.tp with
  | some (kp, b) => !bit (kReg s tm gid kp.toNat).toNat b.toNat
  | none => false

/-- Who reads the sources: guard-true threads; guard-false ones supply the data source, field 0, too (R330); fields A and B only
in lane 0 (R349). -/
inductive Supply where
  | own | data | lane0
  deriving DecidableEq, Repr

structure OpInfo where
  ctl : Ctl
  srcs : List SrcOp
  dsts : List DstOp
  supply : Supply := .own
  deriving DecidableEq, Repr

def sA (s : Src) (w : Nat) (ty : Ty) : SrcOp := ⟨0, .src s, w, ty, false⟩
def sB (s : Src) (w : Nat) (ty : Ty) : SrcOp := ⟨1, .src s, w, ty, false⟩
def sC (s : Src) (w : Nat) (ty : Ty) : SrcOp := ⟨2, .src s, w, ty, false⟩
def oB (s : Opnd) (w : Nat) (ty : Ty) : SrcOp := ⟨1, s, w, ty, false⟩
def oC (s : Opnd) (w : Nat) (ty : Ty) : SrcOp := ⟨2, s, w, ty, false⟩
def sX (s : Spec) (lu : Bool) (w : Nat) : SrcOp := ⟨3, .src ⟨lu, false, s⟩, w, if w == 64 then .n64 else .n32, false⟩
def sBlk (fld : Nat) (s : Src) (n : Nat) : SrcOp := ⟨fld, .src s, 32 * n, .n32, true⟩

def binInfo (x : Bin) (wb : Nat) (tb : Ty) (dw : Nat) : OpInfo :=
  ⟨x.ctl, [sA x.a x.ty.rwidth x.ty, oB x.b wb tb], [⟨x.d, dw⟩], .own⟩
def unInfo (x : Un) (dw : Nat) : OpInfo := ⟨x.ctl, [sA x.a x.ty.rwidth x.ty], [⟨x.d, dw⟩], .own⟩
def triInfo (x : Tri) (wab : Nat) (tab : Ty) (wc : Nat) (tc : Ty) : OpInfo :=
  ⟨x.ctl, [sA x.a wab tab, sB x.b wab tab, oC x.c wc tc], [⟨x.d, x.ty.rwidth⟩], .own⟩
def cmpInfo (x : Cmp) : OpInfo :=
  ⟨x.ctl, [sA x.a x.ty.rwidth x.ty, sB x.b x.ty.rwidth x.ty], [⟨x.d, 32⟩], .own⟩

def wideTy (wide : Bool) : Ty := if wide then .n64 else .n32
def wideI (wide : Bool) : Ty := if wide then .i64 else .i32

def memSrc (m : MemOpnd) : SrcOp := sA m.addr 64 .n64
def volSrcs (m : VolOpnd) : List SrcOp :=
  [sA m.vol 32 .n32, sB m.x 32 .i32, sC m.y 32 .i32, ⟨3, .src ⟨m.zlu, false, m.z⟩, 32, .i32, false⟩]

def collInfo (x : Coll) : OpInfo := ⟨x.ctl, [sA x.a 64 .n64, sB x.b 32 .n32, sC x.c 64 .n64], [], .own⟩
/-- The scale registers of a block-scaled matrix instruction (R343). -/
def scaleSrc (x : Mma) : List SrcOp :=
  if x.bs then [⟨3, .src ⟨false, false, .g (BitVec.ofNat 6 (8 * x.sb8.toNat))⟩, 512, .n32, true⟩] else []

def parcelInfo (x : Parcel) : OpInfo := ⟨x.ctl, [sA x.a 64 .n64, sB x.b 32 .n32, sC x.c 32 .n32], [], .own⟩

/-- The registers of a v run as the last field of an instruction word: MVT's x. -/
def mvtSrc (x : Mvt) : SrcOp := ⟨0, .src ⟨x.alu, x.ate, .v x.a⟩, 32 * (x.cols.toNat + 1), .n32, true⟩

/-- The operands of each of the 143 instructions. -/
def infoOf (i : Instr) : Option OpInfo :=
  match i with
  | .iadd x | .isub x | .imul x | .idiv x | .irem x | .imin x | .imax x | .and x | .or x | .xor x
  | .fadd x | .fsub x | .fmul x | .fmin x | .fmax x | .fdiv x => some (binInfo x x.ty.rwidth x.ty x.ty.rwidth)
  | .imad x | .ffma x => some (triInfo x x.ty.rwidth x.ty x.ty.rwidth x.ty)
  | .ineg x | .iabs x | .not x | .brev x | .fsqrt x | .frcp x | .frsq x | .frnd x
  | .fexp2 x | .flog2 x | .fsin x | .fcos x | .ftanh x | .fsigm x => some (unInfo x x.ty.rwidth)
  | .lea x => some ⟨x.ctl, [sA x.a 64 .n64, sB x.b 32 x.ty, sC x.c 32 .n32], [⟨x.d, 64⟩], .own⟩
  | .cvti x | .cvt x => some ⟨x.ctl, [sA x.a x.sty.rwidth x.sty], [⟨x.d, x.ty.rwidth⟩], .own⟩
  | .cvtp x => some (match cvtpShape x.ty x.sty with
      | some (dw, aw, two) => ⟨x.ctl, sA x.a aw x.sty :: (if two then [sB x.b 64 x.sty] else []), [⟨x.d, dw⟩], .own⟩
      | none => ⟨x.ctl, [], [], .own⟩)
  | .idp4 x => some (triInfo x 32 .n32 32 x.ty)
  | .bmix x => some ⟨x.ctl, [sA x.a x.ty.rwidth x.ty, sB x.b x.ty.rwidth x.ty, sC x.c x.ty.rwidth x.ty], [⟨x.d, x.ty.rwidth⟩], .own⟩
  | .shl x | .shr x | .rot x | .bfe x => some (binInfo x 32 .n32 x.ty.rwidth)
  | .shf x | .bfi x => some (triInfo x x.ty.rwidth x.ty 32 .n32)
  | .popc x | .clz x | .ffs x => some (unInfo x 32)
  | .bswz x => some ⟨x.ctl, [sA x.a 32 .n32, sB x.b 32 .n32] ++ (match x.sel with | .reg c => [sC c 32 .n32] | .sel _ => []),
      [⟨x.d, 32⟩], .own⟩
  | .mov x => some ⟨x.ctl, [⟨0, x.a, wideW x.wide, wideI x.wide, false⟩], [⟨x.d, wideW x.wide⟩], .own⟩
  | .movi x => some ⟨x.ctl, [sA x.a 32 .n32], [⟨x.d, 64⟩], .own⟩
  | .movx x => some ⟨x.ctl, [sA x.a 32 .i32, sB x.b 32 .i32], [⟨x.d, wideW x.wide⟩], .own⟩
  | .movxw x => some ⟨x.ctl, [sA x.a 32 .i32, sB x.b 32 .i32, sC x.c (wideW x.wide) (wideI x.wide)], [], .own⟩
  | .icmp x | .fcmp x | .tcmp x => some (cmpInfo x)
  | .sel x => some ⟨x.ctl, [sA x.a (wideW x.wide) (wideI x.wide), sB x.b (wideW x.wide) (wideI x.wide)],
      [⟨x.d, wideW x.wide⟩], .own⟩
  | .plop x => some ⟨x.ctl, [], [], .own⟩
  | .pmov x => some (if x.toPred then ⟨x.ctl, [sA x.a 32 .n32], [], .own⟩ else ⟨x.ctl, [], [⟨x.d, 32⟩], .own⟩)
  | .movs x => some ⟨x.ctl, [sA x.a 32 .n32, oB x.b 32 .n32], [], .own⟩
  | .fclass x => some ⟨x.ctl, [sA x.a x.ty.rwidth x.ty], [⟨x.d, 32⟩], .own⟩
  | .bra x => some ⟨x.ctl, [], [], .own⟩
  | .brx x | .ret x => some ⟨x.ctl, [sA x.a 64 .n64], [], .own⟩
  | .call x => some ⟨x.ctl, [], [], .own⟩
  | .callx x => some ⟨x.ctl, [sA x.a 64 .n64], [], .own⟩
  | .exit x | .yield x | .nop x | .rte x | .idem x | .idemend x => some ⟨x.ctl, [], [], .own⟩
  | .pause x => some ⟨x.ctl, [sA x.a 32 .n32], [], .own⟩
  | .join x => some ⟨x.ctl, [], [], .own⟩
  | .trap x => some ⟨x.ctl, [sA x.a 32 .n32], [], .own⟩
  | .brk x => some ⟨x.ctl, [], [], .own⟩
  | .sysr x => some ⟨x.ctl, [], [⟨x.d, (sysRegWidth x.num.toNat).getD 32⟩], .own⟩
  | .sysw x => some ⟨x.ctl, [sA x.a ((sysRegWidth x.num.toNat).getD 32)
      (if sysRegWidth x.num.toNat == some 64 then .n64 else .n32)], [], .own⟩
  | .stat x => some ⟨x.ctl, [], [⟨x.d, 32⟩], .own⟩
  | .fscale x => some (binInfo x 32 .i32 x.ty.rwidth)
  | .tmin x | .tmax x => some (binInfo x 32 x.ty 32)
  | .tneg x | .tabs x => some (unInfo x 32)
  | .mvt x => some ⟨x.ctl, [mvtSrc x, sB x.b 32 .n32], [⟨.v x.d, 32 * (x.rows.toNat + 1)⟩], .own⟩
  | .nzcnt x => some ⟨x.ctl, [sA x.a x.ty.rwidth x.ty, oB x.b 32 .n32], [⟨x.d, 32⟩], .own⟩
  | .ld x => some ⟨x.ctl, [memSrc x.m], [⟨x.d, x.width.rwidth⟩], .own⟩
  | .st x => some ⟨x.ctl, [memSrc x.m, sB x.b x.width.rwidth (if x.width == .w64 then .n64 else .n32)], [], .own⟩
  | .ldv x => some ⟨x.ctl, volSrcs x.m, [⟨x.d, x.width.rwidth⟩], .own⟩
  | .stv x => some ⟨x.ctl, volSrcs x.m ++ [sX x.data x.dlu x.width.rwidth], [], .own⟩
  | .pref x => some ⟨x.ctl, [sA x.addr 64 .n64], [], .own⟩
  | .flush x => some ⟨x.ctl, [sA x.addr 64 .n64], [], .own⟩
  | .atom x | .red x =>
    let w := if x.aop == .cas then 2 * x.width.rwidth else x.width.rwidth
    some ⟨x.ctl, [memSrc x.m, sB x.b w (match x.kind, x.width with
      | .flt, .w64 => .f64 | .flt, _ => .f32 | .sgn, .w64 => .i64 | .uns, .w64 => .n64 | .sgn, _ => .i32 | .uns, _ => .n32)],
      [⟨x.d, x.width.rwidth⟩], .own⟩
  | .atomv x => some ⟨x.ctl, volSrcs x.m ++ [⟨3, .src ⟨x.dlu, false, x.data⟩, x.width.rwidth, (match x.kind, x.width with
      | .flt, .w64 => .f64 | .flt, _ => .f32 | .sgn, .w64 => .i64 | .uns, .w64 => .n64 | .sgn, _ => .i32 | .uns, _ => .n32),
      false⟩], [⟨x.d, x.width.rwidth⟩], .own⟩
  | .fence x => some ⟨x.ctl, [], [], .own⟩
  | .bar x => some ⟨x.ctl, [sA x.a 32 .n32], [], .own⟩
  | .barx x => some ⟨x.ctl, [sA x.addr 64 .n64], [⟨x.d, 32⟩], .own⟩
  | .barinit x => some ⟨x.ctl, [sA x.addr 64 .n64, sB x.b 32 .n32], [], .own⟩
  | .waitv x => some ⟨x.ctl, [sA x.addr 64 .n64, sB x.b (wideW x.wide) (wideI x.wide)], [⟨x.d, wideW x.wide⟩], .own⟩
  | .seminc x | .semset x => some ⟨x.ctl, [sA x.a 32 .n32], [], .own⟩
  | .semwait x => some ⟨x.ctl, [sB x.b 32 .n32], [], .own⟩
  | .own x => some ⟨x.ctl, [sA x.a 32 .n32], [], .own⟩
  | .ownwait x | .arrwait x => some ⟨x.ctl, [sA x.a 32 .n32], [], .own⟩
  | .vread x => some ⟨x.ctl, [sB x.b 32 .n32], [⟨x.d, 64⟩], .own⟩
  | .vwrite x => some ⟨x.ctl, [sA x.a 64 .n64, sB x.b 32 .n32], [], .own⟩
  | .vinval x => some ⟨x.ctl, if x.all then [sA x.m.vol 32 .n32] else volSrcs x.m, [], .own⟩
  | .lpost x => some ⟨x.ctl, [sBlk 0 x.a 8, sB x.b 32 .n32, sC x.c 64 .n64], [⟨x.d, 32⟩], .own⟩
  | .ltake x => some ⟨x.ctl, [sB x.b 32 .n32], [⟨x.d, 256⟩], .own⟩
  | .ldone x => some ⟨x.ctl, [sB x.b 32 .n32], [], .own⟩
  | .rdep x => some ⟨x.ctl, [sA x.a 32 .n32, sB x.b 32 .n32], [], .own⟩
  | .vote x => some ⟨x.ctl, [], [⟨x.d, 32⟩], .own⟩
  | .matchg x => some ⟨x.ctl, [sA x.a (wideW x.wide) (wideI x.wide)], [⟨x.d, 32⟩], .own⟩
  | .elect x => some ⟨x.ctl, [], [⟨x.d, 32⟩], .own⟩
  | .shfl x => some ⟨x.ctl, [sA x.a (wideW x.wide) (wideI x.wide), sB x.b 32 .n32], [⟨x.d, wideW x.wide⟩], .data⟩
  | .bfly x => some ⟨x.ctl, [sBlk 0 x.a 32], [⟨x.d, 1024⟩], .data⟩
  | .redg x | .scang x => some ⟨x.ctl, [sA x.a x.ty.rwidth x.ty], [⟨x.d, x.ty.rwidth⟩], .own⟩
  | .nzmap x => some ⟨x.ctl, [sBlk 0 x.a ((fragLens x.ty).getD (1, 1)).1], [], .data⟩
  | .kop x => some ⟨x.ctl, (if x.op == .ld then [sA x.a 32 .n32] else []), (if x.op == .st then [⟨x.d, 32⟩] else []), .own⟩
  | .cvtb x => some ⟨x.ctl, [sA x.a 32 .f32, sC x.c 32 .n32], [⟨x.d, 32⟩], .data⟩
  | .mma x =>
    let (ab, c) := (fragLens x.ty).getD (1, 1)
    some ⟨x.ctl, [sBlk 0 x.a ab, sBlk 1 x.b ab, sBlk 2 x.c c] ++ scaleSrc x, [⟨x.d, 32 * c⟩], .own⟩
  | .mmaz x =>
    let (ab, c) := (fragLens x.ty).getD (1, 1)
    some ⟨x.ctl, [sBlk 0 x.a ab, sBlk 1 x.b ab] ++ scaleSrc x, [⟨x.d, 32 * c⟩], .own⟩
  | .ldm x =>
    let (ab, c) := fragLensShape x.shape
    some ⟨x.ctl, [sA x.addr 64 .n64, sB x.stride 32 .n32],
      [⟨x.blk.spec, 32 * (if x.role == .c then c else ab)⟩], .lane0⟩
  | .stm x =>
    let (ab, c) := fragLensShape x.shape
    some ⟨x.ctl, [sA x.addr 64 .n64, sB x.stride 32 .n32, sBlk 2 x.blk (if x.role == .c then c else ab)], [], .lane0⟩
  | .cpy x => some ⟨x.ctl, [sA x.a 64 .n64, sB x.b 64 .n64, sC x.c 32 .n32], [], .own⟩
  | .cpyv x => some ⟨x.ctl, volSrcs x.m ++ [sX x.dst x.dlu 32], [], .own⟩
  | .gath x | .scat x => some (parcelInfo x)
  | .ared x | .rscat x | .agath x | .bcast x | .cbar x => some (collInfo x)
  | .sort x => some ⟨x.ctl, [sA x.a 32 .n32, sB x.b 32 .n32, sC x.c 32 .n32], [], .own⟩
  | .trav x => some ⟨x.ctl, [sA x.a 64 .n64, sB x.b 32 .n32, sC x.c 32 .n32], [], .own⟩
  | .solve x => some ⟨x.ctl, [sA x.a 32 .n32, sB x.b 32 .n32], [⟨x.d, 32⟩], .own⟩
  | .solveb x => some ⟨x.ctl, [sA x.a 32 .n32, sB x.b 32 .n32], [⟨x.d, 32⟩], .own⟩
  | .compact x => some ⟨x.ctl, [sA x.a 32 .n32, sB x.b 32 .n32], [⟨x.d, 64⟩], .own⟩
  | .rnd x | .rndf x => some ⟨x.ctl, [sA x.a 64 .n64, sB x.b 128 .n32, sC x.c 32 .n32], [⟨x.d, 32 * 2 ^ x.w.val⟩], .own⟩
  | .epis x => some ⟨x.ctl, [sA x.a 64 .n64, sB x.b 32 .n32, sC x.c 32 .n32], [⟨x.d, 64⟩], .own⟩
  | _ => none

/-- The operands of an instruction as a group issues it: a matrix instruction whose tile predicate is 0 has none (R346). -/
def infoNow (s : State) (tm gid : Nat) (i : Instr) : Option OpInfo :=
  match i with
  | .mma x | .mmaz x => if tileOff s tm gid x then some ⟨x.ctl, [], [], .own⟩ else infoOf i
  | _ => infoOf i

/-- Pigeonhole uses that R117 makes reserved specifiers in this group. -/
def phIllegal (s : State) (tm gid : Nat) (i : OpInfo) : Bool :=
  let cons := phGroup s tm gid == some gid
  let prod := (match phGroup s tm gid with | some c => c != gid | none => false)
  (i.srcs.any fun o => match o.op with
    | .src x => (match x.spec with | .q _ => !cons | _ => false)
    | .imm32 _ => false) ||
  i.dsts.any fun d => match d.spec with | .q _ => !prod | _ => false

/-! Values. -/

def Val.zero : Val := ⟨0, false⟩

/-- Registers as one little-endian number. -/
def valNat : List Val → Nat
  | [] => 0
  | x :: t => x.v.toNat + 2 ^ 32 * valNat t

def valPsn (l : List Val) : Bool := l.any (·.psn)

/-- A number as `n` registers, all with one poison bit. -/
def natVals (x : Nat) (psn : Bool) : Nat → List Val
  | 0 => []
  | n + 1 => ⟨BitVec.ofNat 32 x, psn⟩ :: natVals (x / 2 ^ 32) psn n

/-- The value of a short immediate (R243). As a packed source of small elements it is the first of them and the others are 0 (DESIGN
CHOICE: R243 does not say, assumption 91). -/
def shortImm (ty : Ty) (s : BitVec 6) : Nat :=
  let i := s.toInt
  if ty.isInt then wrap ty.width i
  else if ty.isTapered then (tfmtOf ty).encode .rn 0 ⟨i, 0⟩
  else
    let e := (convert (if ty == .f32x2 then .f32 else ty) .i32 .rn false false 0 (wrap 32 i)).bits
    if ty == .f32x2 then e + 2 ^ 32 * e else e

/-- The value of a 32-bit immediate (R243). -/
def fullImm (ty : Ty) (m : W32) : Nat :=
  match ty with
  | .i64 => wrap 64 (signed 32 m.toNat)
  | .n64 => m.toNat
  | .f32x2 => m.toNat + 2 ^ 32 * m.toNat
  | .f64 =>
    match fmtF32.decode false m.toNat with
    | .nan _ => convNan fmtF32 fmtF64 m.toNat
    | _ => (convert .f64 .f32 .rn false false 0 m.toNat).bits
  | t => m.toNat % 2 ^ t.width

/-- Virtual core number (R40). -/
def virtCore (s : State) (tm : Nat) : Nat :=
  match Tab.get? s.ctxs (ctxOf s tm) with
  | some c => c.vcores.findIdx (· == coreOf s tm)
  | none => 0

/-- %cyc (R120): arithmetic cycles since the core's reset. -/
def cycOf (s : State) (core : Nat) : Nat := (s.now - (getCore s core).cyc0) % 2 ^ 64

/-- The specials of R118. -/
def special (s : State) (t : TRef) (th : Thread) : Spec → Nat
  | .tid => t.tid
  | .lane => t.lane
  | .gid => t.gid
  | .team => match team? s t.team with | some tm => tm.team | none => 0
  | .nteam => match gridOf s t.team with | some g => g.nteam | none => 0
  | .role => b2n (!isProducer s t.team t.gid)
  | .core => virtCore s t.team
  | .cyc => cycOf s (coreOf s t.team)
  | .arr => match group? s t.team t.gid with | some g => g.arr.toNat | none => 0
  | .tstat => th.tstat.toNat
  | _ => 0

/-- A read of one register: its value and whether it was void (R110). -/
def readReg1 : Option Reg → Val × Bool
  | some (.full x) => (x, false)
  | some _ => (Val.zero, false)
  | none => (Val.zero, true)

def readRun (f : Nat → Option Reg) (d n : Nat) : List Val × Bool :=
  let l := (List.range n).map fun k => readReg1 (f (d + k))
  (l.map (·.1), l.any (·.2))

def latchOf (th : Thread) (n : Fin 3) : Latch :=
  match n with
  | 0 => th.lat0
  | 1 => th.lat1
  | 2 => th.lat2

def setLatch (th : Thread) (n : Fin 3) (l : Latch) : Thread :=
  match n with
  | 0 => { th with lat0 := l }
  | 1 => { th with lat1 := l }
  | 2 => { th with lat2 := l }

def gReg (s : State) (t : TRef) (n : Nat) : Option Reg :=
  match group? s t.team t.gid with
  | some g => Tab.get? g.gregs n
  | none => none

/-- Pops taken so far by the fields before this one. -/
abbrev Pops := List (Nat × Nat)

/-- The values that one source delivers, whether it met a void register, and the pops so far (R108, R110, R117, R124). -/
def readSrc (s : State) (t : TRef) (th : Thread) (pops : Pops) (o : SrcOp) : List Val × Bool × Pops :=
  let n := o.w / 32
  match o.op with
  | .imm32 m => (natVals (fullImm o.ty m) false n, false, pops)
  | .src src => match src.spec with
    | .v k => let (l, vd) := readRun (getReg th) (th.wbase + k.toNat) n; (l, vd, pops)
    | .g k => let (l, vd) := readRun (gReg s t) k.toNat n; (l, vd, pops)
    | .q j =>
      let d := (Tab.getD pops j.toNat 0)
      (((phOf s t j.toNat).drop d).take n, false, Tab.set pops j.toNat (d + n))
    | .latch k =>
      let l := latchOf th k
      if l.left == 0 then ([Val.zero], true, pops) else ([l.x], false, pops)
    | .imm i => (natVals (shortImm o.ty i) false n, false, pops)
    | sp => (natVals (special s t th sp) false n, false, pops)

def readSrcs (s : State) (t : TRef) (th : Thread) : Pops → List SrcOp → List (List Val) × Bool × Pops
  | pops, [] => ([], false, pops)
  | pops, o :: rest =>
    let (v, vd, pops) := readSrc s t th pops o
    let (vs, vd', pops) := readSrcs s t th pops rest
    (v :: vs, vd || vd', pops)

/-- %tstat bits that reading sets: VOIDRD (R110) and PSN (R417). -/
def readFlags (vals : List (List Val)) (void : Bool) : BitVec 7 :=
  flagIf void fVOIDRD ||| flagIf (vals.any valPsn) fPSN

/-! Guards: R233. -/

def predOf (th : Thread) (p : BitVec 3) : Bool := if p == 7 then true else bit th.preds.toNat p.toNat

def guardOf (th : Thread) (c : Ctl) : Bool := predOf th c.gp != c.gn

/-! Can the operands be read now? -/

/-- The first g number a specifier names at or above GREGS (R115). -/
def gOver (gregs n : Nat) : Spec → Option Nat
  | .g k => if gregs < k.toNat + n then some (max gregs k.toNat) else none
  | _ => none

def gregsOf (s : State) (tm : Nat) : Nat := match gridOf s tm with | some g => g.gregs | none => 0

/-- What a source that is not yet there makes the thread wait for. -/
def srcWait (s : State) (t : TRef) (th : Thread) (pops : Pops) (o : SrcOp) : Option Block :=
  match o.op with
  | .imm32 _ => none
  | .src src =>
    let n := o.w / 32
    match src.spec with
    | .v k => ((List.range n).find? fun i => match getReg th (th.wbase + k.toNat + i) with
        | some (.empty _) => true
        | _ => false).map fun i => .reg (th.wbase + k.toNat + i)
    | .g k => ((List.range n).find? fun i => match gReg s t (k.toNat + i) with
        | some (.empty _) => true
        | _ => false).map fun i => .greg (k.toNat + i)
    | .q j =>
      let need := Tab.getD pops j.toNat 0 + n
      if (phOf s t j.toNat).length < need then some (.pop j.toNat need) else none
    | _ => none

def srcTe (o : SrcOp) : Bool := match o.op with | .src s => s.te | .imm32 _ => false

/-- The first source that blocks (`te` false) or traps (`te` true). -/
def firstWait (s : State) (t : TRef) (th : Thread) (te : Bool) : Pops → List SrcOp → Option (SrcOp × Block)
  | _, [] => none
  | pops, o :: rest =>
    match (if srcTe o == te then srcWait s t th pops o else none) with
    | some b => some (o, b)
    | none => firstWait s t th te (readSrc s t th pops o).2.2 rest

def srcSpecCode (o : SrcOp) (b : Block) (th : Thread) : Nat :=
  match o.op, b with
  | .src src, .reg d => match src.spec with
    | .v _ => d - th.wbase
    | sp => sp.code
  | .src _, .greg n => 0x40 + n
  | .src src, _ => src.spec.code
  | _, _ => 0

/-- Entries that the thread's shadow or wait will push (R117, R456). -/
def Thread.pushes (th : Thread) (j : BitVec 3) : Nat :=
  (th.toWrite.map fun (sp, w) => match sp with
    | .q k => if k == j then w / 32 else 0
    | _ => 0).sum

/-- What a destination makes the thread wait for: room in a pigeonhole (R117). A write or a claim of an empty register issues, and
waits for the fill by itself (R108). -/
def dstWait (s : State) (t : TRef) (th : Thread) (d : DstOp) : Option Block :=
  let n := d.w / 32
  match d.spec with
  | .q j => if 8 < (phOf s t j.toNat).length + th.pushes j + n then some (.push j.toNat n) else none
  | _ => none

/-- Does this thread read the sources: its guard is true, or it supplies them anyway (R330)? -/
def readsNow (th : Thread) (i : OpInfo) : Bool := guardOf th i.ctl || i.supply == .data

/-- The sources that this thread reads at issue (R330, R349). -/
def srcsNow (t : TRef) (th : Thread) (i : OpInfo) : List SrcOp :=
  let l := if guardOf th i.ctl then i.srcs else if i.supply == .data then i.srcs.filter fun o => o.fld == 0 else []
  if i.supply == .lane0 && t.lane != 0 then l.filter fun o => 2 ≤ o.fld else l

/-- Why the thread cannot issue the instruction now. -/
def blockOf (s : State) (t : TRef) (th : Thread) (i : OpInfo) : Option Block :=
  let src := (firstWait s t th false [] (srcsNow t th i)).map (·.2)
  match src with
  | some b => some b
  | none => if guardOf th i.ctl then i.dsts.findSome? (dstWait s t th) else none

/-- The g-index fault (R447) or empty-read trap (R448) that the operands raise. -/
def operandExc (s : State) (t : TRef) (th : Thread) (i : OpInfo) : Option Exc :=
  let greg := gregsOf s t.team
  let srcs := srcsNow t th i
  let dsts := if guardOf th i.ctl then i.dsts else []
  let high := (srcs.findSome? fun o => match o.op with
      | .src x => gOver greg (o.w / 32) x.spec
      | .imm32 _ => none).or (dsts.findSome? fun d => gOver greg (d.w / 32) d.spec)
  match high with
  | some n => some (excIndex 1 n)
  | none => (firstWait s t th true [] srcs).map fun (o, b) =>
      excEmpty (if o.block then 3 else o.fld) (srcSpecCode o b th)

/-! Applying an issue to a thread. -/

/-- The registers that last-use marks release: v depths of the thread. -/
def releaseV (th : Thread) (o : SrcOp) : Thread :=
  match o.op with
  | .src ⟨true, _, .v k⟩ =>
    let d := th.wbase + k.toNat
    { th with regs := th.regs.filter fun (i, _) => !(d ≤ i && i < d + o.w / 32) }
  | _ => th

/-- The g registers that last-use marks of a source release. -/
def lastG (o : SrcOp) : List Nat :=
  match o.op with
  | .src ⟨true, _, .g k⟩ => (List.range (o.w / 32)).map fun i => k.toNat + i
  | _ => []

/-- Release a g register whose every non-exited thread has read it for the last time (R109). -/
def gSettle (s : State) (tm gid n : Nat) : State :=
  match group? s tm gid with
  | none => s
  | some g =>
    let seen := Tab.getD g.gseen n 0
    if (lanesOf tm gid).all fun t => bit seen.toNat t.lane || (match thread? s t with
        | some th => th.exited
        | none => true)
    then modGroup s tm gid fun g => { g with gregs := Tab.erase g.gregs n, gseen := Tab.erase g.gseen n }
    else s

/-- A lane is noted at a g register. -/
def markLane (m : Tab (BitVec 32)) (n lane : Nat) : Tab (BitVec 32) := Tab.set m n (Tab.getD m n 0 ||| BitVec.ofNat 32 (2 ^ lane))

/-- A thread's last-use read of one g register. -/
def seenG (s : State) (t : TRef) (n : Nat) : State :=
  if (gReg s t n).isSome then
    gSettle (modGroup s t.team t.gid fun g => { g with gseen := markLane g.gseen n t.lane }) t.team t.gid n
  else s

/-- A thread's last-use read of g registers. -/
def releaseG (s : State) (t : TRef) (o : SrcOp) : State := (lastG o).foldl (fun s n => seenG s t n) s

/-- Each instruction issued uses one of the two uses of a held value (R124). -/
def Latch.tick (l : Latch) : Latch := if l.left ≤ 1 then Latch.void else { l with left := l.left - 1 }

def tickLatches (th : Thread) : Thread :=
  { th with lat0 := th.lat0.tick, lat1 := th.lat1.tick, lat2 := th.lat2.tick }

/-- The hold of R123: the first register that the named field delivers. -/
def applyHold (th : Thread) (i : OpInfo) (vals : List (List Val)) : Thread :=
  match i.ctl.hold with
  | .none _ => th
  | .of f slot =>
    let n := match f with | .a => 0 | .b => 1 | .c => 2
    match (i.srcs.zip vals).find? fun (o, _) => o.fld == n && (match o.op with | .src _ => true | _ => false) with
    | some (_, x :: _) => setLatch th slot ⟨x, 2⟩
    | _ => th

/-- Where the thread goes next and when (R241). -/
def advance (s : State) (t : TRef) (c : Ctl) (pc : Option W64) : State :=
  modThread s t fun th => { th with
    pc := pc.getD th.next
    after := none
    joined := false
    begun := none
    win := none
    st := .eligible
    since := s.now + 1 + c.stall.toNat
    ready := s.now + 1 + c.stall.toNat
    yld := if c.yld then some (s.now + 64) else none }

/-- What the hints of an instruction that waits leave for its wake (R241): the issue is this cycle. -/
def hintsAt (s : State) (c : Ctl) (th : Thread) : Thread :=
  { th with ready := s.now + 1 + c.stall.toNat, yld := if c.yld then some (s.now + 64) else none }

/-- A thread whose instruction issued earlier goes on; its hints run from the issue (R241). -/
def proceed (s : State) (t : TRef) : State :=
  modThread s t fun th =>
    { th with pc := th.next, after := none, joined := false, win := none, st := .eligible, since := max (s.now + 1) th.ready }

/-- After the reads of one issued thread: pops, releases, hold and latch uses, the sticky bits of the reads. -/
def afterReads (s : State) (t : TRef) (i : OpInfo) (reads : Bool) (vals : List (List Val)) (pops : Pops)
    (flags : BitVec 7) : State :=
  let s := pops.foldl (fun s (j, n) => modPh s t j fun l => l.drop n) s
  let s := modThread s t fun th =>
    let th := i.srcs.foldl releaseV th
    let th := tickLatches th
    let th := if reads then applyHold th i vals else th
    { th with tstat := th.tstat ||| flags }
  i.srcs.foldl (fun s o => releaseG s t o) s

/-! Pool entries an issue needs (R114). -/

/-- The depths that a specifier names. -/
def depthsOf (th : Thread) (w : Nat) : Spec → List Nat
  | .v k => (List.range (w / 32)).map fun i => th.wbase + k.toNat + i
  | _ => []

def srcDepths (th : Thread) (o : SrcOp) : List Nat :=
  match o.op with
  | .src x => depthsOf th o.w x.spec
  | .imm32 _ => []

/-- Does a register need an entry before it is read, or written? -/
def needsEntry (th : Thread) (dst : Bool) (d : Nat) : Bool :=
  match getReg th d with
  | none => dst
  | some .stored => true
  | _ => false

/-- v entries that the thread's reads and writes will allocate: void or stored destinations, stored sources. -/
def entriesNeeded (th : Thread) (i : OpInfo) : Nat :=
  (((i.dsts.flatMap fun d => depthsOf th d.w d.spec).filter (needsEntry th true)) ++
   ((i.srcs.flatMap (srcDepths th)).filter (needsEntry th false))).eraseDups.length

/-- The operands that the thread itself reads and writes at issue. -/
def nowInfo (t : TRef) (th : Thread) (i : OpInfo) : OpInfo :=
  { i with srcs := srcsNow t th i, dsts := if guardOf th i.ctl then i.dsts else [] }

/-- Read back the stored registers among the sources (R108, R114); a fault comes with what its walk has cached. -/
def refillSrcs (s : State) (t : TRef) (i : OpInfo) : Except (Exc × State) State :=
  match thread? s t with
  | none => .ok s
  | some th =>
    (i.srcs.flatMap (srcDepths th)).foldl (fun r d => match r with
      | .error e => .error e
      | .ok s =>
        match thread? s t with
        | none => .ok s
        | some th =>
          if getReg th d == some .stored then
            match bsLoad s t d with
            | .ok (x, s) => .ok (modThread s t fun th => { th with regs := Tab.set th.regs d (.full x) })
            | .error (va, p, s) => .error (excXlate p 3 va, s)
          else .ok s) (.ok s)

end Sys2Proof.Machine
end

