-- ==== Sys2Proof/Machine/Frame.lean ====
section
/-! DEFINITION. The frame in which the lanes of an issue run: pool entries and refills first (R114), then each lane blocks, traps,
passes with a false guard (R111) or runs; reads come before writes, releases before writes (R108, R254), traps last (R455). The
shadow of a trappable instruction (R456) is part of it. -/

namespace Sys2Proof.Machine

/-- What a lane works from: its operand values in order, and the words its roundings draw (R139). -/
structure LaneIn where
  t : TRef
  th : Thread
  v : List (List Val)
  word : Nat → W32

/-- A pure instruction: its operands, the predicates it reads and writes beside its guard, whether its conditions can trap, its
latency (R255, R278), whether it may issue in a shadow while TEN is not 0 (R456), and its function. -/
structure Alu where
  info : OpInfo
  pr : List Nat := []
  pw : List Nat := []
  traps : Bool := false
  lat : Nat := 4
  shadow : Bool := true
  /-- MOVS: its reads set no VOIDRD (R266) -/
  quiet : Bool := false
  eval : LaneIn → LaneEff

inductive LaneRes where
  | gone
  | block (b : Block)
  | exc (e : Exc) (flags : BitVec 7)
  | off
  | on (eff : LaneEff) (vals : List (List Val)) (pops : Pops) (flags : BitVec 7)
  /-- issued and not yet complete (R456): `trap` is the trap that it will take -/
  | defer (eff : LaneEff) (trap : Option Exc) (vals : List (List Val)) (pops : Pops) (flags : BitVec 7)
  /-- issued in a shadow: read, not yet written (R456) -/
  | hold (eff : LaneEff) (vals : List (List Val)) (pops : Pops) (flags : BitVec 7)

def tenOf (s : State) (tm : Nat) : BitVec 5 := match team? s tm with | some t => t.ten | none => 0

/-- The DETAIL of an arithmetic trap: elements that raised an enabled condition (R452). -/
def trapElems (ten : BitVec 5) (conds : List (BitVec 7)) : Nat :=
  (conds.zipIdx.map fun (c, i) => if enabled ten c != 0 then 2 ^ i else 0).sum

/-- The arithmetic trap of an effect under the team's enables (R279, R454). -/
def arithTrap (ten : BitVec 5) (e : LaneEff) : Option Exc :=
  if enabled ten e.flags != 0 then some (excArith e.flags (trapElems ten e.conds)) else none

/-- Captured operands as three 64-bit values with one poison bit each, fields A, B, C (R459). A field that a 32-bit immediate replaces
is unused (R234, R242). -/
def capture (i : OpInfo) (vals : List (List Val)) : W64 × W64 × W64 × BitVec 3 :=
  let f := fun n => match (i.srcs.zip vals).find? fun (o, _) => o.fld == n with
    | some (⟨_, .src _, _, _, _⟩, v) => (BitVec.ofNat 64 (valNat v), valPsn v)
    | _ => (0, false)
  ((f 0).1, (f 1).1, (f 2).1, BitVec.ofNat 3 (b2n (f 0).2 + 2 * b2n (f 1).2 + 4 * b2n (f 2).2))

/-- Operand values back from captured ones; a 32-bit immediate is the word's own. -/
def uncapture (i : OpInfo) (a b c : W64) (psn : BitVec 3) : List (List Val) :=
  i.srcs.map fun o => match o.op with
    | .imm32 m => natVals (fullImm o.ty m) false (o.w / 32)
    | .src _ =>
      let x := match o.fld with | 0 => a | 1 => b | _ => c
      natVals x.toNat (bit psn.toNat o.fld) (o.w / 32)

/-! Registers named, as numbers: v by depth, g, predicates, latches, pigeonholes. -/

def specCodes (th : Thread) (w : Nat) : Spec → List Nat
  | .v k => (List.range (w / 32)).map fun i => th.wbase + k.toNat + i
  | .g k => (List.range (w / 32)).map fun i => 2 ^ 21 + k.toNat + i
  | .latch n => [2 ^ 21 + 80 + n.val]
  | .q j => [2 ^ 21 + 90 + j.toNat]
  | .tstat => [2 ^ 21 + 100]
  | _ => []

def predCode (p : Nat) : Nat := 2 ^ 21 + 64 + p

def readCodes (th : Thread) (a : Alu) : List Nat :=
  (a.info.srcs.flatMap fun o => match o.op with | .src x => specCodes th o.w x.spec | .imm32 _ => []) ++
  predCode a.info.ctl.gp.toNat :: a.pr.map predCode

def relCodes (th : Thread) (a : Alu) : List Nat :=
  a.info.srcs.flatMap fun o => match o.op with
    | .src x => if x.lu then specCodes th o.w x.spec else (match x.spec with | .q _ => specCodes th o.w x.spec | _ => [])
    | .imm32 _ => []

/-- What it writes: its destinations, its predicates and the latch that it holds (R123). -/
def writeCodes (th : Thread) (a : Alu) : List Nat :=
  (a.info.dsts.flatMap fun d => specCodes th d.w d.spec) ++ a.pw.map predCode ++
  (match a.info.ctl.hold with | .of _ n => specCodes th 32 (.latch n) | .none _ => [])

def meets (a b : List Nat) : Bool := a.any fun x => b.contains x

/-- May a pure instruction issue in the thread's shadow (R456)? `look` gives the pure form of an instruction. -/
def shadowOk (look : Instr → Option Alu) (th : Thread) (u : Unres) (a : Alu) : Bool :=
  let ua := look u.ins
  let ur := match ua with | some x => readCodes th x | none => []
  let uw := match ua with | some x => writeCodes th x | none => []
  let hw := th.held.flatMap fun h => match look h.ins with | some x => writeCodes th x | none => []
  a.shadow && !a.traps && th.held.length < 7 &&
  !meets (writeCodes th a ++ relCodes th a) (ur ++ uw) && !meets (readCodes th a) ((2 ^ 21 + 100) :: (uw ++ hw))

/-! One lane. -/

/-- A pop that waits in a save or restore handler is a waiting instruction that R100 forbids (R443). -/
def popBarred (s : State) (t : TRef) (b : Block) : Bool := b.isPop && inHandler s t.team

/-- Can the thread issue at all? -/
def Thread.canIssue (th : Thread) : Bool :=
  !(match th.begun with | some (.trap ..) => true | _ => false) &&
  match th.st with
  | .exited | .halted | .waiting _ | .handlerDone | .blocked .unit => false
  | _ => true

def pairLanes (s : State) (t : TRef) (draws : W64) : Nat → W32 := fun k => drawWord s t draws k

/-- One lane of an instruction that is not pure. -/
def laneRes (s : State) (t : TRef) (i : OpInfo) (f : LaneIn → LaneEff) : LaneRes :=
  match thread? s t with
  | none => .gone
  | some th =>
    if !th.canIssue then .gone
    else if th.unres.isSome then .block .shadow
    else match blockOf s t th i with
      | some b => if popBarred s t b then .exc excHandlerWait 0 else .block b
      | none =>
        if !guardOf th i.ctl then .off
        else match operandExc s t th i with
          | some e => .exc e 0
          | none =>
            let (vals, void, pops) := readSrcs s t th [] i.srcs
            let e := f ⟨t, th, vals, pairLanes s t th.draws⟩
            match e.exc with
            | some x => .exc x (e.flags ||| if x.cause == 7 then readFlags vals void else 0)
            | none => .on e vals pops (readFlags vals void)

/-- Has a matrix instruction or a COMPACT of the thread still sticky bits to set (R266, R347, R382)? -/
def statPending (s : State) (t : TRef) : Bool :=
  let c := getCore s (coreOf s t.team)
  ((c.meng.queue ++ c.meng.suspended.toList ++ c.meng.running.toList ++ c.meng.pipe).any fun j => j.team == t.team && j.gid == t.gid) ||
  c.compacts.any fun j => j.parts.any fun (u, _) => u == t

/-- One lane of a pure instruction. MOVS waits for the sticky bits of earlier instructions (R266). -/
def aluRes (look : Instr → Option Alu) (s : State) (t : TRef) (a : Alu) : LaneRes :=
  match thread? s t with
  | none => .gone
  | some th =>
    if !th.canIssue then .gone
    else if a.quiet && guardOf th a.info.ctl && statPending s t then .block .busy
    else match blockOf s t th a.info with
      | some b => if popBarred s t b && th.unres.isNone then .exc excHandlerWait 0 else .block b
      | none =>
        let (vals, void, pops) := readSrcs s t th [] a.info.srcs
        let fl := readFlags vals (void && !a.quiet)
        let e := a.eval ⟨t, th, vals, pairLanes s t th.draws⟩
        match th.unres with
        | some u =>
          -- sticky bits set by reads follow a MOVS that is held (R266)
          if shadowOk look th u a && (operandExc s t th a.info).isNone then
            (if !guardOf th a.info.ctl then .off
             else if (th.held.any fun h => h.eff.tstat.isSome) && fl != 0 then .block .shadow
             else .hold e vals pops fl)
          else .block .shadow
        | none =>
          if !guardOf th a.info.ctl then .off
          else match operandExc s t th a.info with
            | some e => .exc e 0
            | none =>
              let ten := tenOf s t.team
              let trap := if a.traps then arithTrap ten e else none
              if a.traps && ten != 0 && th.after.isNone then .defer e trap vals pops fl
              else match trap with
                | some x => .exc x e.flags
                | none => .on e vals pops fl

/-! The whole issue. -/

/-- Pool entries that one lane needs now. -/
def laneNeed (s : State) (i : OpInfo) (t : TRef) : Nat :=
  match thread? s t with
  | some th => if readsNow th i then entriesNeeded th (nowInfo t th i) else 0
  | none => 0

/-- Pool entries that some lanes need together. -/
def needSum (s : State) (i : OpInfo) (l : List TRef) : Nat := (l.map (laneNeed s i)).sum

/-- Obtain for each group of an issue, beside what the groups before it need (R114). -/
def obtainEach (i : OpInfo) (lanes : List TRef) : List (Nat × Nat) → Nat → State → State
  | [], _, s => s
  | (tm, gid) :: rest, tot, s =>
    let k := needSum s i (lanes.filter fun t => t.team == tm && t.gid == gid)
    if k == 0 then obtainEach i lanes rest tot s
    else obtainEach i lanes rest (tot + k) (obtain s tm gid (tot + k)).1

/-- The lanes of the groups whose entries are not there. -/
def shortLanes (s : State) (i : OpInfo) (lanes : List TRef) (free : Nat) : List (Nat × Nat) → Nat → List TRef
  | [], _ => []
  | (tm, gid) :: rest, tot =>
    let mine := lanes.filter fun t => t.team == tm && t.gid == gid
    let k := needSum s i mine
    if k == 0 || tot + k ≤ free then shortLanes s i lanes free rest (tot + k)
    else mine ++ shortLanes s i lanes free rest tot

/-- Read back the stored sources of one lane, or note its fault. -/
def refillLane (i : OpInfo) (x : State × List (TRef × Exc)) (t : TRef) : State × List (TRef × Exc) :=
  match thread? x.1 t with
  | some th =>
    if readsNow th i then
      match refillSrcs x.1 t (nowInfo t th i) with
      | .ok s => (s, x.2)
      | .error (e, s) => (cacheFrom x.1 s (coreOf x.1 t.team), x.2 ++ [(t, e)])
    else x
  | none => x

/-- Obtain the pool entries an issue needs and read stored sources back (R108, R114). Answers the lanes that fault at the backing
store and the lanes that must wait. -/
def prepare (s : State) (i : OpInfo) (lanes : List TRef) : State × List (TRef × Exc) × List TRef :=
  if needSum s i lanes == 0 then (s, [], [])
  else
    let gs := groupsIn lanes
    let s := obtainEach i lanes gs 0 s
    let free := match lanes with | t :: _ => poolFree s (coreOf s t.team) | [] => 0
    let bz := shortLanes s i lanes free gs 0
    let (s, ex) := (lanes.filter fun t => !bz.contains t).foldl (refillLane i) (s, [])
    (s, ex, bz)

/-- The lowest lane of each group whose result is delivered (R115). -/
def gWriter (res : List (TRef × LaneRes)) (t : TRef) : Bool :=
  match res.find? fun (u, r) => u.gkey == t.gkey && (match r with
      | .on .. | .hold .. | .defer _ none .. => true
      | _ => false) with
  | some (u, _) => u == t
  | none => false

/-- A trapping instruction releases nothing but for TRAP's own trap, which applies the last-use release of A (R455). -/
def trapPre (i : OpInfo) (s : State) (t : TRef) (e : Exc) : State :=
  if e.cause == 7 then i.srcs.foldl (fun s o => releaseG s t o) (modThread s t fun th => i.srcs.foldl releaseV th) else s

/-- Commit the lanes of an issue. `ins` and `lat` serve lanes that are left incomplete. -/
def commitLanes (s : State) (i : OpInfo) (ins : Instr) (lat : Nat) (res : List (TRef × LaneRes)) : State :=
  -- traps and faults of lanes that are decided at once, and traps that will be taken (R456), in the form in which they end
  let ex := res.filterMap fun (t, r) => match r with
    | .exc e fl => some (t, e, fl)
    | _ => none
  let late := res.filterMap fun (t, r) => match r with
    | .defer _ (some e) .. => some (t, excFinal s t e)
    | _ => none
  let all := (ex.map fun (t, e, _) => (t, excFinal s t e)) ++ late
  -- reads, pops, releases
  let s := res.foldl (fun s (t, r) => match r with
    | .off => afterReads s t i false [] [] 0
    | .on _ vals pops fl => afterReads s t i true vals pops fl
    | .hold _ vals pops fl | .defer _ none vals pops fl => afterReads s t i true vals pops fl
    | _ => s) s
  -- writes
  let s := res.foldl (fun s (t, r) => match r with
    | .on e _ _ _ => applyEff s t (gWriter res t) e
    | _ => s) s
  -- instructions issued and not complete
  let ds := i.dsts.map fun d => (d.spec, d.w)
  let order := s.claims
  let gw := fun (t : TRef) => if gWriter res t then some order else none
  let s := if res.any fun (_, r) => (match r with | .defer .. | .hold .. => true | _ => false) then
      res.foldl (fun s (t, _) => ownG s t (gw t) ds) { s with claims := s.claims + 1 } else s
  let s := res.foldl (fun s (t, r) => match r with
    | .defer e trap .. => modThread s t fun th =>
        let lanes := match trap with | some x => causeLanes all (excFinal s t x).cause | none => 0
        { th with unres := some ⟨ins, th.pc, s.now + lat, e, trap, lanes, if trap.isSome then [] else ds, gw t, tvecOf s t.team⟩ }
    | .hold e vals _ _ =>
      let (a, b, c, p) := capture i vals
      modThread s t fun th => { th with held := th.held ++ [⟨ins, th.pc, a, b, c, p, e, ds, gw t⟩] }
    | _ => s) s
  -- program counters
  let s := res.foldl (fun s (t, r) => match r with
    | .off | .hold .. | .defer .. => advance s t i.ctl none
    | .on e _ _ _ => advance s t i.ctl e.pc
    | .block b => modThread s t fun th =>
        { th with st := .blocked b, since := if b == .busy || b == .shadow then s.now + 1 else th.since }
    | _ => s) s
  -- traps
  let s := ex.foldl (fun s (t, e, fl) => trapPre i (modThread s t fun th => { th with tstat := th.tstat ||| fl }) t e) s
  raiseAll s late (ex.map fun (t, e, _) => (t, e))

/-- Is this the lowest lane of its group in the issue whose guard is true (R115)? -/
def firstOn (s : State) (c : Ctl) (t : TRef) : Bool :=
  match s.cur with
  | some iss => (match iss.lanes.find? fun u => u.gkey == t.gkey && (match thread? s u with
      | some th => guardOf th c
      | none => false) with
    | some u => u == t
    | none => false)
  | none => true

/-- Run the lanes of the current issue with one function per lane. -/
def runWith (s : State) (i : OpInfo) (ins : Instr) (lat : Nat) (f : State → TRef → LaneRes) : Result :=
  match s.cur with
  | none => .next s
  | some iss =>
    let (s, ex, bz) := prepare { s with cur := none } i iss.lanes
    let res := iss.lanes.map fun t =>
      (t, if bz.contains t then LaneRes.block .busy
          else match ex.find? fun (u, _) => u == t with
            | some (_, e) => .exc e 0
            | none => f s t)
    .next (commitLanes s i ins lat res)

/-- An instruction whose effect on each thread is a `LaneEff` of the state at issue. -/
def runLanes (s : State) (ins : Instr) (f : State → LaneIn → LaneEff) : Result :=
  match infoOf ins with
  | none => .next s
  | some i => runWith s i ins 4 fun s t => laneRes s t i (f s)

/-- A pure instruction. -/
def runAlu (look : Instr → Option Alu) (s : State) (ins : Instr) (a : Alu) : Result :=
  runWith s a.info ins a.lat fun s t => aluRes look s t a

/-- An instruction that acts on each thread in ascending lane order through the state (R297): `f` answers the new state of a
guard-true lane, or its fault; the lane advances unless `f` says it stays. -/
structure SeqOut where
  s : State
  exc : Option Exc := none
  /-- retry later -/
  busy : Bool := false
  preds : List (Nat × Bool) := []
  writes : List (Spec × List Val) := []
  /-- the meaning has applied the reads and moved the thread on by itself -/
  own : Bool := false
  /-- a physical address whose PKG is reserved (R18) -/
  stop : Option Nat := none
  /-- retry later with what the lane has read, and the command that its checks have made (R351) -/
  cmd : Option (Eng × List (Nat × Nat)) := none

/-- The g registers among the destinations of an instruction. -/
def dstG (i : OpInfo) : List Nat :=
  i.dsts.flatMap fun d => match d.spec with
    | .g k => (List.range (d.w / 32)).map fun j => k.toNat + j
    | _ => []

/-- Last-use marks of a g register that the instruction itself writes release nothing: the write comes after every lane's read
(R108, R109). The other registers of such a source follow as sources of their own, which are only released. -/
def keepG (i : OpInfo) : OpInfo :=
  let d := dstG i
  let hit := fun (o : SrcOp) => (lastG o).any d.contains
  { i with srcs :=
      (i.srcs.map fun o => match o.op with
        | .src ⟨true, te, sp⟩ => if hit o then { o with op := .src ⟨false, te, sp⟩ } else o
        | _ => o) ++
      ((i.srcs.filter hit).flatMap lastG).filterMap fun n =>
        if d.contains n then none else some ⟨3, .src ⟨true, false, .g (BitVec.ofNat 6 n)⟩, 32, .n32, false⟩ }

/-- A lane of an engine command that has been blocked goes on with what it read at first (R351). -/
def heldReads (th : Thread) (vals : List (List Val)) (pops : List (Nat × Nat)) (fl : BitVec 7) :
    List (List Val) × List (Nat × Nat) × BitVec 7 :=
  match th.win with
  | some w => (w.vals, w.pops, readFlags w.vals w.void)
  | none => (vals, pops, fl)

/-- A lane stands at its instruction and tries again; an engine command keeps what it has read and checked. -/
def keepReads (s : State) (t : TRef) (vals : List (List Val)) (pops : List (Nat × Nat)) (fl : BitVec 7)
    (cmd : Option (Eng × List (Nat × Nat))) : State :=
  match cmd with
  | none => s
  | some c => modThread s t fun th => { th with win := some ⟨vals, fl &&& fVOIDRD != 0, pops, [], true, some c⟩ }

/-- One lane of a sequential issue: the state after it and what is left to commit. A lane that must wait makes the lanes above it
wait, since lanes act in ascending order (R297). -/
def seqLane (i1 : OpInfo) (f : (State → State) → State → LaneIn → SeqOut)
    (x : State × List (TRef × LaneRes) × Option Nat × Bool) (t : TRef) (r : LaneRes) :
    State × List (TRef × LaneRes) × Option Nat × Bool :=
  let (s, res, stop, wait) := x
  if stop.isSome then x
  else match r with
    | .on _ vals pops fl =>
      if wait then (s, res ++ [(t, .block .busy)], none, wait)
      else match thread? s t with
      | none => x
      | some th =>
        let (vals, pops, fl) := heldReads th vals pops fl
        let o := f (fun s => afterReads s t i1 true vals pops fl) s ⟨t, th, vals, pairLanes s t th.draws⟩
        match o.stop with
        | some pa => (s, res, some pa, wait)
        | none => match o.exc with
          | some e => (o.s, res ++ [(t, .exc e 0)], none, wait)
          | none =>
            if o.busy then (keepReads o.s t vals pops fl o.cmd, res ++ [(t, .block .busy)], none, true)
            else if o.own then (o.s, res ++ [(t, .gone)], none, wait)
            else (o.s, res ++ [(t, .on { preds := o.preds, writes := o.writes } vals pops fl)], none, wait)
    | .block .busy => (s, res ++ [(t, r)], none, true)
    | r => (s, res ++ [(t, r)], none, wait)

/-- Run lanes in ascending order, each on the state that the one before it left. `f` is also given the function that applies
the lane's reads. -/
def runSeqR (s : State) (ins : Instr) (f : (State → State) → State → LaneIn → SeqOut) : Result :=
  match infoOf ins, s.cur with
  | some i, some iss =>
    let (s, ex, bz) := prepare { s with cur := none } i iss.lanes
    let rs := iss.lanes.map fun t => (t,
      if bz.contains t then LaneRes.block .busy
      else match ex.find? fun (u, _) => u == t with
        | some (_, e) => .exc e 0
        | none => laneRes s t i fun _ => {})
    let i1 := if rs.any fun (_, r) => (match r with | .on .. => true | _ => false) then keepG i else i
    let (s, res, stop, _) := rs.foldl (fun x (t, r) => seqLane i1 f x t r) (s, [], none, false)
    (match stop with
     | some pa => .fault (.reservedPackage pa)
     | none => .next (commitLanes s i1 ins 4 res))
  | _, _ => .next s

def runSeq (s : State) (ins : Instr) (f : State → LaneIn → SeqOut) : Result := runSeqR s ins fun _ => f

/-- An instruction that can wait (R61): a save or restore handler may not execute it (R100, R443). -/
def runWait (s : State) (ins : Instr) (f : State → LaneIn → SeqOut) : Result :=
  runSeq s ins fun s n => if inHandler s n.t.team then { s := s, exc := some excHandlerWait } else f s n

/-- A meaning followed by what the issue as a whole brings about in each of its groups. -/
def thenGroups (s : State) (r : Result) (f : State → Nat → Nat → State) : Result :=
  match r, s.cur with
  | .next s', some iss => .next ((groupsIn iss.lanes).foldl (fun s (tm, gid) => f s tm gid) s')
  | r, _ => r

end Sys2Proof.Machine
end

