-- ==== Sys2Proof/Machine/Integer.lean ====
section
/-! DEFINITION. Class 0x0, integer instructions (R254-R259), as pure functions of their operands. -/

namespace Sys2Proof.Machine

/-- A result of type `t`, as it fills its registers (R130); poison enters from every operand read (R256). -/
def result (d : Spec) (t : Ty) (x : Nat) (psn : Bool) : List (Spec × List Val) :=
  [(d, natVals (regFill t x) psn (t.rwidth / 32))]

/-- A 32-bit result. -/
def result32 (d : Spec) (x : Nat) (psn : Bool) : List (Spec × List Val) := [(d, natVals x psn 1)]

/-- Operand `k` as a number. -/
def LaneIn.arg (n : LaneIn) (k : Nat) : Nat := valNat (n.v.getD k [])
/-- Is any operand poisoned? -/
def LaneIn.psn (n : LaneIn) : Bool := n.v.any valPsn

/-- trunc(a / b) of R258: rounded toward zero. -/
def truncDiv (a b : Int) : Int := Int.tdiv a b

/-- A pure binary integer operation: exact result and conditions. -/
def intBin (x : Bin) (sat : Bool) (f : Int → Int → Int × BitVec 7) (n : LaneIn) : LaneEff :=
  let (r, c) := f (ival x.ty (n.arg 0)) (ival x.ty (n.arg 1))
  { writes := result x.d x.ty (fit x.ty sat r) n.psn, conds := [c] }

def intUn (x : Un) (f : Int → Int) (n : LaneIn) : LaneEff :=
  { writes := result x.d x.ty (fit x.ty x.f0 (f (ival x.ty (n.arg 0)))) n.psn }

def binI (x : Bin) : OpInfo := binInfo x x.ty.rwidth x.ty x.ty.rwidth
/-- Latency of IMUL, IMAD and of IDIV, IREM (R255). -/
def mulLat (t : Ty) : Nat := if t.width = 64 then 16 else 8
def divLat (t : Ty) : Nat := if t.width = 64 then 80 else 40

/-- IADD: r := a + b (R258). -/
def aluIadd (x : Bin) : Alu := { info := binI x, eval := intBin x x.f0 fun a b => (a + b, 0) }
/-- ISUB: r := a − b. -/
def aluIsub (x : Bin) : Alu := { info := binI x, eval := intBin x x.f0 fun a b => (a - b, 0) }
/-- IMUL: r := a × b, or its upper w bits. -/
def aluImul (x : Bin) : Alu :=
  { info := binI x, lat := mulLat x.ty
    eval := intBin x x.f0 fun a b => (if x.f1 then (a * b) / (2 ^ x.ty.width : Nat) else a * b, 0) }
/-- IMAD: r := a × b + c. -/
def aluImad (x : Tri) : Alu :=
  { info := triInfo x x.ty.rwidth x.ty x.ty.rwidth x.ty, lat := mulLat x.ty
    eval := fun n => { writes := result x.d x.ty (fit x.ty x.f0
      (ival x.ty (n.arg 0) * ival x.ty (n.arg 1) + ival x.ty (n.arg 2))) n.psn } }
/-- IDIV: a zero divisor gives lo(T) or hi(T) and raises DZ (R258, R259). -/
def aluIdiv (x : Bin) : Alu :=
  { info := binI x, lat := divLat x.ty, traps := true
    eval := intBin x x.f0 fun a b =>
      if b = 0 then (if a < 0 then Ty.lo x.ty else Ty.hi x.ty, fDZ) else (truncDiv a b, 0) }
/-- IREM: takes the sign of a; a zero divisor gives a and raises DZ. -/
def aluIrem (x : Bin) : Alu :=
  { info := binI x, lat := divLat x.ty, traps := true
    eval := intBin x false fun a b => if b = 0 then (a, fDZ) else (a - b * truncDiv a b, 0) }
/-- INEG: r := −a. -/
def aluIneg (x : Un) : Alu := { info := unInfo x x.ty.rwidth, eval := intUn x fun a => -a }
/-- IABS: r := |a|. -/
def aluIabs (x : Un) : Alu := { info := unInfo x x.ty.rwidth, eval := intUn x fun a => (a.natAbs : Int) }
/-- IMIN. -/
def aluImin (x : Bin) : Alu := { info := binI x, eval := intBin x false fun a b => (min a b, 0) }
/-- IMAX. -/
def aluImax (x : Bin) : Alu := { info := binI x, eval := intBin x false fun a b => (max a b, 0) }

/-- LEA: D := (A + ival(B) × 2^C) mod 2^64. -/
def aluLea (x : Lea) : Alu :=
  { info := ⟨x.ctl, [sA x.a 64 .n64, sB x.b 32 x.ty, sC x.c 32 .n32], [⟨x.d, 64⟩], .own⟩
    eval := fun n => { writes := [(x.d, natVals (wrap 64 ((n.arg 0 : Int) + ival x.ty (n.arg 1) * (2 ^ n.arg 2 : Nat))) n.psn 2)] } }

/-- CVTI: R150. -/
def aluCvti (x : Cvt) : Alu :=
  { info := ⟨x.ctl, [sA x.a x.sty.rwidth x.sty], [⟨x.d, x.ty.rwidth⟩], .own⟩
    eval := fun n => { writes := result x.d x.ty (fit x.ty x.f0 (ival x.sty (n.arg 0))) n.psn } }

/-- Byte `j` of a word, signed or not. -/
def byteVal (sgn : Bool) (w j : Nat) : Int :=
  let b := w / 256 ^ j % 256
  if sgn then signed 8 b else b

/-- IDP4: r := c + the sum of four byte products. -/
def aluIdp4 (x : Tri) : Alu :=
  { info := triInfo x 32 .n32 32 x.ty, lat := 8
    eval := fun n =>
      let sa := x.ty == .i32
      let sb := sa && !x.f1
      let r := (List.range 4).foldl (fun (r : Int) j => r + byteVal sa (n.arg 0) j * byteVal sb (n.arg 1) j)
        (ival x.ty (n.arg 2))
      { writes := result x.d x.ty (fit x.ty x.f0 r) n.psn } }

end Sys2Proof.Machine
end

