-- ==== Sys2Proof/Machine/Bit.lean ====
section
/-! DEFINITION. Class 0x1, bit instructions (R260, R261), as pure functions of their operands. -/

namespace Sys2Proof.Machine

def bitBin (x : Bin) (f : Nat → Nat → Nat) (n : LaneIn) : LaneEff :=
  { writes := result x.d x.ty (f (n.arg 0) (n.arg 1)) n.psn }

/-- AND, OR, XOR: bitwise. -/
def aluAnd (x : Bin) : Alu := { info := binI x, eval := bitBin x fun a b => a &&& b }
def aluOr (x : Bin) : Alu := { info := binI x, eval := bitBin x fun a b => a ||| b }
def aluXor (x : Bin) : Alu := { info := binI x, eval := bitBin x fun a b => a ^^^ b }

/-- NOT: bitwise complement. -/
def aluNot (x : Un) : Alu :=
  { info := unInfo x x.ty.rwidth
    eval := fun n => { writes := result x.d x.ty (2 ^ x.ty.width - 1 - n.arg 0 % 2 ^ x.ty.width) n.psn } }

/-- The number whose bit `i` is `f i`, for i < w. -/
def ofBits (w : Nat) (f : Nat → Bool) : Nat := (List.range w).foldl (fun a i => if f i then a + 2 ^ i else a) 0

/-- BMIX: bit i of D := bit (4 × C_i + 2 × B_i + A_i) of tab. -/
def aluBmix (x : BMix) : Alu :=
  { info := ⟨x.ctl, [sA x.a x.ty.rwidth x.ty, sB x.b x.ty.rwidth x.ty, sC x.c x.ty.rwidth x.ty], [⟨x.d, x.ty.rwidth⟩], .own⟩
    eval := fun n => { writes := result x.d x.ty (ofBits x.ty.width fun i =>
      lutBit x.tab (bit (n.arg 2) i) (bit (n.arg 1) i) (bit (n.arg 0) i)) n.psn } }

/-- SHL: s ≥ w gives 0. -/
def aluShl (x : Bin) : Alu :=
  { info := binInfo x 32 .n32 x.ty.rwidth
    eval := bitBin x fun a b => if x.ty.width ≤ b then 0 else a * 2 ^ b % 2 ^ x.ty.width }

/-- SHR: n types give 0 at s ≥ w, i types shift arithmetically by min(s, w − 1). -/
def aluShr (x : Bin) : Alu :=
  { info := binInfo x 32 .n32 x.ty.rwidth
    eval := bitBin x fun a b =>
      let w := x.ty.width
      if x.ty.isSigned then wrap w (ival x.ty a / (2 ^ min b (w - 1) : Nat))
      else if w ≤ b then 0 else a % 2 ^ w / 2 ^ b }

/-- Rotate left by k < w. -/
def rotl (w a k : Nat) : Nat := (a * 2 ^ k + a / 2 ^ (w - k)) % 2 ^ w

/-- ROT: by s mod w, left or right. -/
def aluRot (x : Bin) : Alu :=
  { info := binInfo x 32 .n32 x.ty.rwidth
    eval := bitBin x fun a b =>
      let w := x.ty.width
      let a := a % 2 ^ w
      rotl w a (if x.f1 then (w - b % w) % w else b % w) }

/-- SHF: funnel shift of the 2w bits {B, A} by C mod 2w. -/
def aluShf (x : Tri) : Alu :=
  { info := triInfo x x.ty.rwidth x.ty 32 .n32
    eval := fun n =>
      let w := x.ty.width
      let fn := n.arg 0 + 2 ^ w * n.arg 1
      let k := n.arg 2 % (2 * w)
      { writes := result x.d x.ty (if x.f1 then fn / 2 ^ k % 2 ^ w else fn * 2 ^ k / 2 ^ w % 2 ^ w) n.psn } }

/-- BFE: bits at or above w read as A[w−1] for i and as 0 for n; length 0 gives 0. -/
def aluBfe (x : Bin) : Alu :=
  { info := binInfo x 32 .n32 x.ty.rwidth
    eval := bitBin x fun a b =>
      let w := x.ty.width
      let pos := b % 256
      let len := min (b / 256 % 256) w
      let ext := wrap (w + 512) (ival x.ty a)
      let f := ext / 2 ^ pos % 2 ^ len
      if len == 0 then 0 else if x.ty.isSigned then wrap w (signed len f) else f }

/-- BFI: D := B with bits pos to min(pos + len, w) − 1 taken from the low bits of A. -/
def aluBfi (x : Tri) : Alu :=
  { info := triInfo x x.ty.rwidth x.ty 32 .n32
    eval := fun n =>
      let w := x.ty.width
      let pos := n.arg 2 % 256
      let len := min (n.arg 2 / 256 % 256) w
      { writes := result x.d x.ty (ofBits w fun i =>
          if pos ≤ i && i < pos + len then bit (n.arg 0) (i - pos) else bit (n.arg 1) i) n.psn } }

def popcount (w a : Nat) : Nat := ((List.range w).filter fun i => bit a i).length

def un32 (x : Un) (f : Nat → Nat) : Alu :=
  { info := unInfo x 32, eval := fun n => { writes := result32 x.d (f (n.arg 0 % 2 ^ x.ty.width)) n.psn } }

/-- POPC: number of set bits. -/
def aluPopc (x : Un) : Alu := un32 x fun a => popcount x.ty.width a
/-- CLZ: leading zero bits, w for 0. -/
def aluClz (x : Un) : Alu := un32 x fun a => if a == 0 then x.ty.width else x.ty.width - 1 - Nat.log2 a
/-- FFS: index of the lowest set bit; 0xFFFF_FFFF for 0. -/
def aluFfs (x : Un) : Alu :=
  un32 x fun a => match (List.range x.ty.width).find? fun i => bit a i with
    | some i => i
    | none => 0xFFFFFFFF

/-- BREV: bit i := A[w − 1 − i]. -/
def aluBrev (x : Un) : Alu :=
  { info := unInfo x x.ty.rwidth
    eval := fun n => { writes := result x.d x.ty (ofBits x.ty.width fun i => bit (n.arg 0) (x.ty.width - 1 - i)) n.psn } }

/-- One selected byte of BSWZ. -/
def swzByte (src c : Nat) : Nat :=
  if c < 8 then src / 256 ^ c % 256
  else if c < 16 then (if bit src (8 * (c - 8) + 7) then 255 else 0)
  else if c == 17 then 255 else 0

/-- BSWZ: byte i of D by code SEL[5i+4:5i]; selectors from X or from C[19:0]. -/
def aluBswz (x : BSwz) : Alu :=
  { info := ⟨x.ctl, [sA x.a 32 .n32, sB x.b 32 .n32] ++ (match x.sel with | .reg c => [sC c 32 .n32] | .sel _ => []),
      [⟨x.d, 32⟩], .own⟩
    eval := fun n =>
      let src := n.arg 0 + 2 ^ 32 * n.arg 1
      let sel := match x.sel with | .sel m => m.toNat | .reg _ => n.arg 2
      { writes := result32 x.d ((List.range 4).foldl (fun a i => a + swzByte src (sel / 32 ^ i % 32) * 256 ^ i) 0) n.psn } }

end Sys2Proof.Machine
end

