-- ==== Sys2Proof/Machine/Move.lean ====
section
/-! DEFINITION. Class 0x2, moves, compares and predicates (R262-R266, R290-R292). MOVX and MOVXW, whose register is computed, act
through the state; the others are pure. -/

namespace Sys2Proof.Machine

/-- A value moved: a pair is one value, poisoned where either half is (R256). -/
def moved (d : Spec) (l : List Val) (n : Nat) : List (Spec × List Val) := [(d, natVals (valNat l) (valPsn l) n)]

/-- MOV: D := A. -/
def aluMov (x : Mov) : Alu :=
  { info := ⟨x.ctl, [⟨0, x.a, wideW x.wide, wideI x.wide, false⟩], [⟨x.d, wideW x.wide⟩], .own⟩
    eval := fun n => { writes := moved x.d (n.v.getD 0 []) (wideW x.wide / 32) } }

/-- MOVI: the pair {m, A}. -/
def aluMovi (x : Movi) : Alu :=
  { info := ⟨x.ctl, [sA x.a 32 .n32], [⟨x.d, 64⟩], .own⟩
    eval := fun n => { writes := [(x.d, natVals (n.arg 0) n.psn 1 ++ [⟨x.m, n.psn⟩])] } }

/-- A compare writes its predicate and, where D is named, a mask. -/
def cmpEff (x : Cmp) (n : LaneIn) (t : Bool) (c : BitVec 7) : LaneEff :=
  { preds := [(x.n.toNat, t)], writes := result32 x.d (if t then 0xFFFFFFFF else 0) n.psn, conds := [c] }

/-- ICMP: signed or unsigned by T. -/
def aluIcmp (x : Cmp) : Alu :=
  { info := cmpInfo x, pw := [x.n.toNat]
    eval := fun n => cmpEff x n (intCond x.cc.toNat (ival x.ty (n.arg 0)) (ival x.ty (n.arg 1))) 0 }

/-- FCMP: R290. -/
def aluFcmp (x : Cmp) : Alu :=
  { info := cmpInfo x, pw := [x.n.toNat], traps := true
    eval := fun n =>
      let (t, c) := floatCond (fmtOf x.ty) x.f0 x.f1 x.cc.toNat (n.arg 0) (n.arg 1)
      cmpEff x n t c }

/-- TCMP: the n-bit encodings as signed integers (R291). -/
def aluTcmp (x : Cmp) : Alu :=
  { info := cmpInfo x, pw := [x.n.toNat]
    eval := fun n => cmpEff x n (intCond x.cc.toNat (signed x.ty.width (n.arg 0)) (signed x.ty.width (n.arg 1))) 0 }

/-- SEL: D := (p(N) xor X[3]) ? A : B. -/
def aluSel (x : Sel) : Alu :=
  { info := ⟨x.ctl, [sA x.a (wideW x.wide) (wideI x.wide), sB x.b (wideW x.wide) (wideI x.wide)], [⟨x.d, wideW x.wide⟩], .own⟩
    pr := [x.n.toNat]
    eval := fun n =>
      let k := if predOf n.th x.n != x.neg then 0 else 1
      { writes := moved x.d (n.v.getD k []) (wideW x.wide / 32) } }

/-- PLOP: p(D) := lut[4 × p(A) + 2 × p(B) + p(C)]. -/
def aluPlop (x : Plop) : Alu :=
  { info := ⟨x.ctl, [], [], .own⟩, pr := [x.pa.toNat, x.pb.toNat, x.pc.toNat], pw := [x.pd.toNat]
    eval := fun n => { preds := [(x.pd.toNat, lutBit x.lut (predOf n.th x.pa) (predOf n.th x.pb) (predOf n.th x.pc))] } }

/-- PMOV: the predicates as a word with bit 7 for p7, or back under a mask. -/
def aluPmov (x : PMov) : Alu :=
  { info := if x.toPred then ⟨x.ctl, [sA x.a 32 .n32], [], .own⟩ else ⟨x.ctl, [], [⟨x.d, 32⟩], .own⟩
    pr := if x.toPred then [] else List.range 7
    pw := if x.toPred then List.range 7 else []
    eval := fun n =>
      if x.toPred then
        { preds := (List.range 7).filterMap fun j =>
            if bit x.mask.toNat j then some (j, bit (n.arg 0) j) else none }
      else { writes := result32 x.d (128 + n.th.preds.toNat) false } }

/-- MOVS: %tstat := ((%tstat and not B) or (A and B)) and 0x7F; PSN of its own reads comes first (R266). -/
def aluMovs (x : MovS) : Alu :=
  { info := ⟨x.ctl, [sA x.a 32 .n32, oB x.b 32 .n32], [], .own⟩
    pw := [36]      -- the number that stands for %tstat
    quiet := true
    eval := fun n => { tstat := some (BitVec.ofNat 7 (n.arg 0), BitVec.ofNat 7 (n.arg 1)) } }

/-- FCLASS: exactly one bit (R292). -/
def aluFclass (x : FClass) : Alu :=
  { info := ⟨x.ctl, [sA x.a x.ty.rwidth x.ty], [⟨x.d, 32⟩], .own⟩
    eval := fun n => { writes := result32 x.d (2 ^ classBit x.ty (n.arg 0)) n.psn } }

/-! The computed register of MOVX and MOVXW (R264, R265). -/

/-- The index, or the register-index fault of R105. -/
def indexOf (th : Thread) (n : LaneIn) (wide : Bool) : Except Exc Nat :=
  let i := signed 32 (n.arg 0) + signed 32 (n.arg 1)
  if i < 0 || th.nregs < i.toNat + (if wide then 2 else 1) || (wide && i.toNat % 2 == 1) then
    .error (excIndex 0 (wrap 32 i))
  else .ok i.toNat

/-- The register that MOVX computes, as a source. -/
def movxSrc (x : MovX) (i : Nat) : SrcOp := ⟨2, .src ⟨x.xlu, x.xte, .v (BitVec.ofNat 6 i)⟩, wideW x.wide, .n32, true⟩

/-- MOVX: D := v(i), read with X's own LU and TE marks; a stored v(i) takes an entry beside those that the issue still owes its
destinations (R114). -/
def execMovx (x : MovX) (s0 : State) : Result :=
  let lanes := match s0.cur with | some iss => iss.lanes | none => []
  let base := (infoOf (.movx x)).getD ⟨x.ctl, [], [], .own⟩
  runSeq s0 (.movx x) fun s n =>
    match indexOf n.th n x.wide with
    | .error e => { s := s, exc := some e }
    | .ok i =>
      let o := movxSrc x i
      match srcWait s n.t n.th [] o with
      | some b =>
        if x.xte then { s := s, exc := some (excEmpty 3 (srcSpecCode o b n.th)) } else { s := s, busy := true }
      | none =>
        let k := entriesNeeded n.th ⟨x.ctl, [o], [], .own⟩
        let (s, ok) := if k == 0 then (s, true)
          else obtain s n.t.team n.t.gid (k + needSum s { base with srcs := [] } lanes)
        if !ok then { s := s, busy := true }
        else match refillSrcs s n.t ⟨x.ctl, [o], [], .own⟩ with
        | .error (e, s') => { s := cacheFrom s s' (coreOf s n.t.team), exc := some e }
        | .ok s =>
          match thread? s n.t with
          | none => { s := s }
          | some th =>
            let (l, void, _) := readSrc s n.t th [] o
            let s := modThread s n.t fun th =>
              { releaseV th o with tstat := th.tstat ||| readFlags [l] void }
            let psn := valPsn (n.v.getD 0 []) || valPsn (n.v.getD 1 []) || valPsn l
            { s := s, writes := [(x.d, natVals (valNat l) psn (wideW x.wide / 32))] }

/-- MOVXW: v(i) := C, which is read first. -/
def execMovxw (x : MovXW) (s : State) : Result :=
  runSeqR s (.movxw x) fun reads s n =>
    match indexOf n.th n x.wide with
    | .error e => { s := s, exc := some e }
    | .ok i =>
      let d : DstOp := ⟨.v (BitVec.ofNat 6 i), wideW x.wide⟩
      if (dstWait s n.t n.th d).isSome then { s := s, busy := true }
      else
        let k := entriesNeeded n.th ⟨x.ctl, [], [d], .own⟩
        let (s, ok) := if k == 0 then (s, true) else obtain s n.t.team n.t.gid k
        if !ok then { s := s, busy := true }
        else
          let l := n.v.getD 2 []
          let psn := valPsn l || valPsn (n.v.getD 0 []) || valPsn (n.v.getD 1 [])
          let s := writeDst (reads s) n.t true d.spec (natVals (valNat l) psn (wideW x.wide / 32))
          { s := advance s n.t x.ctl none, own := true }

end Sys2Proof.Machine
end

