-- ==== Sys2Proof/Machine/Float.lean ====
section
/-! DEFINITION. Class 0x5, floating arithmetic, the special functions and conversions of class 0x6, and the pure operations of class
0x7 (R277-R293, R296), as pure functions of their operands. -/

namespace Sys2Proof.Machine

/-- The elements of a value of a type: two of 32 bits for f32x2, else one (R282). -/
def elems (t : Ty) (x : Nat) : List Nat := if t == .f32x2 then [x % 2 ^ 32, x / 2 ^ 32 % 2 ^ 32] else [x % 2 ^ t.width]

/-- Elements joined at a width. -/
def joinElems (w : Nat) : List Nat → Nat
  | [] => 0
  | x :: t => x + 2 ^ w * joinElems w t

/-- Element results of a type as a destination value. An f32x2 element is poisoned where the same element of a source is (R281, R282). -/
def fltEff (d : Spec) (t : Ty) (rs : List FRes) (n : LaneIn) (draws : Nat) : LaneEff :=
  { writes := if t == .f32x2 then
      [(d, rs.zipIdx.map fun (r, i) => ⟨BitVec.ofNat 32 r.bits, n.v.any fun l => valPsn (l.drop i |>.take 1)⟩)]
      else result d t (rs.headD ⟨0, 0⟩).bits n.psn
    conds := rs.map (·.flags), draws := draws }

def drawsFor (m : Rnd) (k : Nat) : Nat := if m == .rs then k else 0

/-- Latencies of R278: `n` cycles, `d` for f64. -/
def fltLat (t : Ty) (n d : Nat) : Nat := if t == .f64 then d else n

/-- A unary operation on each element; rs draws one word each (R280). -/
def fltUn (x : Un) (lat : Nat) (f : Fmt → W32 → Nat → FRes) : Alu :=
  { info := unInfo x x.ty.rwidth, traps := true, lat := lat, shadow := false
    eval := fun n =>
      let es := elems x.ty (n.arg 0)
      fltEff x.d x.ty (es.zipIdx.map fun (a, i) => f (fmtOf x.ty) (n.word i) a) n (drawsFor x.rnd es.length) }

def fltBin (x : Bin) (lat : Nat) (draws : Bool) (f : Fmt → W32 → Nat → Nat → FRes) : Alu :=
  { info := binI x, traps := true, lat := lat, shadow := false
    eval := fun n =>
      let es := (elems x.ty (n.arg 0)).zip (elems x.ty (n.arg 1))
      fltEff x.d x.ty (es.zipIdx.map fun ((a, b), i) => f (fmtOf x.ty) (n.word i) a b) n
        (if draws then drawsFor x.rnd es.length else 0) }

/-- FADD, FSUB, FMUL, FDIV (R283, R284). -/
def aluFadd (x : Bin) : Alu := fltBin x (fltLat x.ty 4 8) true fun f w a b => fadd f x.rnd x.f0 w a b
def aluFsub (x : Bin) : Alu := fltBin x (fltLat x.ty 4 8) true fun f w a b => fsub f x.rnd x.f0 w a b
def aluFmul (x : Bin) : Alu := fltBin x (fltLat x.ty 4 8) true fun f w a b => fmul f x.rnd x.f0 w a b
def aluFdiv (x : Bin) : Alu := fltBin x (fltLat x.ty 24 48) true fun f w a b => fdiv f x.rnd x.f0 w a b

/-- FFMA: a × b + c, rounded once. -/
def aluFfma (x : Tri) : Alu :=
  { info := triInfo x x.ty.rwidth x.ty x.ty.rwidth x.ty, traps := true, lat := fltLat x.ty 4 8, shadow := false
    eval := fun n =>
      let es := ((elems x.ty (n.arg 0)).zip (elems x.ty (n.arg 1))).zip (elems x.ty (n.arg 2))
      fltEff x.d x.ty (es.zipIdx.map fun (((a, b), c), i) => ffma (fmtOf x.ty) x.rnd x.f0 (n.word i) a b c) n
        (drawsFor x.rnd es.length) }

/-- FMIN, FMAX (R285): no rounding, no draw. -/
def aluFmin (x : Bin) : Alu := fltBin x (fltLat x.ty 4 8) false fun f _ a b => fminmax f true x.f1 x.f0 a b
def aluFmax (x : Bin) : Alu := fltBin x (fltLat x.ty 4 8) false fun f _ a b => fminmax f false x.f1 x.f0 a b

/-- FSQRT, FRCP, FRSQ, FRND. -/
def aluFsqrt (x : Un) : Alu := fltUn x (fltLat x.ty 24 48) fun f w a => fsqrt f x.rnd x.f0 w a
def aluFrcp (x : Un) : Alu := fltUn x (fltLat x.ty 16 32) fun f w a => frcp f x.rnd x.f0 w a
def aluFrsq (x : Un) : Alu := fltUn x (fltLat x.ty 16 32) fun f w a => frsq f x.rnd x.f0 w a
def aluFrnd (x : Un) : Alu := fltUn x (fltLat x.ty 4 8) fun f w a => frnd f x.rnd x.f0 w a

/-- FSCALE: a × 2^b, b an i32. -/
def aluFscale (x : Bin) : Alu :=
  { info := binInfo x 32 .i32 x.ty.rwidth, traps := true, lat := fltLat x.ty 4 8, shadow := false
    eval := fun n => fltEff x.d x.ty [fscale (fmtOf x.ty) x.rnd x.f0 (n.word 0) (n.arg 0) (signed 32 (n.arg 1))] n
      (drawsFor x.rnd 1) }

/-! Special functions: R286, R287. -/

def aluSpec (fn : SpecFn) (x : Un) : Alu := fltUn x 20 fun f w a => specFn fn f x.rnd x.f0 w a
def aluFexp2 (x : Un) : Alu := aluSpec .exp2 x
def aluFlog2 (x : Un) : Alu := aluSpec .log2 x
def aluFsin (x : Un) : Alu := aluSpec .sin x
def aluFcos (x : Un) : Alu := aluSpec .cos x
def aluFtanh (x : Un) : Alu := aluSpec .tanh x
def aluFsigm (x : Un) : Alu := aluSpec .sigm x

/-! Conversions: R288, R289. -/

/-- CVT. -/
def aluCvt (x : Cvt) : Alu :=
  { info := ⟨x.ctl, [sA x.a x.sty.rwidth x.sty], [⟨x.d, x.ty.rwidth⟩], .own⟩, traps := true
    lat := if x.ty == .f64 || x.sty == .f64 then 8 else 4, shadow := false
    eval := fun n => fltEff x.d x.ty [convert x.ty x.sty x.rnd x.f0 x.f1 (n.word 0) (n.arg 0)] n
      (if exactPair x.ty x.sty then 0 else drawsFor x.rnd 1) }

/-- The source elements of a CVTP: those of A, then those of B. -/
def cvtpElems (x : CvtPack) (a b : Nat) : List Nat :=
  if x.sty == .f32x2 then (if x.ty == .t8 then elems .f32x2 a ++ elems .f32x2 b else elems .f32x2 a)
  else if x.sty == .t8 then (List.range 4).map fun i => a / 256 ^ i % 256
  else (List.range 2).map fun i => a / 65536 ^ i % 65536

/-- CVTP: packed elements in ascending order. An unpacked t8 has one register for each element. -/
def aluCvtp (x : CvtPack) : Alu :=
  { info := (match cvtpShape x.ty x.sty with
      | some (dw, aw, two) => ⟨x.ctl, sA x.a aw x.sty :: (if two then [sB x.b 64 x.sty] else []), [⟨x.d, dw⟩], .own⟩
      | none => ⟨x.ctl, [], [], .own⟩)
    traps := true, lat := 4, shadow := false
    eval := fun n =>
      let dt := x.ty.elem
      let rs := (cvtpElems x (n.arg 0) (n.arg 1)).zipIdx.map fun (a, i) =>
        convert dt x.sty.elem x.rnd x.f0 x.f1 (n.word i) a
      let v := joinElems dt.width (rs.map (·.bits))
      let dw := match cvtpShape x.ty x.sty with | some (dw, _, _) => dw | none => 32
      { writes := [(x.d, natVals v n.psn (dw / 32))], conds := rs.map (·.flags)
        draws := if exactPair dt x.sty.elem then 0 else drawsFor x.rnd rs.length } }

/-! Class 0x7: R293, R296. -/

def tapBin (x : Bin) (f : Int → Int → Int) : Alu :=
  { info := binInfo x 32 x.ty 32, traps := true, shadow := false
    eval := fun n =>
      let r := wrap x.ty.width (f (signed x.ty.width (n.arg 0)) (signed x.ty.width (n.arg 1)))
      { writes := result x.d x.ty r n.psn } }

def tapUn (x : Un) (f : Int → Int) : Alu :=
  { info := unInfo x 32, traps := true, shadow := false
    eval := fun n => { writes := result x.d x.ty (wrap x.ty.width (f (signed x.ty.width (n.arg 0)))) n.psn } }

/-- TMIN, TMAX on the encodings as signed integers; NaR is lowest. "TMIN and TMAX return NaR whenever an operand is NaR" (R293). -/
def aluTmin (x : Bin) : Alu := tapBin x fun a b => min a b
def aluTmax (x : Bin) : Alu :=
  tapBin x fun a b => if a == -(2 ^ (x.ty.width - 1) : Nat) || b == -(2 ^ (x.ty.width - 1) : Nat)
    then -(2 ^ (x.ty.width - 1) : Nat) else max a b
/-- TNEG, TABS. -/
def aluTneg (x : Un) : Alu := tapUn x fun a => -a
def aluTabs (x : Un) : Alu := tapUn x fun a => if a < 0 then -a else a

/-- The elements of A for NZCNT (R296). -/
def nzElems (t : Ty) (a : Nat) : List Nat :=
  match t.width with
  | 8 => (List.range 4).map fun i => a / 256 ^ i % 256
  | 16 => (List.range 2).map fun i => a / 65536 ^ i % 65536
  | _ => elems t a

/-- NZCNT: D := (B + the number of nonzero elements) mod 2^32 (R160, R296). -/
def aluNzcnt (x : Bin) : Alu :=
  { info := ⟨x.ctl, [sA x.a x.ty.rwidth x.ty, oB x.b 32 .n32], [⟨x.d, 32⟩], .own⟩, traps := true, shadow := false
    eval := fun n =>
      let k := ((nzElems x.ty (n.arg 0)).filter fun a => countsNonzero x.ty.elem a).length
      { writes := result32 x.d (n.arg 1 + k) n.psn } }

end Sys2Proof.Machine
end

