-- ==== Sys2Proof/Machine/Alu.lean ====
section
/-! DEFINITION. The pure instructions as a table (those that R456 and R500 let stand in a trap's shadow are among them), their
meanings, and the end of a shadow (R456, SHADOW_COMMIT). -/

namespace Sys2Proof.Machine

/-- The pure form of an instruction, if it has one. -/
def aluOf (i : Instr) : Option Alu :=
  match i with
  | .iadd x => some (aluIadd x)
  | .isub x => some (aluIsub x)
  | .imul x => some (aluImul x)
  | .imad x => some (aluImad x)
  | .idiv x => some (aluIdiv x)
  | .irem x => some (aluIrem x)
  | .ineg x => some (aluIneg x)
  | .iabs x => some (aluIabs x)
  | .imin x => some (aluImin x)
  | .imax x => some (aluImax x)
  | .lea x => some (aluLea x)
  | .cvti x => some (aluCvti x)
  | .idp4 x => some (aluIdp4 x)
  | .and x => some (aluAnd x)
  | .or x => some (aluOr x)
  | .xor x => some (aluXor x)
  | .not x => some (aluNot x)
  | .bmix x => some (aluBmix x)
  | .shl x => some (aluShl x)
  | .shr x => some (aluShr x)
  | .rot x => some (aluRot x)
  | .shf x => some (aluShf x)
  | .bfe x => some (aluBfe x)
  | .bfi x => some (aluBfi x)
  | .popc x => some (aluPopc x)
  | .clz x => some (aluClz x)
  | .brev x => some (aluBrev x)
  | .ffs x => some (aluFfs x)
  | .bswz x => some (aluBswz x)
  | .mov x => some (aluMov x)
  | .movi x => some (aluMovi x)
  | .icmp x => some (aluIcmp x)
  | .fcmp x => some (aluFcmp x)
  | .tcmp x => some (aluTcmp x)
  | .sel x => some (aluSel x)
  | .plop x => some (aluPlop x)
  | .pmov x => some (aluPmov x)
  | .movs x => some (aluMovs x)
  | .fclass x => some (aluFclass x)
  | .fadd x => some (aluFadd x)
  | .fsub x => some (aluFsub x)
  | .fmul x => some (aluFmul x)
  | .ffma x => some (aluFfma x)
  | .fmin x => some (aluFmin x)
  | .fmax x => some (aluFmax x)
  | .fdiv x => some (aluFdiv x)
  | .fsqrt x => some (aluFsqrt x)
  | .frcp x => some (aluFrcp x)
  | .frsq x => some (aluFrsq x)
  | .frnd x => some (aluFrnd x)
  | .fscale x => some (aluFscale x)
  | .fexp2 x => some (aluFexp2 x)
  | .flog2 x => some (aluFlog2 x)
  | .fsin x => some (aluFsin x)
  | .fcos x => some (aluFcos x)
  | .ftanh x => some (aluFtanh x)
  | .fsigm x => some (aluFsigm x)
  | .cvt x => some (aluCvt x)
  | .cvtp x => some (aluCvtp x)
  | .tmin x => some (aluTmin x)
  | .tmax x => some (aluTmax x)
  | .tneg x => some (aluTneg x)
  | .tabs x => some (aluTabs x)
  | .nzcnt x => some (aluNzcnt x)
  | _ => none

/-! One meaning for each pure instruction. -/

def execIadd (x : Bin) (s : State) : Result := runAlu aluOf s (.iadd x) (aluIadd x)
def execIsub (x : Bin) (s : State) : Result := runAlu aluOf s (.isub x) (aluIsub x)
def execImul (x : Bin) (s : State) : Result := runAlu aluOf s (.imul x) (aluImul x)
def execImad (x : Tri) (s : State) : Result := runAlu aluOf s (.imad x) (aluImad x)
def execIdiv (x : Bin) (s : State) : Result := runAlu aluOf s (.idiv x) (aluIdiv x)
def execIrem (x : Bin) (s : State) : Result := runAlu aluOf s (.irem x) (aluIrem x)
def execIneg (x : Un) (s : State) : Result := runAlu aluOf s (.ineg x) (aluIneg x)
def execIabs (x : Un) (s : State) : Result := runAlu aluOf s (.iabs x) (aluIabs x)
def execImin (x : Bin) (s : State) : Result := runAlu aluOf s (.imin x) (aluImin x)
def execImax (x : Bin) (s : State) : Result := runAlu aluOf s (.imax x) (aluImax x)
def execLea (x : Lea) (s : State) : Result := runAlu aluOf s (.lea x) (aluLea x)
def execCvti (x : Cvt) (s : State) : Result := runAlu aluOf s (.cvti x) (aluCvti x)
def execIdp4 (x : Tri) (s : State) : Result := runAlu aluOf s (.idp4 x) (aluIdp4 x)
def execAnd (x : Bin) (s : State) : Result := runAlu aluOf s (.and x) (aluAnd x)
def execOr (x : Bin) (s : State) : Result := runAlu aluOf s (.or x) (aluOr x)
def execXor (x : Bin) (s : State) : Result := runAlu aluOf s (.xor x) (aluXor x)
def execNot (x : Un) (s : State) : Result := runAlu aluOf s (.not x) (aluNot x)
def execBmix (x : BMix) (s : State) : Result := runAlu aluOf s (.bmix x) (aluBmix x)
def execShl (x : Bin) (s : State) : Result := runAlu aluOf s (.shl x) (aluShl x)
def execShr (x : Bin) (s : State) : Result := runAlu aluOf s (.shr x) (aluShr x)
def execRot (x : Bin) (s : State) : Result := runAlu aluOf s (.rot x) (aluRot x)
def execShf (x : Tri) (s : State) : Result := runAlu aluOf s (.shf x) (aluShf x)
def execBfe (x : Bin) (s : State) : Result := runAlu aluOf s (.bfe x) (aluBfe x)
def execBfi (x : Tri) (s : State) : Result := runAlu aluOf s (.bfi x) (aluBfi x)
def execPopc (x : Un) (s : State) : Result := runAlu aluOf s (.popc x) (aluPopc x)
def execClz (x : Un) (s : State) : Result := runAlu aluOf s (.clz x) (aluClz x)
def execBrev (x : Un) (s : State) : Result := runAlu aluOf s (.brev x) (aluBrev x)
def execFfs (x : Un) (s : State) : Result := runAlu aluOf s (.ffs x) (aluFfs x)
def execBswz (x : BSwz) (s : State) : Result := runAlu aluOf s (.bswz x) (aluBswz x)
def execMov (x : Mov) (s : State) : Result := runAlu aluOf s (.mov x) (aluMov x)
def execMovi (x : Movi) (s : State) : Result := runAlu aluOf s (.movi x) (aluMovi x)
def execIcmp (x : Cmp) (s : State) : Result := runAlu aluOf s (.icmp x) (aluIcmp x)
def execFcmp (x : Cmp) (s : State) : Result := runAlu aluOf s (.fcmp x) (aluFcmp x)
def execTcmp (x : Cmp) (s : State) : Result := runAlu aluOf s (.tcmp x) (aluTcmp x)
def execSel (x : Sel) (s : State) : Result := runAlu aluOf s (.sel x) (aluSel x)
def execPlop (x : Plop) (s : State) : Result := runAlu aluOf s (.plop x) (aluPlop x)
def execPmov (x : PMov) (s : State) : Result := runAlu aluOf s (.pmov x) (aluPmov x)
def execMovs (x : MovS) (s : State) : Result := runAlu aluOf s (.movs x) (aluMovs x)
def execFclass (x : FClass) (s : State) : Result := runAlu aluOf s (.fclass x) (aluFclass x)
def execFadd (x : Bin) (s : State) : Result := runAlu aluOf s (.fadd x) (aluFadd x)
def execFsub (x : Bin) (s : State) : Result := runAlu aluOf s (.fsub x) (aluFsub x)
def execFmul (x : Bin) (s : State) : Result := runAlu aluOf s (.fmul x) (aluFmul x)
def execFfma (x : Tri) (s : State) : Result := runAlu aluOf s (.ffma x) (aluFfma x)
def execFmin (x : Bin) (s : State) : Result := runAlu aluOf s (.fmin x) (aluFmin x)
def execFmax (x : Bin) (s : State) : Result := runAlu aluOf s (.fmax x) (aluFmax x)
def execFdiv (x : Bin) (s : State) : Result := runAlu aluOf s (.fdiv x) (aluFdiv x)
def execFsqrt (x : Un) (s : State) : Result := runAlu aluOf s (.fsqrt x) (aluFsqrt x)
def execFrcp (x : Un) (s : State) : Result := runAlu aluOf s (.frcp x) (aluFrcp x)
def execFrsq (x : Un) (s : State) : Result := runAlu aluOf s (.frsq x) (aluFrsq x)
def execFrnd (x : Un) (s : State) : Result := runAlu aluOf s (.frnd x) (aluFrnd x)
def execFscale (x : Bin) (s : State) : Result := runAlu aluOf s (.fscale x) (aluFscale x)
def execFexp2 (x : Un) (s : State) : Result := runAlu aluOf s (.fexp2 x) (aluFexp2 x)
def execFlog2 (x : Un) (s : State) : Result := runAlu aluOf s (.flog2 x) (aluFlog2 x)
def execFsin (x : Un) (s : State) : Result := runAlu aluOf s (.fsin x) (aluFsin x)
def execFcos (x : Un) (s : State) : Result := runAlu aluOf s (.fcos x) (aluFcos x)
def execFtanh (x : Un) (s : State) : Result := runAlu aluOf s (.ftanh x) (aluFtanh x)
def execFsigm (x : Un) (s : State) : Result := runAlu aluOf s (.fsigm x) (aluFsigm x)
def execCvt (x : Cvt) (s : State) : Result := runAlu aluOf s (.cvt x) (aluCvt x)
def execCvtp (x : CvtPack) (s : State) : Result := runAlu aluOf s (.cvtp x) (aluCvtp x)
def execTmin (x : Bin) (s : State) : Result := runAlu aluOf s (.tmin x) (aluTmin x)
def execTmax (x : Bin) (s : State) : Result := runAlu aluOf s (.tmax x) (aluTmax x)
def execTneg (x : Un) (s : State) : Result := runAlu aluOf s (.tneg x) (aluTneg x)
def execTabs (x : Un) (s : State) : Result := runAlu aluOf s (.tabs x) (aluTabs x)
def execNzcnt (x : Bin) (s : State) : Result := runAlu aluOf s (.nzcnt x) (aluNzcnt x)

/-! The end of a shadow: R456. -/

/-- The effect of a captured instruction on its thread as it stands. -/
def capturedEff (s : State) (t : TRef) (th : Thread) (a : Alu) (x y z : W64) (psn : BitVec 3) : LaneEff :=
  a.eval ⟨t, th, uncapture a.info x y z psn, pairLanes s t th.draws⟩

/-- A deferred trap as it is taken: with the held instructions as replay queue. -/
def deferred (s : State) (t : TRef) (due : Nat) (pc : W64) : Option Raise :=
  (thread? s t).bind fun th => th.unres.bind fun u => match u.trap with
    | some x =>
      if u.due == due && u.pc == pc then
        some { t := t, exc := (match trapHalts s t u.tvec with | some c => x.asHalt c | none => x), lanes := u.lanes, pc := u.pc
               resume := th.pc, rep := th.held, tvec := u.tvec }
      else none
    | none => none

/-- The trappable instruction completes: the traps of its issue in the thread's group are taken together, or its result and those held
behind it are written in issue order. -/
def resolveShadow (s : State) (t : TRef) : State :=
  match thread? s t with
  | none => s
  | some th => match th.unres with
    | none => s
    | some u => match u.trap with
      | none => commitShadow s t
      | some _ =>
        let l := (lanesOf t.team t.gid).filterMap fun v => deferred s v u.due u.pc
        let s := l.foldl (fun s x => modThread s x.t fun th =>
          { th with tstat := th.tstat ||| (match th.unres with | some u => u.eff.flags | none => 0) }) s
        raiseList s l

/-- SHADOW_COMMIT (R456): nothing while the thread has no such instruction or it is not complete (R278). -/
def execShadowCommit (t : TRef) (s : State) : Result :=
  match thread? s t with
  | some th => (match th.unres with
    | some u => if u.due ≤ s.now then .next (resolveShadow s t) else .next s
    | none => .next s)
  | none => .next s

end Sys2Proof.Machine
end

