-- ==== Sys2Proof/Machine/Life.lean ====
section
/-! DEFINITION. The ends of threads, groups and teams (R68-R70, R270, R311, R428), waking a waiting thread (R67), and the
illegal-convergence halt (R428, R429). -/

namespace Sys2Proof.Machine

/-! Waking: R67. -/

/-- The instruction of a wait. -/
def Wait.instr : Wait → Instr
  | .bar x _ => .bar x
  | .barx x .. => .barx x
  | .waitv x .. => .waitv x
  | .vread x _ => .vread x
  | .ltake x _ => .ltake x
  | .semwait x _ => .semwait x
  | .ownwait x _ => .ownwait x
  | .arrwait x _ => .arrwait x

/-- What a waiting instruction reads at its issue. -/
def waitIn (s : State) (t : TRef) (w : Wait) (gw : Bool) : Option WaitIn :=
  match thread? s t, infoOf w.instr with
  | some th, some i =>
    let (vals, void, pops) := readSrcs s t th [] i.srcs
    some ⟨vals, void, pops, i.dsts.map fun d => (d.spec, d.w), gw, none⟩
  | _, _ => none

/-- The g registers that a waiting instruction reads for the last time. -/
def Wait.lastGs (w : Wait) : List Nat := match infoOf w.instr with | some i => i.srcs.flatMap lastG | none => []

/-- A last-use read of a waiting lane counts now, unless the register has been written or claimed since (R109). -/
def countWait (s : State) (t : TRef) (n : Nat) : State :=
  match group? s t.team t.gid with
  | some g =>
    if bit (Tab.getD g.gwait n 0).toNat t.lane then seenG s t n else s
  | none => s

/-- The reads of a waiting instruction take effect when it is satisfied, with the values of its issue: releases, pops, hold, latch
uses and sticky bits. Until then it may be repeated whole after a restore (R65, R328), or fault (R298). -/
def waitReads (s : State) (t : TRef) : State :=
  match thread? s t with
  | none => s
  | some th => match th.st, th.win with
    | .waiting w, some n => (match infoOf w.instr with
      | some i =>
        let i' := { i with srcs := i.srcs.map fun o => if (lastG o).isEmpty then o else (match o.op with
          | .src x => { o with op := .src { x with lu := false } }
          | _ => o) }
        w.lastGs.foldl (fun s k => countWait s t k) (afterReads s t i' true n.vals n.pops (readFlags n.vals n.void))
      | none => s)
    | _, _ => s

/-- A waiting thread goes on at its next instruction, with predicates and results; a register that has become empty meanwhile takes
its result behind the fill (R108). -/
def wake (s : State) (t : TRef) (preds : List (Nat × Bool)) (writes : List (Spec × List Val)) : State :=
  let gOk := match thread? s t with | some th => (match th.win with | some n => n.gw | none => true) | none => true
  proceed (applyEff (waitReads s t) t gOk { writes := writes, preds := preds }) t

/-- The threads of a resident team that wait, with their waits. -/
def waitersOf (s : State) (tm : Nat) : List (TRef × Wait) :=
  if (match team? s tm with | some t => t.st == .resident | none => false) == true then
  (threadsOf s tm).filterMap fun t => match thread? s t with
    | some th => (match th.st with | .waiting w => some (t, w) | _ => none)
    | none => none
  else []

/-- Every thread of the package that waits. -/
def allWaiters (s : State) : List (TRef × Wait) := (s.teams.flatMap fun (k, _) => waitersOf s k)

/-! What stands at a program counter. -/

structure Stand where
  res : FetchRes
  ins : Option Instr
  info : Option OpInfo

def standAt (s : State) (core ctx : Nat) (pc : W64) : Stand :=
  match (fetchWord s core ctx pc).1 with
  | .word w => (match decodeWord w with
    | .ok i => ⟨.word w, some i, infoOf i⟩
    | .error _ => ⟨.word w, none, none⟩)
  | r => ⟨r, none, none⟩

def isCompact : Instr → Bool
  | .compact _ => true
  | _ => false

/-! Team barriers: R311. -/

def liveThreads (s : State) (tm : Nat) : Nat :=
  ((threadsOf s tm).filter fun t => match thread? s t with | some th => !th.exited | none => false).length

/-- The target of a barrier phase: E, or the team's non-exited threads. -/
def barTarget (s : State) (tm : Nat) (b : BarSt) : Nat := if b.target == 0 then liveThreads s tm else b.target

/-- Complete the phase of barrier `b` where its target is reached: its waiters go on and the count returns to 0. A thread whose
arrival is not yet counted belongs to the next phase. -/
def barSettle (s : State) (tm b : Nat) : State :=
  match team? s tm with
  | none => s
  | some t => match Tab.get? t.bars b with
    | none => s
    | some st =>
      if st.count == 0 || st.count < barTarget s tm st then s
      else
        let s := modTeam s tm fun t => { t with bars := Tab.erase t.bars b }
        (waitersOf s tm).foldl (fun s (u, w) => match w with
          | .bar x _ => if x.b.toNat == b && !t.arrivals.contains u.tid then wake s u [] [] else s
          | _ => s) s

/-- Count one arrival: the first of a phase fixes the target (R311). -/
def barArrive (s : State) (tm tid : Nat) : State :=
  let s := modTeam s tm fun t => { t with arrivals := t.arrivals.filter (· != tid) }
  match thread? s ⟨tm, tid / 32, tid % 32⟩ with
  | some th => (match th.st with
    | .waiting (.bar x e) =>
      let b := x.b.toNat
      barSettle (modTeam s tm fun t =>
        let old := Tab.getD t.bars b ⟨0, 0⟩
        { t with bars := Tab.set t.bars b ⟨old.count + 1, if old.count == 0 then e else old.target⟩ }) tm b
    | _ => s)
  | none => s

/-- The arrivals of a cycle at the barriers of a team, lowest %tid first (R311). -/
def barTick (s : State) (tm : Nat) : State :=
  match team? s tm with
  | some t => (sortBy (fun a b => a ≤ b) t.arrivals).foldl (fun s tid => barArrive s tm tid) s
  | none => s

def barSettleAll (s : State) (tm : Nat) : State := (List.range 16).foldl (fun s b => barSettle s tm b) s

/-! BARX arrivals: R315. -/

/-- When every non-exited thread of the team waits at BARX with one address, the core sends the team's arrival. -/
def barxSettle (s : State) (tm : Nat) : State :=
  let live := (threadsOf s tm).filter fun t => match thread? s t with | some th => !th.exited | none => false
  let at_ := live.filterMap fun t => match thread? s t with
    | some th => (match th.st with | .waiting (.barx _ a sent _) => some (a, sent) | _ => none)
    | none => none
  match at_ with
  | [] => s
  | (a, _) :: _ =>
    if at_.length != live.length || at_.any (fun x => x.1 != a || x.2) then s
    else match xlate s (coreOf s tm) (ctxOf s tm) a.toNat .write with
      | (.ok pa cmp, s) =>
        let s := live.foldl (fun s t => modThread s t fun th => match th.st with
          | .waiting (.barx x a _ p) => { th with st := .waiting (.barx x a true p) }
          | _ => th) s
        { s with msgs := s.msgs ++ [.barx tm pa a cmp s.ids], ids := s.ids + 1 }
      | (_, s) => s

/-! Ends. -/

/-- The engine commands of a team that can still complete. -/
def liveEngs (t : Team) : List Eng := t.engs.filter fun e => e.failed.isNone

/-- A team retires: its slots and pages are freed, its letters returned, the mail slots it holds freed (R69, R78, R84). Its pages keep
what stands in them (R400). -/
def retireTeam (s : State) (tm : Nat) : State :=
  match team? s tm with
  | none => s
  | some t =>
    let s := returnLetters s (fun u => u.team == tm) true
    let s := { s with
      queues := s.queues.map fun (q, x) => (q, { x with waits := x.waits.filter fun w => w.t.team != tm })
      links := s.links.filter fun l => l.t.team != tm
      vinvs := s.vinvs.filter fun v => v.t.team != tm
      groups := s.groups.filter fun (k, _) => k / 32 != tm
      threads := s.threads.filter fun (k, _) => k / 1024 != tm }
    let s := modCore s t.core fun c => { c with
      meng := { queue := c.meng.queue.filter fun j => j.team != tm
                suspended := c.meng.suspended.filter fun j => j.team != tm
                running := c.meng.running.filter fun j => j.team != tm
                pipe := c.meng.pipe.filter fun j => j.team != tm }
      solves := c.solves.filter fun j => j.t.team != tm
      compacts := c.compacts.filter fun j => j.team != tm
      walks := (c.walks.map fun w => { w with waiters := w.waiters.filter fun x => x.1.team != tm }).filter fun w => !w.waiters.isEmpty }
    modTeam s tm fun t => { t with st := .retired, owner := 0, engs := [], bars := [], ready := false }

/-- A cluster whose last team has left returns to private L1s, every line invalidated first (R48, R171). -/
def unfuse (s : State) (core : Nat) : State :=
  if s.teams.any fun (_, t) => t.onCore && t.core / 8 == core / 8 then s
  else if (match Tab.get? s.clusters (core / 8) with | some c => c.fused | none => false) then reshapeL1 s (core / 8) false
  else s

/-- A team whose every group has finished retires, once its outstanding commands have completed or their faults have been delivered
(R69, R270, R491, assumption 19). -/
def teamSettle (s : State) (tm : Nat) : State :=
  match team? s tm with
  | some t =>
    if t.st == .resident && (t.engs.all (·.delivered)) && ((getCore s t.core).solves.all fun j => j.t.team != tm) &&
       (List.range t.ngrp).all fun g => match group? s tm g with | some g => g.finished | none => true
    then unfuse (retireTeam s tm) t.core
    else s
  | none => s

/-- The thread is Exited: its registers are released and its latches void (R270). -/
def exitThread (s : State) (t : TRef) : State :=
  modThread s t fun th => { th with
    st := .exited, regs := [], lat0 := Latch.void, lat1 := Latch.void, lat2 := Latch.void, after := none }

/-- The held threads of a group: lane and PC (R58). -/
def heldLanes (s : State) (tm gid : Nat) : List (TRef × W64) :=
  (lanesOf tm gid).filterMap fun t => match thread? s t with
    | some th => if th.st == .held then some (t, th.pc) else none
    | none => none

/-- The illegal-convergence halt of a group (R428): its held threads cause it. -/
def convHalt (s : State) (tm gid sub : Nat) : State :=
  let held := heldLanes s tm gid
  haltGroup s tm gid (held.map fun (t, pc) => ⟨t.lane, ⟨0x17, sub, none, false, 0⟩, pc, pc + 12⟩) fun c =>
    held.foldl (fun m (t, pc) => if pc == c.pc then m ||| BitVec.ofNat 32 (2 ^ t.lane) else m) 0

/-- Are threads of the group held at a collective other than COMPACT, whose incomplete groups an exit does not halt (R60, R381)? -/
def heldAtColl (s : State) (tm gid : Nat) : Bool :=
  (heldLanes s tm gid).any fun (_, pc) => match (standAt s (coreOf s tm) (ctxOf s tm) pc).ins with
    | some i => !isCompact i
    | none => true

/-- What follows when threads of a group have exited: the convergence fault (R60), a finished group (R68), g registers that every
remaining thread has released (R109), and barrier phases (R311, R315). -/
def afterExit (s : State) (tm gid : Nat) : State :=
  let gone := (lanesOf tm gid).any fun t => match thread? s t with | some th => th.exited | none => false
  let s := if gone && heldAtColl s tm gid then convHalt s tm gid 1 else s
  let s := match group? s tm gid with
    | some g => g.gregs.foldl (fun s (n, _) => if (Tab.get? g.gseen n).isSome then gSettle s tm gid n else s) s
    | none => s
  let s := if (lanesOf tm gid).all fun t => match thread? s t with | some th => th.exited | none => true
    then modGroup s tm gid fun g => { g with finished := true, conv := none } else s
  teamSettle (barxSettle (barSettleAll s tm) tm) tm

end Sys2Proof.Machine
end

