-- ==== Sys2Proof/Machine/Control.lean ====
section
/-! DEFINITION. Class 0x3, control instructions (R267-R273). -/

namespace Sys2Proof.Machine

/-- The target of BRA and CALL: PC + 12 × offset (R268). -/
def relTarget (pc : W64) (off : BitVec 24) : W64 := pc + BitVec.ofInt 64 (12 * off.toInt)

/-- The precise address fault of a target that is not canonical or not a multiple of 12. -/
def targetExc (t : W64) : Option Exc :=
  if canonical t.toNat && t.toNat % 12 == 0 then none else some (excAddr 1 t.toNat true)

/-- A branch to `t`. -/
def branchTo (t : W64) : LaneEff :=
  match targetExc t with
  | some e => { exc := some e }
  | none => { pc := some t }

def poisonedTarget (th : Thread) : Exc := excPoison 0 th.pc.toNat

/-- BRA. -/
def execBra (x : Bra) (s : State) : Result :=
  runLanes s (.bra x) fun _ n => branchTo (relTarget n.th.pc x.off)

/-- BRX. -/
def execBrx (x : OneSrc) (s : State) : Result :=
  runLanes s (.brx x) fun _ n =>
    if n.psn then { exc := some (poisonedTarget n.th) } else branchTo (BitVec.ofNat 64 (n.arg 0))

/-- The link word of R268. -/
def linkWord (th : Thread) (s8 : BitVec 3) : W64 :=
  BitVec.ofNat 64 ((th.nregs - 1) % 64 * 2 ^ 58 + s8.toNat * 2 ^ 55 + (th.pc + 12).toNat % 2 ^ 57 / 4)

/-- CALL and CALLX: the shift, the callee's frame size, the link pair in the callee's window, the jump. A bad target comes before a
depth past the stack (DESIGN CHOICE: R268 does not order them, assumption 82). -/
def callCore (reads : State → State) (s : State) (n : LaneIn) (c : Ctl) (d : Spec) (nr : BitVec 6) (s8 : BitVec 3)
    (target : W64) : SeqOut :=
  match targetExc target with
  | some e => { s := s, exc := some e }
  | none =>
    let vd := match d with | .v k => k.toNat | _ => 0
    let depth := n.th.wbase + 8 * s8.toNat + vd
    match callShift (reads s) n.t (8 * s8.toNat) with
      | .wait => { s := s, busy := true }
      | .index k => { s := s, exc := some (excIndex 2 k) }
      | .fault va p s' => { s := cacheFrom s s' (coreOf s n.t.team), exc := some (excXlate p 3 va) }
      | .ok s1 =>
        let need := ([depth, depth + 1].filter (needsEntry ((thread? s1 n.t).getD n.th) true)).length
        let (s1, room) := if need == 0 then (s1, true) else obtain s1 n.t.team n.t.gid need
        if !room then { s := s, busy := true }
        else
          let link := linkWord n.th s8
          let s1 := modThread s1 n.t fun th => { writeV th depth (natVals link.toNat false 2) with nregs := nr.toNat + 1 }
          { s := advance s1 n.t c (some target), own := true }

/-- CALL. -/
def execCall (x : Call) (s : State) : Result :=
  runSeqR s (.call x) fun reads s n => callCore reads s n x.ctl x.d x.n x.s (relTarget n.th.pc x.off)

/-- CALLX: A is read in the caller's window. -/
def execCallx (x : CallX) (s : State) : Result :=
  runSeqR s (.callx x) fun reads s n =>
    if n.psn then { s := s, exc := some (poisonedTarget n.th) }
    else callCore reads s n x.ctl x.d x.n x.s (BitVec.ofNat 64 (n.arg 0))

/-- base_return of R269: a save or restore handler ends for the thread, other code exits. -/
def baseReturn (s : State) (t : TRef) : State :=
  if inHandler s t.team then modThread s t fun th => { th with st := .handlerDone } else exitThread s t

/-- RET with a link. A poisoned link comes before a bad S (DESIGN CHOICE: R256 and R268 do not order them, assumption 82). -/
def retCore (reads : State → State) (s : State) (n : LaneIn) (c : Ctl) : SeqOut :=
  let link := n.arg 0
  let S := 8 * (link / 2 ^ 55 % 8)
  if n.psn then { s := s, exc := some (poisonedTarget n.th) }
  else if S == 0 || n.th.wbase < S then { s := s, exc := some (excIndex 3 (wrap 32 ((n.th.wbase : Int) - S))) }
  else
    let target := BitVec.ofNat 64 (sx57 (link % 2 ^ 55 * 4))
    match targetExc target with
    | some e => { s := s, exc := some e }
    | none => match retShift (reads s) n.t S with
      | .wait => { s := s, busy := true }
      | .index k => { s := s, exc := some (excIndex 3 k) }
      | .fault va p s' => { s := cacheFrom s s' (coreOf s n.t.team), exc := some (excXlate p 3 va) }
      | .ok s1 =>
        let s1 := modThread s1 n.t fun th => { th with nregs := link / 2 ^ 58 % 64 + 1 }
        { s := advance s1 n.t c (some target), own := true }

/-- What the threads of an issue leave behind when some have exited. -/
def settleExits (s : State) (r : Result) : Result := thenGroups s r fun s tm gid => afterExit s tm gid

/-- RET (R268, R269). -/
def execRet (x : OneSrc) (s : State) : Result :=
  settleExits s (runSeqR s (.ret x) fun reads s n =>
    if x.a.spec == .zero then { s := baseReturn (reads s) n.t, own := true } else retCore reads s n x.ctl)

/-- EXIT (R270). -/
def execExit (x : Plain) (s : State) : Result :=
  settleExits s (runSeqR s (.exit x) fun reads s n => { s := exitThread (reads s) n.t, own := true })

/-- YIELD: the effect of YLD on every thread it issues (R271). -/
def execYield (x : Plain) (s : State) : Result :=
  runWith s ⟨{ x.ctl with yld := true }, [], [], .own⟩ (.yield x) 4 fun s t =>
    laneRes s t ⟨x.ctl, [], [], .own⟩ fun _ => {}

/-- The pause of R272 in cycles. -/
def pauseCount (a : Nat) (add : BitVec 24) : Nat := min (2 ^ 24 - 1) (a + add.toNat)

/-- PAUSE (R63, R272): paused for the count of cycles after the issue; the age of a paused thread is the cycle of its PAUSE. -/
def execPause (x : Pause) (s : State) : Result :=
  runSeqR s (.pause x) fun reads s n =>
    let k := pauseCount (n.arg 0) x.add
    let s := advance (reads s) n.t x.ctl none
    if k == 0 then { s := s, own := true }
    else { s := modThread s n.t fun th => { th with st := .paused (s.now + 1 + k), since := s.now }, own := true }

/-- NOP: no effect but its hints (R271). -/
def execNop (x : Plain) (s : State) : Result := runLanes s (.nop x) fun _ _ => {}

/-- JOIN: a NOP once the picker lets it issue (R273). -/
def execJoin (x : Join) (s : State) : Result := runLanes s (.join x) fun _ _ => {}

end Sys2Proof.Machine
end

