-- ==== Sys2Proof/Machine/Dot.lean ====
section
/-! DEFINITION. Exact sums of products with the special values of R153, for MVT (R154, R295) and the matrix instructions. -/

namespace Sys2Proof.Machine

/-- A sum of terms in progress: the exact sum of the finite ones, whether every term so far is −0, and what special terms it has
met. -/
structure Dot where
  sum : Dy
  allNegZero : Bool
  posInf : Bool
  negInf : Bool
  nan : Bool
  inv : Bool
  deriving DecidableEq, Repr

def Dot.empty : Dot := ⟨Dy.zero, true, false, false, false, false⟩

/-- A tapered factor: NaR counts as a quiet NaN. -/
def tapFV (t : TFmt) (x : Nat) : FV :=
  match t.decode x with
  | none => .nan true
  | some d => .fin (d.m < 0) d.m.natAbs d.e

/-- An integer factor. -/
def intFV (i : Int) : FV := .fin (i < 0) i.natAbs 0

/-- Add one term. -/
def Dot.term (d : Dot) (x : FV) : Dot :=
  match x with
  | .nan q => { d with nan := true, inv := d.inv || !q }
  | .inf n => { d with posInf := d.posInf || !n, negInf := d.negInf || n, allNegZero := false }
  | .fin .. => { d with sum := d.sum.add x.dy, allNegZero := d.allNegZero && isNegZero x }

/-- Add one product of two factors, times 2^k. The sign of a product is that of both factors together, also where a tapered factor is 0
and has no sign of its own (DESIGN CHOICE: R155 gives such a product no sign, assumption 89). -/
def Dot.prod (d : Dot) (a b : FV) (k : Int) : Dot :=
  if a.isNan || b.isNan then { d with nan := true, inv := d.inv || a.isSnan || b.isSnan }
  else if (a.isInf && b.isZero) || (a.isZero && b.isInf) then { d with nan := true, inv := true }
  else if a.isInf || b.isInf then d.term (.inf (a.neg != b.neg))
  else
    let p := a.dy.mul b.dy
    d.term (.fin (a.neg != b.neg) p.m.natAbs (p.e + k))

/-- The result (R153 rules 1 to 3, R155). -/
def Dot.finish (d : Dot) (f : Fmt) (mode : Rnd) (ftz : Bool) (w : W32) : FRes :=
  let both := d.posInf && d.negInf
  if d.nan || both then FRes.dnan f (d.inv || both)
  else if d.posInf || d.negInf then FRes.inf f d.negInf 0
  else roundSum f mode ftz w d.sum d.allNegZero

end Sys2Proof.Machine
end

