-- ==== Sys2Proof/Machine/Mvt.lean ====
section
/-! DEFINITION. MVT, the matrix–vector instruction on a weight block of the constant store (R294, R295). -/

namespace Sys2Proof.Machine

/-- Is a granule touched by bytes [a, a + n) poisoned in a store of granules? -/
def granPsn (g : List Nat) (a n : Nat) : Bool :=
  if n == 0 then false else (List.range ((a + n - 1) / 32 - a / 32 + 1)).any fun i => g.contains (a / 32 + i)

/-- A word of a core's constant store with its poison (R168). -/
def cstRead (s : State) (core a n : Nat) : Nat × Bool :=
  (memLoad (getCore s core).cst a n, granPsn (getCore s core).cpsn a n)

/-- One output before its activation: bias, weights, inputs. -/
def mvtSum (x : Mvt) (w : W32) (bias : Nat) (ws xs : List Nat) : FRes :=
  let d := Dot.empty.term (fmtF32.decode x.ftz bias)
  let d := (ws.zip xs).foldl (fun d (wt, v) =>
    d.prod (if x.t16 then tapFV (tfmtOf .t16) wt else fmtF32.decode x.ftz wt) (fmtF32.decode x.ftz v) 0) d
  d.finish fmtF32 x.rnd x.ftz w

/-- The activation of a rounded sum. NONFIN tells of the value written (R134). -/
def mvtAct (x : Mvt) (w : W32) (y : FRes) : FRes :=
  let v := fmtF32.decode false y.bits
  let r : FRes := match x.act.val with
    | 1 => if v.isNan then y else if (FV.fin false 0 0).lt v then y else ⟨0, y.flags⟩
    | 2 => let t := specFn .tanh fmtF32 x.rnd x.ftz w y.bits; ⟨t.bits, y.flags ||| t.flags⟩
    | _ => y
  let u := fmtF32.decode false r.bits
  ⟨r.bits, (r.flags &&& ~~~fNONFIN) ||| flagIf (u.isNan || u.isInf) fNONFIN⟩

/-- Draws of one output under rs. -/
def mvtDraws (x : Mvt) : Nat := if x.rnd == .rs then (if x.act.val == 2 then 2 else 1) else 0

/-- MVT in one thread. A poisoned word that enters an output poisons it and sets PSN (R281, R295). -/
def mvtLane (x : Mvt) (s : State) (n : LaneIn) : LaneEff :=
  let rows := x.rows.toNat + 1
  let cols := x.cols.toNat + 1
  let z := if x.t16 then 2 else 4
  let a := (n.arg 1 + 8 * x.e8.toNat) % 2 ^ 32
  if valPsn (n.v.getD 1 []) then { exc := some (excPoison 1 n.th.pc.toNat) }
  else if a % 4 != 0 || 131072 < a + 4 * rows + z * rows * cols then { exc := some (excAddr 0 a false) }
  else
    let core := coreOf s n.t.team
    let xs := (n.v.getD 0 []).map fun v => v.v.toNat
    let xp := valPsn (n.v.getD 0 [])
    let outs : List (FRes × Bool) := (List.range rows).map fun j =>
      let (bias, bp) := cstRead s core (a + 4 * j) 4
      let ws := (List.range cols).map fun i => cstRead s core (a + 4 * rows + z * (j * cols + i)) z
      let d := mvtDraws x
      let y := mvtAct x (n.word (d * j + 1)) (mvtSum x (n.word (d * j)) bias (ws.map (·.1)) xs)
      (y, bp || xp || ws.any (·.2))
    let conds := outs.map fun (y, p) => y.flags ||| flagIf p fPSN
    let e : LaneEff := { conds := conds }
    { exc := arithTrap (tenOf s n.t.team) e
      writes := [(.v x.d, outs.map fun (y, p) => ⟨BitVec.ofNat 32 y.bits, p⟩)]
      conds := conds
      draws := mvtDraws x * rows }

/-- MVT. -/
def execMvt (x : Mvt) (s : State) : Result := runLanes s (.mvt x) (mvtLane x)

end Sys2Proof.Machine
end

