-- ==== Sys2Proof/Machine/System.lean ====
section
/-! DEFINITION. Class 0x4: system registers (R274-R276, R453), TRAP, RTE, BRK and STAT (R460-R465, R500). -/

namespace Sys2Proof.Machine

/-! System registers. -/

/-- The timeouts in force (R43). -/
def ctimeOf (g : GridRec) : Nat := if g.ctimeout == 0 then 4096 else g.ctimeout
def parkOf (g : GridRec) : Nat := if g.park == 0 then 20000 else g.park

/-- The value SYSR delivers. -/
def sysRead (s : State) (t : TRef) (th : Thread) (num : Nat) : Nat :=
  match team? s t.team, gridOf s t.team with
  | some tm, some g =>
    match num with
    | 0x00 => tm.rkey.toNat
    | 0x01 => tm.vtbase.toNat
    | 0x02 => ctimeOf g
    | 0x03 => parkOf g
    | 0x04 => tm.grid
    | 0x05 => g.prio
    | 0x06 => th.nregs
    | 0x07 => th.wbase
    | 0x08 => th.draws.toNat
    | 0x10 => tm.tvec.toNat
    | 0x11 => 2 * tm.ten.toNat
    | 0x12 => b2n th.tdepth
    | 0x13 => (localBase s t + 0x480000) % 2 ^ 64
    | _ => 0
  | _, _ => 0

/-- A team register takes its value (R140, R189, R453). A TVEC that is a multiple of 4 and not of 12 is kept as it is (DESIGN CHOICE:
R453 gives it no result, assumption 82). -/
def Team.sysSet (t : Team) (num : Nat) (v : W64) : Team :=
  match num with
  | 0x00 => { t with rkey := v }
  | 0x01 => { t with vtbase := v &&& ~~~0xFFF }
  | 0x10 => { t with tvec := v &&& ~~~3 }
  | 0x11 => { t with ten := BitVec.ofNat 5 (v.toNat / 2) }
  | _ => t

/-- The end of a cycle: SYSW writes to team registers take effect (R140). -/
def applySysw (s : State) : State :=
  { s with teams := s.teams.map fun (k, t) =>
      (k, if t.sysw.isEmpty then t else { t.sysw.foldl (fun t (n, v) => t.sysSet n v) t with sysw := [] }) }

/-- SYSR (R276). -/
def execSysr (x : SysR) (s : State) : Result :=
  runLanes s (.sysr x) fun s n =>
    let w := (sysRegWidth x.num.toNat).getD 32
    { writes := [(x.d, natVals (sysRead s n.t n.th x.num.toNat) false (w / 32))] }

/-- SYSW: DRAWS in each guard-true thread; a team register from the lowest-numbered issued lane of the team whose guard is true, at
the end of the cycle (R140, R276). -/
def execSysw (x : SysW) (s : State) : Result :=
  runSeq s (.sysw x) fun s' n =>
    let v := BitVec.ofNat 64 (n.arg 0)
    if x.num.toNat == 0x08 then { s := modThread s' n.t fun th => { th with draws := v } }
    else
      let first : Bool := match s.cur with
        | some iss => (match iss.lanes.find? fun t => t.team == n.t.team && (match laneRes s t ⟨x.ctl, [], [], .own⟩ fun _ => {} with
            | .on .. => true
            | _ => false) with
          | some t => t == n.t
          | none => false)
        | none => false
      if first then { s := modTeam s' n.t.team fun t => { t with sysw := t.sysw ++ [(x.num.toNat, v)] } } else { s := s' }

/-! TRAP, BRK, STAT. -/

/-- TRAP: cause 0x07 (R463). -/
def execTrap (x : TrapOp) (s : State) : Result :=
  runLanes s (.trap x) fun _ n => { exc := some ⟨7, 0, some (n.arg 0), false, x.code.toNat⟩ }

/-- BRK: each thread with a true guard causes the halt (R464). -/
def execBrk (x : Brk) (s : State) : Result :=
  runLanes s (.brk x) fun _ _ => { exc := some ⟨0x1E, 0, none, false, x.code.toNat⟩ }

/-- The sample of STAT (R465). -/
def statOf (s : State) (t : TRef) (th : Thread) (sel : Nat) : Nat :=
  match sel with
  | 0 => b2n th.tdepth
  | 1 => th.seq.toNat
  | 2 => match team? s t.team with | some tm => (liveEngs tm).length | none => 0
  | 3 => heldOf s t.team t.gid
  | 4 => poolFree s (coreOf s t.team)
  | _ => (getCore s (coreOf s t.team)).acks

def execStat (x : Stat) (s : State) : Result :=
  runLanes s (.stat x) fun s n => { writes := [(x.d, natVals (statOf s n.t n.th x.sel.toNat) false 1)] }

/-! RTE. -/

/-- The fields of a record that RTE uses (R458, R500). -/
structure TrapRec where
  nrep : Nat
  pc : W64
  resume : W64
  action : Nat
  res : Nat
  psn : Nat
  nregs : Nat
  pred : Nat
  lstate : Nat
  lval : Nat
  entries : List (Nat × W64 × W64 × W64)

def recField (r o n : Nat) : Nat := r / 2 ^ (8 * o) % 2 ^ (8 * n)

def parseRec (r : Nat) : TrapRec where
  nrep := recField r 0x02 1
  pc := BitVec.ofNat 64 (recField r 0x08 8)
  resume := BitVec.ofNat 64 (recField r 0x10 8)
  action := recField r 0x24 4
  res := recField r 0x28 16
  psn := recField r 0x38 4
  nregs := recField r 0x40 1
  pred := recField r 0x41 1
  lstate := recField r 0x44 4
  lval := recField r 0x48 12
  entries := (List.range 7).map fun i =>
    let o := 0x58 + 24 * i
    (recField r o 12, BitVec.ofNat 64 (recField r (o + 12) 4), BitVec.ofNat 64 (recField r (o + 16) 4),
      BitVec.ofNat 64 (recField r (o + 20) 4))

/-- A replay word of a group that R456 admits to a shadow when TEN is 0, whose registers exist and whose pigeonhole uses the group may
make (R117, R500). MVT and MOVX have no pure form. -/
def replayWord (s : State) (tm gid w : Nat) : Option (Instr × Alu) :=
  match decodeWord w with
  | .error _ => none
  | .ok i => match aluOf i with
    | none => none
    | some a =>
      let g := (a.info.srcs.map fun o => match o.op with | .src x => (x.spec, o.w) | .imm32 _ => (.zero, 32)) ++
        a.info.dsts.map fun d => (d.spec, d.w)
      if (g.any fun (sp, w) => (gOver (gregsOf s tm) (w / 32) sp).isSome) || phIllegal s tm gid a.info then none else some (i, a)

/-- The checks of R500. -/
def recordOk (s : State) (tm gid : Nat) (r : TrapRec) : Bool :=
  r.action < 3 && r.nrep ≤ 7 && 1 ≤ r.nregs && r.nregs ≤ 64 && r.pred < 128 && r.lstate < 512 &&
  r.lstate % 4 != 3 && r.lstate / 4 % 4 != 3 && r.lstate / 16 % 4 != 3 &&
  canonical r.pc.toNat && r.pc.toNat % 12 == 0 && canonical r.resume.toNat && r.resume.toNat % 12 == 0 &&
  (r.entries.take r.nrep).all fun e => (replayWord s tm gid e.1).isSome

/-- Latch `i` as LSTATE and LVAL give it. -/
def recLatch (r : TrapRec) (i : Nat) : Latch :=
  ⟨⟨BitVec.ofNat 32 (r.lval / 2 ^ (32 * i)), bit r.lstate (6 + i)⟩, r.lstate / 4 ^ i % 4⟩

/-- Predicates that an instruction writes. -/
def predDsts (i : Instr) : List Nat :=
  match i with
  | .barx x => [x.n.toNat]
  | .own x => [x.n.toNat]
  | .vread x => [x.n.toNat]
  | .vwrite x => [x.n.toNat]
  | .lpost x => [x.n.toNat]
  | .ltake x => if x.try_ then [x.n.toNat] else []
  | .ldone x => [x.n.toNat]
  | .rdep x => [x.n.toNat]
  | i => match aluOf i with
    | some a => a.pw.filter (· < 7)
    | none => []

/-- The class of an instruction's OPC. -/
def classOf (i : Instr) : Nat := (encode i).getD 0 / 2 ^ 92 % 16

/-- Substitute (R461): RES in every destination, full and unpoisoned. -/
def substitute (s : State) (t : TRef) (i : Instr) (res : Nat) : State :=
  match infoOf i with
  | none => s
  | some info =>
    let s := info.dsts.foldl (fun s d => writeDst s t true d.spec
      ((List.range (d.w / 32)).map fun j => ⟨BitVec.ofNat 32 (res / 2 ^ (32 * (j % 4))), false⟩)) s
    modThread s t fun th =>
      let th := (predDsts i).foldl (fun th n => setPred th n (bit res 0)) th
      match i with
      | .movs _ => { th with tstat := BitVec.ofNat 7 res }
      | _ => th

/-- One replay entry: executed with its captured operands, never trapping (R460, R500); PSN comes first, as a MOVS needs it (R266). -/
def replayEntry (s : State) (t : TRef) (e : Nat × W64 × W64 × W64) (psn : BitVec 3) : State :=
  match replayWord s t.team t.gid e.1, thread? s t with
  | some (_, a), some th =>
    if guardOf th a.info.ctl then
      let s := modThread s t fun th => { th with tstat := th.tstat ||| flagIf (psn != 0) fPSN }
      applyEff s t true (capturedEff s t th a e.2.1 e.2.2.1 e.2.2.2 psn)
    else s
  | _, _ => s

/-- Where the thread goes on after RTE: its new state, from the record and the word at PC (R461), with the hints of RTE (R241). -/
def applyAction (s : State) (t : TRef) (c : Ctl) (r : TrapRec) (fixed retry : Bool) (ins : Option Instr) : State :=
  let go := fun (s : State) (pc : W64) (after : Option W64) => modThread (advance s t c (some pc)) t fun th =>
    { th with after := after, tfix := false, tretry := false, fixing := false }
  if fixed then go s r.pc (if retry then some r.resume else none)
  else match ins with
    | none => if r.action == 1 then go s r.resume none else go s r.pc (some r.resume)
    | some i =>
      let cls := classOf i
      match i with
      | .trap _ => go s (r.pc + 12) none
      | .compact _ => go s r.pc none
      | _ =>
        if cls == 0xC || cls == 0xD then go s r.pc none
        else if cls == 3 then (if r.action == 0 then go s r.pc none else go s (r.pc + 12) none)
        else if r.action == 0 then go s r.pc (some r.resume)
        else go (if r.action == 2 then substitute s t i r.res else s) r.resume none

/-- The word at a PC as an instruction of a group (R117, R235). -/
def wordAt (s : State) (tm gid : Nat) (pc : W64) : Option Instr × State :=
  match fetchWord s (coreOf s tm) (ctxOf s tm) pc with
  | (.word w, s) => ((match (decodeWord w).toOption with
      | some i => (match infoOf i with
        | some info => if phIllegal s tm gid info then none else some i
        | none => none)
      | none => none), s)
  | (_, s) => (none, s)

/-- Has the thread a store or an atomic that is not yet performed? -/
def storesOut (s : State) (t : TRef) : Bool :=
  (getCore s (coreOf s t.team)).acc.any fun a => a.t == t && (match a.kind with
    | .store .. | .atomic _ => true
    | _ => false)

/-- RTE (R460): the record is read after the thread's earlier stores, checked, and then installed. -/
def execRte (x : Plain) (s : State) : Result :=
  runSeqR s (.rte x) fun reads s n =>
    let t := n.t
    let core := coreOf s t.team
    let va := trapRecVa s t
    -- an RTE that waits has begun (R468)
    let wait := fun (s : State) => ({ s := modThread s t fun th => { th with begun := some .rte }, busy := true } : SeqOut)
    if !n.th.tdepth then { s := s, exc := some (excBadReturn 0 va) }
    else if storesOut s t then wait s
    else match vaRead s core (ctxOf s t.team) va 256 with
      | (.error _, _) | (.ok (_, true), _) => { s := s, exc := some (excBadReturn 2 va) }
      | (.ok (v, false), s) =>
        let r := parseRec v
        if !recordOk s t.team t.gid r then { s := s, exc := some (excBadReturn 1 va) }
        else
          let (ins, s) := if n.th.tfix then (none, s) else wordAt s t.team t.gid r.pc
          match retShift (reads s) t 64 with
          | .wait => wait s
          | .index k => { s := s, exc := some (excIndex 3 k) }
          | .fault bva p s' => { s := cacheFrom s s' core, exc := some (excXlate p 3 bva) }
          | .ok s1 =>
            let s1 := modThread s1 t fun th => { th with
              nregs := r.nregs, preds := BitVec.ofNat 7 r.pred, tdepth := false
              lat0 := recLatch r 0, lat1 := recLatch r 1, lat2 := recLatch r 2 }
            let reps := (r.entries.take r.nrep).zipIdx
            let infos := reps.filterMap (fun (e, _) => (replayWord s t.team t.gid e.1).map (·.2.info)) ++
              (if r.action == 2 && !n.th.tfix then (match ins with
                | some i => (infoOf i).toList
                | none => []) else [])
            let th1 := (thread? s1 t).getD n.th
            if infos.any fun i => (i.dsts.findSome? (dstWait s1 t th1)).isSome then wait s
            else
              let k := entriesNeeded th1 ⟨x.ctl, [], infos.flatMap (·.dsts), .own⟩
              let (s1, room) := obtain s1 t.team t.gid k
              if !room then wait s
              else
                let s1 := reps.foldl (fun s (e, i) =>
                  replayEntry s t e (BitVec.ofNat 3 (r.psn / 2 ^ (3 * i)))) s1
                { s := applyAction s1 t x.ctl r n.th.tfix n.th.tretry ins, own := true }

end Sys2Proof.Machine
end

