-- ==== Sys2Proof/Machine/Pick.lean ====
section
/-! DEFINITION. The picker: settling what each thread of a subcore can do (R54, R58-R61, R241, R273, R381), the ready list and the
choice of a key (R55, R56), early issue of paused threads (R63), and what a selected word that is no instruction does (R235,
R469). -/

namespace Sys2Proof.Machine

/-- Group collectives: classes 0xC and 0xD (R58, R469). -/
def isCollective (i : Instr) : Bool := classOf i == 0xC || classOf i == 0xD

/-- The team's threads may issue: it is resident and not stopped, or in its handler. -/
def Team.runs (t : Team) : Bool :=
  match t.st with
  | .resident => !t.stopped
  | .saving _ _ | .restoring => t.stopped == false
  | _ => false

/-! One thread. -/

/-- What a thread can do in this cycle. -/
inductive Can where
  | nothing
  /-- at a group collective or COMPACT (R58, R381) -/
  | stand (compact : Bool)
  | block (b : Block)
  | go
  | paused
  deriving DecidableEq, Repr

/-- Does the shadow of the thread's incomplete instruction let this one issue (R456)? -/
def shadowLets (s : State) (t : TRef) (th : Thread) (i : Instr) : Bool :=
  match th.unres with
  | none => true
  | some u => match aluOf i with
    | some a => shadowOk aluOf th u a && (operandExc s t th a.info).isNone
    | none => false

/-- The cycle at which the LIMIT of a thread at a JOIN elapses (R273). -/
def joinLimit (th : Thread) (x : Join) : Nat :=
  match th.st with
  | .blocked (.join l) => l
  | _ => th.since + (if x.limit == 0 then 32 else x.limit.toNat)

/-- The JOIN hold (R273): none when the thread may issue it, or once its hold has ended. The threads of a quad that stand there go
together. -/
def joinHold (s : State) (t : TRef) (th : Thread) (x : Join) : Option Block :=
  let quad := (List.range 4).filterMap fun i => thread? s { t with lane := t.lane / 4 * 4 + i }
  let stands := fun (q : Thread) => q.pc == th.pc && (match q.st with
    | .eligible | .blocked (.join _) => true
    | _ => false)
  let together := quad.all fun q => q.exited || stands q
  let away := quad.any fun q => match q.st with
    | .waiting _ | .held | .paused _ | .halted => true
    | _ => false
  let elapsed := quad.any fun q => stands q && (q.joined || (q.ready ≤ s.now && joinLimit q x ≤ s.now))
  if together || away || elapsed then none else some (.join (joinLimit th x))

/-- Is the word at the thread's PC an instruction in its group (R117, R235)? -/
def legalAt (s : State) (t : TRef) (st : Stand) : Option (Instr × OpInfo) :=
  match st.ins, st.info with
  | some i, some info => if phIllegal s t.team t.gid info then none else some (i, info)
  | _, _ => none

/-- Does YLD keep the thread out of the ready list (R241)? -/
def Thread.yields (th : Thread) (now : Nat) : Bool := match th.yld with | some u => now < u | none => false

/-- Can a thread issue what stands at its PC? A paused thread whose instruction must wait for a register or for its unit is left out of
the early pick of its sub-quad and stays paused (DESIGN CHOICE: R63 does not say, assumption 32). -/
def canOf (s : State) (t : TRef) (th : Thread) (st : Stand) : Can :=
  let early : Bool := match th.st with | .paused lim => s.now < lim | _ => false
  match th.st with
  | .exited | .halted | .waiting _ | .handlerDone | .blocked .unit => .nothing
  | _ =>
    if s.now < th.ready || (match th.begun with | some (.trap ..) => true | _ => false) then .nothing
    else if th.bsFault.isSome then
      -- the fault comes before the next issue, and a trap only when no earlier instruction can trap (R451, R456)
      (if early || th.yields s.now then .nothing else if th.unres.isSome then .block .shadow else .go)
    else match legalAt s t st with
      | some (i, info) =>
        if early then
          (if isCollective i || isCompact i then .paused
           else if shadowLets s t th i && (blockOf s t th info).isNone then .paused else .nothing)
        -- a thread that yields arrives at a collective all the same: YLD keeps the entry out of the ready list (R59, R241)
        else if isCollective i then .stand false
        else if isCompact i then .stand true
        else if th.yields s.now then .nothing
        else if !shadowLets s t th i then .block .shadow
        else match blockOf s t th info with
          | some b => if popBarred s t b && th.unres.isNone then .go else .block b
          | none => match i with
            | .join x => (match joinHold s t th x with | some b => .block b | none => .go)
            | _ => .go
      | none => if th.yields s.now then .nothing else if th.unres.isSome then .block .shadow else if early then .paused else .go

/-! Settling a group. -/

/-- An entry of the ready list: slot 8 is a collective that covers all quads. -/
structure Entry where
  age : Nat
  grid : Nat
  role : Nat
  pc : W64
  slot : Nat
  lanes : List TRef
  deriving DecidableEq, Repr

/-- Record a thread's settled state. A JOIN hold that ends makes the thread eligible then (R54, R273). -/
def settleThread (s : State) (t : TRef) (th : Thread) (join : Bool) (c : Can) : State :=
  match c with
  | .nothing | .paused => s
  | .block b => if th.st == .blocked b then s
      else setThread s t { th with st := .blocked b, since := if b.parks then s.now else th.since }
  | .stand _ => match th.st with
    | .paused lim => setThread s t { th with st := .eligible, since := lim }
    | _ => s
  | .go => match th.st with
    | .paused lim => setThread s t { th with st := .eligible, since := lim }
    | .blocked (.join _) => setThread s t { th with st := .eligible, since := s.now, joined := true }
    | .blocked _ => setThread s t { th with st := .eligible, since := s.now, joined := join }
    | .held => setThread s t { th with st := .eligible }
    | _ => if join && !th.joined then setThread s t { th with joined := true } else s

/-- Add a thread to its sub-quad's entry. -/
def addLane (l : List Entry) (e : Entry) : List Entry :=
  match l with
  | [] => [e]
  | x :: rest =>
    if x.pc == e.pc && x.slot == e.slot then { x with age := min x.age e.age, lanes := x.lanes ++ e.lanes } :: rest
    else x :: addLane rest e

/-- Hold the threads that have reached a collective (R58); the timer runs unless a thread is in a trap handler (R59, R332). -/
def holdGroup (s : State) (tm gid : Nat) (here : List TRef) : State :=
  let s := here.foldl (fun s t => modThread s t fun th => if th.st == .held then th else { th with st := .held }) s
  let handler := (lanesOf tm gid).any fun t => match thread? s t with | some th => th.tdepth | none => false
  modGroup s tm gid fun g => { g with conv := if handler then none else if g.conv.isSome then g.conv else some s.now }

/-- A converged group: the entry when it can issue, else its threads are blocked at the instruction (R59). -/
def converged (s : State) (tm gid : Nat) (e : Entry) (info : OpInfo) : State × List Entry :=
  let s := modGroup s tm gid fun g => { g with conv := none }
  let stuck := e.lanes.any fun t => match thread? s t with
    | some th => th.unres.isSome || th.yields s.now || (blockOf s t th info).isSome
    | none => true
  if stuck then
    (e.lanes.foldl (fun s t => match thread? s t with
      | some th => setThread s t { th with st := .blocked ((blockOf s t th info).getD .busy) }
      | none => s) s, [])
  else (s, [e])

/-- The threads of a group that stand at collectives (R58-R60) or at COMPACT (R381). The age of a converged group's entry is the
earliest arrival of its threads (DESIGN CHOICE: R55 names none for it, assumption 74). -/
def settleStanding (s : State) (tm gid : Nat) (base : Entry) (here : List (TRef × Thread × Stand × Bool)) :
    State × List Entry :=
  match here with
  | [] => ((match group? s tm gid with
      | some g => if g.conv.isSome then modGroup s tm gid fun g => { g with conv := none } else s
      | none => s), [])
  | (_, th0, st0, comp) :: _ =>
    let lanes := here.map (·.1)
    let live := (lanesOf tm gid).filter fun t => match thread? s t with | some th => !th.exited | none => false
    let onePc := here.all fun x => x.2.1.pc == th0.pc
    let allC := here.all fun x => x.2.2.2
    let age := here.foldl (fun a x => min a x.2.1.since) th0.since
    let e : Entry := { base with age := age, pc := th0.pc, slot := 8, lanes := lanes }
    if !allC && live.length < 32 then
      (convHalt (lanes.foldl (fun s t => modThread s t fun th => { th with st := .held }) s) tm gid 1, [])
    else if onePc && live.length == lanes.length then
      (if comp then
        let s := modGroup s tm gid fun g => { g with conv := none }
        (lanes.foldl (fun s t => modThread s t fun th =>
          if th.st == .blocked .compact then th else { th with st := .blocked .compact, since := s.now }) s, [])
       else match st0.ins.bind (infoNow s tm gid) with
        | some info => converged s tm gid e info
        | none => (s, []))
    else (holdGroup s tm gid lanes, [])

/-- Settle one group: its threads' states, and the entries and paused entries it offers. -/
def settleGroup (s : State) (core tm gid : Nat) : State × List Entry × List Entry :=
  match team? s tm, group? s tm gid with
  | some t, some g =>
    -- a thread that repairs a mapping for its team's save, or has begun an RTE, runs although the team is stopped (R97, R468)
    let ths : List (TRef × Thread) := (lanesOf tm gid).filterMap fun u => (thread? s u).bind fun th =>
      if t.runs || th.fixing || th.begun == some .rte then some (u, th) else none
    if ths.isEmpty || g.halted || g.finished then (s, [], [])
    else
      let pcs : List W64 := (ths.map fun (_, th) => th.pc).eraseDups
      let tbl : List (W64 × Stand) := pcs.map fun pc => (pc, standAt s core t.ctx pc)
      let cans := ths.map fun (u, th) =>
        let st : Stand := match tbl.find? (fun (x : W64 × Stand) => x.1 == th.pc) with
          | some (_, y) => y
          | none => standAt s core t.ctx th.pc
        ((u, th, st, canOf s u th st) : TRef × Thread × Stand × Can)
      let s := cans.foldl (fun s (u, th, st, c) =>
        settleThread s u th (match st.ins with | some (.join _) => true | _ => false) c) s
      let base : Entry := ⟨0, t.grid, b2n (!isProducer s tm gid), 0, 0, []⟩
      let mk := fun (want : Can) => cans.foldl (fun l (u, th, _, c) =>
        if c == want then
          let since := match thread? s u with | some th => th.since | none => th.since
          addLane l { base with age := since, pc := th.pc, slot := u.lane / 4, lanes := [u] }
        else l) []
      let standing := cans.filterMap fun (u, th, st, c) => match c with
        | .stand comp => some (u, th, st, comp)
        | _ => none
      let (s, coll) := settleStanding s tm gid base standing
      (s, mk .go ++ coll, mk .paused)
  | _, _ => (s, [], [])

/-- COMPACT issues when every group of the role with a non-exited thread is complete at it (R381): the entry stands on the subcore
of the lowest such group. -/
def compactEntry (s : State) (core tm gid : Nat) : List Entry :=
  match team? s tm with
  | none => []
  | some t =>
    let role := isProducer s tm gid
    let groups := (List.range t.ngrp).filter fun g => isProducer s tm g == role
    let live : List (Nat × List (TRef × Thread)) := groups.map fun g => (g, (lanesOf tm g).filterMap fun u => match thread? s u with
      | some th => if th.exited then none else some (u, th)
      | none => none)
    let live := live.filter fun x => !x.2.isEmpty
    match live with
    | (g0, (u0, th0) :: _) :: _ =>
      let all := live.flatMap (·.2)
      if g0 == gid && all.all (fun x => x.2.st == .blocked .compact && x.2.pc == th0.pc) then
        (match (standAt s core t.ctx th0.pc).info with
         | some info =>
           if all.all fun (u, th) => th.unres.isNone && !th.yields s.now && (blockOf s u th info).isNone then
             [⟨all.foldl (fun a x => min a x.2.since) th0.since, t.grid, b2n (!role), th0.pc, 8, u0 :: (all.drop 1).map (·.1)⟩]
           else []
         | none => [])
      else []
    | _ => []

/-! The ready list and the choice: R55, R56. -/

def Entry.sameKey (a b : Entry) : Bool := a.grid == b.grid && a.role == b.role && a.pc == b.pc

/-- Is key `a` chosen before key `b`? Ages and member counts are those of the keys. -/
def keyBefore (l : List Entry) (a b : Entry) : Bool :=
  let age := fun (e : Entry) => (l.filter fun x => x.sameKey e).foldl (fun m x => min m x.age) e.age
  let cnt := fun (e : Entry) => (l.filter fun x => x.sameKey e).length
  if age a != age b then age a < age b
  else if cnt a != cnt b then cnt b < cnt a
  else if a.grid != b.grid then a.grid < b.grid
  else if a.role != b.role then a.role < b.role
  else a.pc.toNat < b.pc.toNat

def chooseKey (l : List Entry) : Option Entry :=
  match l with
  | [] => none
  | e :: rest => some (rest.foldl (fun m x => if keyBefore l x m then x else m) e)

/-- The oldest of some entries; of equally old ones the first in the order of groups and lanes (DESIGN CHOICE: R56 names none,
assumption 74). -/
def oldest (l : List Entry) : Option Entry :=
  match l with
  | [] => none
  | e :: rest => some (rest.foldl (fun m x => if x.age < m.age then x else m) e)

/-- The entries that one pick issues. -/
def selected (cand : List Entry) : List Entry :=
  match chooseKey cand with
  | none => []
  | some k =>
    let mine := cand.filter fun e => e.sameKey k
    match oldest (mine.filter fun e => e.slot == 8) with
    | some e => [e]
    | none => (List.range 8).filterMap fun i => oldest (mine.filter fun e => e.slot == i)

/-! Issue. -/

/-- After an issue, the subcore's threads of other groups are no longer kept out by YLD (R241). -/
def clearYld (s : State) (groups : List (Nat × Nat)) (issued : List (Nat × Nat)) : State :=
  groups.foldl (fun s (tm, gid) =>
    if issued.any fun g => g != (tm, gid) then
      (lanesOf tm gid).foldl (fun s t => match thread? s t with
        | some th => if th.yld.isSome then setThread s t { th with yld := none } else s
        | none => s) s
    else s) s

/-- The threads of a list that can still issue. -/
def stillThere (s : State) (pc : W64) (l : List TRef) : List TRef :=
  l.filter fun t => match thread? s t with | some th => th.canIssue && th.pc == pc | none => false

/-- Issue the chosen lanes: their backing-store faults, their fetch, their word (R235, R451, R469). -/
def issueLanes (s : State) (core sub : Nat) (pc : W64) (lanes : List TRef) : Result :=
  match lanes with
  | [] => .next s
  | t0 :: _ =>
    let bs := lanes.filterMap fun t => match thread? s t with
      | some th => th.bsFault.map fun f => (t, f)
      | none => none
    let s := bs.foldl (fun s (t, _) => modThread s t fun th => { th with bsFault := none, st := .eligible }) s
    let s := raiseAll s [] (bs.map fun (t, f) => (t, excXlate f.perm 3 f.va.toNat))
    let lanes := stillThere s pc (lanes.filter fun t => !(bs.any fun x => x.1 == t))
    match fetchWord s core (ctxOf s t0.team) pc with
    | (.reserved pa, _) => if lanes.isEmpty then .next s else .fault (.reservedPackage pa)
    | (.exc e, s) => .next (raiseAll s [] (lanes.map fun t => (t, e)))
    | (.word w, s) =>
      match decodeWord w with
      | .error _ => .next (raiseAll s [] (lanes.map fun t => (t, excIllegal w)))
      | .ok i => match infoOf i with
        | none => .next s
        | some info =>
          let bad := lanes.filter fun t => phIllegal s t.team t.gid info
          let s := raiseAll s [] (bad.map fun t => (t, excIllegal w))
          let lanes := stillThere s pc (lanes.filter fun t => !bad.contains t)
          if lanes.isEmpty then .next s
          else
            let s := lanes.foldl (fun s t => modThread s t fun th => match th.st with
              | .paused _ => { th with st := .eligible }
              | _ => th) s
            .next { s with cur := some ⟨core, sub, pc, BitVec.ofNat 96 w, i, lanes⟩ }

/-- What identifies an entry from one pick to the next. -/
def Entry.rkey (e : Entry) : RdyKey :=
  match e.lanes with
  | t :: _ => ⟨t.team, t.gid, e.slot, e.pc⟩
  | [] => ⟨0, 0, e.slot, e.pc⟩

/-- fill_ready_list (R55): what stands in the list stays; the others enter by age while there is room. -/
def fillReady (old : List RdyKey) (ents : List Entry) : List Entry :=
  let (kept, new) := ents.partition fun e => old.contains e.rkey
  let kept := kept.take 64
  kept ++ (sortBy (fun a b => a.age ≤ b.age) new).take (64 - kept.length)

/-- PICK (R56). -/
def execPick (core sub : Nat) (s : State) : Result :=
  let groups := (groupsOn s core).filter fun (tm, gid) => match group? s tm gid with
    | some g => g.subcore == sub
    | none => false
  let (s, ents, pents) := groups.foldl (fun (s, es, ps) (tm, gid) =>
    let (s, e, p) := settleGroup s core tm gid
    (s, es ++ e, ps ++ p)) (s, [], [])
  let ents := ents ++ groups.flatMap fun (tm, gid) => compactEntry s core tm gid
  let slot := 4 * core + sub
  let ready := fillReady (Tab.getD s.rdy slot []) ents
  let cand := if ready.isEmpty then pents else ready
  let sel := selected cand
  let left := (ready.filter fun e => !sel.contains e).map Entry.rkey
  let s := { s with rdy := if left.isEmpty then Tab.erase s.rdy slot else Tab.set s.rdy slot left }
  match sel with
  | [] => .next s
  | e :: _ =>
    let lanes := sel.flatMap (·.lanes)
    let s := clearYld s groups (groupsIn lanes)
    -- an early pick of a paused thread at a collective ends its pause only: the collective waits for its group (R58, R63)
    let gathers := ready.isEmpty && (match lanes with
      | t :: _ => (match legalAt s t (standAt s core (ctxOf s t.team) e.pc) with
        | some (i, _) => isCollective i || isCompact i
        | none => false)
      | [] => false)
    if gathers then
      .next (lanes.foldl (fun s t => modThread s t fun th => { th with st := .eligible, since := s.now }) s)
    else issueLanes s core sub e.pc lanes

end Sys2Proof.Machine
end

