-- ==== Sys2Proof/Machine/Place.lean ====
section
/-! DEFINITION. A program loaded from outside: one context with a page of code, one team of one group on core 0 (assumption 2).
It stands for what Place plan and the host's writes bring about before a program's first instruction. -/

namespace Sys2Proof.Machine

/-- Where the code stands: a VA that is a multiple of 12 in the fourth 64 KiB page. -/
def codeVa : Nat := 0x30000

/-- Write a number as `n` bytes of a memory. -/
def placeBytes (m : ByteMem) (a n x : Nat) : ByteMem := memStore m a n x

/-- Page tables that map the code page read, write and execute, in the memory of package `pkg`. -/
def placeTables (pkg : Nat) (m : ByteMem) : ByteMem :=
  let b := pkg * 2 ^ 40
  let m := placeBytes m 0x100000 8 (b + 0x140000 + 1)
  let m := placeBytes m 0x140000 8 (b + 0x180000 + 1)
  let m := placeBytes m 0x180000 8 (b + 0x1C0000 + 1)
  placeBytes m (0x1C0000 + 24) 8 (b + 0x200000 + 0xF)

/-- A fresh thread at a PC. -/
def Thread.fresh (pc : W64) (nregs now : Nat) : Thread :=
  { pc := pc, st := .eligible, regs := [], wbase := 0, bot := 0, nregs := nregs, preds := 0
    lat0 := Latch.void, lat1 := Latch.void, lat2 := Latch.void, tstat := 0, draws := 0, idem := false
    tdepth := false, tfix := false, tretry := false, seq := 0, since := now, ready := now, yld := none, held := [], unres := none
    after := none, bsFault := none, barxSent := none, kept := none, win := none, joined := false, begun := none, fixing := false }

def Group.fresh (sub : Nat) : Group :=
  { gregs := [], gseen := [], gwait := [], gown := [], ks := [], arr := 0, ph := [], conv := none, mr := none, halted := false, dumped := false
    finished := false, subcore := sub }

/-- A team that has just been admitted to run from its entry code (R128, R140, R453). -/
def Team.fresh (ctx grid team core ngrp age now : Nat) : Team :=
  { ctx := ctx, grid := grid, team := team, st := .resident, core := core, age := age, ngrp := ngrp
    spad := [], spsn := [], owner := 0, rkey := BitVec.ofNat 64 (grid * 2 ^ 32 + team), vtbase := 0
    tvec := 0, ten := 0, sysw := [], bars := [], arrivals := [], engs := [], stopped := false, claim := now, saveSeq := 0, ready := false }

def placedGrid : GridRec :=
  { pentry := 0, centry := BitVec.ofNat 64 codeVa, nteam := 1, ngrp := 1, nprod := 0, pfloor := 0, cfloor := 64
    gregs := 64, pages := 96, prio := 0, pinned := false, gang := false, fuse := false, ctimeout := 0, park := 0 }

/-- One instruction at the code VA; all 32 lanes of the group stand there when it is a collective, else lane 0 alone. -/
def placeWord (s : State) (w : Nat) : State :=
  let all := 12 ≤ w / 2 ^ 92 % 16
  let b := s.hpkg * 2 ^ 40
  let ctx : Ctx :=
    { plan := { cores := false, ptroot := b + 0x100000, savebase := 0, saveh := 0, resth := 0, constva := 0, constlen := 0
                grids := [placedGrid] }
      prio := 0, placed := s.now, vcores := [0], stop := none, coresSince := s.now }
  let live := Thread.fresh (BitVec.ofNat 64 codeVa) 64 s.now
  let gone := { live with st := .exited }
  { s with
    agenda := [.pick 0 0], todo := [], cur := none, rdy := []
    mem := placeBytes (placeTables s.hpkg s.mem) 0x200000 12 w
    ctxs := [(0, ctx)]
    teams := [(0, Team.fresh 0 0 0 0 1 s.ages s.now)]
    groups := [(0, Group.fresh 0)]
    threads := (List.range 32).map fun l => (l, if l == 0 || all then live else gone)
    cores := [(0, { Core.idle with ctx := some 0 })] }

end Sys2Proof.Machine
end

