-- ==== Sys2Proof/Machine/Access.lean ====
section
/-! DEFINITION. What an access meets: L1 lines with pending bytes (R169, R171, R208), scratchpads and their owner bits (R166, R167),
the resolution of an effective address (R161-R164), and device space (R186). -/

namespace Sys2Proof.Machine

/-! L1 lines. -/

/-- Which granules of a byte mask are complete. -/
def granWhole (m : BitVec 128) : BitVec 4 :=
  BitVec.ofNat 4 ((List.range 4).foldl (fun a i => if m.toNat / 2 ^ (32 * i) % 2 ^ 32 == 2 ^ 32 - 1 then a + 2 ^ i else a) 0)

/-- A byte mask as a bit mask. -/
def maskBits (m : BitVec 128) : BitVec 1024 :=
  BitVec.ofNat 1024 ((List.range 128).foldl (fun a i => if bit m.toNat i then a + 255 * 2 ^ (8 * i) else a) 0)

/-- A line of L2 merged under the valid bytes of an L1 line (R169). -/
def L1Line.merge (l : L1Line) (l2 : Line) (now : Nat) : L1Line :=
  if l.valid == BitVec.allOnes 128 then { l with use := now }
  else
    let b := maskBits l.valid
    let w := granWhole l.valid
    { l with
      valid := BitVec.allOnes 128
      line := ⟨(l.line.data &&& b) ||| (l2.data &&& ~~~b), (l.line.psn &&& w) ||| ((l.line.psn ||| l2.psn) &&& ~~~w), l2.cmp⟩
      use := now }

/-- A load of `n` bytes at offset `o` of a line as the core sees it: L1, then L2 (R169); poisoned zeros of a lost memory die, stores
that are still pending there included (R426, R486). None: the line must be fetched. -/
def coreLoad (s : State) (core ln o n : Nat) : Option (Nat × Bool × State) :=
  let sl := l1Slice s core ln
  let old := (l1Line? s sl ln).getD ⟨0, 0, Line.zero, 0⟩
  let m := byteMask o n
  if dieLost s (2 + lineMdie ln) then some (0, true, s)
  else if old.valid &&& m == m then some (old.line.get o n, old.line.poisoned o n, l1Put s sl ln { old with use := s.now })
  else match agLine? s (agentOf core) ln with
    | some a =>
      let l := old.merge a.line s.now
      let s := modAg s (agentOf core) ln fun a => { a with use := s.now }
      some (l.line.get o n, l.line.poisoned o n, l1Put s sl ln l)
    | none => none

/-- Pending bytes of a line in an L1, from the accesses that stand there. -/
def recomputePend (s : State) (slice ln : Nat) : State :=
  match l1Line? s slice ln with
  | none => s
  | some l =>
    let m := s.cores.foldl (fun m (c, k) =>
      if c / 8 == slice / 8 && l1Slice s c ln == slice then
        k.acc.foldl (fun m a => match a.kind, a.inL1, a.parts with
          | .store .., true, ⟨.mem pa _, n, _⟩ :: _ => if lineOf pa == ln then m ||| byteMask (pa % 128) n else m
          | _, _, _ => m) m
      else m) (0 : BitVec 128)
    { s with l1 := Tab.set s.l1 (l1Key slice ln) { l with pend := m } }

/-- The same after stores have been discarded: their bytes are no longer valid there. -/
def discardPend (s : State) (slice ln : Nat) : State :=
  match l1Line? s slice ln with
  | none => s
  | some l =>
    let s := recomputePend s slice ln
    { s with l1 := Tab.modify s.l1 (l1Key slice ln) fun x => { x with valid := x.valid &&& ~~~(l.pend &&& ~~~x.pend) } }

/-- A store enters its core's L1 with pending bytes (R169, R208). -/
def l1Store (s : State) (core pa n x : Nat) (psn : Bool) : State :=
  let ln := lineOf pa
  let sl := l1Slice s core ln
  l1Put s sl ln (((l1Line? s sl ln).getD ⟨0, 0, Line.zero, 0⟩).store (pa % 128) n x psn s.now)

/-! Scratchpads: R166, R167. -/

/-- The slice that a swizzle code XORs into bits [6:4] (R167). -/
def swizzle (code : BitVec 3) (o : Nat) : Nat :=
  let k := code.toNat
  if k == 0 then o else o ^^^ (o / 2 ^ (3 * k + 4) % 8 * 16)

def spadLoad (s : State) (tm o n : Nat) : Nat × Bool :=
  match team? s tm with
  | some t => (memLoad t.spad o n,
      (List.range ((o % 32 + n + 31) / 32)).any fun i => t.spsn.contains (o / 32 + i))
  | none => (0, false)

/-- Poison of the granules that a write touches (R416, R445). -/
def granPut (g : List Nat) (o n : Nat) (psn : Bool) : List Nat :=
  (List.range ((o % 32 + n + 31) / 32)).foldl (fun g i =>
    let k := o / 32 + i
    if psn then setInsert g k
    else if o ≤ 32 * k && 32 * k + 32 ≤ o + n then setErase g k else g) g

def spadStore (s : State) (tm o n x : Nat) (psn : Bool) : State :=
  modTeam s tm fun t => { t with spad := memStore t.spad o n x, spsn := granPut t.spsn o n psn }

/-- Is a page owned by E? -/
def pageE (s : State) (tm page : Nat) : Bool :=
  match team? s tm with
  | some t => bit t.owner.toNat page
  | none => false

def pagesOf (s : State) (tm : Nat) : Nat := match gridOf s tm with | some g => g.pages | none => 0

/-- The gang team of a team's gang that is on core-in-cluster `c` (R47, R162). -/
def gangTeam (s : State) (tm c : Nat) : Option Nat :=
  match team? s tm, gridOf s tm with
  | some t, some g =>
    if !g.gang then none
    else
      (s.teams.find? fun (_, u) => u.ctx == t.ctx && u.grid == t.grid && u.team / 8 == t.team / 8 && u.onCore &&
        u.core == t.core / 8 * 8 + c).map (·.1)
  | _, _ => none

/-! Resolution of an effective address: R161-R164, R166, R183, R186. -/

inductive Res where
  | ok (loc : Loc) (s : State)
  /-- the state keeps what the walk has cached (R184) -/
  | exc (e : Exc) (s : State)
  /-- a reserved package (R18) -/
  | stop (pa : Nat)

/-- What an access does. -/
inductive Use where
  | load | store | atomic
  deriving DecidableEq, Repr

def Use.sub : Use → Nat
  | .load => 0
  | _ => 1

/-- A translated access of `n` bytes in global or local space. -/
def resolveVa (s : State) (core ctx va n : Nat) (u : Use) : Res :=
  match xlate s core ctx va (if u == .load then .read else .write) with
  | (.trans, s) => .exc (excXlate false u.sub va) s
  | (.perm, s) => .exc (excXlate true u.sub va) s
  | (.ok pa cmp, s) =>
    if 192 ≤ paPkg pa then .stop pa
    else if paDev pa then
      -- device space takes loads of up to 64 bits only (R179, R186)
      (if u != .load || 8 < n then .exc (excAddr 0 va true) s
       else if paPkg pa == s.hpkg then .ok (.dev (pa % 2 ^ 39)) s else .ok (.remote pa) s)
    else if paPkg pa == s.hpkg then .ok (.mem pa cmp) s
    else .ok (.remote pa) s

/-- Resolve an access of `n` bytes at effective address `ea`: alignment, range, owner bits, translation. -/
def resolve (s : State) (t : TRef) (sp : Space) (swz : BitVec 3) (ea n : Nat) (u : Use) : Res :=
  let core := coreOf s t.team
  let ctx := ctxOf s t.team
  let va := sp == .global || sp == .local
  if ea % n != 0 then .exc (excAlign ea va) s
  else match sp with
    | .global => if canonical ea then resolveVa s core ctx ea n u else .exc (excAddr 0 ea true) s
    | .local => if ea < 0x800000 then resolveVa s core ctx ((localBase s t + ea) % 2 ^ 64) n u else .exc (excAddr 0 ea false) s
    | .spad =>
      if 4096 * pagesOf s t.team ≤ ea then .exc (excAddr 0 ea false) s
      else if pageE s t.team (ea / 4096) && !inHandler s t.team then .exc (excOwner ea) s
      else .ok (.spad t.team (swizzle swz ea)) s
    | .cst => if u != .load || 131072 ≤ ea then .exc (excAddr 0 ea false) s else .ok (.cst ea) s
    | .rspad =>
      let c := ea / 2 ^ 19 % 8
      let o := ea % 2 ^ 19
      if 2 ^ 22 ≤ ea then .exc (excAddr 0 ea false) s
      else match gangTeam s t.team c with
        | none => .exc (excAddr 0 ea false) s
        | some v =>
          if 4096 * pagesOf s v ≤ o then .exc (excAddr 0 ea false) s
          else if pageE s v (o / 4096) && !(v == t.team && inHandler s v) then .exc (excOwner ea) s
          else .ok (.spad v (swizzle swz o)) s

/-! Device space: R186. -/

/-- The registers of the queue control page and of the translation control page: offset, bytes, value (R79, R185). QCTL reads as 0. -/
def devRegs (s : State) : List (Nat × Nat × Nat) :=
  [(0x000, 8, s.qdtbase.toNat), (0x010, 4, s.qstat.toNat), (0x018, 4, s.qsize.toNat),
   (0x1000, 8, s.tiva.toNat), (0x1008, 4, s.tictl.toNat), (0x1010, 4, s.tistat.toNat)]

/-- A byte of device space with its poison: a register, the first line of a host window with POSTED and REFUSED (R83), a mail slot
of the reader's context (R78); anything else reads zero. A window of a disabled queue, and a slot that is unused or belongs to
another context, read zero too (DESIGN CHOICE: R78 and R83 name no value, assumption 71). -/
def devByte (s : State) (ctx off : Nat) : Nat × Bool :=
  match (devRegs s).find? fun (b, w, _) => b ≤ off && off < b + w with
  | some (b, _, v) => (v / 2 ^ (8 * (off - b)) % 256, false)
  | none =>
    if 0x01000000 ≤ off && off < 0x02000000 then
      let b := (off - 0x01000000) % 0x1000
      (match getQueue? s ((off - 0x01000000) / 0x1000) with
       | some x => if b < 16 then ((x.posted % 2 ^ 64 + 2 ^ 64 * (x.refused % 2 ^ 32)) / 2 ^ (8 * b) % 256, false) else (0, false)
       | none => (0, false))
    else if 0x10000000 ≤ off && off < 0x50000000 then
      let sl := (off - 0x10000000) % 0x40000 / 0x100
      (match (getQueue? s ((off - 0x10000000) / 0x40000)).bind fun x => if x.ctx == ctx then Tab.get? x.mail sl else none with
       | some m => if m.used then ((memGet m.bytes (off % 0x100)).toNat, m.psn.contains (off % 0x100 / 32)) else (0, false)
       | none => (0, false))
    else (0, false)

/-- A load of `n` bytes of device space. -/
def devRead (s : State) (ctx off : Nat) : Nat → Nat × Bool
  | 0 => (0, false)
  | n + 1 =>
    let (b, p) := devByte s ctx off
    let (v, q) := devRead s ctx (off + 1) n
    (b + 256 * v, p || q)

/-! Words wherever they stand. -/

/-- `n` bytes, within an aligned word of 64 bits, at a physical address as a load of context `ctx` by the core or the hub finds them:
what another package holds is a free value (R27, R45, R65, R324; assumption 6). -/
def wordAtPa (s : State) (ctx pa n : Nat) : Nat × Bool :=
  if isOwnMem s pa then cohRead s pa n
  else if paPkg pa == s.hpkg then devRead s ctx (pa % 2 ^ 39) n
  else let w := (Config.remoteWord s.now (pa / 8 * 8)).toNat; (w / 2 ^ (8 * (pa % 8)) % 2 ^ (8 * n), bit w 64)

end Sys2Proof.Machine
end

