-- ==== Sys2Proof/Machine/Memory.lean ====
section
/-! DEFINITION. Loads, stores, prefetches, flushes and atomics of a thread (R299-R305) and their progress at the core: fills
(R107), stores in L1 and at L2 (R169, R208), atomics at the L2, the scratchpad and the home (R177-R179), and requests to other
packages (R227, R228, R495). The orders kept are those of R207, R209, R216-R219 and R224 (assumptions 9 and 10). -/

namespace Sys2Proof

def Ord.acquires : Ord → Bool
  | .acq | .acqrel => true
  | _ => false

def Ord.releases : Ord → Bool
  | .rel | .acqrel => true
  | _ => false

end Sys2Proof

namespace Sys2Proof.Machine

/-! Accesses in flight. -/

/-- Must two accesses of one thread keep their order whatever their kinds (R207, R224, R225, R227)? -/
def Part.meets (a b : Part) : Bool :=
  match a.loc, b.loc with
  | .mem p _, .mem q _ => p < q + b.bytes && q < p + a.bytes
  | .spad t _, .spad u _ => t == u
  | .remote p, .remote q => p / 256 == q / 256
  | .dev _, .dev _ => true
  | _, _ => false

def dropAcc (s : State) (core k : Nat) : State :=
  modCore s core fun c => { c with acc := c.acc.filter fun a => a.id != k }

/-- The thread's accesses that stand before access `k` of its core. A prefetch orders nothing (R302). -/
def accsBefore (s : State) (core : Nat) (t : TRef) (k : Nat) : List Acc :=
  ((getCore s core).acc.takeWhile fun a => a.id != k).filter fun a => a.t == t && a.kind != .pref

/-- The cores that share L1s with a core: its fused cluster, or itself (R171). -/
def coreGroup (s : State) (core : Nat) : List Nat :=
  match Tab.get? s.clusters (core / 8) with
  | some c => if c.fused then (List.range 8).map fun i => core / 8 * 8 + i else [core]
  | none => [core]

/-- Stores that stand in L1 as pending bytes, in the order in which they entered it (R208). -/
def pendingStores (s : State) (core : Nat) : List Acc :=
  sortBy (fun a b => a.l1seq ≤ b.l1seq) ((coreGroup s core).flatMap fun c => (getCore s c).acc.filter fun a => a.isStore && a.inL1)

def Acc.meets (a b : Acc) : Bool := a.parts.any fun p => b.parts.any fun q => p.meets q

/-- Does an earlier access of the thread hold a later one back? -/
def holdsBack (b a : Acc) : Bool :=
  match b.kind with
  | .load .. | .frag _ | .atomic _ => !(a.bulk || b.bulk) || b.ord.acquires || b.meets a
  | .store .. => !b.inL1 && (b.meets a || (a.isStore && !(a.bulk || b.bulk)))
  | .flush | .pref | .poll => false

/-- The unit that performs an access first: L1 or L2, the constant store, the path to other packages, device space, a scratchpad. -/
def Loc.unit : Loc → Nat
  | .mem .. => 0
  | .cst _ => 1
  | .remote _ => 2
  | .dev _ => 3
  | .spad tm _ => 4 + tm

/-- Are two accesses of different lanes of one issue bound for one unit (R297)? -/
def Acc.laneMate (a b : Acc) : Bool := a.t.gkey == b.t.gkey && a.t != b.t && a.cyc == b.cyc && a.part.loc.unit == b.part.loc.unit

/-- Nothing of its own thread holds an access back. -/
def ownReady (s : State) (core : Nat) (a : Acc) : Bool := (accsBefore s core a.t a.id).all fun b => !holdsBack b a

/-- Have the lower lanes of an access's issue reached the unit that it goes to (R297)? -/
def laneTurn (s : State) (core : Nat) (a : Acc) : Bool :=
  ((getCore s core).acc.takeWhile fun b => b.id != a.id).all fun b => !a.laneMate b || (match b.kind with
    | .load .. | .frag _ => ownReady s core b
    | .store .. | .atomic _ | .flush => b.inL1 || b.reply.isSome
    | .pref | .poll => true)

/-- May a load be performed (R207, R209, R216, R219, R297)? -/
def loadReady (s : State) (core : Nat) (a : Acc) : Bool := ownReady s core a && laneTurn s core a

/-- Must a pending store `b` be applied before `a`: its bytes meet, neither is bulk, they are of one issue, or `b` has been read, or
passed by a fence or a release, before `a` entered the L1 (R207-R209, R218, R221, R297)? -/
def Acc.leads (b a : Acc) : Bool :=
  b.meets a || !(a.bulk || b.bulk) || a.laneMate b || (match b.mark with | some m => !a.inL1 || m ≤ a.l1seq | none => false)

/-- Has an access in flight been performed at a scope already (R206, R221)? A store in L1 is performed at team scope, and at cluster
scope in a fused cluster. -/
def performedAt (s : State) (core : Nat) (a : Acc) (sc : Scope) : Bool :=
  match a.kind, sc with
  | .store .., .thread | .store .., .group | .store .., .team => a.inL1
  | .store .., .cluster => a.inL1 && (coreGroup s core).length == 8
  | .pref, _ | .poll, _ => true
  | _, _ => false

def isWide (sc : Scope) : Bool := sc == .package || sc == .system

/-- The scope that an access acts at: scopes 4 and 5 act as 3 on spaces 1 and 3, scope 5 acts as 4 on space 4 (R217). -/
def scopeOn (sp : Space) (sc : Scope) : Scope :=
  match sp with
  | .spad | .rspad => if isWide sc then .cluster else sc
  | .local => if sc == .system then .package else sc
  | _ => sc

/-- May a plain atomic be performed: the accesses that it follows in causal order are (R209, R216, R222)? -/
def atomicReady (s : State) (core : Nat) (a : Acc) : Bool :=
  loadReady s core a && (pendingStores s core).all fun b => b.id == a.id || !b.leads a

/-- Are the earlier accesses of a thread performed at a scope, and with them the writes that precede them in causal order (R218)? -/
def performedBefore (s : State) (core : Nat) (l : List Acc) (sc : Scope) : Bool :=
  (l.all fun b => performedAt s core b sc) &&
  (!(isWide sc || (sc == .cluster && (coreGroup s core).length != 8)) || (pendingStores s core).isEmpty) &&
  (sc != .system || (getCore s core).acks == 0)

/-- May a release or an atomic be performed (R218, R228)? -/
def releaseReady (s : State) (core : Nat) (a : Acc) : Bool :=
  atomicReady s core a && (!a.ord.releases || performedBefore s core (accsBefore s core a.t a.id) a.scope)

/-- Pending stores of a core that later stores keep behind. -/
def markStores (s : State) (core : Nat) (p : Acc → Bool) : State :=
  modCore s core fun c => { c with acc := c.acc.map fun a =>
    if a.isStore && a.inL1 && a.mark.isNone && p a then { a with mark := some s.ids } else a }

/-- A fence with bulk or a release of a thread passes its stores that stand in L1: what comes later keeps behind them (R218, R221). -/
def passStores (s : State) (core : Nat) (t : TRef) : State := markStores s core fun a => a.t == t

/-- A load has read bytes of a line in its L1: the pending stores that it has read precede what follows the load (R209, R210). -/
def readStores (s : State) (core : Nat) (p : Part) : State :=
  if (pendingStores s core).any fun b => b.mark.isNone && b.part.meets p then
    (coreGroup s core).foldl (fun s c => markStores s c fun b => b.part.meets p) s
  else s

def teamGang (s : State) (tm : Nat) : Bool := match gridOf s tm with | some g => g.gang | none => false

/-- May a store be applied in L1 or at the scratchpad, or leave for its package? The cores of a gang's cluster see its scratchpads. -/
def storeReady (s : State) (core : Nat) (a : Acc) : Bool :=
  if a.ord.releases then releaseReady s core a
  else match a.part.loc with
    | .spad tm _ => if teamGang s tm then atomicReady s core a else loadReady s core a
    | _ => loadReady s core a

/-! Fills: R107, R108, R449. -/

/-- Fill one claimed register; a register released since keeps nothing (R108). -/
def fillDst (s : State) (t : TRef) (d : Dst) (x : Val) : State :=
  if d.isG then modGroup s t.team t.gid fun g => { g with gregs := Tab.modify g.gregs d.idx fun r => r.fill d.tag x }
  else modThread s t fun th => { th with regs := Tab.modify th.regs d.idx fun r => r.fill d.tag x }

/-- Fill the destinations of an access from a value; a group that has halted may now write its blocks (R466). -/
def fillAcc (s : State) (a : Acc) (x : Nat) (psn : Bool) : State :=
  let s := a.dsts.foldl (fun s d => fillDst s a.t d ⟨BitVec.ofNat 32 (x / 2 ^ (8 * d.at_)), psn⟩) s
  haltSettle s a.t.team a.t.gid

/-- A loaded value as its registers hold it (R245). -/
def extend (sx : Bool) (bits v : Nat) : Nat := if sx then wrap 64 (signed bits v) else v % 2 ^ bits

/-! Requests to other packages: R28, R227, R494, R495. -/

def portUp (s : State) (p : Nat) : Bool := match Tab.get? s.ports p with | some x => x.up | none => true
def activePorts (s : State) : List Nat := (List.range 18).filter fun p => portUp s p

/-- The port of the plane that carries a 256-byte block (R28; assumption 20). -/
def portOf (s : State) (pa : Nat) : Option Nat :=
  let l := activePorts s
  if l.isEmpty then none else l[pa / 256 % l.length]?

end Sys2Proof.Machine

namespace Sys2Proof

def RemoteOp.pa : RemoteOp → Nat
  | .load p _ | .store p _ _ _ | .atomic p _ _ _ _ _ _ _ _ => p

end Sys2Proof

namespace Sys2Proof.Machine

def modEng (s : State) (tm e : Nat) (f : Eng → Eng) : State :=
  modTeam s tm fun t => { t with engs := t.engs.map fun x => if x.id == e then f x else x }

/-- A value for an engine's unit in progress. -/
def engReply (s : State) (g : Nat × Nat × Nat) (v : Nat) (psn : Bool) : State :=
  modEng s g.1 g.2.1 fun e => { e with replies := e.replies ++ [(g.2.2, v, psn)] }

/-- A request is lost (R495): loads and atomics fill as poisoned zeros; the count of R227 falls for a write or an atomic that
was sent. -/
def loseRemote (s : State) (core k ctx : Nat) (op : RemoteOp) (port : Option Nat) (eng : Option (Nat × Nat × Nat)) : State :=
  let s := logEvent s (match port with | some p => unitPort p | none => unitH) 3 1 op.pa 1 ctx 1
  match eng with
  | some g => (match op with | .load .. => engReply s g 0 true | _ => s)
  | none =>
  let s := modAcc s core k fun a => { a with reply := some (0, true) }
  match op, port with
  | .load .., _ | _, none => s
  | _, some _ => modCore s core fun c => { c with acks := c.acks - 1 }

/-- Does a request carry poison out of the package (R418)? -/
def exportsPoison : RemoteOp → Bool
  | .load .. => false
  | .store _ _ _ p | .atomic _ _ _ _ _ _ _ _ p => p

/-- Send a request, or lose it where no plane reaches its package; that package is then fenced (R495). Poisoned data that leaves is an
export (R418). -/
def sendRemoteFor (s : State) (core k ctx : Nat) (op : RemoteOp) (eng : Option (Nat × Nat × Nat)) : State :=
  let pkg := paPkg op.pa
  match portOf s op.pa with
  | none => loseRemote { s with fenced := setInsert s.fenced pkg } core k ctx op none eng
  | some p =>
    if s.fenced.contains pkg then loseRemote s core k ctx op none eng
    else
      let s := if exportsPoison op then logEvent s unitH 4 1 op.pa 1 ctx 1 else s
      let s := (match op, eng with
        | .load .., _ | _, some _ => s
        | _, _ => modCore s core fun c => { c with acks := c.acks + 1 })
      { s with rreqs := s.rreqs ++ [⟨s.rtag, core, k, ctx, op.pa, op, some p, hubCycle s.now, eng⟩], rtag := (s.rtag + 1) % 2 ^ 32 }

def sendRemote (s : State) (core k ctx : Nat) (op : RemoteOp) : State := sendRemoteFor s core k ctx op none

/-! Stores: R169, R208, R224, R227. -/

/-- A thread's remote accesses to one block leave in program order: none may overtake a write on its way. -/
def remoteOp (a : Acc) : Option RemoteOp :=
  match a.part.loc, a.kind with
  | .remote pa, .load .. | .remote pa, .frag _ | .remote pa, .poll => some (.load pa a.part.bytes)
  | .remote pa, .store d psn => some (.store pa a.part.bytes (BitVec.ofNat 256 d) psn)
  | .remote pa, .atomic o => some (.atomic pa a.part.bytes o.aop o.kind o.rnd o.b o.cmp o.rsw o.psn)
  | _, _ => none

/-- Has the core a write or atomic to the block on its way? -/
def blockOut (s : State) (core pa : Nat) : Bool :=
  s.rreqs.any fun r => r.core == core && r.pa / 256 == pa / 256 && (match r.op with | .load .. => false | _ => true)

/-- Move on one access that no event of another unit carries: a store enters L1 or the scratchpad, a remote access is sent. -/
def drainOne (s : State) (core k : Nat) : State :=
  match findAcc s core k with
  | none => s
  | some a =>
    if a.inL1 || a.reply.isSome then s
    else match a.kind, a.part.loc with
      | .store d psn, .mem pa _ =>
        if !a.ord.releases && storeReady s core a && l1Room s (l1Slice s core (lineOf pa)) (lineOf pa) != .none then
          let s := l1Store s core pa a.part.bytes d psn
          { modAcc s core k fun a => { a with inL1 := true, l1seq := s.ids } with ids := s.ids + 1 }
        else s
      | .store d psn, .spad tm o =>
        if storeReady s core a then
          dropAcc (spadStore (if a.ord.releases then passStores s core a.t else s) tm o a.part.bytes d psn) core k
        else s
      | .store _ _, .remote _ =>
        if storeReady s core a then
          (match remoteOp a with
           | some op => dropAcc (sendRemote s core k (a.t.team / 2 ^ 28) op) core k
           | none => s)
        else s
      | .load _ _, .remote pa | .frag _, .remote pa | .poll, .remote pa =>
        if loadReady s core a && !blockOut s core pa then
          (match remoteOp a with
           | some op => modAcc (sendRemote s core k (a.t.team / 2 ^ 28) op) core k fun a => { a with inL1 := true }
           | none => s)
        else s
      | .atomic _, .remote _ =>
        if releaseReady s core a then
          (match remoteOp a with
           | some op => modAcc (sendRemote s core k (a.t.team / 2 ^ 28) op) core k fun a => { a with inL1 := true }
           | none => s)
        else s
      | _, _ => s

/-- Move on what can move on in a core and in the cores that share its L1. -/
def drain (s : State) (core : Nat) : State :=
  (coreGroup s core).foldl (fun s c => ((getCore s c).acc.map (·.id)).foldl (fun s k => drainOne s c k) s) s

/-- Is a store next to be applied by its L2: in the order in which they entered L1, behind those that lead it (R207-R209, R216)? -/
def applyNext (s : State) (core : Nat) (a : Acc) : Bool :=
  (pendingStores s core).all fun b => a.l1seq ≤ b.l1seq || !b.leads a

/-- A FLUSH: first the line leaves the agent, then the notice is applied at its home (R303). -/
def flushStep (s : State) (core : Nat) (a : Acc) : State :=
  match a.part.loc with
  | .mem pa _ =>
    let ln := lineOf pa
    if !a.inL1 then
      if laneTurn s core a && (accsBefore s core a.t a.id).all (fun b => match b.kind with | .flush => true | _ => false) &&
         (pendingStores s core).all fun b => (match b.part.loc with | .mem q _ => lineOf q != ln | _ => true) then
        (match agLine? s (agentOf core) ln with
         | some l => if mayEvict s (agentOf core) l then modAcc (evictLine s (agentOf core) ln) core a.id fun a => { a with inL1 := true } else s
         | none => modAcc s core a.id fun a => { a with inL1 := true })
      else s
    else if (s.homeQ.any fun r => r.line == ln && r.agent == agentOf core && !isLineReq r.kind) ||
        s.pwrites.any fun w => w.line == ln && w.agent == agentOf core then s
    else dropAcc s core a.id
  | _ => dropAcc s core a.id

/-- STORE_APPLY_L2 (R208): access `k` of a core, a store or a FLUSH. -/
def execStoreApplyL2 (core k : Nat) (s : State) : Result :=
  match findAcc s core k with
  | none => .next s
  | some a => match a.kind, a.part.loc with
    | .store d psn, .mem pa cmp =>
      let ln := lineOf pa
      let ready := if a.inL1 then applyNext s core a else a.ord.releases && releaseReady s core a
      if !ready then .next s
      else if dieLost s (2 + lineMdie ln) then
        let s := logEvent s unitH 3 1 pa 1 (a.t.team / 2 ^ 28) 1
        .next (drain (recomputePend (dropAcc s core k) (l1Slice s core ln) ln) core)
      else if canWrite s (agentOf core) ln then
        -- a release enters its L1 as it is performed (R169, R218)
        let s := if a.inL1 then s else l1Store s core pa a.part.bytes d psn
        let s := agStore s (agentOf core) pa a.part.bytes d psn cmp a.bulk (some (l1Slice s core ln))
        let s := if a.ord.releases then passStores s core a.t else s
        .next (drain (recomputePend (dropAcc s core k) (l1Slice s core ln) ln) core)
      else .next (askWrite s (agentOf core) ln)
    | .flush, _ => .next (drain (flushStep s core a) core)
    | .store .., .remote _ | .store .., .spad .. => .next (drain s core)
    | _, _ => .next s

/-! Atomics: R304, R305. -/

/-- The atomic has been performed at its unit: ATOM fills D with the old value. -/
def atomDone (s : State) (core : Nat) (a : Acc) (old : Nat) (psn : Bool) : State :=
  drain (fillAcc (dropAcc s core a.id) a old psn) core

/-- An atomic at the front of its thread (R177, R179). -/
def atomStep (s : State) (core : Nat) (a : Acc) (o : AtomOp) : State :=
  match a.part.loc with
  | .spad tm off =>
    let (old, p) := spadLoad s tm off o.bytes
    let s := match o.new old with
      | some x => spadStore s tm off o.bytes x (o.psn || p)
      | none => s
    atomDone s core a old (p || o.psn)
  | .mem pa cmp =>
    let ln := lineOf pa
    let ag := agentOf core
    if dieLost s (2 + lineMdie ln) then atomDone (logEvent s unitH 3 1 pa 1 (a.t.team / 2 ^ 28) 1) core a 0 true
    else if canWrite s ag ln && o.place != .home then
      match agLine? s ag ln with
      | none => s
      | some l =>
        let old := l.line.get (pa % 128) o.bytes
        let p := l.line.poisoned (pa % 128) o.bytes
        let s := match o.new old with
          | some x => agStore s ag pa o.bytes x (o.psn || p) cmp false none
          | none => s
        atomDone s core a old (p || o.psn)
    else if o.place == .near then
      -- it reaches the home as a request for the line (R178)
      (if reqOut s ag ln then s else askWrite (predict s (lineMdie ln) pa ag).2 ag ln)
    else if !mayNumber s ag then s
    else
      let (p, s) := numberWrite s ag
      let s := modAcc s core a.id fun a => { a with inL1 := true }
      { s with homeQ := s.homeQ ++ [⟨ln, ag, .atomic core a.id, p⟩] }
  | _ => drainOne s core a.id

/-! Fills of loads and atomics. -/

/-- The value of a load that may be performed, where its data is there. -/
def loadValue (s : State) (core : Nat) (a : Acc) : Option (Nat × Bool × State) :=
  let n := a.part.bytes
  match a.part.loc with
  | .mem pa _ => (coreLoad s core (lineOf pa) (pa % 128) n).map fun (v, p, s) => (v, p, readStores s core a.part)
  | .spad tm o => let (v, p) := spadLoad s tm o n; some (v, p, s)
  | .cst o => let (v, p) := cstRead s core o n; some (v, p, s)
  | .remote _ => a.reply.map fun (v, p) => (v, p, s)
  | .dev off => let (v, p) := devRead s (a.t.team / 2 ^ 28) off n; some (v, p, s)

/-- `n` bytes laid over a run of registers at byte `o`; poison spreads to the registers touched. -/
def layOver (got : List Val) (o n x : Nat) (psn : Bool) : List Val :=
  got.zipIdx.map fun (g, i) =>
    if 4 * i < o + n && o < 4 * i + 4 then
      let w := 8 * (min n 4)
      let sh := 8 * (o - 4 * i)
      let v := if o ≤ 4 * i then x / 2 ^ (8 * (4 * i - o)) else x
      let keep := g.v.toNat % 2 ^ sh + g.v.toNat / 2 ^ (sh + w) * 2 ^ (sh + w)
      ⟨BitVec.ofNat 32 (keep + v % 2 ^ w * 2 ^ sh), g.psn || psn⟩
    else g

/-- An element of an LDM has arrived; the last one fills the lane's registers (R349). -/
def fragStep (s : State) (core : Nat) (a : Acc) (got : List Val) (v : Nat) (p : Bool) : State :=
  let got := layOver got a.part.at_ a.part.bytes v p
  if a.parts.length ≤ 1 then
    let s := dropAcc s core a.id
    let s := a.dsts.foldl (fun s d => fillDst s a.t d (got.getD (d.at_ / 4) ⟨0, false⟩)) s
    drain (haltSettle s a.t.team a.t.gid) core
  else drain (modAcc s core a.id fun a => { a with kind := .frag got, parts := a.parts.drop 1, reply := none, inL1 := false }) core

/-- LOAD_FILL (R16, R107): access `k` of a core, a load, an atomic or a prefetch. -/
def execLoadFill (core k : Nat) (s : State) : Result :=
  match findAcc s core k with
  | none => .next s
  | some a =>
    if s.now < a.due then .next s
    else match a.kind with
    | .load sx bits =>
      if !loadReady s core a then .next s
      else match loadValue s core a with
        | some (v, p, s) => .next (drain (fillAcc (dropAcc s core k) a (extend sx bits v) p) core)
        | none => (match a.part.loc with
          | .mem pa _ => .next (postReq s (agentOf core) (lineOf pa) .rds)
          | _ => .next (drainOne s core k))
    | .frag got =>
      if !loadReady s core a then .next s
      else match loadValue s core a with
        | some (v, p, s) => .next (fragStep s core a got v p)
        | none => (match a.part.loc with
          | .mem pa _ => .next (postReq s (agentOf core) (lineOf pa) .rds)
          | _ => .next (drainOne s core k))
    | .atomic o => (match a.reply with
      | some (v, p) => .next (atomDone s core a v p)
      | none => if a.inL1 || !releaseReady s core a then .next s
        else .next (atomStep (if a.ord.releases then passStores s core a.t else s) core a o))
    | .pref => (match a.part.loc with
      | .mem pa _ =>
        if dieLost s (2 + lineMdie (lineOf pa)) then .next (dropAcc s core k)
        else if (agLine? s (agentOf core) (lineOf pa)).isSome then
          (match coreLoad s core (lineOf pa) 0 128 with
           | some (_, _, s) => .next (dropAcc s core k)
           | none => .next (dropAcc s core k))
        else .next (postReq s (agentOf core) (lineOf pa) .rds)
      | _ => .next (dropAcc s core k))
    | .store .. | .flush | .poll => .next s

/-! Issue. -/

/-- Requests that a core can have in flight (R302). -/
def coreRequests : Nat := 1024

/-- Requests of a core in flight: each piece of an access is one, a store sent to another package until it is acknowledged (R12, R227,
R302). -/
def requests (s : State) (core : Nat) : Nat :=
  ((getCore s core).acc.map fun a => a.parts.length).sum +
  s.rreqs.countP fun r => r.core == core && r.eng.isNone && (match r.op with | .store .. => true | _ => false)

def memAddr (n : LaneIn) (off : BitVec 19) : Nat := (n.arg 0 + wrap 64 off.toInt) % 2 ^ 64

/-- The pieces of an access of `bytes` at a location: at most 8 bytes each (R222). -/
def pieces (l : Loc) (bytes : Nat) : List Part :=
  let shift : Loc → Loc := fun l => match l with
    | .mem p c => .mem (p + 8) c
    | .spad t o => .spad t (o + 8)
    | .cst o => .cst (o + 8)
    | .remote p => .remote (p + 8)
    | .dev o => .dev (o + 8)
  if bytes == 16 then [⟨l, 8, 0⟩, ⟨shift l, 8, 8⟩] else [⟨l, bytes, 0⟩]

/-- The unloaded load-to-use latency of R16 at this moment; a constant-store word counts as a scratchpad word (assumption 14). -/
def unloaded (s : State) (core : Nat) (p : Part) : Nat :=
  match p.loc with
  | .spad .. | .cst _ => 24
  | .mem pa _ =>
    let ln := lineOf pa
    let sl := l1Slice s core ln
    let m := byteMask (pa % 128) p.bytes
    let far := if lineMdie ln / 4 == agentOf core then 0 else 100
    if (match l1Line? s sl ln with | some l => l.valid &&& m == m | none => false) then (if sl == core then 30 else 50)
    else if (agLine? s (agentOf core) ln).isSome then 200
    else if (Tab.get? s.llc ln).isSome || (match Tab.get? s.dir ln with | some d => d.mask != 0 | none => false) then 350 + far
    else 700 + far
  | _ => 0

/-- The latency of an access: loads and atomics return a value, the others nothing (R16). -/
def Acc.wait (s : State) (core : Nat) (a : Acc) : Nat :=
  match a.kind with
  | .load .. | .frag _ | .atomic _ => a.parts.foldl (fun m p => max m (unloaded s core p)) 0
  | _ => 0

/-- Put an access in flight and move it on if nothing is in its way; the cycles that it brings with it as `due` are added to its
latency (R196). -/
def issueAcc (s : State) (core : Nat) (a : Acc) : State :=
  let a := { a with id := s.ids, cyc := s.now, due := s.now + a.wait s core + a.due }
  drainOne { modCore s core fun c => { c with acc := c.acc ++ [a] } with ids := s.ids + 1 } core a.id

/-- A plain access without destinations. -/
def plainAcc (t : TRef) (k : AccKind) (p : Part) : Acc :=
  { id := 0, t := t, kind := k, parts := [p], dsts := [], bulk := false, ord := .plain, scope := .thread, inL1 := false, l1seq := 0, due := 0
    reply := none, mark := none }

/-- Claim a destination empty (R107): for each register its claim, none where a lower lane of this issue has claimed the g
register; `first` is the claim counter at issue. -/
def claimDst (s : State) (t : TRef) (first : Nat) (d : Spec) (regs : Nat) : List Dst × State :=
  match d with
  | .v k =>
    let s' := (List.range regs).foldl (fun s i => modThread s t fun th =>
      let d := th.wbase + k.toNat + i
      { th with regs := Tab.set th.regs d (Reg.claim (getReg th d) (s.claims + i)) }) s
    let w := match thread? s t with | some th => th.wbase | none => 0
    ((List.range regs).map fun i => ⟨false, w + k.toNat + i, s.claims + i, 4 * i⟩, { s' with claims := s.claims + regs })
  | .g k =>
    let taken : Bool := (match gReg s t k.toNat with
      | some (.empty q) => q.any fun p => (match p.tag with | some tag => first ≤ tag | none => false)
      | _ => false)
    if taken then ([], s)
    else
      let s' := (List.range regs).foldl (fun s' i => modGroup s' t.team t.gid fun g =>
        setG g (k.toNat + i) (Reg.claim (Tab.get? g.gregs (k.toNat + i)) (s.claims + i))) s
      ((List.range regs).map fun i => ⟨true, k.toNat + i, s.claims + i, 4 * i⟩, { s' with claims := s.claims + regs })
  | _ => ([], s)

/-- The destinations that a piece at byte `at_` of `n` bytes fills. -/
def dstsOf (l : List Dst) (at_ n : Nat) : List Dst :=
  (l.filter fun d => at_ ≤ d.at_ && d.at_ < at_ + max n 8).map fun d => { d with at_ := d.at_ - at_ }

/-- The exception of a poisoned address (R417). -/
def poisonedAddr (n : LaneIn) : Exc := excPoison 1 n.th.pc.toNat

/-- An access with destinations: resolved, claimed and put in flight; the thread goes on. -/
def issueLoad (reads : State → State) (s : State) (n : LaneIn) (c : Ctl) (first : Nat) (d : Spec) (regs : Nat) (ps : List Part)
    (mk : Part → Acc) : SeqOut :=
  let core := coreOf s n.t.team
  if coreRequests < requests s core + ps.length then { s := s, busy := true }
  else
    let s := reads s
    let (ds, s) := claimDst s n.t first d regs
    let s := ps.foldl (fun s p => issueAcc s core { mk p with dsts := dstsOf ds p.at_ p.bytes }) s
    { s := advance s n.t c none, own := true }

end Sys2Proof.Machine

namespace Sys2Proof

def Width.bytes : Width → Nat
  | .w8 => 1
  | .w16 => 2
  | .w32 => 4
  | .w64 => 8
  | .w128 => 16

end Sys2Proof

namespace Sys2Proof.Machine

/-- LD (R300). -/
def execLd (x : Ld) (s0 : State) : Result :=
  runSeqR s0 (.ld x) fun reads s n =>
    if valPsn (n.v.getD 0 []) then { s := s, exc := some (poisonedAddr n) }
    else match resolve s n.t x.m.space x.m.swz (memAddr n x.m.off) x.width.bytes .load with
      | .exc e s => { s := s, exc := some e }
      | .stop pa => { s := s, stop := some pa }
      | .ok l s =>
        issueLoad reads s n x.ctl s0.claims x.d (x.width.rwidth / 32) (pieces l x.width.bytes) fun p =>
          { id := 0, t := n.t, kind := .load x.sx (8 * p.bytes), parts := [p], dsts := []
            bulk := x.m.space == .global && x.m.swz != 0, ord := x.ord, scope := scopeOn x.m.space x.scope, inL1 := false, l1seq := 0, due := 0, reply := none, mark := none }

/-- Put a store in flight, in pieces. -/
def issueStore (s : State) (t : TRef) (l : Loc) (bytes data : Nat) (psn bulk : Bool) (o : Ord) (sc : Scope) : State :=
  (pieces l bytes).foldl (fun s p => issueAcc s (coreOf s t.team)
    { id := 0, t := t, kind := .store (data / 2 ^ (8 * p.at_) % 2 ^ (8 * p.bytes)) psn, parts := [p], dsts := []
      bulk := bulk, ord := o, scope := sc, inL1 := false, l1seq := 0, due := 0, reply := none, mark := none }) s

/-- ST (R300). -/
def execSt (x : St) (s0 : State) : Result :=
  runSeq s0 (.st x) fun s n =>
    if valPsn (n.v.getD 0 []) then { s := s, exc := some (poisonedAddr n) }
    else match resolve s n.t x.m.space x.m.swz (memAddr n x.m.off) x.width.bytes .store with
      | .exc e s => { s := s, exc := some e }
      | .stop pa => { s := s, stop := some pa }
      | .ok l s =>
        if coreRequests < requests s (coreOf s n.t.team) + (pieces l x.width.bytes).length then { s := s, busy := true }
        else { s := issueStore s n.t l x.width.bytes (n.arg 1) (valPsn (n.v.getD 1 []))
                 (x.m.space == .global && x.m.swz != 0) x.ord (scopeOn x.m.space x.scope) }

/-- PREF (R302): never faults, never waits. -/
def execPref (x : Pref) (s0 : State) : Result :=
  runSeq s0 (.pref x) fun s n =>
    let core := coreOf s n.t.team
    if valPsn (n.v.getD 0 []) then { s := s }
    else match resolve s n.t x.space 0 (memAddr n x.off) 1 .load with
      | .ok (.mem pa cmp) s =>
        let ln := lineOf pa
        if coreRequests ≤ requests s core then { s := s }
        else match x.lvl.val with
          | 0 => { s := issueAcc s core (plainAcc n.t .pref ⟨.mem pa cmp, 1, 0⟩) }
          | 1 => { s := if (agLine? s (agentOf core) ln).isSome || dieLost s (2 + lineMdie ln) then s
                        else postReq s (agentOf core) ln .rds }
          | _ => { s := if onlyHbm s ln then (homeFetch s ln).2 else s }
      | .ok _ s => { s := s }
      | _ => { s := s }

/-- FLUSH (R303). -/
def execFlush (x : Flush) (s0 : State) : Result :=
  runSeq s0 (.flush x) fun s n =>
    let core := coreOf s n.t.team
    if valPsn (n.v.getD 0 []) then { s := s, exc := some (poisonedAddr n) }
    else match resolve s n.t x.space 0 (memAddr n x.off) 1 .load with
      | .exc e s => { s := s, exc := some e }
      | .stop pa => { s := s, stop := some pa }
      | .ok (.mem pa cmp) s =>
        if coreRequests ≤ requests s core then { s := s, busy := true }
        else { s := issueAcc s core (plainAcc n.t .flush ⟨.mem pa cmp, 1, 0⟩) }
      | .ok _ s => { s := s }

/-- Operand and rounding word of an atomic (R158, R304). -/
def atomOpOf (aop : AOp) (kind : AKind) (rnd : Rnd) (place : Place) (bytes b : Nat) (psn : Bool) (w : W32) : AtomOp :=
  let lo := b % 2 ^ (8 * bytes)
  let hi := b / 2 ^ (8 * bytes) % 2 ^ (8 * bytes)
  { aop := aop, kind := kind, rnd := rnd, place := place, bytes := bytes
    b := BitVec.ofNat 64 (if aop == .cas then hi else lo), cmp := BitVec.ofNat 64 lo, rsw := w, psn := psn }

/-- One draw of a floating add under rs, at issue (R158). -/
def drawAtom (s : State) (t : TRef) (aop : AOp) (kind : AKind) (rnd : Rnd) : State :=
  if aop == .add && kind == .flt && rnd == .rs then modThread s t fun th => { th with draws := th.draws + 1 } else s

/-- ATOM and RED at issue. -/
def atomCore (ins : Instr) (x : Atom) (s0 : State) : Result :=
  runSeqR s0 ins fun reads s n =>
    if valPsn (n.v.getD 0 []) then { s := s, exc := some (poisonedAddr n) }
    else match resolve s n.t x.m.space x.m.swz (memAddr n x.m.off) x.width.bytes .atomic with
      | .exc e s => { s := s, exc := some e }
      | .stop pa => { s := s, stop := some pa }
      | .ok l s =>
        let o := issueLoad reads s n x.ctl s0.claims x.d (x.width.rwidth / 32) (pieces l x.width.bytes) fun p =>
          { id := 0, t := n.t
            kind := .atomic (atomOpOf x.aop x.kind x.rnd x.place x.width.bytes (n.arg 1) (valPsn (n.v.getD 1 [])) (n.word 0))
            parts := [p], dsts := [], bulk := false, ord := x.ord, scope := scopeOn x.m.space x.scope, inL1 := false, l1seq := 0, due := 0, reply := none, mark := none }
        if o.busy then o else { o with s := drawAtom o.s n.t x.aop x.kind x.rnd }

/-- ATOM (R304, R305). -/
def execAtom (x : Atom) (s : State) : Result := atomCore (.atom x) x s

/-- RED: the same without D. -/
def execRed (x : Atom) (s : State) : Result := atomCore (.red x) x s

/-! The end of a remote request: R227, R494, R495. -/

/-- A reply to request `k` of those in flight: a load or an atomic receives its value, the count of R227 falls. -/
def remoteEnd (s : State) (r : RReq) (value : Nat) (psn : Bool) : State :=
  let s := { s with rreqs := s.rreqs.filter fun x => x.tag != r.tag }
  match r.eng with
  | some g => (match r.op with | .load .. => engReply s g value psn | _ => s)
  | none =>
  match r.op with
  | .load .. => modAcc s r.core r.acc fun a => { a with reply := some (value, psn) }
  | .store .. => modCore s r.core fun c => { c with acks := c.acks - 1 }
  | .atomic .. => modCore (modAcc s r.core r.acc fun a => { a with reply := some (value, psn) }) r.core fun c =>
      { c with acks := c.acks - 1 }

/-- REMOTE_ACK (R227). -/
def execRemoteAck (k : Nat) (value : BitVec 256) (psn : Bool) (s : State) : Result :=
  match s.rreqs[k]? with
  | none => .next s
  | some r => .next (drain (remoteEnd s r value.toNat psn) r.core)

/-- REMOTE_REQUEST_TIMEOUT (R495): no answer within 2^26 hub cycles of the last send. -/
def execRemoteRequestTimeout (k : Nat) (s : State) : Result :=
  match s.rreqs[k]? with
  | none => .next s
  | some r =>
    if hubCycle s.now < r.sent + 2 ^ 26 then .next s
    else
      let s := { s with rreqs := s.rreqs.filter (fun x => x.tag != r.tag), fenced := setInsert s.fenced (paPkg r.pa) }
      .next (drain (loseRemote s r.core r.acc r.ctx r.op r.port r.eng) r.core)

end Sys2Proof.Machine
end

