-- ==== Sys2Proof/Machine/Coherence.lean ====
section
/-! DEFINITION. The events of the homes and the agents (R173-R177, R214), the path from LLC to HBM (R180, R181, R416), the host's
CXL.mem accesses (R174, R225, R418), and requests from other packages (R227, R494). -/

namespace Sys2Proof.Machine

/-! Events of the homes and the agents: R173-R177, R214. Each happens only where it is due. -/

/-- SETTLE_BROADCAST (R214): a die tells the homes and the other dies its settle value. -/
def execSettleBroadcast (agent : Nat) (s : State) : Result := .next (settleTell (resettle s agent) agent)

/-- Serve request `k` at die `md` where it is of this kind. -/
def serveKind (p : HKind → Bool) (md k : Nat) (s : State) : State :=
  match reqReady s md k with
  | some r => if p r.kind then (serveReq s k r).getD s else s
  | none => s

/-- HOME_RDS (R175). -/
def execHomeRds (md k : Nat) (s : State) : Result := .next (serveKind (· == .rds) md k s)

/-- HOME_RDU (R175). -/
def execHomeRdu (md k : Nat) (s : State) : Result := .next (serveKind (· == .rdu) md k s)

/-- HOME_UPG (R175). -/
def execHomeUpg (md k : Nat) (s : State) : Result := .next (serveKind (· == .upg) md k s)

/-- HOME_WBD (R175, R214). -/
def execHomeWbd (md k : Nat) (s : State) : Result := .next ((wbdArrive s md k).getD s)

/-- HOME_EVC (R175). -/
def execHomeEvc (md k : Nat) (s : State) : Result := .next ((evcArrive s md k).getD s)

/-- WRITE_APPLY_HOME (R214). -/
def execWriteApplyHome (md k : Nat) (s : State) : Result := .next ((writeApply s md k).getD s)

/-- SNOOP_SNPS (R175). -/
def execSnoopSnps (md ln agent : Nat) (s : State) : Result := .next (if snoopDue s md ln agent 0 then snpsAnswer s ln agent else s)

/-- SNOOP_SNPI (R175). -/
def execSnoopSnpi (md ln agent : Nat) (s : State) : Result :=
  .next (if snoopDue s md ln agent 1 then snpiAnswer s ln agent
    else if snoopDue s md ln agent 3 then (backInvAnswer s ln agent).getD s else s)

/-- BACK_INV (R175). -/
def execBackInv (md ln agent : Nat) (s : State) : Result :=
  .next (if snoopDue s md ln agent 2 then (backInvAnswer s ln agent).getD s else s)

/-- ATOMIC_HOME_EXEC (R177). -/
def execAtomicHomeExec (md k : Nat) (s : State) : Result := .next ((atomicServe s md k).getD s)

/-! LLC to HBM: R173, R180, R181, R416. -/

/-- The 2 bits of side-band metadata for a block that holds these 256 bytes. -/
def blockCode (data : BitVec 2048) (cmp : Bool) : Nat :=
  if data == 0 then 3 else if cmp then (Config.compressedForm data).toNat % 3 else 0

def setBlockCode (s : State) (blk c : Nat) : State :=
  { s with ccode := if c == 3 then Tab.erase s.ccode blk else Tab.set s.ccode blk c }

/-- Write a line to HBM with its poison; the block's form follows the CMP bits of both its lines. -/
def hbmWrite (s : State) (ln : Nat) (l : Line) : State :=
  let blk := ln / 2
  let cmp2 : Bool := match Tab.get? s.llc (ln ^^^ 1) with
    | some x => x.line.cmp
    | none => blockCmp s blk
  let s := { s with
    mem := memStore s.mem (ln * 128) 128 l.data.toNat
    mpsn := (List.range 4).foldl (fun g i => setPut g (ln * 4 + i) (bit l.psn.toNat i)) s.mpsn }
  let data := BitVec.ofNat 2048 (memLoad s.mem (blk * 256) 256)
  setBlockCode (mdTouch s ln) blk (blockCode data (l.cmp && cmp2))

/-- LLC_EVICT (R173): a dirty line is written to HBM, a clean one dropped. -/
def execLlcEvict (md ln : Nat) (s : State) : Result :=
  match Tab.get? s.llc ln with
  | none => .next s
  | some l =>
    if lineMdie ln != md then .next s
    else
      let s1 := if l.dirty && !dieLost s (2 + md) then hbmWrite s ln l.line else s
      .next { s1 with llc := Tab.erase s1.llc ln }

/-- The least recently used line of an LLC set that holds more than its 16 ways. -/
def llcOver (s : State) : Option Nat :=
  (s.llc.map (·.1)).findSome? fun ln =>
    let set := s.llc.filter fun (l, _) => lineMdie l == lineMdie ln && l % 32768 == ln % 32768
    match set with
    | c :: rest => if 16 < set.length then some (rest.foldl (fun m x => if x.2.use < m.2.use then x else m) c).1 else none
    | [] => none

/-! The host: R174, R225, R418. -/

/-- Bytes as a number. -/
def bytesNat : List Byte → Nat
  | [] => 0
  | b :: t => b.toNat + 256 * bytesNat t

/-- Lines that an access of `n` bytes touches. -/
def linesOf (pa n : Nat) : List Nat := if n == 0 then [] else (List.range ((pa % 128 + n + 127) / 128)).map fun i => lineOf pa + i

/-- The host holds a line in H's name: H obtains it as any agent does (R174). -/
def hostFetch (s : State) (ln : Nat) : State := modAg (fetchLine s 2 ln) 2 ln fun a => { a with host := true }

/-- HOST_MEM_READ (R418): the host caches the lines it reads; a read of poisoned granules is an export of poison. -/
def execHostMemRead (pa bytes : Nat) (s : State) : Result :=
  if !isOwnMem s pa || !isUp s then .next s
  else
    let ls := linesOf pa bytes
    let bad := ls.flatMap fun ln => (List.range 4).filter fun i =>
      let a := ln * 128 + 32 * i
      bit (cohLine s ln).psn.toNat i && a < lineOf pa * 128 + pa % 128 + bytes && lineOf pa * 128 + pa % 128 < a + 32
    let s := if bad.isEmpty then s else logEvent s (unitHub 0) 4 1 pa 1 0xFF bad.length
    .next (ls.foldl hostFetch s)

/-- HOST_MEM_WRITE (R225): performed at package scope when it completes; it keeps the CMP bit of each line (R181). -/
def execHostMemWrite (pa : Nat) (data : List Byte) (psn : Bool) (s : State) : Result :=
  if !isOwnMem s pa || !isUp s then .next s
  else if dieLost s (2 + paMdie pa) then .next (logEvent s unitH 3 1 pa 1 0xFF 1)
  else .next (cohWrite s pa data.length (bytesNat data) psn none)

/-! Requests from other packages: R227, R494. -/

/-- The value that an access of this package's memory or mail slots returns to another package. -/
def remoteLoad (s : State) (pa n : Nat) : Nat × Bool := if paDev pa then devRead s 256 (pa % 2 ^ 39) n else cohRead s pa n

/-- REMOTE_REQUEST_APPLY (R494): applied once; a tag that is still held is only acknowledged. Poisoned data that leaves is an
export (R418). -/
def execRemoteRequestApply (src tag : Nat) (op : RemoteOp) (s : State) : Result :=
  if !isUp s || s.rdone.any fun (p, t, _) => p == src && t == tag then .next s
  else
    let pa := op.pa
    let keep := fun (s : State) (v : Nat) =>
      let mine := s.rdone.filter fun (p, _, _) => p == src
      let rest := if 4096 ≤ mine.length then
          (match mine with
           | m :: _ => s.rdone.filter (· != m)
           | [] => s.rdone)
        else s.rdone
      { s with rdone := rest ++ [(src, tag, v)] }
    let export_ := fun (s : State) (p : Bool) => if p then logEvent s unitH 4 1 pa 1 0xFF 1 else s
    if paPkg pa != s.hpkg then .next s
    else match op with
      | .load _ n => let (_, p) := remoteLoad s pa n; .next (keep (export_ s p) 0)
      | .store _ n d p =>
        if paDev pa then .next (keep s 0)
        else if dieLost s (2 + paMdie pa) then .next (keep (logEvent s unitH 3 1 pa 1 0xFF 1) 0)
        else
          -- H numbers it (R213)
          .next (keep (cohWrite s pa n d.toNat p none) 0)
      | .atomic _ n aop kind rnd b cmp rsw p =>
        if paDev pa then .next (keep s 0)
        else if dieLost s (2 + paMdie pa) then .next (keep (logEvent s unitH 3 1 pa 1 0xFF 1) 0)
        else
          let o : AtomOp := ⟨aop, kind, rnd, .home, n, b, cmp, rsw, p⟩
          let (old, q, s) := atomicAtHome s 2 pa o none
          .next (keep (export_ s q) old)

end Sys2Proof.Machine
end

