-- ==== Sys2Proof/Machine/Hub.lean ====
section
/-! DEFINITION. The hub: boot and power (R29-R31, R37, R427), the hub command window with its registers and checks (R19, R22-R25),
the commands Read error log, Set power profile and Attest (R32, R34, R413, R415), and the Postmaster (R33-R36, R423). -/

namespace Sys2Proof.Machine

/-! Boot and power: R29-R31, R37, R427. -/

/-- A package without power: it holds nothing. The inputs still to come, and the count of free values, are not the package's. -/
def powerless (s : State) (p : Phase) : State := { State.reset with phase := p, agenda := s.agenda, free := s.free }

/-- Is this the unit of a failed boot step (R30)? -/
def bootUnit (step u : Nat) : Bool :=
  match step with
  | 1 | 3 => u == unitHub 3
  | 2 => (isLink u && (unitDieOf u < 2 || unitDieOf u == 10)) ||
         (unitKind u == 0 && 2 ≤ unitDieOf u && unitDieOf u < 10 && u % 256 == 0)
  | 4 => u == unitHub 0 || (unitDieOf u == 10 && unitKind u == 6 && u % 256 < 18)
  | 5 => u == unitH
  | _ => false

/-- POWER_ON_BOOT (R29): step 0 is a boot that succeeds; another step fails at its unit and leaves the device in recovery, where the
host does not reach it if the CXL port itself has failed (R30). -/
def execPowerOnBoot (step : Nat) (unit : BitVec 16) (s : State) : Result :=
  if s.phase != .off then .next s
  else
    let s0 := powerless s .ready
    let m0 : State := { s0 with mr0 := Config.measurement 0, serial := Config.serial }
    if step == 0 then .next { m0 with mr1 := Config.measurement 1 }
    else if !bootUnit step unit.toNat then .next s
    else
      let s1 := if step == 1 then { s0 with serial := Config.serial }
        else if step ≤ 3 then m0 else { m0 with mr1 := Config.measurement 1 }
      .next (logEvent { s1 with phase := .recovery step (!(step == 4 && unit.toNat == unitHub 0)) } unit.toNat 0x0D 4 0 0 0xFF step)

/-- POWER_REMOVED (R37): the module retains nothing. -/
def execPowerRemoved (s : State) : Result := .next (powerless s .off)

/-- HUB_LOST (R427): all device state is lost, and only removing power helps. -/
def execHubLost (s : State) : Result := if s.phase == .off then .next s else .next (powerless s .hubLost)

/-! The command window: R19, R22-R25. -/

def inRecovery (s : State) : Bool := match s.phase with | .recovery .. => true | _ => false

/-- Can the host reach the command window (R30, R31)? -/
def windowUp (s : State) : Bool := match s.phase with | .ready => true | .recovery _ reach => reach | _ => false

def hcmdOp (c : W32) : Nat := c.toNat % 256
def hcmdCtx (c : W32) : Nat := bits c.toNat 15 8

/-- HPKG_WRITE (R19). -/
def execHpkgWrite (v : W32) (s : State) : Result :=
  if !isUp s || 191 < v.toNat || !s.ctxs.isEmpty || s.hstat == 1 then .next s else .next { s with hpkg := v.toNat }

/-- REGISTER_WRITE (R22, R25, R185): `off` is an offset of the hub command window, or 0x1000 for TIVA of the translation control
page. A write of HCMD while the hub is busy counts in HREJECT; the other registers of the window are read-only. -/
def execRegisterWrite (off : Nat) (v : W64) (s : State) : Result :=
  if off == 0x1000 then .next (if isUp s then { s with tiva := v } else s)
  else if !windowUp s then .next s
  else match off with
    | 0x000 => .next (if s.hstat == 1 then { s with hreject := s.hreject + 1 } else s)
    | 0x008 => .next { s with harg0 := v }
    | 0x010 => .next { s with harg1 := v }
    | 0x018 => .next { s with harg2 := v }
    | _ => .next s

/-- An address argument of `n` bytes (R24): aligned, in this package's memory, within one memory die. -/
def argOk (s : State) (a n al : Nat) : Bool :=
  a < 2 ^ 48 && a % al == 0 && isOwnMem s a && a % 2 ^ 36 + n ≤ 2 ^ 36

/-- A command is latched and ends with `code`; its result is 0 for a code of 0x80 or higher. -/
def hubEnd (s : State) (c : W32) (code result : Nat) (taken : Nat) : State :=
  { s with
    hcmd := c
    hstat := 1
    hubRun := some ⟨BitVec.ofNat 32 code, if 0x80 ≤ code then 0 else BitVec.ofNat 64 result, taken⟩ }

/-- A command that ends at once. -/
def hubRefuse (s : State) (c : W32) (code : Nat) : State := { s with hcmd := c, hstat := BitVec.ofNat 32 code, hresult := 0 }

/-- A write of HCMD: discarded while the hub is busy; else the first checks of R25, then `body`. -/
def hubCommand (s : State) (c : W32) (body : State) : State :=
  if !windowUp s then s
  else if s.hstat == 1 then { s with hreject := s.hreject + 1 }
  else if bits c.toNat 31 16 != 0 then hubRefuse s c 0x81
  else if inRecovery s && hcmdOp c != 4 then hubEnd s c 0x85 0 0
  else body

/-- HCMD_UNKNOWN_OP (R25). -/
def execHcmdUnknownOp (hcmd : W32) (s : State) : Result :=
  if 1 ≤ hcmdOp hcmd && hcmdOp hcmd ≤ 6 && bits hcmd.toNat 31 16 == 0 then .next s
  else .next (hubCommand s hcmd (hubRefuse s hcmd 0x80))

/-- HUB_COMMAND_COMPLETE (R22, R25, R415): a Read error log that removed records reports the ones that were lost. -/
def execHubCommandComplete (s : State) : Result :=
  match s.hubRun with
  | none => .next s
  | some r =>
    let s := { s with hstat := r.code, hresult := r.result, hubRun := none, log := s.log.drop r.taken }
    if r.taken != 0 && s.logLost != 0 then
      let n := s.logLost
      .next (logRec { s with logLost := 0 } unitH 0x0E 1 0 0 0xFF n
        ((Tab.getD s.counters unitH ⟨none, 0, false⟩).settle (unitCycle s unitH)).count)
    else .next s

/-! Read error log: R31, R412, R413. -/

/-- The 64 bytes of a record. -/
def LogRec.bytes (r : LogRec) : Nat :=
  packFields [(0x00, 4, r.seq.toNat), (0x04, 1, r.cls.toNat), (0x05, 1, r.sev.toNat), (0x06, 2, r.unit.toNat),
    (0x08, 8, r.addr.toNat), (0x10, 1, r.ctx.toNat), (0x11, 1, r.flags.toNat), (0x12, 2, r.count.toNat), (0x14, 4, r.detail.toNat),
    (0x18, 8, r.ucyc.toNat), (0x20, 8, r.hcyc.toNat)]

/-- The `n` low bytes of a number, lowest first. -/
def natBytes (n x : Nat) : List Byte := (List.range n).map fun i => BitVec.ofNat 8 (x / 2 ^ (8 * i))

/-- READ_ERROR_LOG: in recovery it copies to the recovery log window. -/
def execReadErrorLog (hcmd : W32) (s : State) : Result :=
  if hcmdOp hcmd != 4 then .next s
  else
    let n := s.harg1.toNat / 64
    let take := fun (k : Nat) (s : State) => hubEnd s hcmd 2 (64 * k) k
    .next (hubCommand s hcmd (if inRecovery s then
      let k := min (min 32 n) s.log.length
      take k { s with rlog := (s.log.take k).flatMap fun r => natBytes 64 r.bytes }
    else if !argOk s s.harg0.toNat s.harg1.toNat 64 then hubEnd s hcmd 0x81 0 0
    else
      let k := min n s.log.length
      let s' := if k == 0 then s else lostWrite s s.harg0.toNat 0xFF
      take k (((s.log.take k).zipIdx).foldl (fun s (r, i) =>
        cohWrite s (s.harg0.toNat + 64 * i) 64 r.bytes false none) s')))

/-- A byte of the recovery log window; it reads as zero outside recovery and beyond what was copied (R22). -/
def rlogByte (s : State) (i : Nat) : Byte := if inRecovery s then s.rlog.getD i 0 else 0

/-! Attest: R32. -/

/-- ATTEST. -/
def execAttest (hcmd : W32) (s : State) : Result :=
  if hcmdOp hcmd != 6 then .next s
  else .next (hubCommand s hcmd (
    if !argOk s s.harg0.toNat 32 32 || !argOk s s.harg1.toNat 768 64 then hubEnd s hcmd 0x81 0 0
    else
      let (nonce, p) := cohRead s s.harg0.toNat 32
      let signed := packFields [(0x00, 32, nonce), (0x20, 64, s.mr0.toNat), (0x60, 64, s.mr1.toNat), (0xA0, 4, s.order.toNat),
        (0xA8, 8, s.serial.toNat)]
      let sig := (Config.attestSig (BitVec.ofNat 2048 signed)).toNat
      let d := s.harg1.toNat
      let s := cohWrite (lostWrite s d 0xFF) d 256 signed false none
      let s := if p then cohWrite s d 32 nonce true none else s
      let s := cohWrite s (d + 256) 512 sig p none
      hubEnd s hcmd 2 768 0))

/-! Power: R33-R36, R423. -/

def powerOf (s : State) (die : Nat) : Power := Tab.getD s.power die ⟨0, 0, 0, 0, 0, 0, (0, 0, 0), none⟩

/-- SET_POWER_PROFILE (R35): in force at each die from its next interval. -/
def execSetPowerProfile (hcmd : W32) (s : State) : Result :=
  if hcmdOp hcmd != 5 then .next s
  else
    let next := (List.range 11).map fun d => (d, { powerOf s d with next := BitVec.ofNat 2 s.harg2.toNat })
    .next (hubCommand s hcmd (hubEnd { s with power := next } hcmd 2 0 0))

/-- The shares of a profile in percent: matrix, vector, memory (R34). -/
def profileShares (p : BitVec 2) : Nat × Nat × Nat :=
  match p.toNat with
  | 0 => (34, 33, 33)
  | 1 => (55, 20, 25)
  | 2 => (20, 55, 25)
  | _ => (25, 25, 50)

/-- The grants of the three classes: each gets what it asks for up to its share, and what a class leaves goes to the others in their
order as far as they ask (R34; the order is DESIGN CHOICE, assumption 73). -/
def classGrants (share ask : Nat × Nat × Nat) : Nat × Nat × Nat :=
  let spare := (share.1 - ask.1) + (share.2.1 - ask.2.1) + (share.2.2 - ask.2.2)
  let a := min (ask.1 - share.1) spare
  let b := min (ask.2.1 - share.2.1) (spare - a)
  let c := min (ask.2.2 - share.2.2) (spare - a - b)
  (min share.1 ask.1 + a, min share.2.1 ask.2.1 + b, min share.2.2 ask.2.2 + c)

/-- Does an interval of a die's own clock end now (R33)? -/
def intervalDue (s : State) (die : Nat) : Bool :=
  !dieLost s die && isUp s && (powerOf s die).since + 4096 ≤ unitCycle s (unitDie die)

/-- The grants of a die's next interval: the shares of what fixed consumption leaves, reduced by the excess, halved where the module
has exceeded its budget (R33, R34, R423). -/
def nextGrants (s : State) (die n : Nat) (p : Power) (excess : Nat) : Nat × (Nat × Nat × Nat) :=
  let (budget, fixed) := Config.powerBudget die n
  let (a, b, c) := profileShares p.next
  let had := p.grants.1 + p.grants.2.1 + p.grants.2.2
  let left := (budget - fixed - had * excess / 100) / (if s.halved then 2 else 1)
  (budget, classGrants (left * a / 100, left * b / 100, left * c / 100) (Config.powerDemand die n))

/-- Intervals between two class 0x0C records of one die or of the module (R423). -/
def powerLogGap : Nat := 65536

/-- POSTMASTER_INTERVAL (R33, R35, R423): an interval of a die ends with `excess` percent over its grant; for the hub's interval
`moduleExcess` is by how many percent the module exceeded its budget. -/
def execPostmasterInterval (die excess moduleExcess : Nat) (s : State) : Result :=
  if 10 < die || !intervalDue s die then .next s
  else
    let p := powerOf s die
    let n := p.interval + 1
    let gap := fun (l : Option Nat) => match l with | some k => k + powerLogGap ≤ n | none => true
    let above := 0 < excess && gap p.logged
    let s := if above then logEvent s (unitDie die) 0x0C 1 0 0 0xFF (min excess 255) else s
    let s := if die == 10 then { s with halved := decide (0 < moduleExcess) } else s
    let (budget, grants) := nextGrants s die n p excess
    let p := { p with profile := p.next, reduce := excess, interval := n, since := p.since + 4096, budget := budget, grants := grants
                      logged := if above then some n else p.logged }
    let s := { s with power := Tab.set s.power die p }
    if die != 10 then .next s
    else
      let mlog := 0 < moduleExcess && gap s.moduleLogged
      let s := if mlog then logEvent s (unitHub 2) 0x0C 1 0 0 0xFF (min moduleExcess 255) else s
      .next { s with moduleLogged := if mlog then some n else s.moduleLogged }

end Sys2Proof.Machine
end

