-- ==== Sys2Proof/Machine/Volume.lean ====
section
/-! DEFINITION. Coordinate volumes: coordinates and descriptors (R187-R190), nodes and walks (R191-R195), the CLB (R196), links
(R198-R201, R479-R481), LDV, STV, ATOMV and VINVAL (R203, R306-R308). -/

namespace Sys2Proof.Machine

/-! Reads and writes on a thread's behalf, through its die (R184, R194). -/

/-- Translate for a walk. An address that is not canonical has no translation and takes the translation fault (DESIGN CHOICE: R194 names
no fault for it, assumption 90). -/
def volXlate (s : State) (die ctx va : Nat) (need : Need) (sub : Nat) : Except Exc (Nat × Bool) × State :=
  match dieXlate s die ctx va need with
  | (.trans, s) => (.error (excXlate false sub va), s)
  | (.perm, s) => (.error (excXlate true sub va), s)
  | (.ok pa cmp, s) => (if isOwnMem s pa then .ok (pa, cmp) else .error (excAddr 2 va true), s)

/-- Read `n` bytes coherently, never from L1: through the die's L2 or, in a link, at their home (R194, R198). -/
def volRead (s : State) (home : Bool) (die ctx va n sub : Nat) : Except Exc (Nat × Bool) × State :=
  match volXlate s die ctx va .read sub with
  | (.ok (pa, _), s) => if home then (.ok (cohRead s pa n), s) else let (x, s) := agentRead s die pa n; (.ok x, s)
  | (.error e, s) => (.error e, s)

/-- Write `n` bytes at package scope; the translation has been checked. On a lost memory die it is discarded and counted (R426). -/
def volWrite (s : State) (die ctx va n x : Nat) : State :=
  match volXlate s die ctx va .write 1 with
  | (.ok (pa, cmp), s) => homeWrite (lostWrite s pa ctx) die pa n x false (some cmp)
  | (.error _, s) => s

/-! Descriptors: R190. -/

structure VolDesc where
  esz : Nat
  noalloc : Bool
  rlog : Nat
  bg : Nat
  root : Nat
  brk : Nat
  n1 : Nat
  n2 : Nat
  /-- free rings in the order n2, n1, brick: list, head, tail, log -/
  rings : List (Nat × Nat × Nat × Nat)
  fails : Nat

def excVolFmt (sub va vol : Nat) : Exc := ⟨0x14, sub, some va, true, vol⟩

/-- The fields of a descriptor, or none where one is out of range. -/
def parseDesc (d : Nat) : Option VolDesc :=
  let f := fun o n => d / 2 ^ (8 * o) % 2 ^ (8 * n)
  let c := f 0x00 4
  let esz := c % 4
  let rlog := bits c 8 4
  let logs := f 0x60 4
  let blog := bits logs 4 0
  let n1log := bits logs 12 8
  let n2log := bits logs 20 16
  if bits c 31 9 == 0 && f 0x04 4 == 0 && f 0x08 8 / 2 ^ (8 * 2 ^ esz) == 0 && 4 ≤ rlog && rlog ≤ 20 &&
     f 0x10 8 % max 128 (8 * 2 ^ rlog) == 0 && f 0x18 8 % 512 == 0 && f 0x20 8 % 2048 == 0 && f 0x28 8 % 16384 == 0 &&
     f 0x30 8 % 4 == 0 && f 0x38 8 % 4 == 0 && f 0x40 8 % 4 == 0 && blog ≤ 24 && bits logs 7 5 == 0 && n1log ≤ 20 &&
     bits logs 15 13 == 0 && n2log ≤ 16 && bits logs 31 21 == 0 && f 0x68 24 == 0 then
    some { esz := esz, noalloc := bit c 3, rlog := rlog, bg := f 0x08 8, root := f 0x10 8, brk := f 0x18 8, n1 := f 0x20 8
           n2 := f 0x28 8
           rings := [(f 0x40 8, f 0x58 4, f 0x5C 4, n2log), (f 0x38 8, f 0x50 4, f 0x54 4, n1log), (f 0x30 8, f 0x48 4, f 0x4C 4, blog)]
           fails := f 0x64 4 }
  else none

/-- Read and check the descriptor at `dva`: its fields and its line. -/
def readDesc (s : State) (home : Bool) (die ctx dva vol : Nat) : Except Exc (VolDesc × BitVec 1024) × State :=
  match volRead s home die ctx dva 128 0 with
  | (.error e, s) => (.error e, s)
  | (.ok (d, p), s) =>
    if p then (.error (excVolFmt 0 dva vol), s)
    else if !bit d 2 then (.error (excAddr 2 dva true), s)
    else match parseDesc d with
      | some v => (.ok (v, BitVec.ofNat 1024 d), s)
      | none => (.error (excVolFmt 0 dva vol), s)

/-! Coordinates and nodes: R187, R191, R192. -/

structure Coord where
  x : Nat
  y : Nat
  z : Nat

def Coord.of (x y z : Int) : Coord := ⟨wrap 21 x, wrap 21 y, wrap 21 z⟩
def Coord.key (c : Coord) : Nat := bits c.x 20 9 * 2 ^ 24 + bits c.y 20 9 * 2 ^ 12 + bits c.z 20 9
def Coord.i2 (c : Coord) : Nat := bits c.x 8 5 + 16 * bits c.y 8 5 + 256 * bits c.z 8 5
def Coord.i1 (c : Coord) : Nat := bits c.x 4 2 + 8 * bits c.y 4 2 + 64 * bits c.z 4 2
def Coord.i0 (c : Coord) : Nat := c.x % 4 + 4 * (c.y % 4) + 16 * (c.z % 4)
/-- The brick's tag in a CLB: the upper 19 bits of each coordinate (R196). -/
def Coord.brickKey (c : Coord) : Nat := c.x / 4 * 2 ^ 38 + c.y / 4 * 2 ^ 19 + c.z / 4
/-- ADDR of an allocation failure (R452). -/
def Coord.addr (c : Coord) : Nat := c.x * 2 ^ 42 + c.y * 2 ^ 21 + c.z

def inCoordRange (v : Int) : Bool := -(2 ^ 20 : Nat) ≤ v && v < (2 ^ 20 : Nat)

/-- vol_hash of R194. -/
def volHash (k rlog : Nat) : Nat := k * 0x9E3779B97 % 2 ^ 36 / 2 ^ (36 - rlog)

/-! The walk: R194. -/

/-- Where a walk ends: a brick, or the absent word: level 0 bucket, 1 level-2 entry, 2 level-1 entry, and its VA. -/
inductive VWalk where
  | brick (va : Nat)
  | absent (level va : Nat)
  | full
  | exc (e : Exc)

/-- Read and check a node entry. -/
def readEntry (s : State) (die ctx va vol : Nat) : Except Exc Nat × State :=
  match volRead s false die ctx va 4 0 with
  | (.error e, s) => (.error e, s)
  | (.ok (e, p), s) =>
    if p || bits e 30 24 != 0 || (!bit e 31 && e != 0) then (.error (excVolFmt 2 va vol), s) else (.ok e, s)

/-- Below a level-1 entry's node: the brick. -/
def walkN1 (s : State) (die ctx vol : Nat) (d : VolDesc) (c : Coord) (n1 : Nat) : VWalk × State :=
  let va := (d.n1 + 0x800 * n1 + 4 * c.i1) % 2 ^ 64
  match readEntry s die ctx va vol with
  | (.error e, s) => (.exc e, s)
  | (.ok g, s) => (if bit g 31 then .brick ((d.brk + 64 * 2 ^ d.esz * (g % 2 ^ 24)) % 2 ^ 64) else .absent 2 va, s)

def walkN2 (s : State) (die ctx vol : Nat) (d : VolDesc) (c : Coord) (n2 : Nat) : VWalk × State :=
  let va := (d.n2 + 0x4000 * n2 + 4 * c.i2) % 2 ^ 64
  match readEntry s die ctx va vol with
  | (.error e, s) => (.exc e, s)
  | (.ok f, s) => if bit f 31 then walkN1 s die ctx vol d c (f % 2 ^ 24) else (.absent 1 va, s)

/-- Probe buckets from `b` on. -/
def walkRoot (s : State) (die ctx vol : Nat) (d : VolDesc) (c : Coord) : Nat → Nat → VWalk × State
  | 0, _ => (.full, s)
  | fuel + 1, b =>
    let va := (d.root + 8 * (b % 2 ^ d.rlog)) % 2 ^ 64
    match volRead s false die ctx va 8 0 with
    | (.error e, s) => (.exc e, s)
    | (.ok (e, p), s) =>
      if p || (bit e 63 && bits e 62 52 != 0) then (.exc (excVolFmt 1 va vol), s)
      else if !bit e 63 then (.absent 0 va, s)
      else if bits e 51 16 == c.key then
        (if bits e 15 0 == 0xFFFF then (.absent 0 va, s) else walkN2 s die ctx vol d c (bits e 15 0))
      else walkRoot s die ctx vol d c fuel (b + 1)

def volWalk (s : State) (die ctx vol : Nat) (d : VolDesc) (c : Coord) : VWalk × State :=
  walkRoot s die ctx vol d c (min 32 (2 ^ d.rlog)) (volHash c.key d.rlog)

/-! The CLB: R196. -/

def clbSet (c : Coord) (dva : Nat) : Nat :=
  (((c.x / 4 % 16) ^^^ (c.y / 4 % 16)) ^^^ (c.z / 4 % 16)) ^^^ (dva / 128 % 16)

/-- The set of an entry, from its tag. -/
def ClbEnt.set (e : ClbEnt) : Nat :=
  clbSet ⟨e.key / 2 ^ 38 * 4, e.key / 2 ^ 19 % 2 ^ 19 * 4, e.key % 2 ^ 19 * 4⟩ e.dva

def clbFind (s : State) (core ctx dva : Nat) (c : Coord) : Option ClbEnt :=
  (getCore s core).clb.find? fun e => e.ctx == ctx && e.dva == dva && e.key == c.brickKey

/-- Fill an entry; a full set of 16 ways loses its least recently used one. -/
def clbFill (s : State) (core ctx dva : Nat) (c : Coord) (brick esz : Nat) : State :=
  modCore s core fun k =>
    let e : ClbEnt := ⟨ctx, dva, c.brickKey, brick, esz, s.now⟩
    let rest := k.clb.filter fun x => !(x.ctx == ctx && x.dva == dva && x.key == e.key)
    let mine := rest.filter fun x => x.set == e.set
    let rest := if mine.length < 16 then rest
      else match mine with
        | [] => rest
        | m :: ms => let v := ms.foldl (fun m x => if x.use < m.use then x else m) m; rest.filter fun x => x != v
    { k with clb := e :: rest }

def clbTouch (s : State) (core : Nat) (e : ClbEnt) : State :=
  modCore s core fun k => { k with clb := k.clb.map fun x => if x == e then { x with use := s.now } else x }

/-! The walks of a core: R197. -/

def vtbaseOf (s : State) (tm : Nat) : Nat := match team? s tm with | some t => t.vtbase.toNat | none => 0
def descVa (s : State) (tm vol : Nat) : Nat := (vtbaseOf s tm + 128 * vol) % 2 ^ 64

/-- How a walk that met no brick ends. -/
def VWalk.toEnd (w : VWalk) (esz : Nat) (desc : BitVec 1024) : WalkEnd :=
  match w with
  | .brick va => .brick va esz
  | .absent l va => .absent l va desc
  | .full => .full desc
  | .exc e => .exc (some esz) e

/-- A whole walk: the descriptor, the buckets, the entries (R194). -/
def walkTree (s : State) (die ctx dva vol : Nat) (c : Coord) : WalkEnd × State :=
  match readDesc s false die ctx dva vol with
  | (.error e, s) => (.exc none e, s)
  | (.ok (d, line), s) =>
    let (w, s) := volWalk s die ctx vol d c
    (w.toEnd d.esz line, s)

/-- Fill the CLB where a walk or a link has ended with the brick present (R196). -/
def clbAfter (s : State) (core ctx dva : Nat) (c : Coord) (w : WalkEnd) : State :=
  match w with
  | .brick va esz => clbFill s core ctx dva c va esz
  | _ => s

/-- Does a thread of the walk still wait for it: it stands at the instruction and its team is not stopped (R201)? -/
def walkLive (s : State) (w : Walk) : Bool :=
  w.waiters.any fun (t, pc) => (match thread? s t with
    | some th => !th.exited && !th.halted && th.pc == pc
    | none => false) && (match team? s t.team with | some tm => !tm.stopped | none => false)

/-- Walks that a core runs at once. -/
def coreWalks : Nat := 16

/-- A miss of the look-aside buffer waits for the walk of its brick, or starts one where fewer than 16 are in progress (R197). -/
def joinWalk (s : State) (core ctx dva : Nat) (c : Coord) (t : TRef) : State :=
  let ws := (getCore s core).walks.filter (walkLive s)
  let me := (t, match thread? s t with | some th => th.pc | none => 0)
  let same := fun w : Walk => w.ctx == ctx && w.dva == dva && w.key == c.brickKey && w.res.isNone
  if ws.any same then
    modCore s core fun k => { k with walks := ws.map fun w => if same w then { w with waiters := w.waiters ++ [me] } else w }
  else if coreWalks ≤ (ws.filter fun w => w.res.isNone).length then s
  else modCore { s with ids := s.ids + 1 } core fun k => { k with walks := ws ++ [⟨s.ids, ctx, dva, c.brickKey, s.now, [me], none⟩] }

/-- A thread takes the result of a walk; a VINVAL that awaits the walk awaits the thread's access too (R203). -/
def takeWalk (s : State) (core : Nat) (w : Walk) (t : TRef) (res : WalkEnd) : State :=
  let take := fun x : Walk =>
    if x.id != w.id then some x
    else if x.waiters.all (·.1 == t) then none
    else some { x with waiters := x.waiters.filter (·.1 != t), res := some res }
  let s := modCore s core fun k => { k with walks := k.walks.filterMap take }
  { s with vinvs := s.vinvs.map fun j =>
      if j.ctx == w.ctx && j.dva == w.dva && w.id < j.upto then { j with upto := max j.upto (s.ids + 8) } else j }

/-- The result of a link for its thread, which goes on with it at its next issue (R198). -/
def leaveWalk (s : State) (id core ctx dva : Nat) (c : Coord) (t : TRef) (res : WalkEnd) : State :=
  modCore (clbAfter s core ctx dva c res) core fun k =>
    { k with walks := k.walks ++ [⟨id, ctx, dva, c.brickKey, s.now, [(t, match thread? s t with | some th => th.pc | none => 0)], some res⟩] }

/-- The walks of a team's threads are over. -/
def dropWalks (s : State) (core tm : Nat) : State :=
  let rest := fun w : Walk => { w with waiters := w.waiters.filter fun x => x.1.team != tm }
  modCore s core fun k => { k with walks := (k.walks.map rest).filter fun w => !w.waiters.isEmpty }

/-- What a thread finds of a brick: it waits for a walk, or for its link; or the result, and whether the CLB held it. -/
inductive Found where
  | wait (s : State)
  | done (hit : Bool) (w : WalkEnd) (s : State)

/-- The brick of (x, y, z) of a volume for a thread. A walk ends at the first try after the cycle of its start (assumption 72). -/
def brickFor (s : State) (t : TRef) (vol : Nat) (c : Coord) : Found :=
  let core := coreOf s t.team
  let ctx := ctxOf s t.team
  let dva := descVa s t.team vol
  if vtbaseOf s t.team == 0 then .done false (.exc none (excAddr 2 dva true)) s
  else if (s.links.any fun l => l.t == t) then .wait s
  else match (getCore s core).walks.find? (fun w => w.ctx == ctx && w.dva == dva && w.key == c.brickKey &&
      w.waiters.any fun x => x.1 == t) with
    | some w => (match w.res with
      | some r => .done false r (takeWalk s core w t r)
      | none =>
        if s.now ≤ w.since then .wait s
        else
          let (r, s) := walkTree s (core / 192) ctx dva vol c
          .done false r (takeWalk (clbAfter s core ctx dva c r) core w t r))
    | none => match clbFind s core ctx dva c with
      | some e => .done true (.brick e.brick e.esz) (clbTouch s core e)
      | none => .wait (joinWalk s core ctx dva c t)

/-! A volume operand: R187-R190, R194-R196. -/

/-- What an access through a volume meets. -/
inductive VOut where
  /-- the element's VA, and the cycles that the look-aside buffer adds (R196) -/
  | elem (va extra : Nat) (s : State)
  /-- absent: the descriptor and its line, and where a link would begin -/
  | absent (d : VolDesc) (line : BitVec 1024) (level wva : Nat) (s : State)
  | full (d : VolDesc) (s : State)
  | exc (e : Exc) (s : State)
  /-- blocked for a walk or a link -/
  | wait (s : State)

/-- The volume number and coordinates of a lane, checked (R187, R188). -/
def volArgs (n : LaneIn) (all : Bool) : Except Exc (Nat × Int × Int × Int) :=
  let vol := n.arg 0
  let x := signed 32 (n.arg 1)
  let y := signed 32 (n.arg 2)
  let z := signed 32 (n.arg 3)
  if valPsn (n.v.getD 0 []) || (!all && (valPsn (n.v.getD 1 []) || valPsn (n.v.getD 2 []) || valPsn (n.v.getD 3 []))) then
    .error (poisonedAddr n)
  else if vol / 256 != 0 then .error (excAddr 2 vol false)
  else if all then .ok (vol, 0, 0, 0)
  else if !inCoordRange x then .error (excAddr 2 (n.arg 1) false)
  else if !inCoordRange y then .error (excAddr 2 (n.arg 2) false)
  else if !inCoordRange z then .error (excAddr 2 (n.arg 3) false)
  else .ok (vol, x, y, z)

/-- Find the element of (x, y, z) of a volume; `w` is the access's log2 of bytes. A width that is not the volume's comes before a fault
that the walk meets below the descriptor (DESIGN CHOICE: R190 does not order them, assumption 90). -/
def volFind (s : State) (t : TRef) (vol : Nat) (c : Coord) (w : Nat) : VOut :=
  let dva := descVa s t.team vol
  let desc := fun (line : BitVec 1024) (f : VolDesc → VOut) (s : State) => match parseDesc line.toNat with
    | some d => if d.esz != w then .exc (excVolFmt 0 dva vol) s else f d
    | none => .exc (excVolFmt 0 dva vol) s
  match brickFor s t vol c with
  | .wait s => .wait s
  | .done hit r s => match r with
    | .exc esz e =>
      if (match esz with | some z => z != w | none => false) then .exc (excVolFmt 0 dva vol) s
      else .exc (if e.cause == 0x14 then { e with detail := vol } else e) s
    | .brick va esz =>
      if esz != w then .exc (excVolFmt 0 dva vol) s
      else .elem ((va + 2 ^ esz * c.i0) % 2 ^ 64) (if hit then 4 else 0) s
    | .absent l va line => desc line (fun d => .absent d line l va s) s
    | .full line => desc line (fun d => .full d s) s

def excAlloc (cause : Nat) (c : Coord) (vol : Nat) : Exc := ⟨4, cause, some c.addr, false, vol⟩

/-- FAILS counts one more (R200). -/
def failCount (s : State) (die ctx dva : Nat) : State :=
  match volRead s true die ctx (dva + 0x64) 4 1 with
  | (.ok (v, _), s) => volWrite s die ctx (dva + 0x64) 4 ((v + 1) % 2 ^ 32)
  | (.error _, s) => s

/-- The failures that the core itself finds, causes 4 and 5: the descriptor's line is translated for writing first. -/
def failHere (s : State) (tm vol cause : Nat) (c : Coord) : Exc × State :=
  let die := coreOf s tm / 192
  let ctx := ctxOf s tm
  let dva := descVa s tm vol
  match volXlate s die ctx dva .write 1 with
  | (.error e, s) => (e, s)
  | (.ok _, s) => (excAlloc cause c vol, failCount s die ctx dva)

/-- Width of an element access as log2 of bytes. -/
def Width_log (w : Width) : Nat := match w with | .w8 => 0 | .w16 => 1 | .w32 => 2 | .w64 => 3 | .w128 => 4

/-! LDV, STV, ATOMV: R306, R307. -/

/-- LDV. -/
def execLdv (x : Ldv) (s0 : State) : Result :=
  runSeqR s0 (.ldv x) fun reads s n =>
    match volArgs n false with
    | .error e => { s := s, exc := some e }
    | .ok (vol, vx, vy, vz) =>
      match volFind s n.t vol (Coord.of vx vy vz) (Width_log x.width) with
      | .wait s => { s := s, busy := true }
      | .exc e s => { s := s, exc := some e }
      | .absent d _ _ _ s | .full d s =>
        { s := s, writes := [(x.d, natVals (extend x.sx (8 * x.width.bytes) d.bg) false (x.width.rwidth / 32))] }
      | .elem va extra s => match resolve s n.t .global 0 va x.width.bytes .load with
        | .exc e s => { s := s, exc := some e }
        | .stop pa => { s := s, stop := some pa }
        | .ok l s => issueLoad reads s n x.ctl s0.claims x.d (x.width.rwidth / 32) (pieces l x.width.bytes) fun p =>
          { id := 0, t := n.t, kind := .load x.sx (8 * p.bytes), parts := [p], dsts := []
            bulk := false, ord := x.ord, scope := x.scope, inL1 := false, l1seq := 0, due := extra, reply := none, mark := none }

/-- Send a link request; the thread waits for its answer, and the lanes above it with it (R198, R297). -/
def askLink (s : State) (n : LaneIn) (ins : Instr) (vol level wva : Nat) (desc : BitVec 1024) (x y z : Int) : SeqOut :=
  let l : LinkReq := { id := s.ids, t := n.t, ins := ins, pc := n.th.pc, level := level, wva := wva
                       dva := descVa s n.t.team vol, desc := desc, vol := vol, x := x, y := y, z := z
                       b := n.v.getD 4 [], word := n.word 0 }
  { s := { s with links := s.links ++ [l], ids := s.ids + 1 }, busy := true }

/-- STV and ATOMV up to the element: the VA, or what the lane does instead. -/
def volStore (s : State) (n : LaneIn) (ins : Instr) (w : Width) (f : Nat → Nat → State → SeqOut) : SeqOut :=
  match volArgs n false with
  | .error e => { s := s, exc := some e }
  | .ok (vol, vx, vy, vz) =>
    let c := Coord.of vx vy vz
    match volFind s n.t vol c (Width_log w) with
    | .wait s => { s := s, busy := true }
    | .exc e s => { s := s, exc := some e }
    | .full d s =>
      let (e, s) := failHere s n.t.team vol (if d.noalloc then 5 else 4) c
      { s := s, exc := some e }
    | .absent d line level wva s =>
      if d.noalloc then
        let (e, s) := failHere s n.t.team vol 5 c
        { s := s, exc := some e }
      else askLink s n ins vol level wva line vx vy vz
    | .elem va extra s => f va extra s

/-- STV. -/
def execStv (x : Stv) (s0 : State) : Result :=
  runSeqR s0 (.stv x) fun reads s n =>
    volStore s n (.stv x) x.width fun va _ s =>
      match resolve s n.t .global 0 va x.width.bytes .store with
      | .exc e s => { s := s, exc := some e }
      | .stop pa => { s := s, stop := some pa }
      | .ok l s =>
        if coreRequests < requests s (coreOf s n.t.team) + (pieces l x.width.bytes).length then { s := s, busy := true }
        else
          let s := issueStore (reads s) n.t l x.width.bytes (n.arg 4) (valPsn (n.v.getD 4 [])) false x.ord x.scope
          { s := advance s n.t x.ctl none, own := true }

/-- ATOMV: always placed .auto (R306). -/
def execAtomv (x : AtomV) (s0 : State) : Result :=
  runSeqR s0 (.atomv x) fun reads s n =>
    volStore s n (.atomv x) x.width fun va extra s =>
      match resolve s n.t .global 0 va x.width.bytes .atomic with
      | .exc e s => { s := s, exc := some e }
      | .stop pa => { s := s, stop := some pa }
      | .ok l s =>
        let o := issueLoad reads s n x.ctl s0.claims x.d (x.width.rwidth / 32) (pieces l x.width.bytes) fun p =>
          { id := 0, t := n.t
            kind := .atomic (atomOpOf x.aop x.kind x.rnd .auto x.width.bytes (n.arg 4) (valPsn (n.v.getD 4 [])) (n.word 0))
            parts := [p], dsts := [], bulk := false, ord := x.ord, scope := x.scope, inL1 := false, l1seq := 0, due := extra, reply := none, mark := none }
        if o.busy then o else { o with s := drawAtom o.s n.t x.aop x.kind x.rnd }

/-! Links: R198-R201, R479-R481. -/

/-- How a link ends. -/
inductive LinkEnd where
  /-- the thread walks again from the root -/
  | retry (s : State)
  /-- present: what the walk finds below the linked entry -/
  | present (w : WalkEnd) (s : State)
  | exc (e : Exc) (s : State)

/-- A ring's block: index, VA, extent and the offset of HEAD in the descriptor. -/
structure NewBlk where
  idx : Nat
  va : Nat
  size : Nat
  headOff : Nat
  head : Nat

/-- The kinds that a link needs from a level on: ring number 0 n2, 1 n1, 2 brick. -/
def linkNeeds (level : Nat) : List Nat := (List.range 3).drop level

def kindCause (k : Nat) : Nat := 3 - k

/-- reserve of R198, its second loop. -/
def reserveIdx (die ctx vol dva : Nat) (d : VolDesc) (c : Coord) : List Nat → State →
    Except (Exc × State) (List NewBlk × State)
  | [], s => .ok ([], s)
  | k :: rest, s =>
    let (list, head, _, log) := d.rings.getD k (0, 0, 0, 0)
    let va := (list + 4 * (head % 2 ^ log)) % 2 ^ 64
    match volRead s true die ctx va 4 1 with
    | (.error e, s) => .error (e, s)
    | (.ok (w, p), s) =>
      if p || (k == 0 && 0xFFFE < w) || 2 ^ 24 ≤ w then .error (excAlloc 6 c vol, failCount s die ctx dva)
      else
        let (base, size) := match k with
          | 0 => (d.n2, 0x4000)
          | 1 => (d.n1, 0x800)
          | _ => (d.brk, 64 * 2 ^ d.esz)
        let bva := (base + size * w) % 2 ^ 64
        match volXlate s die ctx bva .write 1 with
        | (.error e, s) => .error (e, s)
        | (.ok _, s) => match reserveIdx die ctx vol dva d c rest s with
          | .error e => .error e
          | .ok (l, s) => .ok (⟨w, bva, size, 0x58 - 8 * k, head⟩ :: l, s)

/-- BG in each of a brick's 64 elements. -/
def brickFill (esz bg : Nat) : Nat := (List.range 64).foldl (fun a i => a + bg * 2 ^ (8 * 2 ^ esz * i)) 0

/-- Fill the new blocks, each pointing at the next (R198). -/
def fillBlocks (s : State) (die ctx : Nat) (d : VolDesc) (c : Coord) : List (Nat × NewBlk) → State
  | [] => s
  | (k, b) :: rest =>
    let next := match rest with | (_, n) :: _ => 2 ^ 31 + n.idx | [] => 0
    let x := match k with
      | 0 => next * 2 ^ (32 * c.i2)
      | 1 => next * 2 ^ (32 * c.i1)
      | _ => brickFill d.esz d.bg
    fillBlocks (volWrite s die ctx b.va b.size x) die ctx d c rest

/-- The walk below an entry that is present: node `k` at level 0 or 1, the brick at level 2 (R198). -/
def walkBelow (s : State) (die ctx vol : Nat) (d : VolDesc) (c : Coord) (level k : Nat) : VWalk × State :=
  match level with
  | 0 => walkN2 s die ctx vol d c k
  | 1 => walkN1 s die ctx vol d c k
  | _ => (.brick ((d.brk + 64 * 2 ^ d.esz * k) % 2 ^ 64), s)

/-- reserve of R198 and what follows it, once the entry's word has been found absent and writable; `d` is the walk's descriptor. -/
def linkNew (s : State) (r : LinkReq) (die ctx : Nat) (c : Coord) (d : VolDesc) : LinkEnd :=
  match volXlate s die ctx r.dva .write 1 with
  | (.error e, s) => .exc e s
  | (.ok _, s) => match readDesc s true die ctx r.dva r.vol with
    | (.error e, s) => .exc e s
    | (.ok (now, _), s) =>
      let d := { d with rings := now.rings }
      let needs := linkNeeds r.level
      match needs.find? fun k => (match d.rings.getD k (0, 0, 0, 0) with
          | (_, head, tail, _) => (tail + 2 ^ 32 - head) % 2 ^ 32 == 0) with
      | some k => .exc (excAlloc (kindCause k) c r.vol) (failCount s die ctx r.dva)
      | none => match reserveIdx die ctx r.vol r.dva d c needs s with
        | .error (e, s) => .exc e s
        | .ok (blks, s) =>
          let s := blks.foldl (fun s b => volWrite s die ctx (r.dva + b.headOff) 4 ((b.head + 1) % 2 ^ 32)) s
          let s := fillBlocks s die ctx d c (needs.zip blks)
          let idx := match blks with | b :: _ => b.idx | [] => 0
          let s := volWrite s die ctx r.wva (if r.level == 0 then 8 else 4)
            (if r.level == 0 then 2 ^ 63 + c.key * 2 ^ 16 + idx else 2 ^ 31 + idx)
          .present (match blks.getLast? with | some b => .brick b.va d.esz | none => .full r.desc) s

/-- link of R198, at the home of the entry's line, after what stands there (R173). -/
def linkRun (s : State) (r : LinkReq) : LinkEnd :=
  let die := coreOf s r.t.team / 192
  let ctx := ctxOf s r.t.team
  let c := Coord.of r.x r.y r.z
  match parseDesc r.desc.toNat, volRead (settleHomes s) true die ctx r.wva (if r.level == 0 then 8 else 4) 1 with
  | none, (_, s) => .retry s
  | some _, (.error e, s) => .exc e s
  | some d, (.ok (e, p), s) =>
    let fmt := excVolFmt (if r.level == 0 then 1 else 2) r.wva r.vol
    if p || (if r.level == 0 then bit e 63 && bits e 62 52 != 0 else bits e 30 24 != 0 || (!bit e 31 && e != 0)) then .exc fmt s
    else if r.level == 0 && bit e 63 && bits e 51 16 != c.key then .retry s
    else if (if r.level == 0 then bit e 63 && bits e 15 0 != 0xFFFF else bit e 31) then
      let (w, s) := walkBelow s die ctx r.vol d c r.level (if r.level == 0 then bits e 15 0 else bits e 23 0)
      .present (w.toEnd d.esz r.desc) s
    else match volXlate s die ctx r.wva .write 1 with
      | (.error e, s) => .exc e s
      | (.ok _, s) => linkNew s r die ctx c d

/-- The store or atomic of a thread whose group has halted meanwhile, to the element in brick `va`: an issued instruction completes, as
far as its access meets no fault (R466). -/
def linkHalted (s : State) (r : LinkReq) (va : Nat) : State :=
  let c := Coord.of r.x r.y r.z
  let at_ := fun (w : Width) => (va + w.bytes * c.i0) % 2 ^ 64
  match r.ins with
  | .stv x => (match resolve s r.t .global 0 (at_ x.width) x.width.bytes .store with
    | .ok l s => issueStore s r.t l x.width.bytes (valNat r.b) (valPsn r.b) false x.ord x.scope
    | .exc _ s => s
    | .stop _ => s)
  | .atomv x => (match resolve s r.t .global 0 (at_ x.width) x.width.bytes .atomic with
    | .ok l s =>
      let (ds, s) := claimDst s r.t s.claims x.d (x.width.rwidth / 32)
      let s := (pieces l x.width.bytes).foldl (fun s p => issueAcc s (coreOf s r.t.team)
        { plainAcc r.t (.atomic (atomOpOf x.aop x.kind x.rnd .auto x.width.bytes (valNat r.b) (valPsn r.b) r.word)) p with
          dsts := dstsOf ds p.at_ p.bytes, ord := x.ord, scope := x.scope }) s
      drawAtom s r.t x.aop x.kind x.rnd
    | .exc _ s => s
    | .stop _ => s)
  | _ => s

/-- What a finished link brings its thread: the walk's end below the entry, which its core keeps for it, or its fault (R198, R200). -/
def linkAnswer (s : State) (r : LinkReq) (w : WalkEnd) : State :=
  match thread? s r.t with
  | some th =>
    if th.halted then
      haltSettle (match w with | .brick va _ => linkHalted s r va | _ => s) r.t.team r.t.gid
    else if th.pc == r.pc && (th.st == .blocked .busy || th.st == .eligible) then
      (match w with
       | .exc _ e => raiseOne s r.t e
       | w => leaveWalk s r.id (coreOf s r.t.team) (ctxOf s r.t.team) r.dva (Coord.of r.x r.y r.z) r.t w)
    else s
  | none => s

/-- A link that finds its bucket taken: the thread walks again from the root (R198), the core for it where its group has halted. -/
def linkRetry (s : State) (r : LinkReq) : State :=
  match thread? s r.t with
  | some th =>
    if !th.halted then s
    else
      let core := coreOf s r.t.team
      let (w, s) := walkTree s (core / 192) (ctxOf s r.t.team) r.dva r.vol (Coord.of r.x r.y r.z)
      (match w with
       | .absent level wva desc => { s with links := s.links ++ [{ r with level := level, wva := wva, desc := desc }] }
       | w => linkAnswer s r w)
  | none => s

/-- LINK_REQUEST (R198): request `k` at its home. -/
def execLinkRequest (k : Nat) (s : State) : Result :=
  match s.links[k]? with
  | none => .next s
  | some r =>
    match linkRun { s with links := s.links.eraseIdx k } r with
    | .retry s => .next (linkRetry s r)
    | .present w s => .next (linkAnswer s r w)
    | .exc e s => .next (linkAnswer s r (.exc none e))

/-! VINVAL: R203, R308. -/

/-- Every CLB drops the matching entries. -/
def clbDrop (s : State) (ctx dva : Nat) (key : Option Nat) : State :=
  { s with cores := s.cores.map fun (i, k) => (i, { k with clb := k.clb.filter fun e =>
      !(e.ctx == ctx && e.dva == dva && (match key with | some x => e.key == x | none => true)) }) }

/-- VINVAL: the thread is blocked until it completes. -/
def execVinval (x : VInval) (s0 : State) : Result :=
  runSeqR s0 (.vinval x) fun reads s n =>
    match volArgs n x.all with
    | .error e => { s := s, exc := some e }
    | .ok (vol, vx, vy, vz) =>
      let ctx := ctxOf s n.t.team
      let dva := descVa s n.t.team vol
      let key := if x.all then none else some (Coord.of vx vy vz).brickKey
      let s := clbDrop (reads s) ctx dva key
      let j : VInvJob :=
        { t := n.t, ctl := x.ctl, ctx := ctx, dva := dva, key := key, upto := s.ids, since := hubCycle s.now }
      { s := modThread { s with vinvs := s.vinvs ++ [j] } n.t fun th => { hintsAt s x.ctl th with st := .blocked .unit }, own := true }

/-- Is a command of a data engine a CPYV that captured a brick of the volume at its issue (R355)? -/
def holdsBrick (e : Eng) (dva : Nat) : Bool :=
  !e.delivered && e.brick.isSome && e.dva == dva

/-- Has every unit done its part: walks and links of the volume, copies of its bricks and the context's older accesses are over? -/
def vinvalReady (s : State) (j : VInvJob) : Bool :=
  (s.links.all fun l => !(l.dva == j.dva && l.id < j.upto && ctxOf s l.t.team == j.ctx)) &&
  (s.cores.all fun (_, k) => (k.acc.all fun a => !(a.id < j.upto && a.t.team / 2 ^ 28 == j.ctx)) &&
    k.walks.all fun w => !(w.ctx == j.ctx && w.dva == j.dva && w.id < j.upto && walkLive s w)) &&
  s.teams.all fun (tm, t) => tm / 2 ^ 28 != j.ctx || t.engs.all fun e => !(e.id < j.upto && holdsBrick e j.dva)

/-- VINVAL_COMPLETE (R203): job `k`. -/
def execVinvalComplete (k : Nat) (s : State) : Result :=
  match s.vinvs[k]? with
  | none => .next s
  | some j =>
    if !vinvalReady s j then .next s
    else
      let s := clbDrop { s with vinvs := s.vinvs.eraseIdx k } j.ctx j.dva j.key
      .next (match thread? s j.t with
        | some th => if th.st == .blocked .unit then proceed s j.t else s
        | none => s)

end Sys2Proof.Machine
end

