-- ==== Sys2Proof/Machine/Sync.lean ====
section
/-! DEFINITION. Class 0xA and ARRWAIT: fences and barriers (R309-R316, R433-R435), WAITV (R317), semaphores (R318), owner bits
(R320), versioned registers (R322), and the events that end their waits. A release waits at issue until what precedes it is
performed at its scope (R218, R226). -/

namespace Sys2Proof.Machine

/-! What is performed: R206, R221. -/

/-- May a release at a scope be performed: every earlier access of the thread is, and no store that it may have read is pending
(R218)? -/
def relReady (s : State) (t : TRef) (sc : Scope) : Bool :=
  let core := coreOf s t.team
  performedBefore s core ((getCore s core).acc.filter fun a => a.t == t) sc

/-- A release of a thread passes the bulk stores that it leaves pending (R209, R210). -/
def relPass (s : State) (t : TRef) : State := passStores s (coreOf s t.team) t

def FenceKind_covers (k : FenceKind) (a : Acc) : Bool :=
  match a.kind with
  | .load .. | .frag _ => k != .st
  | .store .. | .flush => k != .ld
  | .atomic _ => true
  | .pref | .poll => false

/-- FENCE (R310, R221): waits at issue for the earlier accesses that it covers. -/
def execFence (x : Fence) (s0 : State) : Result :=
  runSeq s0 (.fence x) fun s n =>
    let core := coreOf s n.t.team
    let done := (getCore s core).acc.all fun a =>
      a.t != n.t || !FenceKind_covers x.kind a || (a.bulk && !x.bulk) || performedAt s core a x.scope
    if !done || (x.scope == .system && (getCore s core).acks != 0) then { s := s, busy := true }
    else { s := if x.bulk && x.kind != .ld then relPass s n.t else s }

/-! Waiting: R61. -/

def Wait.ctl (w : Wait) : Ctl :=
  match infoOf w.instr with
  | some i => i.ctl
  | none => ⟨false, 7, 0, false, .none 0⟩

/-- The thread waits at its instruction (R61) with what it has read; `gw`: its value goes to a g destination (R115). -/
def startWait (s : State) (t : TRef) (w : Wait) (gw : Bool := true) : State :=
  let n := waitIn s t w gw
  let s := modGroup s t.team t.gid fun g =>
    { g with gwait := w.lastGs.foldl (fun m k => if (Tab.get? g.gregs k).isSome then markLane m k t.lane else m) g.gwait }
  modThread s t fun th => { hintsAt s w.ctl th with st := .waiting w, since := s.now, win := n }

/-! BAR: R311, R312. -/

/-- BAR: the thread waits, and its arrival is counted at the end of the cycle (R311). -/
def execBar (x : Bar) (s0 : State) : Result :=
  runWait s0 (.bar x) fun s n =>
    if !relReady s n.t .team then { s := s, busy := true }
    else
      let s := startWait (relPass s n.t) n.t (.bar x (n.arg 0))
      { s := modTeam s n.t.team fun tm => { tm with arrivals := tm.arrivals ++ [n.t.tid] }, own := true }

/-! Package barriers: R313-R316. -/

structure BarRec where
  count : Nat
  expect : Nat
  phase : Nat
  st : Nat

def readRec (s : State) (pa : Nat) : BarRec :=
  let v := (cohRead s pa 16).1
  ⟨v % 2 ^ 32, v / 2 ^ 32 % 2 ^ 32, v / 2 ^ 64 % 2 ^ 32, v / 2 ^ 96⟩

/-- The barrier unit writes a record, with the CMP of the translation that brought it there, if one did (R181). -/
def writeRec (s : State) (pa : Nat) (r : BarRec) (cmp : Option Bool) : State :=
  cohWrite s pa 16 (packFields [(0, 4, r.count), (4, 4, r.expect), (8, 4, r.phase), (12, 4, r.st)]) false cmp

/-- The waiting threads of a team at a BARX go on with a status. -/
def barxWake (s : State) (tm status : Nat) : State :=
  (waitersOf s tm).foldl (fun s (u, w) => match w with
    | .barx x _ true _ => wake s u [(x.n.toNat, status == 0)] [(x.d, natVals status false 1)]
    | _ => s) s

/-- Release every team that waits at a record. Teams that are not on a core repeat their wait later (R316). -/
def barxRelease (s : State) (pa status : Nat) : State :=
  let mine := s.barxs.filter fun b => b.pa == pa
  let s := { s with barxs := s.barxs.filter fun b => b.pa != pa }
  mine.foldl (fun s b => barxWake s b.team status) s

/-- The status that a record gives to an arrival, if it does not wait (R315). -/
def recStatus (ctx : Nat) (r : BarRec) : Option Nat :=
  if r.st % 4 == 0 then some 2
  else if r.st / 4 % 256 != ctx then some 4
  else if r.st % 4 != 1 then some 1
  else none

/-- Translate a BARX or BARINIT operand: 16-byte aligned, in this package's memory. -/
def barAddr (s : State) (n : LaneIn) (off : BitVec 19) : Res :=
  match resolve s n.t .global 0 (memAddr n off) 16 .store with
  | .ok (.mem pa cmp) s => .ok (.mem pa cmp) s
  | .ok _ s => .exc (excAddr 0 (memAddr n off) true) s
  | r => r

/-- BARX (R315); one repeated after a restore does not arrive again (R316). -/
def execBarx (x : Barx) (s0 : State) : Result :=
  runWait s0 (.barx x) fun s n =>
    if valPsn (n.v.getD 0 []) then { s := s, exc := some (poisonedAddr n) }
    else if !relReady s n.t .package then { s := s, busy := true }
    else match barAddr s n x.off with
      | .exc e s => { s := s, exc := some e }
      | .stop pa => { s := s, stop := some pa }
      | .ok l s =>
        let pa := match l with | .mem pa _ => pa | _ => 0
        let a := BitVec.ofNat 64 (memAddr n x.off)
        match n.th.barxSent with
        | some (ph, _) =>
          let s := startWait s n.t (.barx x a true ph) (firstOn s0 x.ctl n.t)
          let s := modThread s n.t fun th => { th with barxSent := none }
          let r := readRec s pa
          let status := if dieLost s (2 + paMdie pa) then some 1
            else if r.st % 4 != 1 then recStatus (ctxOf s n.t.team) r
            else if r.phase != ph then (recStatus (ctxOf s n.t.team) r).or (some 0) else none
          (match status with
           | some v => { s := wake s n.t [(x.n.toNat, v == 0)] [(x.d, natVals v false 1)], own := true }
           | none =>
             let b : BarxWait := ⟨n.t.team, pa, ph⟩
             { s := if s.barxs.contains b then s else { s with barxs := s.barxs ++ [b] }, own := true })
        | none =>
          { s := barxSettle (startWait s n.t (.barx x a false 0) (firstOn s0 x.ctl n.t)) n.t.team, own := true }

/-- One team arrival at the record's home (R315, R426, R433). -/
def barxApply (s : State) (tm pa : Nat) (cmp : Bool) : State :=
  if dieLost s (2 + paMdie pa) then barxWake s tm 1
  else
    let r := readRec s pa
    match recStatus (tm / 2 ^ 28) r with
    | some v => barxWake s tm v
    | none =>
      let full := (r.count + 1) % 2 ^ 32 == r.expect
      let s := { s with barxs := s.barxs ++ [⟨tm, pa, r.phase⟩], barRecs := setInsert s.barRecs pa }
      let s := (waitersOf s tm).foldl (fun s (u, w) => match w with
        | .barx x a true _ => modThread s u fun th => { th with st := .waiting (.barx x a true r.phase) }
        | _ => s) s
      if full then barxRelease (writeRec s pa { r with count := 0, phase := r.phase + 1 } (some cmp)) pa 0
      else writeRec s pa { r with count := r.count + 1 } (some cmp)

/-- BARX_ARRIVE (R315): message `k`. -/
def execBarxArrive (k : Nat) (s : State) : Result :=
  match s.msgs[k]? with
  | some (.barx tm pa _ cmp _) => .next (barxApply { s with msgs := s.msgs.eraseIdx k } tm pa cmp)
  | _ => .next s

/-- BARINIT (R314): the thread is blocked until its BARINIT has been applied. -/
def execBarinit (x : BarInit) (s0 : State) : Result :=
  runSeqR s0 (.barinit x) fun reads s n =>
    if valPsn (n.v.getD 0 []) then { s := s, exc := some (poisonedAddr n) }
    else if !relReady s n.t .package then { s := s, busy := true }
    else match barAddr s n x.off with
      | .exc e s => { s := s, exc := some e }
      | .stop pa => { s := s, stop := some pa }
      | .ok l s =>
        let (pa, cmp) := match l with | .mem pa cmp => (pa, cmp) | _ => (0, false)
        let s := reads s
        let m : Msg := .barinit n.t x.ctl (ctxOf s n.t.team) pa (BitVec.ofNat 32 (n.arg 1)) cmp s.ids
        { s := modThread { s with msgs := s.msgs ++ [m], ids := s.ids + 1 } n.t fun th =>
            { hintsAt s x.ctl th with st := .blocked .unit }, own := true }

/-- BARINIT_APPLY (R314): message `k`; teams that wait on the record are released with status 3. -/
def execBarinitApply (k : Nat) (s : State) : Result :=
  match s.msgs[k]? with
  | some (.barinit t _ ctx pa e cmp _) =>
    let s := { s with msgs := s.msgs.eraseIdx k }
    let s := if dieLost s (2 + paMdie pa) then logEvent s unitH 3 1 pa 1 ctx 1
      else { writeRec s pa ⟨0, e.toNat, 0, if e == 0 then 0 else 1 + 4 * ctx⟩ (some cmp) with barRecs := setPut s.barRecs pa (e != 0) }
    let s := if dieLost s (2 + paMdie pa) then s else barxRelease s pa 3
    .next (match thread? s t with
      | some th => if th.st == .blocked .unit then proceed s t else s
      | none => s)
  | _ => .next s

/-! WAITV: R317. -/

def waitBytes (x : Waitv) : Nat := if x.wide then 8 else 4

/-- The access of a WAITV that reads another package. -/
def waitAcc (s : State) (t : TRef) : Option Acc :=
  (getCore s (coreOf s t.team)).acc.find? fun a => a.t == t && a.dsts.isEmpty && (match a.kind, a.part.loc with
    | .poll, .remote _ => true
    | _, _ => false)

/-- One reading of the word. -/
inductive Reading where
  | value (v : Nat) (psn : Bool) (s : State)
  /-- the data must be fetched first -/
  | later (s : State)
  | exc (e : Exc) (s : State)
  | stop (pa : Nat)

def waitRead (s : State) (t : TRef) (x : Waitv) (addr : Nat) : Reading :=
  let core := coreOf s t.team
  let n := waitBytes x
  match resolve s t x.space 0 addr n .load with
  | .exc e s => .exc e s
  | .stop pa => .stop pa
  | .ok l s => match l with
    | .mem pa _ => (match coreLoad s core (lineOf pa) (pa % 128) n with
      | some (v, p, s) => .value v p (readStores s core ⟨l, n, 0⟩)
      | none => .later (postReq s (agentOf core) (lineOf pa) .rds))
    | .spad tm o => let (v, p) := spadLoad s tm o n; .value v p s
    | .cst o => let (v, p) := cstRead s core o n; .value v p s
    | .dev off => let (v, p) := devRead s (ctxOf s t.team) off n; .value v p s
    | .remote pa => match waitAcc s t with
      | some a => (match a.reply with
        | some (v, p) => .value v p (dropAcc s core a.id)
        | none => .later s)
      | none => .later (if coreRequests ≤ requests s core then s else issueAcc s core (plainAcc t .poll ⟨.remote pa, n, 0⟩))

/-- Test a reading: the thread goes on with D, or waits on. -/
def waitTest (s : State) (t : TRef) (x : Waitv) (addr b : Nat) : Option State :=
  match waitRead s t x addr with
  | .stop _ => none
  | .exc e s => some (raiseOne (modThread s t fun th => { th with st := .eligible, win := none }) t e)
  | .later s => some s
  | .value v p s =>
    if waitCond x.c.toNat (8 * waitBytes x) v b then
      some (wake s t [] [(x.d, natVals v p (waitBytes x / 4))])
    else some s

/-- WAITV: the word is read at issue, and again by WAITV_REREAD while the test fails. -/
def execWaitv (x : Waitv) (s0 : State) : Result :=
  runWait s0 (.waitv x) fun s n =>
    let core := coreOf s n.t.team
    let addr := memAddr n x.off
    if valPsn (n.v.getD 0 []) then { s := s, exc := some (poisonedAddr n) }
    else match resolve s n.t x.space 0 addr (waitBytes x) .load with
      | .exc e s => { s := s, exc := some e }
      | .stop pa => { s := s, stop := some pa }
      | .ok l s' =>
        let me : Acc := { plainAcc n.t (.load false 0) ⟨l, waitBytes x, 0⟩ with id := s'.ids, cyc := s'.now }
        if !loadReady s' core me then { s := s, busy := true }
        else
          let s := startWait s' n.t (.waitv x (BitVec.ofNat 64 addr) (n.arg 1)) (firstOn s0 x.ctl n.t)
          match waitTest s n.t x addr (n.arg 1) with
          | some s => { s := s, own := true }
          | none => { s := s, own := true }

/-- WAITV_REREAD (R317). -/
def execWaitvReread (t : TRef) (s : State) : Result :=
  match thread? s t with
  | none => .next s
  | some th => match th.st with
    | .waiting (.waitv x a b) =>
      if (waitersOf s t.team).isEmpty then .next s
      else (match waitRead s t x a.toNat with
        | .stop pa => .fault (.reservedPackage pa)
        | _ => .next ((waitTest s t x a.toNat b).getD s))
    | _ => .next s

/-! Semaphores: R318. -/

def semOf (s : State) (core n : Nat) : Nat := (Tab.getD (getCore s core).sems n 0).toNat
def setSem (s : State) (core n v : Nat) : State :=
  modCore s core fun c => { c with sems := if v % 2 ^ 32 == 0 then Tab.erase c.sems n else Tab.set c.sems n (BitVec.ofNat 32 v) }

/-- Threads of a core that wait at a semaphore, in the order in which they began to wait; of those that began in one cycle the ones of
the lower subcore first (DESIGN CHOICE: R318 orders the lanes of one issue alone, assumption 74). -/
def semWaiters (s : State) (core n : Nat) : List (TRef × SemWait × Nat) :=
  let l := (teamsOn s core).flatMap fun (k, _) => (waitersOf s k).filterMap fun (t, w) => match w with
    | .semwait x b => if x.n.toNat == n then some (t, x, b.toNat) else none
    | _ => none
  -- by the cycle of the issue, then the lanes of one issue in ascending order
  let key := fun (t : TRef) => match thread? s t, group? s t.team t.gid with
    | some th, some g => (th.since * 4 + g.subcore) * 32 + t.lane
    | _, _ => 0
  sortBy (fun a b => key a.1 ≤ key b.1) l

/-- Satisfy waiters: a .dec waiter that is not satisfied holds back the .dec waiters behind it. -/
def semRelease (core n : Nat) : List (TRef × SemWait × Nat) → Bool → State → State
  | [], _, s => s
  | (t, x, b) :: rest, stuck, s =>
    let v := semOf s core n
    if v < b then semRelease core n rest (stuck || x.dec) s
    else if x.dec && stuck then semRelease core n rest stuck s
    else
      let s := if x.dec then setSem s core n (v - b) else s
      semRelease core n rest stuck (wake s t [] [])

def semSettle (s : State) (core n : Nat) : State := semRelease core n (semWaiters s core n) false s

/-- SEMINC: a release towards the threads of the core (R226). -/
def execSeminc (x : Sem) (s0 : State) : Result :=
  runSeqR s0 (.seminc x) fun reads s n =>
    if !relReady s n.t .team then { s := s, busy := true }
    else
      let core := coreOf s n.t.team
      let s := advance (reads (relPass s n.t)) n.t x.ctl none
      { s := semSettle (setSem s core x.n.toNat (semOf s core x.n.toNat + n.arg 0)) core x.n.toNat, own := true }

/-- SEMSET. -/
def execSemset (x : Sem) (s0 : State) : Result :=
  runSeqR s0 (.semset x) fun reads s n =>
    let core := coreOf s n.t.team
    let s := advance (reads s) n.t x.ctl none
    { s := semSettle (setSem s core x.n.toNat (n.arg 0)) core x.n.toNat, own := true }

/-- SEMWAIT. -/
def execSemwait (x : SemWait) (s0 : State) : Result :=
  runWait s0 (.semwait x) fun s n =>
    let s := startWait s n.t (.semwait x (BitVec.ofNat 32 (n.arg 0)))
    { s := semSettle s (coreOf s n.t.team) x.n.toNat, own := true }

/-! Owner bits: R320. -/

def setOwner (s : State) (tm page : Nat) (e : Bool) : State :=
  modTeam s tm fun t => { t with owner := if e then t.owner ||| BitVec.ofNat 96 (2 ^ page)
                                          else t.owner &&& ~~~(BitVec.ofNat 96 (2 ^ page)) }

/-- A page has become T: threads that wait for it go on. -/
def ownSettle (s : State) (tm : Nat) : State :=
  (waitersOf s tm).foldl (fun s (t, w) => match w with
    | .ownwait _ off => if pageE s tm (off.toNat / 4096) then s else wake s t [] []
    | _ => s) s

/-- Does an outstanding engine command of any team name the page? -/
def pageNamed (s : State) (tm page : Nat) : Bool :=
  s.teams.any fun (_, t) => t.engs.any fun e => e.pages.contains (tm, page)

/-- OWN.t and OWN.e. -/
def execOwn (x : Own) (s0 : State) : Result :=
  runSeqR s0 (.own x) fun reads s n =>
    let tm := n.t.team
    let page := n.arg 0 / 4096
    if pagesOf s tm ≤ page then { s := s, exc := some (excAddr 4 (n.arg 0) false) }
    else if !relReady s n.t .team then { s := s, busy := true }
    else
      let e := pageE s tm page
      let flip := if x.toE then !e else e && !pageNamed s tm page
      let s := advance (modThread (reads (relPass s n.t)) n.t fun th => setPred th x.n.toNat flip) n.t x.ctl none
      { s := if flip then ownSettle (setOwner s tm page x.toE) tm else s, own := true }

/-- OWNWAIT. -/
def execOwnwait (x : OneSrc) (s0 : State) : Result :=
  runWait s0 (.ownwait x) fun s n =>
    let tm := n.t.team
    if pagesOf s tm ≤ n.arg 0 / 4096 then { s := s, exc := some (excAddr 4 (n.arg 0) false) }
    else
      { s := ownSettle (startWait s n.t (.ownwait x (BitVec.ofNat 32 (n.arg 0)))) tm, own := true }

/-! Versioned registers: R322, R498. -/

def vsOf (s : State) (i : Nat) : VsReg := Tab.getD s.vs i ⟨0, 0, false⟩

/-- Waiting VREADs whose version has come are satisfied. -/
def vsSettle (s : State) (i : Nat) : State :=
  (allWaiters s).foldl (fun s (t, w) => match w with
    | .vread x b =>
      let r := vsOf s i
      if x.i.toNat == i && reached r.version.toNat b.toNat then
        wake s t [(x.n.toNat, r.version == b)] [(x.d, natVals r.value.toNat r.psn 2)]
      else s
    | _ => s) s

/-- VREAD. -/
def execVread (x : VRead) (s0 : State) : Result :=
  runWait s0 (.vread x) fun s n =>
    let s := startWait s n.t (.vread x (BitVec.ofNat 32 (n.arg 0))) (firstOn s0 x.ctl n.t)
    { s := vsSettle s x.i.toNat, own := true }

/-- VWRITE: a release at package scope. -/
def execVwrite (x : VWrite) (s0 : State) : Result :=
  runSeqR s0 (.vwrite x) fun reads s n =>
    if !relReady s n.t .package then { s := s, busy := true }
    else
      let i := x.i.toNat
      let r := vsOf s i
      let d := (n.arg 1 + 2 ^ 32 - r.version.toNat) % 2 ^ 32
      let ok := 1 ≤ d && d < 2 ^ 31
      let s := advance (modThread (reads s) n.t fun th => setPred th x.n.toNat ok) n.t x.ctl none
      let new : VsReg := ⟨BitVec.ofNat 64 (n.arg 0), BitVec.ofNat 32 (n.arg 1), valPsn (n.v.getD 0 [])⟩
      { s := if ok then vsSettle { s with vs := Tab.set s.vs i new } i else s, own := true }

/-! ARRWAIT: R321. -/

/-- Threads of a group whose count of arrivals has come. -/
def arrSettle (s : State) (tm gid : Nat) : State :=
  match group? s tm gid with
  | none => s
  | some g => (waitersOf s tm).foldl (fun s (t, w) => match w with
    | .arrwait _ c => if t.gid == gid && reached g.arr.toNat c.toNat then wake s t [] [] else s
    | _ => s) s

/-- ARRWAIT. -/
def execArrwait (x : OneSrc) (s0 : State) : Result :=
  runWait s0 (.arrwait x) fun s n =>
    { s := arrSettle (startWait s n.t (.arrwait x (BitVec.ofNat 32 (n.arg 0)))) n.t.team n.t.gid, own := true }

end Sys2Proof.Machine
end

