-- ==== Sys2Proof/Machine/Engine.lean ====
section
/-! DEFINITION. Engine commands of classes 0xE and 0xF: issue and completion (R351, R352), engine-time addresses and faults (R490,
R491), restarts (R488, R489), Courier copies (CPY and CPYV: R353-R355) and Parcel lists (GATH, SCAT, IDEM, IDEMEND: R356-R359). -/

namespace Sys2Proof.Machine

/-! Commands. -/

def findEng (s : State) (tm e : Nat) : Option Eng :=
  match team? s tm with
  | some t => t.engs.find? fun x => x.id == e
  | none => none

/-- Requests of a command that are on their way. -/
def engPending (s : State) (tm e : Nat) : Bool :=
  s.rreqs.any fun r => match r.eng with | some (a, b, _) => a == tm && b == e | none => false

/-- Has a command writes on their way to other packages: of a unit that it has not ended (R95, R358)? -/
def engStoring (s : State) (tm e : Nat) : Bool :=
  s.rreqs.any fun r => match r.eng, r.op with
    | some _, .load .. => false
    | some (a, b, _), _ => a == tm && b == e
    | none, _ => false

/-- Has a command a unit in progress? -/
def unitOpen (s : State) (tm : Nat) (e : Eng) : Bool := engPending s tm e.id || !e.replies.isEmpty || e.sent || e.work.isSome

/-- Does a stop discard the unit in progress: a query batch, the work of an idempotent list after its last marker (R95, R358)? -/
def stopDiscards (e : Eng) : Bool := e.cls == 4 || (e.cls == 2 && e.idem)

/-- A command that has neither stopped nor failed, of a team that is resident. -/
def engLive (s : State) (tm : Nat) (e : Eng) : Bool :=
  (match team? s tm with | some t => t.st == .resident | none => false) && !e.stopped && e.failed.isNone

/-- A command that works. One that has been told to stop ends the unit it is in, but for one that discards it (R95). -/
def engRuns (s : State) (tm : Nat) (e : Eng) : Bool :=
  engLive s tm e && (e.stopSent.isNone || (unitOpen s tm e && !stopDiscards e))

/-- The command of the thread whose operands are captured (R351); 255 stands for a Relay command that runs. -/
def Eng.fresh (t : TRef) (th : Thread) (ins : Instr) (cls sem : Nat) (a b c : Nat) : Eng :=
  { id := 0, cls := cls, sem := sem, gid := t.gid, lane := t.lane, pc := th.pc, done := 0, opa := BitVec.ofNat 64 a
    opb := BitVec.ofNat 64 b, opc := BitVec.ofNat 64 c, imm := 0, ins := ins, pages := [], idem := th.idem, retries := 0
    brick := none, bg := 0, esz := 0, dva := 0, stopSent := none, stopped := false, failed := none, slot := none, cstat := 255,
    replies := [], sent := false, work := none, wback := false, delivered := false }

/-- Commands a team may have outstanding (R98, R351). -/
def maxEngs : Nat := 16

/-- The queue of a cluster's sort unit (class 3) or traversal unit (class 4) (R367). -/
def clusterQ (s : State) (cl cls : Nat) : List (Nat × Nat) :=
  match Tab.get? s.clusters cl with
  | some c => if cls == 3 then c.sortQ else c.travQ
  | none => []

def setClusterQ (s : State) (cl cls : Nat) (q : List (Nat × Nat)) : State :=
  let c := Tab.getD s.clusters cl ⟨false, [], []⟩
  { s with clusters := Tab.set s.clusters cl (if cls == 3 then { c with sortQ := q } else { c with travQ := q }) }

/-- Does a cluster unit still hold a command: it has neither ended, failed nor stopped (R367)? -/
def unitHolds (s : State) (x : Nat × Nat) : Bool :=
  match findEng s x.1 x.2 with
  | some e => !e.stopped && e.failed.isNone
  | none => false

/-- Is there room at the unit that would take the command? -/
def unitRoom (s : State) (core cls : Nat) : Bool :=
  !(cls == 3 || cls == 4) || ((clusterQ s (core / 8) cls).filter (unitHolds s)).length < 16

/-- Queue a command at its cluster unit; those that have ended leave the queue. -/
def queueUnit (s : State) (tm : Nat) (e : Eng) : State :=
  let cl := coreOf s tm / 8
  if e.cls == 3 || e.cls == 4 then
    setClusterQ s cl e.cls (((clusterQ s cl e.cls).filter fun x => x != (tm, e.id) && (findEng s x.1 x.2).isSome) ++ [(tm, e.id)])
  else s

/-- Steps 3 to 5 of R351 for a command that has passed its checks; `pages` are pairs of team and page. One that is blocked keeps what
it has read; its last-use registers are released when it is accepted, since until then a save may find the thread at its instruction
again (DEDUCED, assumption 87). -/
def issueEng (reads : State → State) (s : State) (n : LaneIn) (c : Ctl) (e : Eng) (pages : List (Nat × Nat)) : SeqOut :=
  let tm := n.t.team
  let live := match team? s tm with | some t => (liveEngs t).length | none => 0
  if maxEngs ≤ live then { s := s, busy := true, cmd := some (e, pages) }
  else match pages.find? fun (t, p) => pageE s t p with
    | some (_, p) => { s := s, exc := some (excOwner (4096 * p)) }
    | none =>
      if !relReady s n.t .package || !unitRoom s (coreOf s tm) e.cls then { s := s, busy := true, cmd := some (e, pages) }
      else
        let s := reads s
        let s := pages.foldl (fun s (t, p) => setOwner s t p true) s
        let e := { e with id := s.ids, pages := pages }
        let s := { modTeam s tm fun t => { t with engs := t.engs ++ [e] } with ids := s.ids + 1 }
        { s := advance (queueUnit s tm e) n.t c none, own := true }

/-- An engine command at issue (R351): `f` makes steps 1 and 2; a command that was blocked goes on at step 3. -/
def runEng (s : State) (ins : Instr) (f : (State → State) → State → LaneIn → SeqOut) : Result :=
  runSeqR s ins fun reads s n => match n.th.win.bind (·.cmd), infoOf ins with
    | some (e, pages), some i => issueEng reads s n i.ctl e pages
    | _, _ => f reads s n

/-- Pages of the command's own team, each once. -/
def ownPages (tm : Nat) (l : List Nat) : List (Nat × Nat) := (l.foldl setInsert []).map fun p => (tm, p)

/-- Engine-operand address fault (R452, SUB 6). -/
def excEngine (a : Nat) : Exc := excAddr 6 a false

def pagesIn (o n : Nat) : List Nat :=
  if n == 0 then [] else (List.range ((o + n - 1) / 4096 - o / 4096 + 1)).map fun i => o / 4096 + i

/-- The command completes: its pages flip to T and its semaphore gains 1, in one step (R352). -/
def engDone (s : State) (tm : Nat) (e : Eng) : State :=
  let s := modTeam s tm fun t => { t with engs := t.engs.filter fun x => x.id != e.id }
  let cl := coreOf s tm / 8
  let s := if e.cls == 3 || e.cls == 4 then setClusterQ s cl e.cls ((clusterQ s cl e.cls).filter fun x => x != (tm, e.id)) else s
  let s := e.pages.foldl (fun s (t, p) => setOwner s t p false) s
  let core := coreOf s tm
  let s := setSem s core e.sem (semOf s core e.sem + 1)
  let s := (e.pages.foldl (fun l (t, _) => setInsert l t) [tm]).foldl (fun s t => ownSettle s t) s
  teamSettle (semSettle s core e.sem) tm

/-- The unit that runs a command (R412): the core for Courier, the die's port, the cluster, the hub's Relay. -/
def engUnit (s : State) (tm cls : Nat) : Nat :=
  let core := coreOf s tm
  match cls with
  | 1 => unitCore core
  | 2 => unitDie (core / 192)
  | 5 => unitHub 1
  | _ => unitCluster (core / 8)

/-! Engine-time addresses: R352, R184. -/

/-- A place that an engine reads or writes. -/
inductive EPlace where
  | spad (off : Nat)
  | cst (off : Nat)
  /-- an address of space 0, or of space 4 of the issuing thread -/
  | va (a : Nat)
  | local (a : Nat)
  deriving DecidableEq, Repr

inductive ERes where
  | ok (l : Loc) (s : State)
  /-- the state keeps what the walk has cached (R184) -/
  | err (e : EngStop) (s : State)
  | stop (pa : Nat)

/-- Resolve a place; `al` is the alignment asked for. -/
def engResolve (s : State) (tm : Nat) (e : Eng) (p : EPlace) (al : Nat) (need : Need) : ERes :=
  let go := fun (va : Nat) =>
    if va % al != 0 then ERes.err ⟨0x11, BitVec.ofNat 64 va, true⟩ s
    else if !canonical va then .err ⟨0x12, BitVec.ofNat 64 va, true⟩ s
    else match dieXlate s (coreOf s tm / 192) (ctxOf s tm) va need with
      | (.trans, s) => .err ⟨0x05, BitVec.ofNat 64 va, true⟩ s
      | (.perm, s) => .err ⟨0x06, BitVec.ofNat 64 va, true⟩ s
      | (.ok pa cmp, s) =>
        if 192 ≤ paPkg pa then .stop pa
        else if paDev pa then .err ⟨0x12, BitVec.ofNat 64 va, true⟩ s
        else if paPkg pa == s.hpkg then .ok (.mem pa cmp) s
        else .ok (.remote pa) s
  match p with
  | .spad o => .ok (.spad tm o) s
  | .cst o => .ok (.cst o) s
  | .va a => go a
  | .local a =>
    let va := (localBase s ⟨tm, e.gid, e.lane⟩ + a) % 2 ^ 64
    if 0x800000 ≤ a then .err ⟨0x12, BitVec.ofNat 64 va, true⟩ s else go va

/-- The agent through which a command reads and writes memory: its die's L2, or H for Relay (R230). -/
def engAgent (s : State) (tm : Nat) (e : Eng) : Nat := if e.cls == 5 then 2 else agentOf (coreOf s tm)

/-- Write through an agent; a write to a lost memory die is discarded and logged (R426). -/
def engPutMem (s : State) (agent ctx pa n x : Nat) (psn cmp : Bool) : State :=
  if dieLost s (2 + lineMdie (lineOf pa)) then logEvent s unitH 3 1 pa 1 ctx 1
  else agentWrite s agent pa n x psn cmp

/-- One move of a unit: bytes from a place to a place; `op` 1 and 2 add (R356). -/
structure Mv where
  src : EPlace
  dst : EPlace
  bytes : Nat
  al : Nat
  op : Nat
  /-- what it moves is poisoned: its address was (R410, assumption 86) -/
  psn : Bool

/-- The RED that an add of a scatter executes (R356). -/
def addOp (op bytes v : Nat) (psn : Bool) : AtomOp :=
  ⟨.add, if op == 1 then .uns else .flt, .rn, .home, bytes, BitVec.ofNat 64 v, 0, 0, psn⟩

inductive UnitRes where
  | done (s : State)
  /-- remote values are still to come -/
  | wait (s : State)
  | err (e : EngStop) (s : State)
  | stop (pa : Nat)

/-- Ask for the remote sources of a unit: the state, and whether any value is still missing. -/
def askRemote (tm : Nat) (e : Eng) : List (Nat × Mv) → State → Bool → State × Bool
  | [], s, w => (s, w)
  | (i, m) :: rest, s, w =>
    match engResolve s tm e m.src m.al .read with
    | .ok (.remote pa) s =>
      if e.replies.any fun r => r.1 == i then askRemote tm e rest s w
      else if s.rreqs.any fun r => r.eng == some (tm, e.id, i) then askRemote tm e rest s true
      else
        let s' := sendRemoteFor s (coreOf s tm) 0 (ctxOf s tm) (.load pa m.bytes) (some (tm, e.id, i))
        askRemote tm e rest s' true
    | .ok _ s => askRemote tm e rest s w
    | .err _ s => (s, w)
    | .stop _ => (s, w)

/-- Perform one move from its source value. -/
def putMove (s : State) (tm : Nat) (e : Eng) (i : Nat) (m : Mv) (v : Nat) (p : Bool) : UnitRes :=
  match engResolve s tm e m.dst m.al .write with
  | .err x s => .err x s
  | .stop pa => .stop pa
  | .ok l s => match l with
    | .spad t o => .done (spadStore s t o m.bytes v p)
    | .cst o => .done (modCore s (coreOf s tm) fun c => { c with cst := memStore c.cst o m.bytes v, cpsn := granPut c.cpsn o m.bytes p })
    | .mem pa cmp =>
      if m.op == 0 then .done (engPutMem s (engAgent s tm e) (ctxOf s tm) pa m.bytes v p cmp)
      else if dieLost s (2 + lineMdie (lineOf pa)) then .done (logEvent s unitH 3 1 pa 1 (ctxOf s tm) 1)
      else
        let (_, _, s) := atomicAtHome s (engAgent s tm e) pa (addOp m.op m.bytes v p) (some cmp)
        .done s
    | .remote pa =>
      let op : RemoteOp := if m.op == 0 then .store pa m.bytes (BitVec.ofNat 256 v) p
        else .atomic pa m.bytes .add (if m.op == 1 then .uns else .flt) .rn (BitVec.ofNat 64 v) 0 0 p
      .done (sendRemoteFor s (coreOf s tm) 0 (ctxOf s tm) op (some (tm, e.id, i)))
    | .dev _ => .done s

/-- The value that a move reads. -/
def getMove (s : State) (tm : Nat) (e : Eng) (i : Nat) (m : Mv) : Except ((EngStop × State) ⊕ Nat) (Nat × Bool × State) :=
  match engResolve s tm e m.src m.al .read with
  | .err x s => .error (.inl (x, s))
  | .stop pa => .error (.inr pa)
  | .ok l s => match l with
    | .spad t o => let (v, p) := spadLoad s t o m.bytes; .ok (v, p, s)
    | .cst o => let (v, p) := cstRead s (coreOf s tm) o m.bytes; .ok (v, p, s)
    | .mem pa _ => let ((v, p), s) := agentRead s (engAgent s tm e) pa m.bytes; .ok (v, p, s)
    | .remote _ => (match e.replies.find? fun r => r.1 == i with
      | some (_, v, p) => .ok (v, p, s)
      | none => .ok (0, true, s))
    | .dev _ => .ok (0, false, s)

def runMoves (tm : Nat) (e : Eng) : List (Nat × Mv) → State → UnitRes
  | [], s => .done s
  | (i, m) :: rest, s =>
    match getMove s tm e i m with
    | .error (.inl (x, s)) => .err x s
    | .error (.inr pa) => .stop pa
    | .ok (v, p, s) => match putMove s tm e i m v (p || m.psn) with
      | .done s => runMoves tm e rest s
      | r => r

/-- Run one unit of a command: its remote sources first, then its moves in order. -/
def runUnit (s : State) (tm : Nat) (e : Eng) (ms : List Mv) : UnitRes :=
  let l := (List.range ms.length).zip ms
  let (s, w) := askRemote tm e l s false
  if w then .wait s
  else match findEng s tm e.id with
    | some e => runMoves tm e l s
    | none => .done s

/-- The unit in progress is performed and ends at `done`. -/
def endUnit (s : State) (tm : Nat) (e : Eng) (done : Nat) : State :=
  modEng s tm e.id fun e => { e with done := done, replies := [], sent := false }

/-- The state after a unit that ends at `done`: it is performed when its remote writes are (R358). -/
def afterUnit (tm : Nat) (e : Eng) (r : UnitRes) (done : Nat) : Result :=
  match r with
  | .stop pa => .fault (.reservedPackage pa)
  | .wait s => .next s
  | .err x s => .next (modEng s tm e.id fun e => { e with failed := some x, replies := [] })
  | .done s =>
    if engStoring s tm e.id then .next (modEng s tm e.id fun e => { e with replies := [], sent := true })
    else .next (endUnit s tm e done)

/-! Courier: R353-R355. -/

/-- A shape: LEN0, N1, N2 and the strides SS1, SS2, DS1, DS2. -/
structure Shape where
  len : Nat
  n1 : Nat
  n2 : Nat
  ss1 : Int
  ss2 : Int
  ds1 : Int
  ds2 : Int
  /-- its record reads poisoned (assumption 86) -/
  psn : Bool

/-- The shape of a copy; none where it breaks R353. -/
def cpyShape (s : State) (tm : Nat) (x : Cpy) (c : Nat) : Option Shape :=
  if x.dim.val == 0 then (if c % 4 == 0 then some ⟨c, 1, 1, 0, 0, 0, 0, false⟩ else none)
  else if c % 32 != 0 || 4096 * pagesOf s tm < c + 32 then none
  else
    let f := fun o => (spadLoad s tm (c + o) 4).1
    let g := fun o => signed 32 (f o)
    let sh : Shape := ⟨f 0, f 4, f 8, g 0x10, g 0x14, g 0x18, g 0x1C, (spadLoad s tm c 32).2⟩
    let okN := fun n => 1 ≤ n && n ≤ 2 ^ 24
    if 4 ≤ sh.len && sh.len ≤ 2 ^ 24 && sh.len % 4 == 0 && okN sh.n1 && okN sh.n2 && (x.dim.val == 2 || sh.n2 == 1) &&
       f 0x0C == 0 && [sh.ss1, sh.ss2, sh.ds1, sh.ds2].all (fun k => k % 4 == 0) && sh.len * sh.n1 * sh.n2 < 2 ^ 32
    then some sh else none

/-- Lowest byte and one past the highest byte of a strided range. -/
def strideSpan (base len n1 n2 : Nat) (s1 s2 : Int) : Int × Int :=
  let e1 := s1 * (n1 - 1 : Nat)
  let e2 := s2 * (n2 - 1 : Nat)
  (base + min 0 e1 + min 0 e2, base + max 0 e1 + max 0 e2 + len)

/-- The pages that the rows of a strided range touch. -/
def stridePages (base len n1 n2 : Nat) (s1 s2 : Int) : List Nat :=
  let n1 := if s1 == 0 then min n1 1 else n1
  let n2 := if s2 == 0 then min n2 1 else n2
  (List.range n2).foldl (fun l (p : Nat) => (List.range n1).foldl (fun l (r : Nat) =>
    (pagesIn ((base : Int) + s2 * (p : Int) + s1 * (r : Int)).toNat len).foldl setInsert l) l) []

/-- A place of a space. -/
def placeOf (sp : Space) (a : Nat) : EPlace :=
  match sp with
  | .spad => .spad a
  | .cst => .cst a
  | .local => .local a
  | _ => .va a

/-- Does a strided range lie in its space, for scratchpad and constant store? -/
def inSpace (s : State) (tm : Nat) (sp : Space) (r : Int × Int) (len : Nat) : Bool :=
  len == 0 || (match sp with
    | .spad => 0 ≤ r.1 && r.2 ≤ (4096 * pagesOf s tm : Nat)
    | .cst => 0 ≤ r.1 && r.2 ≤ 131072
    | _ => true)

def isVaSpace (sp : Space) : Bool := sp == .global || sp == .local

/-- CPY (R353, R354). -/
def execCpy (x : Cpy) (s0 : State) : Result :=
  runEng s0 (.cpy x) fun reads s n =>
    let a := n.arg 0
    let b := n.arg 1
    let c := n.arg 2
    let tm := n.t.team
    if a % 4 != 0 then { s := s, exc := some (excAlign a (isVaSpace x.dsp)) }
    else if b % 4 != 0 then { s := s, exc := some (excAlign b (isVaSpace x.ssp)) }
    else match cpyShape s tm x c with
      | none => { s := s, exc := some (excEngine c) }
      | some sh =>
        let rd := strideSpan a sh.len sh.n1 sh.n2 sh.ds1 sh.ds2
        let rs := strideSpan b sh.len sh.n1 sh.n2 sh.ss1 sh.ss2
        if !inSpace s tm x.dsp rd sh.len then { s := s, exc := some (excEngine a) }
        else if !inSpace s tm x.ssp rs sh.len then { s := s, exc := some (excEngine b) }
        else
          let pd := if x.dsp == .spad then stridePages a sh.len sh.n1 sh.n2 sh.ds1 sh.ds2 else []
          let ps := if x.ssp == .spad then stridePages b sh.len sh.n1 sh.n2 sh.ss1 sh.ss2 else []
          let pr := if x.dim.val == 0 then [] else pagesIn c 32
          issueEng reads s n x.ctl (Eng.fresh n.t n.th (.cpy x) 1 x.sem.toNat a b c) (ownPages tm (pd ++ ps ++ pr))

/-- The words of 4 KiB unit `u` of a copy. -/
def cpyUnit (x : Cpy) (e : Eng) (sh : Shape) (u : Nat) : List Mv :=
  let words := sh.len * sh.n1 * sh.n2 / 4
  let row := sh.len / 4
  (List.range (min 1024 (words - 1024 * u))).map fun k =>
    let i := 1024 * u + k
    let b : Int := 4 * (i % row : Nat)
    let r : Int := (i / row % sh.n1 : Nat)
    let p : Int := (i / (row * sh.n1) : Nat)
    { src := placeOf x.ssp (wrap 64 (e.opb.toNat + p * sh.ss2 + r * sh.ss1 + b))
      dst := placeOf x.dsp (wrap 64 (e.opa.toNat + p * sh.ds2 + r * sh.ds1 + b)), bytes := 4, al := 4, op := 0, psn := sh.psn }

/-- CPYV (R355): the issuing thread finds the brick, in the CLB or by a walk. -/
def execCpyv (x : CpyV) (s0 : State) : Result :=
  runEng s0 (.cpyv x) fun reads s n =>
    match volArgs n false with
    | .error e => { s := s, exc := some e }
    | .ok (vol, vx, vy, vz) =>
      let tm := n.t.team
      let go := fun (s : State) (brick : Option Nat) (bg esz : Nat) =>
        let d := n.arg 4
        let z := 64 * 2 ^ esz
        if d % z != 0 || 4096 * pagesOf s tm < d + z then ({ s := s, exc := some (excEngine d) } : SeqOut)
        else
          let e := Eng.fresh n.t n.th (.cpyv x) 1 x.sem.toNat vol (n.arg 1) (n.arg 2)
          issueEng reads s n x.ctl { e with brick := brick.map (BitVec.ofNat 64), bg := BitVec.ofNat 64 bg, esz := esz
                                            dva := descVa s tm vol, imm := BitVec.ofNat 32 d } (ownPages tm (pagesIn d z))
      match brickFor s n.t vol (Coord.of vx vy vz) with
      | .wait s => { s := s, busy := true }
      | .done _ r s => match r with
        | .exc _ e => { s := s, exc := some (if e.cause == 0x14 then { e with detail := vol } else e) }
        | .brick va esz => go s (some va) 0 esz
        | .absent _ _ line | .full line => match parseDesc line.toNat with
          | some d => go s none d.bg d.esz
          | none => { s := s, exc := some (excVolFmt 0 (descVa s tm vol) vol) }

/-- The one unit of a CPYV. -/
def cpyvUnit (s : State) (tm : Nat) (e : Eng) : UnitRes :=
  let z := 2 ^ e.esz
  let d := e.imm.toNat
  match e.brick with
  | some va => runUnit s tm e ((List.range (16 * z)).map fun i =>
      { src := .va ((va.toNat + 4 * i) % 2 ^ 64), dst := .spad (d + 4 * i), bytes := 4, al := 4, op := 0, psn := false })
  | none => .done (spadStore s tm d (64 * z) (brickFill e.esz (e.bg.toNat % 2 ^ (8 * z))) false)

/-! Parcel: R356-R359. -/

end Sys2Proof.Machine

namespace Sys2Proof

def Parcel.bytes (x : Parcel) : Nat := 4 * 2 ^ x.z.toNat
def Parcel.entries (x : Parcel) : Nat := x.count.toNat + 1
def Parcel.idx (x : Parcel) : Nat := if x.i64 then 8 else 4

end Sys2Proof

namespace Sys2Proof.Machine

/-- GATH and SCAT at issue. -/
def parcelIssue (ins : Instr) (x : Parcel) (s0 : State) : Result :=
  runEng s0 ins fun reads s n =>
    let tm := n.t.team
    let b := n.arg 1
    let c := n.arg 2
    let lim := 4096 * pagesOf s tm
    if b % x.idx != 0 then { s := s, exc := some (excAlign b false) }
    else if c % x.bytes != 0 then { s := s, exc := some (excAlign c false) }
    else if lim < b + x.idx * x.entries then { s := s, exc := some (excEngine b) }
    else if lim < c + x.bytes * x.entries then { s := s, exc := some (excEngine c) }
    else if x.op.val != 0 && n.th.idem then { s := s, exc := some ⟨0x15, 2, none, false, 0⟩ }
    else issueEng reads s n x.ctl (Eng.fresh n.t n.th ins 2 x.sem.toNat (n.arg 0) b c)
      (ownPages tm (pagesIn b (x.idx * x.entries) ++ pagesIn c (x.bytes * x.entries)))

/-- GATH. -/
def execGath (x : Parcel) (s : State) : Result := parcelIssue (.gath x) x s

/-- SCAT. -/
def execScat (x : Parcel) (s : State) : Result := parcelIssue (.scat x) x s

/-- IDEM. -/
def execIdem (x : Plain) (s : State) : Result :=
  runSeq s (.idem x) fun s n => { s := modThread s n.t fun th => { th with idem := true } }

/-- IDEMEND. -/
def execIdemend (x : Plain) (s : State) : Result :=
  runSeq s (.idemend x) fun s n => { s := modThread s n.t fun th => { th with idem := false } }

/-- The instruction of a Parcel command, and whether it scatters. -/
def parcelOf (i : Instr) : Option (Parcel × Bool) :=
  match i with
  | .gath x => some (x, false)
  | .scat x => some (x, true)
  | _ => none

/-- The moves of entries `lo` to `lo` + `k` − 1 of a list. Where an index reads poisoned, what moves is poisoned (assumption 86). -/
def parcelUnit (s : State) (tm : Nat) (e : Eng) (x : Parcel) (scat : Bool) (lo k : Nat) : List Mv :=
  let z := x.bytes
  (List.range k).map fun i =>
    let j := lo + i
    let (ix, bad) := spadLoad s tm (e.opb.toNat + x.idx * j) x.idx
    let ea := wrap 64 (e.opa.toNat + signed (8 * x.idx) ix * 2 ^ x.sh.toNat)
    let d := e.opc.toNat + z * j
    { src := if scat then .spad d else .va ea, dst := if scat then .va ea else .spad d, bytes := z, al := z, op := x.op.val, psn := bad }

/-- PARCEL_MARKER (R358): a block of 256 entries is performed and its end marked. -/
def execParcelMarker (team eng : Nat) (s : State) : Result :=
  match findEng s team eng with
  | none => .next s
  | some e => match parcelOf e.ins with
    | none => .next s
    | some (x, scat) =>
      if !engRuns s team e || x.entries ≤ e.done || engStoring s team eng then .next s
      else
        let k := min (256 - e.done % 256) (x.entries - e.done)
        if e.sent then .next (endUnit s team e (e.done + k))
        else afterUnit team e (runUnit s team e (parcelUnit s team e x scat e.done k)) (e.done + k)

/-! Progress and completion. -/

/-- Bytes that a Courier command moves. -/
def courierTotal (s : State) (tm : Nat) (e : Eng) : Nat :=
  match e.ins with
  | .cpy x => (match cpyShape s tm x e.opc.toNat with | some sh => sh.len * sh.n1 * sh.n2 | none => 0)
  | .cpyv _ => 64 * 2 ^ e.esz
  | _ => 0

/-- The next 4 KiB unit of a Courier command. -/
def courierStep (s : State) (tm : Nat) (e : Eng) : UnitRes :=
  match e.ins with
  | .cpy x => (match cpyShape s tm x e.opc.toNat with
    | some sh => runUnit s tm e (cpyUnit x e sh (e.done / 4096))
    | none => .done s)
  | .cpyv _ => cpyvUnit s tm e
  | _ => .done s

/-! Faults at engine time: R488-R491. -/

/-- Deliver a stop to the issuing group (R490, R491). -/
def deliverStop (s : State) (tm : Nat) (e : Eng) (x : EngStop) : State :=
  let s := modEng s tm e.id fun e => { e with delivered := true }
  let exc : Exc := ⟨0x16, e.cls, some x.addr.toNat, x.isVa, x.reason⟩
  let alive := (lanesOf tm e.gid).filter fun t => match thread? s t with | some th => !th.exited | none => false
  let who := if alive.any fun t => t.lane == e.lane then some (⟨tm, e.gid, e.lane⟩ : TRef) else alive.head?
  match who, group? s tm e.gid with
  | some t, some g =>
    if g.finished then logEvent s (engUnit s tm e.cls) 9 1 x.addr.toNat (if x.isVa then 3 else 0) (ctxOf s tm) e.cls
    else match thread? s t with
      | none => s
      | some th =>
        let next := match th.st with
          | .waiting _ => th.next
          | _ => th.pc
        haltGroup s tm e.gid [⟨t.lane, exc, e.pc, next⟩] fun _ => BitVec.ofNat 32 (2 ^ e.lane)
  | _, _ => logEvent s (engUnit s tm e.cls) 9 1 x.addr.toNat (if x.isVa then 3 else 0) (ctxOf s tm) e.cls

/-- ENGINE_STOP_FAULT (R490): a stopped command's fault reaches its group, at an instruction boundary. -/
def execEngineStopFault (team eng : Nat) (s : State) : Result :=
  match findEng s team eng with
  | none => .next s
  | some e => match e.failed with
    | none => .next s
    | some x =>
      if e.delivered || (match team? s team with | some t => t.st != .resident | none => true) then .next s
      else .next (teamSettle (deliverStop s team e x) team)

/-- Is a command restartable (R489)? Its units are whole, so that its retry point is `done`. -/
def restartable (e : Eng) : Bool :=
  match parcelOf e.ins with
  | some (x, true) => x.op.val == 0 || e.idem
  | _ => !e.wback

/-- ENGINE_RETRY (R488): an uncorrectable error in an engine's own state. -/
def execEngineRetry (team eng : Nat) (s : State) : Result :=
  match findEng s team eng with
  | none => .next s
  | some e =>
    if !engRuns s team e then .next s
    else
      let at_ := BitVec.ofNat 64 e.done
      if !restartable e then .next (modEng s team eng fun e => { e with failed := some ⟨0x22, at_, false⟩ })
      else if 3 ≤ e.retries then .next (modEng s team eng fun e => { e with failed := some ⟨0x20, at_, false⟩ })
      else
        let s := logEvent s (engUnit s team e.cls) 9 1 e.done 0 (ctxOf s team) e.cls
        .next (modEng s team eng fun e => { e with retries := e.retries + 1, replies := [], sent := false, work := none })

end Sys2Proof.Machine
end

