-- ==== Sys2Proof/Machine/Physics.lean ====
section
/-! DEFINITION. Class 0xF but for the solver: radix sorts (R368, R369), traversals (R370-R374, R492), the compactor (R381, R382)
and the random streams (R383-R387); and ENGINE_COMPLETE for every command that is not Relay's (R352). -/

namespace Sys2Proof.Machine

/-! Cluster units: R367. -/

/-- Is a command the running one of its cluster unit: the oldest accepted one that has not ended at a stop or a fault? -/
def unitHead (s : State) (tm : Nat) (e : Eng) : Bool :=
  ((clusterQ s (coreOf s tm / 8) e.cls).find? (unitHolds s)) == some (tm, e.id)

/-! SORT: R368, R369. -/

/-- The team whose scratchpad holds an array, and the array's offset there; none outside its space. -/
def sortArr (s : State) (tm : Nat) (rem : Bool) (a n : Nat) : Option (Nat × Nat) :=
  if !rem then (if a + n ≤ 4096 * pagesOf s tm then some (tm, a) else none)
  else
    let o := a % 2 ^ 19
    if 2 ^ 22 ≤ a then none
    else match gangTeam s tm (a / 2 ^ 19) with
      | none => none
      | some t => if o + n ≤ 4096 * pagesOf s t then some (t, o) else none

/-- SORT. -/
def execSort (x : SortOp) (s0 : State) : Result :=
  runEng s0 (.sort x) fun reads s n =>
    let tm := n.t.team
    let a := n.arg 0
    let b := n.arg 1
    let c := n.arg 2
    if a % 4 != 0 then { s := s, exc := some (excAlign a false) }
    else if x.kv && b % 4 != 0 then { s := s, exc := some (excAlign b false) }
    else if 65536 < c then { s := s, exc := some (excEngine c) }
    else match (if c == 0 then some (tm, 0) else sortArr s tm x.krem a (4 * c)),
               (if c == 0 || !x.kv then some (tm, 0) else sortArr s tm x.vrem b (4 * c)) with
      | none, _ => { s := s, exc := some (excEngine a) }
      | _, none => { s := s, exc := some (excEngine b) }
      | some (ta, oa), some (tb, ob) =>
        if c != 0 && x.kv && ta == tb && oa < ob + 4 * c && ob < oa + 4 * c then { s := s, exc := some (excEngine b) }
        else
          let pa := (pagesIn oa (4 * c)).map fun p => (ta, p)
          let pb := if x.kv then (pagesIn ob (4 * c)).map fun p => (tb, p) else []
          issueEng reads s n x.ctl (Eng.fresh n.t n.th (.sort x) 3 x.sem.toNat a b c)
            (pa ++ pb.filter fun p => !pa.contains p)

/-- kx of R369. -/
def sortKey (x : SortOp) (k : Nat) : Nat :=
  let t := match x.kt.val with
    | 0 => k
    | 1 => k ^^^ 0x80000000
    | _ => if bit k 31 then 0xFFFFFFFF - k else k ^^^ 0x80000000
  if x.desc then 0xFFFFFFFF - t else t

def sortPasses (x : SortOp) (e : Eng) : Nat := if e.opc.toNat == 0 then 0 else x.phi.toNat + 1 - x.plo.toNat

/-- One pass over byte `p`: stable, ascending. -/
def sortByte (x : SortOp) (p : Nat) (l : List ((Nat × Bool) × (Nat × Bool))) : List ((Nat × Bool) × (Nat × Bool)) :=
  (List.range 256).flatMap fun d => l.filter fun r => sortKey x r.1.1 / 256 ^ p % 256 == d

/-- Write words into a scratchpad array. -/
def putWords (s : State) (tm o : Nat) (l : List (Nat × Bool)) : State :=
  l.zipIdx.foldl (fun s (r, i) => spadStore s tm (o + 4 * i) 4 r.1 r.2) s

/-- SORT_PASS (R369): the pass is read and reordered in the working store, then its keys are written back, then its values. A command
whose array has left its space stops with an address fault (R352). -/
def execSortPass (team eng : Nat) (s : State) : Result :=
  match findEng s team eng with
  | none => .next s
  | some e => match e.ins with
    | .sort x =>
      let c := e.opc.toNat
      if !engRuns s team e || !unitHead s team e || sortPasses x e ≤ e.done then .next s
      else match sortArr s team x.krem e.opa.toNat (4 * c), (if x.kv then sortArr s team x.vrem e.opb.toNat (4 * c) else some (0, 0)) with
        | some (ta, oa), some (tb, ob) =>
          .next (match e.work with
            | none =>
              let ks := (List.range c).map fun i => spadLoad s ta (oa + 4 * i) 4
              let vs := (List.range c).map fun i => if x.kv then spadLoad s tb (ob + 4 * i) 4 else (0, false)
              modEng s team eng fun e => { e with work := some (sortByte x (x.plo.toNat + e.done) (ks.zip vs)) }
            | some l =>
              if !e.wback then modEng (putWords s ta oa (l.map (·.1))) team eng fun e => { e with wback := true }
              else modEng (if x.kv then putWords s tb ob (l.map (·.2)) else s) team eng fun e =>
                { e with done := e.done + 1, work := none, wback := false })
        | none, _ => .next (modEng s team eng fun e => { e with failed := some ⟨0x12, e.opa, true⟩ })
        | _, none => .next (modEng s team eng fun e => { e with failed := some ⟨0x12, e.opb, true⟩ })
    | _ => .next s

/-! TRAV: R370-R374. -/

/-- TRAV. -/
def execTrav (x : Trav) (s0 : State) : Result :=
  runEng s0 (.trav x) fun reads s n =>
    let tm := n.t.team
    let a := n.arg 0
    let b := n.arg 1
    let c := n.arg 2
    let q := x.count.toNat + 1
    let blk := 8 * 2 ^ x.clog.toNat
    let lim := 4096 * pagesOf s tm
    if b % 32 != 0 then { s := s, exc := some (excAlign b false) }
    else if c % 8 != 0 then { s := s, exc := some (excAlign c false) }
    else if lim < b + 32 * q then { s := s, exc := some (excEngine b) }
    else if lim < c + blk * q then { s := s, exc := some (excEngine c) }
    else if a % 128 != 0 || !canonical a then { s := s, exc := some (excAddr 6 a true) }
    else issueEng reads s n x.ctl (Eng.fresh n.t n.th (.trav x) 4 x.sem.toNat a b c)
      (ownPages tm (pagesIn b (32 * q) ++ pagesIn c (blk * q)))

/-- An extended real: an infinity or a fraction with a positive denominator. -/
inductive XR where
  | inf (neg : Bool)
  | fin (p q : Dy)
  deriving DecidableEq, Repr

def XR.ofFV (v : FV) : XR :=
  match v with
  | .inf n => .inf n
  | v => .fin v.dy ⟨1, 0⟩

def XR.lt (a b : XR) : Bool :=
  match a, b with
  | .inf n, .inf m => n && !m
  | .inf n, .fin .. => n
  | .fin .., .inf m => !m
  | .fin p q, .fin r t => (p.mul t).lt (r.mul q)

def XR.le (a b : XR) : Bool := !b.lt a
def XR.max (a b : XR) : XR := if a.lt b then b else a
def XR.min (a b : XR) : XR := if b.lt a then b else a

/-- round_to(value, f32, rn), +0 for zero. -/
def XR.round (a : XR) : Nat :=
  match a with
  | .inf n => fmtF32.signed n fmtF32.inf
  | .fin p q => if p.isZero then 0 else (roundTo fmtF32 .rn false 0 (p.m < 0) (quotient p q)).bits

/-- A child box: minimum and maximum per axis. -/
structure TBox where
  lo : List FV
  hi : List FV

def TBox.valid (b : TBox) : Bool :=
  (b.lo ++ b.hi).all (fun v => !v.isNan) && (b.lo.zip b.hi).all fun (l, h) => (XR.ofFV l).le (XR.ofFV h)

/-- A query as eight f32 values. -/
abbrev TQuery := List FV

def qAt (q : TQuery) (i : Nat) : FV := q.getD i (.fin false 0 0)

/-- Is the query invalid (R371)? -/
def queryBad (k : Nat) (q : TQuery) : Bool :=
  match k with
  | 0 => (q.take 6).any (·.isNan)
  | 1 => q.any (·.isNan) || (q.take 6).any (·.isInf) || (XR.ofFV (qAt q 7)).lt (XR.ofFV (qAt q 6))
  | _ => (q.take 4).any (·.isNan) || (q.take 3).any (·.isInf) || (XR.ofFV (qAt q 3)).lt (.fin Dy.zero ⟨1, 0⟩)

/-- (bound − o) / dir. -/
def slope (b : FV) (o dir : Dy) : XR :=
  match b with
  | .inf n => .inf (n != decide (dir.m < 0))
  | v =>
    let p := v.dy.sub o
    if dir.m < 0 then .fin p.neg dir.neg else .fin p dir

/-- The parameter at which a ray enters a child, if it matches. -/
def rayEnter (q : TQuery) (b : TBox) : Option XR :=
  let r := (List.range 3).foldl (fun (r : Option (XR × XR)) a =>
    match r with
    | none => none
    | some (en, ex) =>
      let o := qAt q a
      let d := (qAt q (3 + a)).dy
      let l := b.lo.getD a o
      let h := b.hi.getD a o
      if d.isZero then (if (XR.ofFV l).le (XR.ofFV o) && (XR.ofFV o).le (XR.ofFV h) then some (en, ex) else none)
      else
        let t0 := slope l o.dy d
        let t1 := slope h o.dy d
        some (en.max (t0.min t1), ex.min (t0.max t1))) (some (XR.ofFV (qAt q 6), XR.ofFV (qAt q 7)))
  match r with
  | some (en, ex) => if en.le ex then some en else none
  | none => none

/-- The squared distance of a point from a child: none for infinity. -/
def nearSq (q : TQuery) (b : TBox) : Option Dy :=
  (List.range 3).foldl (fun (r : Option Dy) a =>
    let p := (qAt q a).dy
    let g : Option Dy := match b.lo.getD a (qAt q a), b.hi.getD a (qAt q a) with
      | .inf false, _ => none
      | _, .inf true => none
      | l, h =>
        let u := if l.isInf then Dy.zero else Dy.max Dy.zero (l.dy.sub p)
        some (if h.isInf then u else u.max (p.sub h.dy))
    match r, g with
    | some s, some g => some (s.add (g.mul g))
    | _, _ => none) (some Dy.zero)

/-- A match: VAL as a fraction for the choice of a ray, and its encoding. -/
def matchBox (k : Nat) (q : TQuery) (b : TBox) : Option (XR × Nat) :=
  if !b.valid then none
  else match k with
    | 0 =>
      if (List.range 3).all fun a =>
        (XR.ofFV (b.lo.getD a (qAt q a))).le (XR.ofFV (qAt q (3 + a))) && (XR.ofFV (qAt q a)).le (XR.ofFV (b.hi.getD a (qAt q a)))
      then some (.inf true, 0) else none
    | 1 => (rayEnter q b).map fun e => (e, e.round)
    | _ =>
      let d := qAt q 3
      match nearSq q b with
      | none => if d.isInf then some (.inf false, fmtF32.inf) else none
      | some sq =>
        if d.isInf || sq.le (d.dy.mul d.dy) then
          some (.inf true, if sq.isZero then 0 else (roundTo fmtF32 .rn false 0 false (sqrtApprox sq)).bits)
        else none

/-- A word of 16 bytes of a node: its value and poison, from memory or from a remote value that has come. -/
inductive NRead where
  | ok (v : Nat) (psn : Bool) (s : State)
  | wait (s : State)
  | err (e : EngStop) (s : State)
  | stop (pa : Nat)

/-- Seven words of a node, the last first; `i` counts the words still to read. -/
def readNode (tm : Nat) (e : Eng) (node : Nat) : Nat → Nat → Bool → State → NRead
  | 0, v, p, s => .ok v p s
  | i + 1, v, p, s =>
    let va := (e.opa.toNat + 128 * node + 16 * i) % 2 ^ 64
    match engResolve s tm e (.va va) 16 .read with
    | .err x s => .err x s
    | .stop pa => .stop pa
    | .ok l s => match l with
      | .mem pa _ => let ((w, q), s) := agentRead s (engAgent s tm e) pa 16; readNode tm e node i (w + 2 ^ 128 * v) (p || q) s
      | .remote pa =>
        let k := 8 * node + i
        (match e.replies.find? fun r => r.1 == k with
         | some (_, w, q) => readNode tm e node i (w + 2 ^ 128 * v) (p || q) s
         | none =>
           if s.rreqs.any fun r => r.eng == some (tm, e.id, k) then .wait s
           else .wait (sendRemoteFor s (coreOf s tm) 0 (ctxOf s tm) (.load pa 16) (some (tm, e.id, k))))
      | _ => .ok v p s

/-- Box and CHILD of child `c` of a node. -/
def nodeChild (v c : Nat) : TBox × Nat :=
  let w := fun o => v / 2 ^ (8 * (o + 4 * c)) % 2 ^ 32
  let f := fun o => fmtF32.decode false (w o)
  (⟨[f 0x00, f 0x10, f 0x20], [f 0x30, f 0x40, f 0x50]⟩, w 0x60)

/-- A query in progress. -/
structure TAcc where
  hits : List (Nat × Nat)
  count : Nat
  best : Option (XR × Nat × Nat)
  depth : Bool
  limit : Bool
  psn : Bool
  deriving DecidableEq, Repr

def TAcc.report (a : TAcc) (k cap prim : Nat) (m : XR × Nat) : TAcc :=
  if k == 1 then
    let take := match a.best with
      | none => true
      | some (x, p, _) => m.1.lt x || (!x.lt m.1 && prim < p)
    if take then { a with best := some (m.1, prim, m.2) } else a
  else { a with hits := if a.hits.length < cap then a.hits ++ [(prim, m.2)] else a.hits, count := a.count + 1 }

inductive TRes where
  | ok (a : TAcc) (s : State)
  | wait (s : State)
  | err (e : EngStop) (s : State)
  | stop (pa : Nat)

/-- The walk of R373; `fuel` bounds the visits. -/
def travWalk (tm : Nat) (e : Eng) (k cap : Nat) (q : TQuery) : Nat → List Nat → TAcc → State → TRes
  | _, [], a, s => .ok a s
  | 0, _, a, s => .ok { a with limit := true } s
  | fuel + 1, i :: stack, a, s =>
    match readNode tm e i 7 0 false s with
    | .wait s => .wait s
    | .err x s => .err x s
    | .stop pa => .stop pa
    | .ok v p s =>
      if p then .ok { a with psn := true } s
      else
        let ch := (List.range 4).map fun c => let (b, r) := nodeChild v c; (r, if r == 0xFFFFFFFF then none else matchBox k q b)
        let a := ch.foldl (fun a (r, m) => match m with
          | some m => if bit r 31 then a.report k cap (r % 2 ^ 31) m else a
          | none => a) a
        let (stack, deep) := ch.reverse.foldl (fun (st, deep) (r, m) =>
          if m.isSome && !bit r 31 then (if 64 ≤ st.length then (st, true) else (r % 2 ^ 31 :: st, deep)) else (st, deep))
          (stack, a.depth)
        travWalk tm e k cap q fuel stack { a with depth := deep } s

/-- The visits of R373: a walk stops when it would make one more. -/
def visitLimit : Nat := 1048576

/-- Write a query's result block: entries, then header. -/
def writeBlock (s : State) (tm o cap k : Nat) (a : TAcc) : State :=
  let hits := if k == 1 then (match a.best with | some (_, p, v) => [(p, v)] | none => []) else a.hits
  let count := if k == 1 then hits.length else a.count
  let s := hits.zipIdx.foldl (fun s ((id, v), i) =>
    spadStore (spadStore s tm (o + 8 + 8 * i) 4 id false) tm (o + 12 + 8 * i) 4 v false) s
  let fl := b2n (decide (cap < count)) + 2 * b2n a.depth + 4 * b2n a.limit
  spadStore s tm o 8 (min count (2 ^ 32 - 1) + 2 ^ 32 * min count cap + 2 ^ 48 * fl) false

/-- Poison every granule of a result block (R492). -/
def poisonBlock (s : State) (tm o n : Nat) : State :=
  modTeam s tm fun t => { t with spsn := granPut t.spsn o n true }

/-- One query. -/
def runQuery (s : State) (tm : Nat) (e : Eng) (x : Trav) (q : Nat) : TRes :=
  let o := e.opb.toNat + 32 * q
  let (raw, qp) := spadLoad s tm o 32
  let v : TQuery := (List.range 8).map fun i => fmtF32.decode false (raw / 2 ^ (32 * i) % 2 ^ 32)
  let blk := 8 * 2 ^ x.clog.toNat
  let cap := 2 ^ x.clog.toNat - 1
  let at_ := e.opc.toNat + blk * q
  if qp then .ok ⟨[], 0, none, false, false, true⟩ (poisonBlock s tm at_ blk)
  else if queryBad x.q.val v then .ok ⟨[], 0, none, false, false, false⟩ (spadStore s tm at_ 8 (2 ^ 51) false)
  else match travWalk tm e x.q.val cap v visitLimit [0] ⟨[], 0, none, false, false, false⟩ s with
    | .ok a s => .ok a (if a.psn then poisonBlock s tm at_ blk else writeBlock s tm at_ cap x.q.val a)
    | r => r

def runQueries (tm : Nat) (e : Eng) (x : Trav) : List Nat → State → TRes
  | [], s => .ok ⟨[], 0, none, false, false, false⟩ s
  | q :: rest, s => match runQuery s tm e x q with
    | .ok _ s => runQueries tm e x rest s
    | r => r

/-- TRAV_BATCH (R374): 32 queries. -/
def execTravBatch (team eng : Nat) (s : State) : Result :=
  match findEng s team eng with
  | none => .next s
  | some e => match e.ins with
    | .trav x =>
      let n := x.count.toNat + 1
      if !engRuns s team e || !unitHead s team e || n ≤ e.done then .next s
      else
        let k := min 32 (n - e.done)
        (match runQueries team e x ((List.range k).map fun i => e.done + i) s with
         | .wait s => .next s
         | .stop pa => .fault (.reservedPackage pa)
         | .err y s => .next (modEng s team eng fun e => { e with failed := some y, replies := [] })
         | .ok _ s => .next (modEng s team eng fun e => { e with done := e.done + k, replies := [] }))
    | _ => .next s

/-! ENGINE_COMPLETE: R352. -/

/-- The units of a command that are not Relay's: how far it must come. -/
def engTotal (s : State) (tm : Nat) (e : Eng) : Option Nat :=
  match e.ins with
  | .cpy _ | .cpyv _ => some (courierTotal s tm e)
  | .gath x | .scat x => some x.entries
  | .sort x => some (sortPasses x e)
  | .trav x => some (x.count.toNat + 1)
  | _ => none

/-- ENGINE_COMPLETE: a Courier command moves its next 4 KiB unit; a command of any class whose last unit is performed
completes. -/
def execEngineComplete (team eng : Nat) (s : State) : Result :=
  match findEng s team eng with
  | none => .next s
  | some e =>
    match engTotal s team e with
      | none => .next s
      | some n =>
        if !engLive s team e then .next s
        else if n ≤ e.done then .next (engDone s team e)
        else if e.cls != 1 || engStoring s team eng || !engRuns s team e then .next s
        else
          let d := min n (e.done + 4096)
          match (if e.sent then .next (endUnit s team e d) else afterUnit team e (courierStep s team e) d) with
          | .next s => (match findEng s team eng with
            | some e => if n ≤ e.done && e.failed.isNone then .next (engDone s team e) else .next s
            | none => .next s)
          | r => r

/-! COMPACT: R381, R382. -/

/-- COMPACT: the guard-true threads at issue are its participants. -/
def execCompact (x : Compact) (s : State) : Result :=
  match s.cur, infoOf (.compact x) with
  | some iss, some i =>
    let core := iss.core
    let (s, ex, bz) := prepare { s with cur := none } i iss.lanes
    if !bz.isEmpty then .next (bz.foldl (fun s t => busy s t) s)
    else
      let res := iss.lanes.map fun t => (t, match ex.find? fun (u, _) => u == t with
        | some (_, e) => LaneRes.exc e 0
        | none => laneRes s t i fun _ => {})
      let parts : List (TRef × Val × Val) := res.filterMap fun (t, r) => match r with
        | .on _ v _ _ => some (t, (v.getD 0 []).headD ⟨0, false⟩, (v.getD 1 []).headD ⟨0, false⟩)
        | _ => none
      let wb := fun (t : TRef) => match thread? s t with | some th => th.wbase | none => 0
      let d0 := match x.d with | .v k => k.toNat | _ => 0
      let s := commitLanes s i (.compact x) 4 res
      let (s, parts) := parts.foldl (fun ((s, l) : State × List (TRef × Val × Val × List Dst)) (t, k, v) =>
        let ds : List Dst := [⟨false, wb t + d0, s.claims, 0⟩, ⟨false, wb t + d0 + 1, s.claims + 1, 4⟩]
        let s := ds.foldl (fun s d => modThread s t fun th => { th with regs := Tab.set th.regs d.idx (Reg.claim (getReg th d.idx) d.tag) }) s
        ({ s with claims := s.claims + 2 }, l ++ [(t, k, v, ds)])) (s, [])
      if parts.isEmpty then .next s
      else
        let from_ := ((getCore s core).compacts.foldl (fun m j => max m j.due) s.now)
        let team := match iss.lanes with | t :: _ => t.team | [] => 0
        let job : CJob := { team := team, due := from_ + 24 + 2 * ((parts.length + 31) / 32), parts := parts, failed := false }
        .next (modCore s core fun c => { c with compacts := c.compacts ++ [job] })
  | _, _ => .next s

/-- COMPACT_FILL (R382, R492). -/
def execCompactFill (core : Nat) (s : State) : Result :=
  match (getCore s core).compacts with
  | [] => .next s
  | j :: rest =>
    if s.now < j.due then .next s
    else
      let s := modCore s core fun c => { c with compacts := rest }
      let s := if j.failed then logEvent s (unitCore core) 9 1 0 0 (ctxOf s j.team) 0 else s
      let key := fun (p : TRef × Val × Val × List Dst) => p.2.1.v.toNat % 256
      let sorted := sortBy (fun a b => key a ≤ key b) j.parts
      let bad := j.failed || j.parts.any fun p => p.2.1.psn
      .next ((j.parts.zip sorted).foldl (fun s (p, q) =>
        let k := key q
        let before := (j.parts.filter fun r => key r < k).length
        let v : Val := ⟨q.2.2.1.v, q.2.2.1.psn || bad⟩
        let w : Val := ⟨BitVec.ofNat 32 (k * 2 ^ 16 + before), bad⟩
        let s := p.2.2.2.foldl (fun s d => fillDst s p.1 d (if d.at_ == 0 then v else w)) s
        let s := if v.psn || w.psn then modThread s p.1 fun th => { th with tstat := th.tstat ||| fPSN } else s
        haltSettle s p.1.team p.1.gid) s)

/-! Random streams: R383-R387. -/

/-- The four words of RND and RNDF. -/
def randWords (n : LaneIn) : List Nat :=
  let c := n.arg 1
  stream (n.arg 0) (c / 2 ^ 32 * 2 ^ 32 + (c % 2 ^ 32 + n.arg 2) % 2 ^ 32)

/-- RND. -/
def execRnd (x : Rand) (s : State) : Result :=
  runLanes s (.rnd x) fun _ n =>
    { writes := [(x.d, ((randWords n).take (2 ^ x.w.val)).map fun w => ⟨BitVec.ofNat 32 w, n.psn⟩)] }

/-- The uniform value of a word: (w[31:9] + 1/2) × 2^−23. -/
def uniform (w : Nat) : Nat := (roundTo fmtF32 .rn false 0 false ⟨2 * (w / 512) + 1, -24, false⟩).bits

/-- RNDF. -/
def execRndf (x : Rand) (s : State) : Result :=
  runLanes s (.rndf x) fun _ n =>
    let w := (randWords n).take (2 ^ x.w.val)
    let v := if x.nrm then w.zipIdx.map fun (_, i) =>
        normalDeviate (i % 2 == 1) x.rnd (w.getD (i / 2 * 2) 0 / 512) (w.getD (i / 2 * 2 + 1) 0 / 512)
      else w.map uniform
    { writes := [(x.d, v.map fun b => ⟨BitVec.ofNat 32 b, n.psn⟩)] }

/-- EPIS. -/
def execEpis (x : Epis) (s : State) : Result :=
  runLanes s (.epis x) fun _ n =>
    let c := 0xFFFFFFFFFFFFFFFF + 2 ^ 64 * (n.arg 2) + 2 ^ 96 * (n.arg 1)
    { writes := [(x.d, ((stream (n.arg 0) c).take 2).map fun w => ⟨BitVec.ofNat 32 w, n.psn⟩)] }

end Sys2Proof.Machine
end

