-- ==== Sys2Proof/Machine/Relay.lean ====
section
/-! DEFINITION. Relay collectives: ARED, RSCAT, AGATH, BCAST, CBAR (R360-R365), the forming of communicators (R361), chunk steps
(R363), completion (R365) and ranks that leave (R496, R497). -/

namespace Sys2Proof.Machine

/-! Issue. -/

/-- A collective at issue: A aligned to the element size, C to 128 (R360). -/
def collIssue (ins : Instr) (x : Coll) (bar : Bool) (s0 : State) : Result :=
  runEng s0 ins fun reads s n =>
    let a := n.arg 0
    let c := n.arg 2
    if !bar && a % (x.ty.width / 8) != 0 then { s := s, exc := some (excAlign a true) }
    else if c % 128 != 0 then { s := s, exc := some (excAlign c true) }
    else issueEng reads s n x.ctl (Eng.fresh n.t n.th ins 5 x.sem.toNat a (n.arg 1) c) []

/-- ARED. -/
def execAred (x : Coll) (s : State) : Result := collIssue (.ared x) x false s
/-- RSCAT. -/
def execRscat (x : Coll) (s : State) : Result := collIssue (.rscat x) x false s
/-- AGATH. -/
def execAgath (x : Coll) (s : State) : Result := collIssue (.agath x) x false s
/-- BCAST. -/
def execBcast (x : Coll) (s : State) : Result := collIssue (.bcast x) x false s
/-- CBAR. -/
def execCbar (x : Coll) (s : State) : Result := collIssue (.cbar x) x true s

/-! What a collective asks for. -/

def collKind (e : Eng) : Option CollKind :=
  let mk := fun (cop : Nat) (x : Coll) => some (⟨cop, x.ty, x.rnd, x.op.val, e.opb.toNat, x.root.toNat⟩ : CollKind)
  match e.ins with
  | .ared x => mk 0 x
  | .rscat x => mk 1 x
  | .agath x => mk 2 x
  | .bcast x => mk 3 x
  | .cbar x => mk 4 x
  | _ => none

def PeerColl_kind (p : PeerColl) : CollKind := ⟨p.cop, p.ty, p.rnd, p.op, p.count, p.root⟩

/-- A chunk: its segment, its first element in the buffer and its number of elements. -/
structure Chunk where
  seg : Nat
  first : Nat
  n : Nat
  deriving DecidableEq, Repr

/-- A segment cut into chunks of `m` elements. -/
def cutSeg (m seg lo n : Nat) : List Chunk :=
  (List.range ((n + m - 1) / m)).map fun i => ⟨seg, lo + m * i, min m (n - m * i)⟩

/-- The chunks of a collective over `p` ranks, in the order of their steps (R362). -/
def collChunks (k : CollKind) (p clog : Nat) : List Chunk :=
  let m := 2 ^ clog / (k.ty.width / 8)
  match k.cop with
  | 0 =>
    let l := (k.count + p - 1) / p
    (List.range p).flatMap fun s => cutSeg m s (s * l) (min k.count ((s + 1) * l) - min k.count (s * l))
  | 1 | 2 => (List.range p).flatMap fun s => cutSeg m s (s * k.count) k.count
  | 3 => cutSeg m 0 0 k.count
  | _ => []

/-- The segment of chunk `idx`, its elements: none where the collective has no such chunk. -/
def chunkAt? (k : CollKind) (p clog idx : Nat) : Option Chunk := (collChunks k p clog)[idx]?

/-- The ranks of the ring from `a` on, `n` of them. -/
def ringFrom (p a n : Nat) : List Nat := (List.range n).map fun j => (a + j) % p

/-- The course of a chunk: the ranks that take a step on it, in the order of their steps. The first `sources` of them bring their own
data (R362); what the chain has come to then goes on round the ring to the ranks that receive it. -/
def course (k : CollKind) (p seg : Nat) : List Nat :=
  match k.cop with
  | 0 => ringFrom p (seg + 1) p ++ ringFrom p (seg + 1) (p - 1)
  | 1 => ringFrom p (seg + 1) p
  | 2 => ringFrom p seg p
  | 3 => if k.root < p then ringFrom p k.root p else List.range p
  | _ => []

/-- The places of a course whose ranks bring data; a root that the communicator does not have brings none. -/
def sources (k : CollKind) (p : Nat) : Nat :=
  match k.cop with
  | 0 | 1 => p
  | 2 => 1
  | _ => if k.root < p then 1 else 0

/-- Does the rank at a place of the course write the result into its buffer? -/
def writesAt (k : CollKind) (p place : Nat) : Bool :=
  match k.cop with
  | 0 | 1 => p ≤ place + 1
  | _ => sources k p ≤ place

/-! Records and slots: R360, R361. -/

/-- Relay translates through the L2 TLB of a compute die (R181, R351), to memory of this package. -/
def relayXlate (s : State) (die ctx va : Nat) (need : Need) : Except EngStop (Nat × Bool) × State :=
  match dieXlate s die ctx va need with
  | (.trans, s) => (.error ⟨0x05, BitVec.ofNat 64 va, true⟩, s)
  | (.perm, s) => (.error ⟨0x06, BitVec.ofNat 64 va, true⟩, s)
  | (.ok pa cmp, s) => (if isOwnMem s pa then .ok (pa, cmp) else .error ⟨0x12, BitVec.ofNat 64 va, true⟩, s)

/-- The 128 bytes of a record as H reads them, and whether they are poisoned; the fault where they cannot be read. -/
def readComm (s : State) (die ctx va : Nat) (need : Need) : Except EngStop (Nat × Bool) × State :=
  match relayXlate s die ctx va need with
  | (.error e, s) => (.error e, s)
  | (.ok (pa, _), s) => let (r, s) := agentRead s 2 pa 128; (.ok r, s)

def commField (r o n : Nat) : Nat := r / 2 ^ (8 * o) % 2 ^ (8 * n)

/-- Is every field in its range (R360)? -/
def commValid (r : Nat) : Bool :=
  let p := commField r 4 1
  let ctrl := commField r 6 2
  let cl := bits ctrl 10 6
  1 ≤ p && p ≤ 64 && commField r 5 1 < p && bits ctrl 15 11 == 0 && (cl == 0 || (12 ≤ cl && cl ≤ 20)) &&
  commField r 8 4 ≤ 2 && commField r 0xC 4 == 0 && commField r (0x10 + p) (64 - p) == 0 && commField r 0x64 28 == 0

/-- The slot that a record of a context holds. -/
def slotFor (s : State) (commid : W32) (ctx va : Nat) : Option (Nat × Slot) :=
  s.slots.find? fun (_, x) => x.commid == commid && x.ctx == ctx && x.va.toNat == va

/-- Does another record of the package hold (COMMID, RANK)? A slot that stands degraded is to be formed anew and does not count. -/
def slotTaken (s : State) (commid : W32) (rank ctx va : Nat) : Bool :=
  s.slots.any fun (_, x) => x.commid == commid && x.rank == rank && !x.degraded && !(x.ctx == ctx && x.va.toNat == va)

def freeComm (s : State) : Option Nat := (List.range 64).find? fun k => (Tab.get? s.slots k).isNone

/-- Write a field of a record. -/
def putComm (s : State) (die ctx va o n x : Nat) (psn : Bool) : State :=
  match relayXlate s die ctx ((va + o) % 2 ^ 64) .write with
  | (.ok (pa, cmp), s) => engPutMem s 2 ctx pa n x psn cmp
  | (.error _, s) => s

/-- The slots of a forming. -/
def slotsIn (s : State) (epoch : Nat) : Tab Slot := s.slots.filter fun (_, x) => x.epoch == epoch

/-- Has rank `r` of a communicator formed: here with a slot that waits as this one does, elsewhere with a collective on a record that
was unformed? A rank that is lost is not waited for. -/
def rankFormed (s : State) (x : Slot) (r : Nat) : Bool :=
  let mine := (slotsIn s 0).filter fun (_, y) => y.commid == x.commid
  (mine.any fun (_, y) => y.lost.contains r) ||
  if x.pkgs.getD r 0 == s.hpkg then mine.any fun (_, y) => y.rank == r
  else s.peers.any fun p => p.commid == x.commid && p.rank == r && p.forms

/-- What ranks elsewhere sent before they formed anew is dropped; what follows belongs to the new forming. -/
def trimPeers (commid : W32) : List PeerColl → List PeerColl
  | [] => []
  | p :: rest =>
    if p.commid != commid then p :: trimPeers commid rest
    else if rest.any fun q => q.commid == commid && q.rank == p.rank && q.forms then trimPeers commid rest
    else { p with forms := false } :: trimPeers commid rest

/-- A communicator whose every rank has formed: its slots belong to one forming and become ready, and so do their records (R361). -/
def formNow (s : State) (commid : W32) : State :=
  let n := s.ids + 1
  let mine := (slotsIn s 0).filter fun (_, x) => x.commid == commid
  let s := { s with
    ids := n
    slots := s.slots.map fun (k, x) =>
      (k, if x.epoch == 0 && x.commid == commid then { x with epoch := n, ready := !x.degraded } else x)
    peers := trimPeers commid s.peers }
  mine.foldl (fun s (_, x) => if x.degraded then s else putComm s x.die x.ctx x.va.toNat 8 4 1 false) s

/-- Slots whose every rank has formed become ready (R361). -/
def commSettle (s : State) : State :=
  ((((slotsIn s 0).filter fun (_, x) => (List.range x.nrank).all (rankFormed s x)).map fun x => x.2.commid).eraseDups).foldl formNow s

/-- Commands on one record run in issue order (R361): is one before this one? -/
def commFirst (s : State) (tm : Nat) (e : Eng) : Bool :=
  s.teams.all fun (_, x) => x.ctx != ctxOf s tm || (liveEngs x).all fun f => !(f.cls == 5 && f.opc == e.opc && f.id < e.id)

/-- Take up a collective: find or form its slot. A record that reads poisoned counts as invalid (assumption 43). -/
def formComm (s : State) (tm : Nat) (e : Eng) : State :=
  let ctx := ctxOf s tm
  let die := coreOf s tm / 192
  let va := e.opc.toNat
  let status := fun (s : State) (k : Nat) => modEng s tm e.id fun e => { e with cstat := k }
  match readComm s die ctx va .write with
  | (.error x, s) => modEng s tm e.id fun e => { e with failed := some x }
  | (.ok (r, psn), s) =>
    let id : W32 := BitVec.ofNat 32 (commField r 0 4)
    let rank := commField r 5 1
    let own := slotFor s id ctx va
    let join := fun (s : State) (k : Nat) => modEng s tm e.id fun e => { e with slot := some k }
    if psn || !commValid r then status s 5
    else match commField r 8 4 with
      | 2 => status s 2
      | 1 => (match own with
        | some (k, x) => if x.rank == rank then join { s with slots := Tab.set s.slots k { x with die := die } } k else status s 5
        | none => status s 5)
      | _ =>
        let ctrl := commField r 6 2
        let cl := bits ctrl 10 6
        let x : Slot :=
          { commid := id, rank := rank, ctx := ctx, va := e.opc, nrank := commField r 4 1
            pkgs := (List.range 64).map fun i => commField r (0x10 + i) 1, prio := bits ctrl 5 3, chunklog := if cl == 0 then 16 else cl
            vc := bits ctrl 2 0, die := die, epoch := 0, ready := false, degraded := false, cdone := 0, lost := [], w := 0 }
        if slotTaken s id rank ctx va then status s 5
        else match (own.map (·.1)).or (freeComm s) with
          | none => status s 4
          | some k => commSettle (join { s with slots := Tab.set s.slots k x } k)

/-! Collectives of a forming. -/

/-- The command at the front of a slot: team and command. One that has failed stays there: nothing takes its place. -/
def slotFront (s : State) (k : Nat) : Option (Nat × Eng) :=
  (s.teams.flatMap fun (t, x) => (x.engs.filter fun e => e.slot == some k && e.cstat == 255).map fun e => (t, e)).foldl
    (fun b x => match b with
      | none => some x
      | some y => if x.2.id < y.2.id then some x else b) none

/-- The ranks lost to a forming. -/
def lostRanks (s : State) (epoch : Nat) : List Nat :=
  (slotsIn s epoch).foldl (fun l (_, x) => x.lost.foldl setInsert l) []

/-- What one rank brings to a collective. -/
inductive RankNow where
  /-- it has not issued the collective, or it has completed it -/
  | absent
  | lost
  | here (team : Nat) (e : Eng)
  | there (p : PeerColl)
  deriving DecidableEq, Repr

/-- Rank `r` of the forming of slot `x` at collective `num`, with what ranks elsewhere have sent. -/
def rankAt (s : State) (epoch num r : Nat) (here : Bool) (sent : List PeerColl) : RankNow :=
  if (lostRanks s epoch).contains r then .lost
  else if here then
    (match (slotsIn s epoch).find? fun (_, y) => y.rank == r with
     | some (j, y) => if y.cdone != num then .absent
       else match slotFront s j with
         | some (t, e) => .here t e
         | none => .absent
     | none => .absent)
  else match sent.find? fun p => p.rank == r with
    | some p => .there p
    | none => .absent

/-- The next collective of each rank elsewhere of a communicator: one on a record formed anew belongs to a later forming. -/
def peerHeads (s : State) (commid : W32) (p : Nat) : List PeerColl :=
  (List.range p).filterMap fun r => match s.peers.find? fun q => q.commid == commid && q.rank == r with
    | some q => if q.forms then none else some q
    | none => none

def RankNow.kind : RankNow → Option CollKind
  | .here _ e => collKind e
  | .there p => some (PeerColl_kind p)
  | _ => none

/-- What every rank asks for; none where they differ (R364). -/
def agreed (l : List RankNow) : Option CollKind :=
  match l.filterMap RankNow.kind with
  | [] => none
  | k :: rest => if rest.all fun j => j == k then some k else none

def findColl (s : State) (epoch num : Nat) : Option RColl := s.colls.find? fun c => c.epoch == epoch && c.num == num

/-- The next collective of a slot's forming begins once every rank has issued it (R361, R362). -/
def collBegin (s : State) (x : Slot) : State :=
  if x.epoch == 0 || (findColl s x.epoch x.cdone).isSome then s
  else
    let heads := peerHeads s x.commid x.nrank
    let l := (List.range x.nrank).map fun r => rankAt s x.epoch x.cdone r (x.pkgs.getD r 0 == s.hpkg) heads
    if l.any (· == .absent) then s
    else
      let used := l.filterMap fun r => match r with | .there p => some p | _ => none
      { s with
        peers := used.foldl (fun q p => q.erase p) s.peers
        colls := s.colls ++ [⟨x.epoch, x.cdone, x.nrank, x.chunklog, x.pkgs, agreed l, used, []⟩] }

/-- Rank `r` of a collective that has begun. -/
def collRank (s : State) (c : RColl) (r : Nat) : RankNow := rankAt s c.epoch c.num r (c.pkgs.getD r 0 == s.hpkg) c.peers

/-- A collective that no rank of the package has still to complete is over. -/
def collPrune (s : State) : State :=
  { s with colls := s.colls.filter fun c => (slotsIn s c.epoch).any fun (_, y) => y.cdone ≤ c.num }

/-! Elements. -/

/-- One operation of a chain (R362). -/
def relayOp (k : CollKind) (a b : Nat) : Nat :=
  let t := k.ty
  if t.isInt then
    match k.op with
    | 0 => fit t false (ival t a + ival t b)
    | 1 => if ival t a ≤ ival t b then a else b
    | _ => if ival t b ≤ ival t a then a else b
  else match k.op with
    | 0 => (fadd (fmtOf t) k.rnd false 0 a b).bits
    | 1 => (fminmax (fmtOf t) true false false a b).bits
    | _ => (fminmax (fmtOf t) false false false a b).bits

/-- PA and page attribute of element `i` of a rank's buffer, in this package's memory. -/
def bufPa (s : State) (tm : Nat) (e : Eng) (z i : Nat) (need : Need) : Except EngStop (Nat × Bool) × State :=
  relayXlate s (coreOf s tm / 192) (ctxOf s tm) ((e.opa.toNat + z * i) % 2 ^ 64) need

/-- The elements of a chunk in a rank's buffer here; the first fault where one cannot be read. -/
def bufElems (tm : Nat) (e : Eng) (z : Nat) : List Nat → State → Except EngStop (List (Nat × Bool)) × State
  | [], s => (.ok [], s)
  | i :: rest, s => match bufPa s tm e z i .read with
    | (.error x, s) => (.error x, s)
    | (.ok (pa, _), s) =>
      let (v, s) := agentRead s 2 pa z
      match bufElems tm e z rest s with
      | (.ok l, s) => (.ok (v :: l), s)
      | r => r

/-- The elements of a chunk as a rank elsewhere has sent them. -/
def sentElems (p : PeerColl) (z : Nat) (l : List Nat) : List (Nat × Bool) :=
  l.map fun i => ((List.range z).foldl (fun a b => a + (p.data.getD (z * i + b) 0).toNat * 2 ^ (8 * b)) 0, p.psn.contains i)

/-- Elements of a root that the communicator does not have: free values (assumption 6). -/
def freeElems (z : Nat) : List Nat → State → List (Nat × Bool) × State
  | [], s => ([], s)
  | _ :: rest, s =>
    let x := ((Config.freeValue s.free).toNat % 2 ^ (8 * z), bit (Config.freeValue (s.free + 1)).toNat 0)
    let (l, s) := freeElems z rest { s with free := s.free + 2 }
    (x :: l, s)

/-- A rank's elements enter the chain of a chunk (R362). -/
def RChunk.add (ch : RChunk) (k : CollKind) (r : Nat) (l : List (Nat × Bool)) : RChunk :=
  { ch with
    inc := setInsert ch.inc r
    vals := if ch.inc.isEmpty then l else List.zipWith (fun a b => (relayOp k a.1 b.1, a.2 || b.2)) ch.vals l }

/-! Chunk steps: R363. -/

/-- A chunk of a collective as it stands. -/
def RColl.chunk (c : RColl) (idx : Nat) : RChunk := (c.chunks.find? fun x => x.idx == idx).getD ⟨idx, 0, [], []⟩

def RColl.put (c : RColl) (x : RChunk) : RColl := { c with chunks := sortBy (fun a b => a.idx ≤ b.idx) (x :: c.chunks.filter fun y => y.idx != x.idx) }

/-- A chunk that goes to no rank: the segment of a lost rank, or data that a lost rank had not sent (R497). -/
def chunkVoid (k : CollKind) (lost : List Nat) (seg : Nat) (ch : RChunk) : Bool :=
  match k.cop with
  | 1 => lost.contains seg
  | 2 => lost.contains seg && ch.inc.isEmpty
  | 3 => lost.contains k.root && ch.inc.isEmpty
  | _ => false

/-- The places of a course that are still to come, with their ranks, but for ranks that are lost (R496). -/
def placesLeft (k : CollKind) (p seg pos : Nat) (lost : List Nat) : List (Nat × Nat) :=
  (((course k p seg).zipIdx.map fun (r, i) => (i, r)).drop pos).filter fun x => !lost.contains x.2

/-- Has rank `r` nothing more to do for a chunk? -/
def dutyDone (k : CollKind) (p : Nat) (lost : List Nat) (seg : Nat) (ch : RChunk) (r : Nat) : Bool :=
  chunkVoid k lost seg ch || (placesLeft k p seg ch.pos lost).all fun x => x.2 != r

/-- The rank of this package in whose reserved buffer a chunk stands: the next that takes a step on it (assumption 85). -/
def bufferOf (s : State) (c : RColl) (k : CollKind) (lost : List Nat) (seg : Nat) (ch : RChunk) (from_ : Nat) : Option Nat :=
  if chunkVoid k lost seg ch then none
  else match placesLeft k c.nrank seg from_ lost with
    | (_, r) :: _ => if c.pkgs.getD r 0 == s.hpkg then some r else none
    | [] => none

/-- Chunks that stand in the buffers of rank `r`, but for chunk `idx`. -/
def buffered (s : State) (c : RColl) (k : CollKind) (lost : List Nat) (r idx : Nat) : Nat :=
  (c.chunks.filter fun ch => ch.idx != idx && (match chunkAt? k c.nrank c.chunklog ch.idx with
    | some d => bufferOf s c k lost d.seg ch ch.pos == some r
    | none => false)).length

/-- Reserved chunk buffers of a rank (DESIGN CHOICE: R363 gives no number, assumption 85). -/
def chunkBuffers : Nat := 2

/-- Are the buffers free that a step from place `i` needs: one at the next rank; where the chunk is not yet in the ring, one here too
and all of the next rank's, so that the ring never fills (assumption 85)? -/
def buffersFree (s : State) (c : RColl) (k : CollKind) (lost : List Nat) (seg : Nat) (ch : RChunk) (i r : Nat) : Bool :=
  let inRing := 0 < ch.pos && bufferOf s c k lost seg ch ch.pos == some r
  (inRing || buffered s c k lost r ch.idx < chunkBuffers) &&
  match bufferOf s c k lost seg ch (i + 1) with
  | none => true
  | some n => if inRing then buffered s c k lost n ch.idx < chunkBuffers else buffered s c k lost n ch.idx == 0

/-- The next step of a chunk: the place, the rank, its team and command. What ranks elsewhere bring has arrived with their message. -/
def chunkNext (s : State) (c : RColl) (k : CollKind) (lost : List Nat) (seg : Nat) (ch : RChunk) : Option (Nat × Nat × Nat × Eng) :=
  if chunkVoid k lost seg ch then none
  else ((placesLeft k c.nrank seg ch.pos lost).findSome? fun (i, r) => match collRank s c r with
    | .there _ => none
    | x => some (i, r, x)).bind fun (i, r, x) => match x with
      | .here t e => if engLive s t e then some (i, r, t, e) else none
      | _ => none

/-- The chunks that have begun, and all before them: what a stop lets complete (R95). -/
def RColl.top (c : RColl) : Nat := c.chunks.foldl (fun m x => max m (x.idx + 1)) 0

/-- Does every rank here go on to further chunks? At a stop the peers wait at their next chunk boundary (R95). -/
def collGoes (s : State) (c : RColl) : Bool :=
  (List.range c.nrank).all fun r => match collRank s c r with
    | .here t e => engLive s t e && e.stopSent.isNone
    | _ => true

/-- The steps of a collective that are ready. A rank begins its chunks in their order. -/
def collSteps (s : State) (c : RColl) : List (RStep × Nat) :=
  match c.kind with
  | none => []
  | some k =>
    let lost := lostRanks s c.epoch
    let goes := collGoes s c
    ((collChunks k c.nrank c.chunklog).zipIdx.foldl (fun (x : List (RStep × Nat) × List Nat) (d, idx) =>
      let ch := c.chunk idx
      match chunkNext s c k lost d.seg ch with
      | none => x
      | some (i, r, _, _) =>
        let fresh := ch.pos == 0
        if fresh && (x.2.contains r || !(goes || idx < c.top)) then x
        else
          let begun := if fresh then r :: x.2 else x.2
          if buffersFree s c k lost d.seg ch i r then (x.1 ++ [(⟨c.epoch, c.num, idx, i⟩, r)], begun) else (x.1, begun)) ([], [])).1

/-- Every step of the package that is ready, with the slot of the rank that would take it. -/
def readySteps (s : State) : List (RStep × Nat × Slot) :=
  s.colls.flatMap fun c => (collSteps s c).filterMap fun (st, r) =>
    ((slotsIn s c.epoch).find? fun (_, y) => y.rank == r).map fun (k, y) => (st, k, y)

/-- Note since when each step has been ready. -/
def relayRefresh (s : State) : State :=
  if s.colls.isEmpty && s.relayReady.isEmpty then s
  else { s with relayReady := (readySteps s).map fun (st, _) =>
    (st, ((s.relayReady.find? fun x => x.1 == st).map (·.2)).getD s.now) }

/-- Collectives that every rank has issued begin; those that are over are forgotten. -/
def relaySettle (s : State) : State :=
  let s := commSettle s
  relayRefresh (collPrune (s.slots.foldl (fun s (_, x) => collBegin s x) s))

def Slot.level (x : Slot) : Nat := min 7 (x.prio + x.w / 16)

/-- Since when a step has been ready. -/
def readySince (s : State) (st : RStep) : Nat := ((s.relayReady.find? fun x => x.1 == st).map (·.2)).getD s.now

/-- Does a step start before another: the higher effective priority, then the longer ready, then the lower slot; of one rank's steps
the first in the order of the chunks? -/
def stepBefore (s : State) (a b : RStep × Nat × Slot) : Bool :=
  let sa := readySince s a.1
  let sb := readySince s b.1
  b.2.2.level < a.2.2.level || (a.2.2.level == b.2.2.level && (sa < sb || (sa == sb && a.2.1 < b.2.1)))

/-- The step that Relay starts. -/
def chooseStep (s : State) (l : List (RStep × Nat × Slot)) : Option (RStep × Nat × Slot) :=
  l.foldl (fun b x => match b with
    | none => some x
    | some y => if stepBefore s x y then some x else b) none

/-- The first fault of some elements of a buffer. -/
def bufFault (tm : Nat) (e : Eng) (z : Nat) (need : Need) : List Nat → State → Option EngStop × State
  | [], s => (none, s)
  | i :: rest, s => match bufPa s tm e z i need with
    | (.error x, s) => (some x, s)
    | (.ok _, s) => bufFault tm e z need rest s

/-- Write the values of a chunk into a rank's buffer. -/
def putChunk (tm : Nat) (e : Eng) (z : Nat) : List (Nat × Nat × Bool) → State → State
  | [], s => s
  | (j, v, p) :: rest, s => (match bufPa s tm e z j .write with
    | (.ok (pa, cmp), s) => putChunk tm e z rest (engPutMem s 2 (ctxOf s tm) pa z v p cmp)
    | (.error _, s) => putChunk tm e z rest s)

/-- What the ranks before a place, which are elsewhere, have brought since the last step. -/
def addSent (s : State) (c : RColl) (k : CollKind) (l : List Nat) (ch : RChunk) (place : Nat) (ranks : List (Nat × Nat)) : RChunk :=
  ranks.foldl (fun ch (i, r) =>
    if place ≤ i || sources k c.nrank ≤ i then ch
    else match collRank s c r with
      | .there p => ch.add k r (sentElems p (k.ty.width / 8) l)
      | _ => ch) ch

/-- The chunk that a step of the rank at place `i` makes: its own data joins the chain where it is a source; the fault where that cannot
be read or the result not be written. -/
def stepChunk (s : State) (c : RColl) (k : CollKind) (d : Chunk) (ch : RChunk) (i r t : Nat) (e : Eng) :
    Except EngStop RChunk × State :=
  let z := k.ty.width / 8
  let l := (List.range d.n).map fun j => d.first + j
  let ch := addSent s c k l ch i (placesLeft k c.nrank d.seg ch.pos (lostRanks s c.epoch))
  let (ch, s) := if sources k c.nrank == 0 && ch.pos == 0 then
      let (v, s) := freeElems z l s
      ({ ch with vals := v }, s)
    else (ch, s)
  let ch' := { ch with pos := i + 1 }
  let out := fun (ch : RChunk) (s : State) => match bufFault t e z .write (if writesAt k c.nrank i then l else []) s with
    | (some x, s) => (Except.error x, s)
    | (none, s) => (.ok ch, s)
  if i < sources k c.nrank then
    match bufElems t e z l s with
    | (.error x, s) => (.error x, s)
    | (.ok v, s) => out (ch'.add k r v) s
  else out ch' s

/-- Chunks that a rank has behind it, from the first on: DONE of its command (R95). -/
def collDone (s : State) (c : RColl) (r : Nat) : Nat :=
  match c.kind with
  | none => 0
  | some k =>
    let lost := lostRanks s c.epoch
    ((collChunks k c.nrank c.chunklog).zipIdx.takeWhile fun (d, idx) => dutyDone k c.nrank lost d.seg (c.chunk idx) r).length

/-- Poisoned data that leaves for a rank of another package is logged (R418). -/
def logSent (s : State) (c : RColl) (k : CollKind) (d : Chunk) (ch : RChunk) (t : Nat) : State :=
  match placesLeft k c.nrank d.seg ch.pos (lostRanks s c.epoch) with
  | (_, r) :: _ =>
    let bad := ((ch.vals.zipIdx.filter fun x => x.1.2).map fun x => k.ty.width / 8 * x.2 / 32).eraseDups
    if c.pkgs.getD r 0 != s.hpkg && !bad.isEmpty then logEvent s unitH 4 1 0 0 (ctxOf s t) bad.length else s
  | [] => s

/-- One step: the reading, combining and sending of a chunk by one rank (R363). -/
def runStep (s : State) (c : RColl) (k : CollKind) (d : Chunk) (ch : RChunk) (i r t : Nat) (e : Eng) : State :=
  match stepChunk s c k d ch i r t e with
  | (.error x, s) => modEng s t e.id fun e => { e with failed := some x }
  | (.ok ch, s) =>
    let s := if writesAt k c.nrank i then
        putChunk t e (k.ty.width / 8) (ch.vals.zipIdx.map fun (v, j) => (d.first + j, v)) s
      else s
    let s := logSent s c k d ch t
    let c := c.put ch
    let s := { s with colls := s.colls.map fun x => if x.epoch == c.epoch && x.num == c.num then c else x }
    modEng s t e.id fun e => { e with done := collDone s c r }

/-- Change every slot of a forming. -/
def modComm (s : State) (epoch : Nat) (f : Slot → Slot) : State :=
  { s with slots := s.slots.map fun (k, x) => (k, if x.epoch == epoch then f x else x) }

/-- Perform a step that is ready. -/
def startStep (s : State) (st : RStep) : State :=
  match findColl s st.epoch st.num with
  | none => s
  | some c => match c.kind.bind fun k => (chunkAt? k c.nrank c.chunklog st.idx).map fun d => (k, d) with
    | none => s
    | some (k, d) =>
      let ch := c.chunk st.idx
      match chunkNext s c k (lostRanks s c.epoch) d.seg ch with
      | none => s
      | some (i, r, t, e) => runStep s c k d ch i r t e

/-- The counts of the communicators at the start of a step of forming `epoch`: its own is 0 again, that of each other with a step ready
gains 1. -/
def countSteps (s : State) (epoch : Nat) (l : List (RStep × Nat × Slot)) : State :=
  ((l.map fun x => x.1.epoch).eraseDups).foldl (fun s n =>
    modComm s n fun x => if n == epoch then { x with w := 0 } else { x with w := x.w + 1 }) s

/-- RELAY_CHUNK_STEP (R363). -/
def execRelayChunkStep (s : State) : Result :=
  let l := readySteps s
  match chooseStep s l with
  | none => .next s
  | some (st, _) => .next (relayRefresh (startStep (countSteps s st.epoch l) st))

/-- COMM_FORM (R361): Relay takes up command `eng` of a team; or a collective of a rank of another package reaches this one. -/
def execCommForm (team eng : Nat) (peer : Option PeerColl) (s : State) : Result :=
  match peer with
  | some p => .next (relaySettle { s with peers := s.peers ++ [p] })
  | none => match findEng s team eng with
    | none => .next s
    | some e =>
      if e.cls != 5 || e.slot.isSome || e.cstat != 255 || !engRuns s team e || !commFirst s team e then .next s
      else .next (relaySettle (formComm s team e))

/-! Completion: R365, R497. -/

/-- The ranks whose part a chunk lacks for good. -/
def chunkLacks (k : CollKind) (p : Nat) (lost : List Nat) (seg : Nat) (ch : RChunk) : List Nat :=
  ((course k p seg).take (sources k p)).filter fun r => lost.contains r && !ch.inc.contains r

/-- CSTAT, PARTIAL and MASK of a collective that every rank has issued, at rank `r`. -/
def collResult (s : State) (c : RColl) (k : CollKind) (r : Nat) : Nat × Nat × Nat :=
  let lost := lostRanks s c.epoch
  let all := (collChunks k c.nrank c.chunklog).zipIdx.map fun (d, idx) => (d, chunkLacks k c.nrank lost d.seg (c.chunk idx))
  let mine := all.filter fun (d, l) => !l.isEmpty && (k.cop != 1 || d.seg == r)
  let part := match k.cop with
    | 0 | 1 => all.any fun (_, l) => !l.isEmpty
    | 3 => lost.contains k.root
    | _ => !lost.isEmpty
  let gone := if k.cop == 4 then lost else all.foldl (fun g (_, l) => l.foldl setInsert g) []
  (b2n part, mine.length, ((List.range c.nrank).filter fun r => !gone.contains r).foldl (fun m r => m + 2 ^ r) 0)

/-- The status with which a command completes now, if it does: CSTAT, PARTIAL, MASK. -/
def collStatus (s : State) (e : Eng) : Option (Nat × Nat × Nat) :=
  if e.cstat != 255 then some (e.cstat, 0, 0)
  else match e.slot.bind fun k => if (slotFront s k).any fun x => x.2.id == e.id then Tab.get? s.slots k else none with
    | none => none
    | some x => match findColl s x.epoch x.cdone with
      | none => none
      | some c => match c.kind with
        | none => some (3, 0, 0)
        | some k =>
          if collDone s c x.rank < (collChunks k c.nrank c.chunklog).length then none else some (collResult s c k x.rank)

/-- RELAY_COLLECTIVE_COMPLETE (R365): the record is written, then the semaphore gains 1. A CSEQ that stands on a poisoned record stays
poisoned. -/
def execRelayCollectiveComplete (team eng : Nat) (s : State) : Result :=
  match findEng s team eng with
  | none => .next s
  | some e =>
    if e.cls != 5 || !engLive s team e then .next s
    else match collStatus s e with
      | none => .next s
      | some (st, part, mask) =>
        let ctx := ctxOf s team
        let va := e.opc.toNat
        let die := coreOf s team / 192
        match readComm s die ctx va .write with
        | (.error x, s) => .next (modEng s team eng fun e => { e with failed := some x })
        | (.ok (r, psn), s) =>
          let (cseq, bad) := match e.slot.bind fun k => Tab.get? s.slots k with
            | some x => (x.cdone + 1, false)
            | none => (commField r 0x54 4 + (if st == 2 then 1 else 0), psn)
          let s := putComm s die ctx va 0x50 4 st false
          let s := putComm s die ctx va 0x54 4 (cseq % 2 ^ 32) bad
          let s := putComm s die ctx va 0x58 8 mask false
          let s := putComm s die ctx va 0x60 4 part false
          let s := match e.slot with
            | some k => { s with slots := Tab.modify s.slots k fun x => { x with cdone := x.cdone + 1 } }
            | none => s
          .next (relaySettle (engDone s team e))

/-- Has Relay come to its chunk boundary for a command that is told to stop: nothing left to do for the chunks that have begun (R95)? -/
def relayAtBoundary (s : State) (e : Eng) : Bool :=
  match e.slot.bind fun k => Tab.get? s.slots k with
  | none => true
  | some x => match findColl s x.epoch x.cdone with
    | none => true
    | some c => c.kind.isNone || c.top ≤ collDone s c x.rank

/-! Ranks that leave: R496, R497. -/

/-- A rank is lost to the communicator of slot `k`: the record stands degraded and the loss is logged. -/
def slotLeave (s : State) (k rank : Nat) : State :=
  match Tab.get? s.slots k with
  | none => s
  | some x =>
    if x.nrank ≤ rank || x.rank == rank || x.lost.contains rank then s
    else
      let s := { s with slots := Tab.set s.slots k { x with lost := setInsert x.lost rank, degraded := true } }
      let s := putComm s x.die x.ctx x.va.toNat 8 4 2 false
      logEvent s unitH 9 1 x.va.toNat 3 x.ctx 5

/-- RELAY_LEAVE (R496): a leave message for a slot's communicator. -/
def execRelayLeave (slot rank : Nat) (s : State) : Result := .next (relaySettle (slotLeave s slot rank))

/-- The ranks of this package whose command goes with them leave: every other slot of their communicators hears of it. -/
def leaveSlots (s : State) (gone : Slot → Bool) : State :=
  let out := s.slots.filter fun (_, x) => gone x
  if out.isEmpty then s
  else
    let s := out.foldl (fun s (_, x) => s.slots.foldl (fun s (k, y) =>
      if y.commid == x.commid && y.epoch == x.epoch && !gone y then slotLeave s k x.rank else s) s) s
    relaySettle { s with slots := s.slots.filter fun (_, x) => !gone x }

end Sys2Proof.Machine
end

