-- ==== Sys2Proof/Machine/Admit.lean ====
section
/-! DEFINITION. Admission of teams to cores (R46-R48, R51, R52, R66), the constant image (R45), the start of a team (R128) and the
entry of a handler (R100, R102). -/

namespace Sys2Proof.Machine

/-! The limits of a core: R51, R52. -/

/-- Resident groups on each subcore. -/
def subLoads (s : State) (core : Nat) : List Nat :=
  let subs := (groupsOn s core).filterMap fun (k, g) => (group? s k g).map (·.subcore)
  (List.range 4).map fun u => (subs.filter (· == u)).length

def leastSub (l : List Nat) : Nat := (List.range 4).foldl (fun b i => if l.getD i 0 < l.getD b 0 then i else b) 0

/-- The subcores of `n` groups that arrive in order (R52). -/
def homes : Nat → List Nat → List Nat
  | 0, _ => []
  | n + 1, l => let u := leastSub l; u :: homes n (l.set u (l.getD u 0 + 1))

/-- v entries that the floors on a core take: a finished group has released its floor (R68). -/
def floorsOn (s : State) (core : Nat) : Nat :=
  ((groupsOn s core).map fun (k, g) => match group? s k g with
    | some x => if x.finished then 0 else floorOf s k g
    | none => 0).sum

def gridFloors (g : GridRec) : Nat := 32 * (g.nprod * g.pfloor + (g.ngrp - g.nprod) * g.cfloor)

/-- Does a core still satisfy R51 with one more team of this grid record? -/
def passes (s : State) (core : Nat) (g : GridRec) : Bool :=
  let ts := teamsOn s core
  let recs := ts.filterMap fun (k, _) => gridOf s k
  let hs := homes g.ngrp (subLoads s core)
  let load := fun (u : Nat) => (subLoads s core).getD u 0 + (hs.filter (· == u)).length
  let gsum := fun (u : Nat) => (((groupsOn s core).map fun (k, i) => match group? s k i, gridOf s k with
    | some x, some r => if x.subcore == u then r.gregs else 0
    | _, _ => 0).sum) + g.gregs * (hs.filter (· == u)).length
  !coreOut s core && ts.length + 1 ≤ 16 && (groupsOn s core).length + g.ngrp ≤ 64 &&
  ((List.range 4).all fun u => load u ≤ 16 && gsum u ≤ 4096) &&
  (recs.map (·.pages)).sum + g.pages ≤ 96 &&
  floorsOn s core + gridFloors g + 2048 * ((recs.map (·.nprod)).sum + g.nprod) + 2048 ≤ 131072

/-- May a context use the core: no team of another context is on it (R41)? -/
def coreFree (s : State) (ctx core : Nat) : Bool := (teamsOn s core).all fun (_, t) => t.ctx == ctx

def isFused (s : State) (cl : Nat) : Bool := match Tab.get? s.clusters cl with | some c => c.fused | none => false
def clusterEmpty (s : State) (cl : Nat) : Bool := !(s.teams.any fun (_, t) => t.onCore && t.core / 8 == cl)

/-- R48: a fused cluster is for fuse grids only; they take it or an empty one. -/
def fuseFits (s : State) (cl : Nat) (fuse : Bool) : Bool := if fuse then isFused s cl || clusterEmpty s cl else !isFused s cl

/-! Placements. -/

/-- A placement of a unit, the teams that move as one: the core of each (R47); `p` selects the cores that may be used. -/
def unitAt (s : State) (ctx : Nat) (unit : List Nat) (g : GridRec) (p : Nat → Bool) (at_ : Nat) : Option (List (Nat × Nat)) :=
  let cores := unit.map fun k => (k, if g.gang then 8 * at_ + (match team? s k with | some t => t.team % 8 | none => 0) else at_)
  let cl := if g.gang then at_ else at_ / 8
  if fuseFits s cl g.fuse && cores.all fun (_, c) => p c && coreFree s ctx c && passes s c g then some cores else none

def gridOfUnit (s : State) (unit : List Nat) : Option GridRec := unit.head?.bind fun k => gridOf s k

/-- Cores, or clusters for a gang, in the order of their numbers. -/
def sites (g : GridRec) : List Nat := List.range (if g.gang then numCores / 8 else numCores)

/-- Admission: the lowest-numbered core or cluster that passes (R66). -/
def firstFit (s : State) (ctx : Nat) (unit : List Nat) (p : Nat → Bool) : Option (List (Nat × Nat)) :=
  match gridOfUnit s unit with
  | none => none
  | some g => (sites g).findSome? fun i => unitAt s ctx unit g p i

/-- Free group slots of the cores of a placement. -/
def freeSlots (s : State) (l : List (Nat × Nat)) : Nat := (l.map fun (_, c) => 64 - (groupsOn s c).length).sum

/-- Initial placement: the core or cluster with the most free group slots, the lowest number on a tie (R46). -/
def bestFit (s : State) (ctx : Nat) (unit : List Nat) : Option (List (Nat × Nat)) :=
  match gridOfUnit s unit with
  | none => none
  | some g => ((sites g).filterMap fun i => unitAt s ctx unit g (fun _ => true) i).foldl (fun b x => match b with
    | none => some x
    | some y => if freeSlots s y < freeSlots s x then some x else some y) none

/-! Taking a core: R40, R45, R91, R318. -/

/-- A word of the constant image: zero where it does not translate, poisoned where its granule is (R45). -/
def constWord (s : State) (ctx va : Nat) : Nat × Bool :=
  match hubXlate s ctx va .read with
  | .ok pa _ => wordAtPa s ctx pa 4
  | _ => (0, false)

/-- The constant store after a load of the image: bytes and poisoned granules. -/
def constImage (s : State) (ctx : Nat) : ByteMem × List Nat :=
  match planOf s ctx with
  | none => ([], [])
  | some p =>
    let ws := (List.range (p.constlen / 4)).map fun i => (i, constWord s ctx ((p.constva.toNat + 4 * i) % 2 ^ 64))
    (ws.flatMap fun (i, v, _) => (List.range 4).filterMap fun b =>
        let x : Byte := BitVec.ofNat 8 (v / 2 ^ (8 * b))
        if x == 0 then none else some (4 * i + b, x),
     ws.foldl (fun l (i, _, q) => if q then setInsert l (i / 8) else l) [])

/-- A context gets a core: it is loaded with the constant image, its semaphores are 0, its CLB is empty (R196), and it has a virtual
number. -/
def takeCore (s : State) (ctx core : Nat) : State :=
  let s := if s.teams.any fun (_, t) => t.ctx == ctx && t.onCore then s
    else { s with ctxs := Tab.modify s.ctxs ctx fun c => { c with coresSince := s.now } }
  if (getCore s core).ctx == some ctx then s
  else
    let (cst, psn) := constImage s ctx
    let s := modCore s core fun c => { c with ctx := some ctx, sems := [], cst := cst, cpsn := psn, clb := [], walks := [] }
    { s with ctxs := Tab.modify s.ctxs ctx fun c => { c with vcores := if c.vcores.contains core then c.vcores else c.vcores ++ [core] } }

/-- A fuse gang comes to a cluster: its L1s become one, every line invalidated first (R48, R171). -/
def fuseCluster (s : State) (core : Nat) (fuse : Bool) : State :=
  let cl := core / 8
  if !fuse || isFused s cl then s else reshapeL1 s cl true

/-! The start of a team: R128. -/

/-- The team starts its entry code on a core. -/
def startTeam (s : State) (tm core : Nat) : State :=
  match team? s tm, gridOf s tm with
  | some t, some g =>
    let hs := homes g.ngrp (subLoads s core)
    let s := (List.range g.ngrp).foldl (fun s gid =>
      let prod := gid < g.nprod
      let th := Thread.fresh (if prod then g.pentry else g.centry) (if prod then g.pfloor else g.cfloor) s.now
      let s := { s with groups := Tab.set s.groups (groupKey tm gid) (Group.fresh (hs.getD gid 0)) }
      (lanesOf tm gid).foldl (fun s u => setThread s u th) s) s
    { s with teams := Tab.set s.teams tm (Team.fresh t.ctx t.grid t.team core g.ngrp s.ages s.now), ages := s.ages + 1 }
  | _, _ => s

/-! Handlers: R100, R102. -/

/-- The thread enters a handler with a fresh window above `w`, or the highest one of the stack where none lies above it (R103), and
the four addresses in v0 to v7. -/
def enterHandler (s : State) (t : TRef) (entry : W64) (w : Nat) : State :=
  let h := min (w + 64) (2 ^ 20 - 64)
  let ws := [threadRec s t, 4 * w, groupBlock s t.team t.gid, blockBase s t.team].flatMap fun x => [x % 2 ^ 32, x / 2 ^ 32]
  let regs : Tab Reg := ws.zipIdx.map fun (x, i) => (h + i, .full ⟨BitVec.ofNat 32 x, false⟩)
  modThread s t fun th => { th with
    pc := entry, st := .eligible, regs := regs, wbase := h, bot := h / 64 * 64, nregs := 64, lat0 := Latch.void, lat1 := Latch.void
    lat2 := Latch.void, idem := false, tdepth := false, tfix := false, tretry := false, since := s.now, ready := s.now, yld := none, held := []
    unres := none, after := none, bsFault := none, barxSent := none, win := none, joined := false, begun := none, fixing := false }

/-- The WBASE of a saved record; 0 where the field holds a value that no window has, for which the group restores halted (R103, R446;
assumption 82). -/
def savedWbase (v : Nat) : Nat := if v % 8 == 0 && v + 64 ≤ 2 ^ 20 then v else 0

/-- A saved team comes to a core: its pigeonholes are emptied and RESTH is entered in every thread (R102). -/
def beginRestore (s : State) (tm core : Nat) : State :=
  match team? s tm, gridOf s tm with
  | some t, some g =>
    let hs := homes g.ngrp (subLoads s core)
    let s := modTeam s tm fun t => { t with st := .restoring, core := core, age := s.ages, stopped := false, ready := false }
    let s := { s with ages := s.ages + 1 }
    let entry := match planOf s t.ctx with | some p => p.resth | none => 0
    (List.range g.ngrp).foldl (fun s gid =>
      let s := modGroup s tm gid fun x => { Group.fresh (hs.getD gid 0) with mr := x.mr }
      (lanesOf tm gid).foldl (fun s u =>
        let w := match (vaRead s core t.ctx (threadRec s u + 0x12C) 4).1 with | .ok (v, _) => savedWbase v | .error _ => 0
        modThread (enterHandler s u entry w) u fun th => { th with seq := 0 }) s) s
  | _, _ => s

/-- Put the teams of a placement on their cores. -/
def admitUnit (s : State) (ctx : Nat) (l : List (Nat × Nat)) : State :=
  l.foldl (fun s (k, core) =>
    let s := takeCore s ctx core
    let s := fuseCluster s core (match gridOf s k with | some g => g.fuse | none => false)
    match team? s k with
    | some t => if t.st == .pending then startTeam s k core else beginRestore s k core
    | none => s) s

/-! Candidates: R50, R65, R66, R70, R90. -/

/-- Units that are admitted together, and their place in the order of R66. -/
structure Cand where
  prio : Nat
  pending : Bool
  seq : Nat
  claim : Nat
  units : List (List Nat)
  deriving DecidableEq, Repr

/-- A team that stands off the cores and may come back as far as its own state goes. -/
def Team.stands (t : Team) : Bool :=
  match t.st with
  | .pending | .parked | .preempted _ => true
  | _ => false

/-- Does the team itself ask for a core? -/
def Team.asks (t : Team) : Bool :=
  match t.st with
  | .pending => true
  | .parked => t.ready
  | .preempted asParked => !asParked || t.ready
  | _ => false

/-- The unit of a team: its gang without the teams that have retired, else the team alone. -/
def unitOf (s : State) (tm : Nat) (t : Team) (g : GridRec) : List (Nat × Team) :=
  if g.gang then s.teams.filter fun (_, u) => u.ctx == t.ctx && u.grid == t.grid && u.team / 8 == t.team / 8 && u.st != .retired
  else [(tm, t)]

/-- The candidate of a unit at its lowest team, if it is one. -/
def unitCand (s : State) (tm : Nat) (t : Team) : Option Cand :=
  match gridOf s tm with
  | none => none
  | some g =>
    let u := unitOf s tm t g
    if (u.head?.map (·.1)) == some tm && u.all (fun x => x.2.stands) && u.any (fun x => x.2.asks) then
      some { prio := g.prio, pending := u.all fun x => x.2.st == .pending, seq := u.foldl (fun m x => min m x.2.saveSeq) t.saveSeq
             claim := u.foldl (fun m x => if x.2.asks then min m x.2.claim else m) s.now, units := [u.map (·.1)] }
    else none

/-- The order of R66. Among pending units of one priority it is that of the team table: grid record, then %team (DESIGN CHOICE: R66
names none, assumption 74). -/
def candBefore (a b : Cand) : Bool :=
  if a.prio != b.prio then b.prio < a.prio
  else if a.pending != b.pending then a.pending
  else a.pending || a.seq ≤ b.seq

/-- The candidates of a context in the order of R66; those of a co-resident plan stand together (R50). -/
def candsOf (s : State) (ctx : Nat) : List Cand :=
  match Tab.get? s.ctxs ctx with
  | none => []
  | some c =>
    if c.stop.isSome then []
    else
      let l := sortBy candBefore ((s.teams.filter fun (_, t) => t.ctx == ctx && t.stands).filterMap fun (k, t) => unitCand s k t)
      if c.plan.cores then
        (match l with
         | [] => []
         | x :: _ =>
           if s.teams.any fun (_, t) => t.ctx == ctx && (match t.st with | .saving .. => true | _ => false) then []
           else [{ x with prio := l.foldl (fun m y => max m y.prio) x.prio, claim := l.foldl (fun m y => min m y.claim) x.claim
                          units := l.flatMap (·.units) }])
      else l

/-- Admit all units of a candidate, or none. -/
def admitCand (ctx : Nat) (p : Nat → Bool) : List (List Nat) → State → Option State
  | [], s => some s
  | u :: rest, s => match firstFit s ctx u p with
    | none => none
    | some l => admitCand ctx p rest (admitUnit s ctx l)

/-- May a context put a team on a core without asking the scheduler: one of its teams is there. A core without any is free, and goes
to the highest claim (R66, R90, R92). -/
def coreOwn (s : State) (ctx core : Nat) : Bool :=
  (getCore s core).ctx == some ctx && (teamsOn s core).any fun (_, t) => t.ctx == ctx

/-- TEAM_ADMISSION (R66): on the context's cores where slots have freed, each candidate in its turn. -/
def execTeamAdmission (ctx : Nat) (s : State) : Result :=
  .next ((candsOf s ctx).foldl (fun s' c => (admitCand ctx (coreOwn s ctx) c.units s').getD s') s)

end Sys2Proof.Machine
end

