-- ==== Sys2Proof/Machine/Letters.lean ====
section
/-! DEFINITION. Letters between threads, queues and the host: LPOST, LTAKE, LDONE and RDEP (R323-R327), the delivery of letters to
waiting takes (R82, R325, R436, R437), the distributor tree (R85-R89), host windows (R83), refills (R81, R82), queue commands
(R79-R81) and deposits (R125-R127). -/

namespace Sys2Proof.Machine

/-! Delivery: R82, R325. -/

/-- May letters be handed to a thread: its team is resident and not stopped (R94), and it waits for this queue? -/
def waiterOk (s : State) (qn : Nat) (t : TRef) : Bool :=
  (match team? s t.team with | some tm => tm.st == .resident && !tm.stopped | none => false) &&
  (match thread? s t with
   | some th => (match th.st with | .waiting (.ltake _ q) => q == qn | _ => false)
   | none => false)

/-- Hand a letter to a waiting thread. -/
def deliver (s : State) (qn : Nat) (q : Queue) (t : TRef) (l : Letter) : State :=
  let s := setQueue s qn { q with
    waits := q.waits.filter fun w => w.t != t
    taken := q.taken ++ [⟨t, l, q.ack⟩] }
  match thread? s t with
  | some th => (match th.st with
    | .waiting (.ltake x _) =>
      wake s t (if x.try_ then [(x.n.toNat, true)] else []) [(x.d, natVals l.bytes.toNat false 8)]
    | _ => s)
  | none => s

/-! Chunks. -/

/-- Does a letter go to the distributors? A range letter posted with DERIVED set is valid (R75); the model takes it whole, as the derived
letter that it says it is (DESIGN CHOICE: R86 speaks of range letters alone, assumption 84). -/
def isRange (l : Letter) : Bool := letKind l.bytes == 1 && letByte l.bytes 1 == 0

def rangeChunks (b : BitVec 256) : Nat :=
  let c := letField b 2 2
  if c == 0 then 0 else (letField b 4 4 + c - 1) / c

/-- The derived letter of chunk `j` (R86). -/
def derived (b : BitVec 256) (j : Nat) : BitVec 256 :=
  let c := letField b 2 2
  let n := letField b 4 4
  let b := letSet b 1 1 1
  let b := letSet b 4 4 (min c (n - c * j))
  letSet b 16 8 ((letField b 16 8 + c * j) % 2 ^ 64)

/-- Spans without one chunk. -/
def spanDrop (l : List Span) (j : Nat) : List Span :=
  l.flatMap fun x => if x.lo ≤ j && j < x.hi then [⟨x.lo, j⟩, ⟨j + 1, x.hi⟩].filter fun y => y.lo < y.hi else [x]

/-- A split reads its chunks: one that is uncorrectable is dropped (R436). -/
def readChunks (s : State) (qn : Nat) (sp : List Span) : List Span × State :=
  match getQueue? s qn with
  | none => (sp, s)
  | some q => (q.badChunks.filter fun j => sp.any fun x => x.lo ≤ j && j < x.hi).foldl (fun (sp, s) j =>
      (spanDrop sp j, match getQueue? s qn with
        | some q => dropLetter s qn { q with badChunks := q.badChunks.filter (· != j) } 0
        | none => s)) (sp, s)

def spanCount (l : List Span) : Nat := (l.map fun x => x.hi - x.lo).sum

/-- The first `n` chunks of some spans, and the rest. -/
def spanTake : List Span → Nat → List Span × List Span
  | [], _ => ([], [])
  | x :: t, n =>
    if n == 0 then ([], x :: t)
    else if x.hi - x.lo ≤ n then let (a, b) := spanTake t (n - (x.hi - x.lo)); (x :: a, b)
    else ([⟨x.lo, x.lo + n⟩], ⟨x.lo + n, x.hi⟩ :: t)

def clusterOf (s : State) (tm : Nat) : Nat := coreOf s tm / 8

/-- Is the whole range handed out? -/
def Queue.rangeDone (q : Queue) : Bool :=
  q.pkgSpans.isEmpty && q.dieSpans.all (fun x => x.2.isEmpty) && q.cluSpans.all fun x => x.2.isEmpty

/-- One letter or chunk on its way to a waiting take, if there is one. -/
def takeOne (s : State) (qn : Nat) : Option State :=
  match getQueue? s qn with
  | none => none
  | some q =>
    let ws := (q.waits.map (·.t)).filter fun t => waiterOk s qn t
    if ws.isEmpty || (q.ack && q.cap ≤ q.nout) then none
    else match q.range with
      | some r =>
        (match ws.find? fun t => !(Tab.getD q.cluSpans (clusterOf s t.team) []).isEmpty with
         | none => none
         | some t =>
           let c := clusterOf s t.team
           let (a, rest) := spanTake (Tab.getD q.cluSpans c []) 1
           let j := match a with | x :: _ => x.lo | [] => 0
           let q := { q with cluSpans := if rest.isEmpty then Tab.erase q.cluSpans c else Tab.set q.cluSpans c rest }
           let q := if q.rangeDone then { q with range := none } else q
           if q.badChunks.contains j then
             some (dropLetter s qn { q with badChunks := q.badChunks.filter (· != j) } 0)
           else some (deliver s qn q t ⟨derived r.bytes j, r.seq, false⟩))
      | none => match q.letters, ws with
        | l :: rest, t :: _ =>
          if q.dist && isRange l then none
          else if l.bad then some (dropLetter s qn { q with letters := rest } l.bytes)
          else some (deliver s qn { q with letters := rest } t l)
        | _, _ => none

def takeAll (qn : Nat) : Nat → State → State
  | 0, s => s
  | fuel + 1, s => match takeOne s qn with
    | some s => takeAll qn fuel s
    | none => s

/-- Queue `qn` has been served among those of its PRIO, if it has changed (R85). -/
def served (s s' : State) (qn : Nat) : State :=
  match getQueue? s' qn with
  | some q => if getQueue? s qn == some q then s' else { s' with qturn := Tab.set s'.qturn q.prio qn }
  | none => s'

/-- Hand out what can be handed out. -/
def takeSettle (s : State) (qn : Nat) : State :=
  match getQueue? s qn with
  | none => s
  | some q => takeAll qn (q.waits.length + q.letters.length + q.badChunks.length) s

/-! The distributor tree: R86-R88. -/

/-- Takers of a queue on the cores that `p` selects: teams with a thread waiting there. -/
def takers (s : State) (qn : Nat) (p : Nat → Bool) : Nat :=
  match getQueue? s qn with
  | none => 0
  | some q =>
    let l := (q.waits.filter fun w => waiterOk s qn w.t && p (coreOf s w.t.team)).map fun w => w.t.team
    l.eraseDups.length

def residentOn (s : State) (ctx : Nat) (p : Nat → Bool) : Nat :=
  (s.teams.filter fun (_, t) => t.ctx == ctx && t.st == .resident && !t.stopped && p t.core).length

/-- Weights of the children for a split (R87); all zero: the chunks are held. -/
def weights (s : State) (qn ctx : Nat) (children : List (Nat × (Nat → Bool))) : List (Nat × Nat) :=
  let w := children.map fun (c, p) => (c, takers s qn p)
  if w.any fun x => x.2 != 0 then w else children.map fun (c, p) => (c, residentOn s ctx p)

/-- split of R87: spans for each child with a weight, the last one taking the rest. -/
def splitOver (n tot : Nat) : List (Nat × Nat) → List Span → List (Nat × List Span)
  | [], _ => []
  | [(c, _)], sp => [(c, sp)]
  | (c, w) :: rest, sp =>
    let (a, b) := spanTake sp (n * w / tot)
    (c, a) :: splitOver n tot rest b

def split (sp : List Span) (w : List (Nat × Nat)) : List (Nat × List Span) :=
  let w := w.filter fun x => x.2 != 0
  splitOver (spanCount sp) ((w.map (·.2)).sum) w sp

/-- Spans stand in ascending order (R87). -/
def spanSort (l : List Span) : List Span := sortBy (fun a b => a.lo ≤ b.lo) l

def addSpans (t : Tab (List Span)) (l : List (Nat × List Span)) : Tab (List Span) :=
  l.foldl (fun t (c, sp) => if sp.isEmpty then t else Tab.set t c (spanSort (Tab.getD t c [] ++ sp))) t

def dieChildren (s : State) : List (Nat × (Nat → Bool)) :=
  ([0, 1].filter fun d => !dieLost s d).map fun d => (d, fun core => core / 192 == d)
def clusterChildren (d : Nat) : List (Nat × (Nat → Bool)) :=
  (List.range 24).map fun i => (24 * d + i, fun core => core / 8 == 24 * d + i)

/-- A range letter at the head of a distributed queue goes to the package distributor (R86). -/
def startRange (s : State) (qn : Nat) (q : Queue) : State :=
  match q.range, q.letters with
  | none, l :: rest =>
    if !(q.dist && isRange l) then s
    else if l.bad then dropLetter s qn { q with letters := rest } l.bytes
    else
      let n := rangeChunks l.bytes
      setQueue s qn (if n == 0 then { q with letters := rest }
        else { q with letters := rest, range := some l, pkgSpans := [⟨0, n⟩], dieSpans := [], cluSpans := [], badChunks := [] })
  | _, _ => s

/-- Chunks have moved; a range whose last chunk has been dropped is over. -/
def placeSpans (s : State) (qn : Nat) (f : Queue → Queue) : State :=
  match getQueue? s qn with
  | some q => let q := f q; setQueue s qn (if q.rangeDone then { q with range := none } else q)
  | none => s

/-- The split of the package (none) or of a die (R87). -/
def distSplit (s : State) (qn : Nat) (die : Option Nat) : State :=
  match getQueue? s qn with
  | none => s
  | some q0 => match die with
    | none =>
      let s := startRange s qn q0
      (match getQueue? s qn with
       | none => s
       | some q =>
         let w := weights s qn q.ctx (dieChildren s)
         if q.pkgSpans.isEmpty || w.all fun x => x.2 == 0 then takeSettle s qn
         else
           let (sp, s) := readChunks s qn q.pkgSpans
           placeSpans s qn fun q => { q with pkgSpans := [], dieSpans := addSpans q.dieSpans (split sp w) })
    | some d =>
      let sp := Tab.getD q0.dieSpans d []
      let w := weights s qn q0.ctx (clusterChildren d)
      if sp.isEmpty || w.all fun x => x.2 == 0 then s
      else
        let (sp, s) := readChunks s qn sp
        takeSettle (placeSpans s qn fun q => { q with
          dieSpans := Tab.erase q.dieSpans d, cluSpans := addSpans q.cluSpans (split sp w) }) qn

/-- DIST_SPLIT (R85, R87). -/
def execDistSplit (qn : Nat) (die : Option Nat) (s : State) : Result := .next (served s (distSplit s qn die) qn)

def cluChunks (q : Queue) (c : Nat) : Nat := spanCount (Tab.getD q.cluSpans c [])

/-- The cluster that holds the most chunks, the lowest number on a tie. -/
def richest (q : Queue) (l : List Nat) : Option Nat :=
  match l with
  | [] => none
  | c :: rest => some (rest.foldl (fun m x => if cluChunks q m < cluChunks q x then x else m) c)

/-- The top floor(m / 2) chunks of a cluster, and the queue without them. -/
def stealTop (q : Queue) (c : Nat) : List Span × Queue :=
  let m := cluChunks q c
  let (keep, top) := spanTake (Tab.getD q.cluSpans c []) (m - m / 2)
  (top, { q with cluSpans := Tab.set q.cluSpans c keep })

/-- CLUSTER_STEAL (R88). -/
def execClusterSteal (die cluster qn : Nat) (s : State) : Result :=
  match getQueue? s qn with
  | none => .next s
  | some q =>
    if cluster / 24 != die || cluChunks q cluster != 0 || takers s qn (fun c => c / 8 == cluster) == 0 then .next s
    else match richest q (((List.range 24).map fun i => 24 * die + i).filter (· != cluster)) with
      | none => .next s
      | some v =>
        if cluChunks q v < 2 then .next s
        else
          let (top, _) := stealTop q v
          let (top, s) := readChunks s qn top
          .next (takeSettle (placeSpans s qn fun q =>
            let q := (stealTop q v).2
            { q with cluSpans := Tab.set q.cluSpans cluster top }) qn)

/-- DIE_STEAL (R88). -/
def execDieSteal (die qn : Nat) (s : State) : Result :=
  match getQueue? s qn with
  | none => .next s
  | some q =>
    let mine := (List.range 24).map fun i => 24 * die + i
    if 1 < die || !(Tab.getD q.dieSpans die []).isEmpty || mine.any (fun c => cluChunks q c != 0) ||
       takers s qn (fun c => c / 192 == die) == 0 then .next s
    else match richest q ((List.range 24).map fun i => 24 * (1 - die) + i) with
      | none => .next s
      | some v =>
        if cluChunks q v < 2 then .next s
        else
          let (top, _) := stealTop q v
          let w := weights s qn q.ctx (clusterChildren die)
          let (top, s) := readChunks s qn top
          .next (takeSettle (placeSpans s qn fun q =>
            let q := (stealTop q v).2
            { q with cluSpans := addSpans q.cluSpans (split top w) }) qn)

/-! Refills: R81, R82. -/

/-- Refill while the ring has room; an uncorrectable entry is dropped (R436). -/
def refillRun (qn : Nat) : Nat → State → State
  | 0, s => s
  | fuel + 1, s => match getQueue? s qn with
    | none => s
    | some q => match refillOnce s q with
      | none => s
      | some q' =>
        let s := match q'.letters.getLast? with
          | some l => if l.bad then dropLetter s qn { q' with letters := q'.letters.dropLast } l.bytes else setQueue s qn q'
          | none => s
        refillRun qn fuel s

def refillNow (s : State) (qn : Nat) : State :=
  match getQueue? s qn with
  | none => s
  | some q => takeSettle (refillRun qn q.spseq.length s) qn

/-- SPILL_REFILL (R82, R85): refills, and what waiting takes can be given. -/
def execSpillRefill (q : Nat) (s : State) : Result := .next (served s (refillNow s q) q)

/-- SPILL_REFILL_RETRY (R81): a refill that did not translate is tried again. -/
def execSpillRefillRetry (q : Nat) (s : State) : Result :=
  match getQueue? s q with
  | none => .next s
  | some x => if x.spseq.isEmpty then .next s else .next (served s (refillNow s q) q)

/-! Posts: R82, R324. -/

/-- A post, then what it lets go on. -/
def postAndTake (s : State) (qn : Nat) (b : BitVec 256) (psn : Bool) (ctx : Option Nat) (body : ByteMem × List Nat) :
    Nat × State :=
  let (st, s) := postLetter s qn b psn ctx body
  (st, if st == 0 then takeSettle s qn else s)

/-- Translate a message body of `n` bytes on the poster's behalf, page by page: physical addresses and lengths. -/
def readBody (core ctx : Nat) : Nat → State → Nat → Nat → Except Exc (List (Nat × Nat)) × State
  | 0, s, _, _ => (.ok [], s)
  | fuel + 1, s, va, n =>
    if n == 0 then (.ok [], s)
    else
      let k := min n (65536 - va % 65536)
      match xlate s core ctx va .read with
      | (.trans, s) => (.error (excXlate false 0 va), s)
      | (.perm, s) => (.error (excXlate true 0 va), s)
      | (.ok pa _, s) => match readBody core ctx fuel s ((va + k) % 2 ^ 64) (n - k) with
        | (.error e, s) => (.error e, s)
        | (.ok l, s) => (.ok ((pa, k) :: l), s)

/-- Bytes of a body, each with its poison. -/
def bodyBytes (s : State) (ctx : Nat) (l : List (Nat × Nat)) : List (Byte × Bool) :=
  l.flatMap fun (pa, k) => (List.range k).map fun i =>
    let (v, p) := wordAtPa s ctx (pa + i) 1
    (BitVec.ofNat 8 v, p)

/-- A mail slot's content (R78, R438). -/
def slotBody (l : List (Byte × Bool)) : ByteMem × List Nat :=
  (memStore [] 0 l.length (bytesNat (l.map (·.1))),
   (List.range 8).filter fun g => (l.drop (32 * g)).take 32 |>.any (·.2))

/-- The queue number of an operand (R323). -/
def queueArg (b : Nat) (e : BitVec 12) : Nat := b + e.toNat

/-- LPOST (R324): a release at package scope. -/
def execLpost (x : LPost) (s0 : State) : Result :=
  runSeqR s0 (.lpost x) fun reads s n =>
    let q := queueArg (n.arg 1) x.e
    let b := BitVec.ofNat 256 (n.arg 0)
    let psn := valPsn (n.v.getD 0 [])
    let va := n.arg 2
    let ctx := ctxOf s n.t.team
    let finish := fun (st : Nat) (s : State) =>
      let s := modThread (reads s) n.t fun th => setPred th x.n.toNat (st == 0)
      ({ s := advance (writeDst s n.t (firstOn s0 x.ctl n.t) x.d (natVals st false 1)) n.t x.ctl none, own := true } : SeqOut)
    if 4096 ≤ q then { s := s, exc := some (excAddr 3 q false) }
    else if !relReady s n.t .package then { s := s, busy := true }
    else if letKind b != 4 then
      -- a body address with another kind makes the letter invalid
      let (st, s) := postAndTake s q (if va != 0 then 0 else b) psn (some ctx) ([], [])
      finish st s
    else
      let (st0, s1) := postLetter s q b psn (some ctx) ([], [])
      if st0 != 0 then finish st0 s1
      else if valPsn (n.v.getD 2 []) then { s := s, exc := some (excPoison 1 n.th.pc.toNat) }
      else match readBody (coreOf s n.t.team) ctx 3 s va (letField b 4 4) with
        | (.error e, s) => { s := s, exc := some e }
        | (.ok l, s) =>
          (match l.find? fun x => 192 ≤ paPkg x.1 with
           | some x => { s := s, stop := some x.1 }
           | none =>
             let (st, s) := postAndTake s q b psn (some ctx) (slotBody (bodyBytes s ctx l))
             finish st s)

/-- The posts of a write of whole lines, in ascending order, one directly after another (R83): queue and letter. -/
def windowPosts (q line : Nat) (data : List Byte) : List (Nat × BitVec 256) :=
  (List.range (data.length / 64)).flatMap fun i =>
    let qn := q + (line + i) / 64
    let l := (data.drop (64 * i)).take 64
    (qn, BitVec.ofNat 256 (bytesNat (l.take 32))) ::
      (if l.getD 32 0 == 0xFF then [] else [(qn, BitVec.ofNat 256 (bytesNat (l.drop 32)))])

/-- HOST_WINDOW_POST (R83, R438): a write from line `line` of window `q` on. -/
def execHostWindowPost (q line : Nat) (data : List Byte) (psn : Bool) (s : State) : Result :=
  if data.isEmpty || !isUp s then .next s
  else if psn then .next (logEvent (countRefused s q) (unitHub 0) 3 1 (qdPa s q) 1
    (match getQueue? s q with | some x => x.ctx | none => 0xFF) 1)
  else if data.length % 64 != 0 then .next (countRefused s q)
  else
    let ps := windowPosts q line data
    let s := ps.foldl (fun s (qn, b) => (postLetter s qn b false none ([], [])).2) s
    .next ((ps.map (·.1)).eraseDups.foldl takeSettle s)

/-! Takes and acknowledgements: R325, R326. -/

/-- The queue of an LTAKE or LDONE: enabled and of the thread's context, else an address fault (R298). -/
def takeQueue (s : State) (t : TRef) (q : Nat) : Option Queue :=
  if 4096 ≤ q then none
  else match getQueue? s q with
    | some x => if x.ctx == ctxOf s t.team then some x else none
    | none => none

/-- LTAKE. -/
def execLtake (x : LTake) (s0 : State) : Result :=
  runSeqR s0 (.ltake x) fun _ s n =>
    let q := queueArg (n.arg 0) x.e
    if !x.try_ && inHandler s n.t.team then { s := s, exc := some excHandlerWait }
    else match takeQueue s n.t q with
      | none => { s := s, exc := some (excAddr 3 q false) }
      | some y =>
        let s := startWait s n.t (.ltake x q)
        let s := takeSettle (setQueue s q { y with waits := y.waits ++ [⟨n.t⟩] }) q
        if x.try_ && waiterStill s n.t then
          let s := { s with queues := Tab.modify s.queues q fun y => { y with waits := y.waits.filter fun w => w.t != n.t } }
          { s := wake s n.t [(x.n.toNat, false)] [], own := true }
        else { s := s, own := true }
where
  waiterStill (s : State) (t : TRef) : Bool :=
    match thread? s t with
    | some th => (match th.st with | .waiting _ => true | _ => false)
    | none => false

/-- The oldest letter that a thread has taken and not released. -/
def oldestTaken (q : Queue) (t : TRef) : Option Taken :=
  match q.taken.filter fun k => k.t == t with
  | [] => none
  | k :: rest => some (rest.foldl (fun m y => if y.letter.seq < m.letter.seq then y else m) k)

/-- LDONE: a release at package scope. -/
def execLdone (x : LDone) (s0 : State) : Result :=
  runSeqR s0 (.ldone x) fun reads s n =>
    let q := queueArg (n.arg 0) x.e
    let done := fun (s : State) (b : Bool) =>
      ({ s := advance (modThread (reads s) n.t fun th => setPred th x.n.toNat b) n.t x.ctl none, own := true } : SeqOut)
    match takeQueue s n.t q with
    | none =>
      -- its letter went with a discard of the queue (R80)
      if q < 4096 && (getQueue? s q).isNone && s.discarded.contains (q, n.t) then
        (if !relReady s n.t .package then { s := s, busy := true } else done s false)
      else { s := s, exc := some (excAddr 3 q false) }
    | some y =>
      if !relReady s n.t .package then { s := s, busy := true }
      else
        let k := oldestTaken y n.t
        let s := match k with
          | some k => takeSettle (setQueue s q (slotFree { y with taken := y.taken.erase k } k.letter.bytes)) q
          | none => s
        done s k.isSome

/-! Deposits: R125-R127, R327. -/

/-- The team that a deposit names; an error where the sender's gang has none. -/
def depositTeam (s : State) (tm c : Nat) : Except Unit (Option Nat) :=
  match team? s tm, gridOf s tm with
  | some t, some g =>
    if !g.gang then (if c == t.core % 8 then .ok (some tm) else .error ())
    else if g.nteam ≤ t.team / 8 * 8 + c then .error ()
    else .ok (gangTeam s tm c)
  | _, _ => .error ()

/-- Is a deposit accepted (R125)? -/
def depositOk (s : State) (tm gid n : Nat) : Bool :=
  match team? s tm with
  | some t => t.st == .resident && !t.stopped && gid < t.ngrp && n < gregsOf s tm
  | none => false

/-- RDEP (R327): a release at cluster scope. -/
def execRdep (x : RDep) (s0 : State) : Result :=
  runSeqR s0 (.rdep x) fun reads s n =>
    let w := (n.arg 1 + x.t.toNat) % 2 ^ 14
    let gid := w / 8 % 32
    let idx := w / 256
    match depositTeam s n.t.team (w % 8) with
    | .error _ => { s := s, exc := some (excAddr 5 w false) }
    | .ok v =>
      if !relReady s n.t .cluster then { s := s, busy := true }
      else
        let ok := match v with | some tm => depositOk s tm gid idx | none => false
        let val := match n.v.getD 0 [] with | a :: _ => a | [] => Val.zero
        let s := modThread (reads (relPass s n.t)) n.t fun th => setPred th x.n.toNat ok
        let s := match v with
          | some tm =>
            if ok then { s with msgs := s.msgs ++ [.deposit n.t tm gid idx s.claims val false], claims := s.claims + 1 } else s
          | none => s
        { s := advance s n.t x.ctl none, own := true }

/-- Is no deposit of the same sender to the same group before this one (R126)? -/
def depositFirst (s : State) (k : Nat) : Bool :=
  match s.msgs[k]? with
  | some (.deposit src tm gid _ _ _ _) => (s.msgs.take k).all fun m => match m with
      | .deposit src' tm' gid' _ _ _ _ => !(src' == src && tm' == tm && gid' == gid)
      | _ => true
  | _ => false

/-- A deposit with its claim made. -/
def Msg.claim : Msg → Msg
  | .deposit src tm gid n tag v _ => .deposit src tm gid n tag v true
  | m => m

/-- The deposits accepted in a cycle, after its writes: each claims its register and makes it empty, in their order (R107, R125). -/
def depositTick (s : State) : State :=
  let s' := s.msgs.foldl (fun s m => match m with
    | .deposit _ tm gid n tag _ false => modGroup s tm gid fun g => setG g n (Reg.claim (Tab.get? g.gregs n) tag)
    | _ => s) s
  { s' with msgs := s.msgs.map Msg.claim }

/-- Has everything that a register awaits before a claim come? -/
def Reg.turn (r : Option Reg) (tag : Nat) : Bool :=
  match r with
  | some (.empty q) => (q.takeWhile fun p => p.tag != some tag).all (·.x.isSome)
  | _ => true

/-- RDEP_ACCEPT (R125): message `k`, which has claimed its register, after the sender's earlier ones to the group and after the fills of
the producers before it (R126): the value fills the register, then %arr counts one more. A group that has left takes nothing. -/
def execRdepAccept (k : Nat) (s : State) : Result :=
  match s.msgs[k]? with
  | some (.deposit _ tm gid n tag v claimed) =>
    let s' := { s with msgs := s.msgs.eraseIdx k }
    (match group? s tm gid with
     | none => .next s'
     | some g0 =>
       if !(claimed && depositFirst s k && Reg.turn (Tab.get? g0.gregs n) tag) then .next s
       else
         let s' := modGroup s' tm gid fun g => { g with gregs := Tab.modify g.gregs n fun r => Reg.fill r tag v, arr := g.arr + 1 }
         .next (arrSettle (haltSettle s' tm gid) tm gid))
  | _ => .next s

/-! Queue commands: R79-R81. -/

def setQstat (s : State) (v : Nat) : State := { s with qstat := BitVec.ofNat 32 v }

/-- QDTBASE_WRITE (R79). -/
def execQdtbaseWrite (v : W64) (s : State) : Result :=
  if !isUp s then .next s
  else if !s.queues.isEmpty then .next (setQstat s 0x84)
  else if v.toNat % 2 ^ 18 != 0 || 2 ^ 48 ≤ v.toNat || !isOwnMem s v.toNat then .next (setQstat s 0x80)
  else .next (setQstat { s with qdtbase := v } 0)

/-- QSIZE_WRITE (R79). -/
def execQsizeWrite (v : W32) (s : State) : Result :=
  if !isUp s then .next s
  else if !s.queues.isEmpty then .next (setQstat s 0x84)
  else if 32 < v.toNat then .next (setQstat s 0x80)
  else .next (setQstat (trimL2 { s with qsize := v }) 0)

/-- A queue command runs: QSTAT reads busy until it ends. -/
def qBegin (s : State) (v : Nat) : State := { setQstat s 1 with qrun := some (BitVec.ofNat 32 v) }

/-- Is the queue command page free, with the command's OP and reserved bits as they must be? -/
def qctlOk (s : State) (c : W32) (op : Nat) : Bool := isUp s && s.qrun.isNone && bits c.toNat 31 28 == op
def qctlQueue (c : W32) : Nat := c.toNat % 4096
def qctlReserved (c : W32) : Bool := bits c.toNat 27 12 != 0

/-- A descriptor's queue, empty, or none where a field is bad (R81). It starts without mail slots, each at generation 0 (DESIGN CHOICE
after a plain disable: R80 says of a discard alone that it frees them; assumption 75). -/
def parseQueue (d : Nat) : Option Queue :=
  let f := fun o n => d / 2 ^ (8 * o) % 2 ^ (8 * n)
  let c := f 0x00 4
  let ring := f 0x04 1
  if bits c 31 13 == 0 && (ring == 0 || (6 ≤ ring && ring ≤ 12)) && f 0x05 1 ≤ 24 && f 0x06 2 ≤ 1024 && f 0x08 8 % 4096 == 0 &&
     f 0x2C 20 == 0 then
    some { ack := bit c 0, dist := bit c 1, prio := bits c 4 2, ctx := bits c 12 5, ring := ring, spill := f 0x05 1
           spillbase := BitVec.ofNat 64 (f 0x08 8), mailn := f 0x06 2, letters := [], sphead := 0, sptail := 0, spseq := []
           posted := f 0x18 8, refused := f 0x20 4, dropped := f 0x24 4, returned := f 0x28 4, taken := [], mail := []
           die := 0, store := 0, waits := [], range := none, pkgSpans := [], dieSpans := [], cluSpans := [], badChunks := [] }
  else none

/-- The compute die on which a queue's store fits: the one with more left, C0 on a tie (R80). -/
def storeDie (s : State) (need : Nat) : Option Nat :=
  let free := fun (d : Nat) => if dieLost s d then 0 else s.qsize.toNat * 2 ^ 20 - Tab.getD s.storeUsed d 0
  let d := if free 0 < free 1 then 1 else 0
  if need ≤ free d then some d else none

/-- QUEUE_ENABLE (R80). A poisoned descriptor is a bad descriptor field (DESIGN CHOICE, assumption 75). Threads still waiting in LTAKE
for the queue, of whatever context, stand in its order of arrival again (DESIGN CHOICE, assumption 75). -/
def execQueueEnable (c : W32) (s : State) : Result :=
  if !qctlOk s c 1 then .next s
  else
    let qn := qctlQueue c
    if qctlReserved c then .next (setQstat s 0x80)
    else if (getQueue? s qn).isSome then .next (qBegin s 0x83)
    else match cohRead s (qdPa s qn) 64 with
      | (d, p) => match (if p then none else parseQueue d) with
        | none => .next (qBegin s 0x80)
        | some q =>
          let need := 32 * q.cap + 256 * q.mailn
          match storeDie s need with
          | none => .next (qBegin s 0x81)
          | some die =>
            let ws := (allWaiters s).filterMap fun (t, w) => match w with
              | .ltake _ k => if k == qn then some ⟨t⟩ else none
              | _ => none
            let s := setQueue s qn { q with
              die := die, store := need, waits := ws, refused := (q.refused + Tab.getD s.refusedOff qn 0) % 2 ^ 32 }
            let s := { s with refusedOff := Tab.erase s.refusedOff qn }
            .next (qBegin { s with storeUsed := Tab.set s.storeUsed die (Tab.getD s.storeUsed die 0 + need) } 0)

/-- A queue leaves: its counters are written back and its store is freed (R80, R81). A plain disable too ends the records of letters
taken and not released (DESIGN CHOICE: R80 says it of a discard, assumption 75). -/
def queueGone (s : State) (qn : Nat) (q : Queue) : State :=
  let x := packFields [(0, 4, q.sphead), (4, 4, q.sptail), (8, 8, q.posted), (16, 4, q.refused), (20, 4, q.dropped),
    (24, 4, q.returned)]
  let s := cohWrite (lostWrite s (qdPa s qn) q.ctx) (qdPa s qn + 0x10) 28 x false none
  { s with
    queues := Tab.erase s.queues qn
    storeUsed := Tab.set s.storeUsed q.die (Tab.getD s.storeUsed q.die 0 - q.store) }

/-- A discard remembers the threads that had taken letters (R80). -/
def queueDiscard (s : State) (qn : Nat) (q : Queue) : State :=
  let s := queueGone s qn q
  { s with discarded := q.taken.foldl (fun l k => if l.contains (qn, k.t) then l else (qn, k.t) :: l) s.discarded }

def Queue.hasLetters (q : Queue) : Bool :=
  !q.letters.isEmpty || !q.spseq.isEmpty || q.nout != 0 || q.range.isSome

/-- QUEUE_DISABLE (R80). -/
def execQueueDisable (c : W32) (s : State) : Result :=
  if !qctlOk s c 2 then .next s
  else if qctlReserved c then .next (setQstat s 0x80)
  else match getQueue? s (qctlQueue c) with
    | none => .next (qBegin s 0x83)
    | some q => if q.hasLetters then .next (qBegin s 0x82) else .next (qBegin (queueGone s (qctlQueue c) q) 0)

/-- QUEUE_DISCARD_DISABLE (R80). -/
def execQueueDiscardDisable (c : W32) (s : State) : Result :=
  if !qctlOk s c 3 then .next s
  else if qctlReserved c then .next (setQstat s 0x80)
  else match getQueue? s (qctlQueue c) with
    | none => .next (qBegin s 0x83)
    | some q => .next (qBegin (queueDiscard s (qctlQueue c) q) 0)

/-- QCTL_BAD_OP (R80). -/
def execQctlBadOp (c : W32) (s : State) : Result :=
  let op := bits c.toNat 31 28
  if !isUp s || s.qrun.isSome || (1 ≤ op && op ≤ 3) then .next s else .next (setQstat s 0x80)

/-- QUEUE_COMMAND_COMPLETE (R80). -/
def execQueueCommandComplete (s : State) : Result :=
  match s.qrun with
  | some v => .next { s with qstat := v, qrun := none }
  | none => .next s

end Sys2Proof.Machine
end

