-- ==== Sys2Proof/Machine/Group.lean ====
section
/-! DEFINITION. The group collectives of class 0xC (R329-R344): one issue of the 32 threads of a group, precise for all of them
together (R332). -/

namespace Sys2Proof.Machine

/-! The frame of a collective. -/

/-- A lane of a collective: its thread, whether it is in G (R330), the values it supplies or reads. -/
structure CLane where
  n : LaneIn
  on : Bool
  void : Bool

/-- What a collective does: the effect on each lane of G, a fault of a lane, and what it does to the group besides. -/
structure CollRes where
  effs : List (TRef × LaneEff)
  excs : List (TRef × Exc × BitVec 7) := []
  grp : State → State := fun s => s
  /-- a resource of the core is wanting -/
  busy : Bool := false
  /-- a physical address whose PKG is reserved (R18) -/
  stop : Option Nat := none
  /-- the state with what its walks have cached, whether or not it faults (R184) -/
  walked : Option State := none

/-- Hold the threads of a collective that has not issued. -/
def holdLanes (s : State) (l : List TRef) : State :=
  l.foldl (fun s t => modThread s t fun th => if th.canIssue then { th with st := .held } else th) s

/-- Traps and faults of a collective: their threads take them, the others stay held (R332). -/
def collRaise (s : State) (lanes : List TRef) (ex : List (TRef × Exc × BitVec 7)) : State :=
  let s := ex.foldl (fun s (t, _, fl) => modThread s t fun th => { th with tstat := th.tstat ||| fl }) s
  let s := holdLanes s (lanes.filter fun t => !(ex.any fun x => x.1 == t))
  raiseAll s [] (ex.map fun (t, e, _) => (t, e))

/-- A collective that cannot issue yet: its threads are blocked (R59). -/
def collBlock (s : State) (lanes : List TRef) : State := lanes.foldl (fun s t => busy s t) s

/-- The lanes of a collective with what they read: the sources that each lane reads (R330, R349). -/
def collLanes (s : State) (i : OpInfo) (lanes : List TRef) : List CLane :=
  lanes.filterMap fun t => (thread? s t).map fun th =>
    let on := guardOf th i.ctl
    let now := srcsNow t th i
    let vals := (i.srcs.zip (readSrcs s t th [] i.srcs).1).map fun (o, v) => if now.contains o then v else []
    ⟨⟨t, th, vals, pairLanes s t th.draws⟩, on, on && (readSrcs s t th [] now).2.1⟩

/-- Can every thread issue the collective? -/
def collReady (s : State) (i : OpInfo) (lanes : List TRef) : Bool :=
  lanes.all fun t => match thread? s t with
    | some th => th.canIssue && th.unres.isNone && (blockOf s t th i).isNone
    | none => false

/-- The reads of a collective: every lane releases, lanes of G hold and set their sticky bits (R111, R330, R331). -/
def collReads (s : State) (i : OpInfo) (ls : List CLane) : State :=
  ls.foldl (fun s c => afterReads s c.n.t i c.on c.n.v [] (if c.on then readFlags c.n.v c.void else 0)) s

/-- The writes of a collective and the step to the next instruction. -/
def collWrites (s : State) (i : OpInfo) (ls : List CLane) (effs : List (TRef × LaneEff)) : State :=
  let first := (ls.find? fun c => c.on).map fun c => c.n.t
  let s := effs.foldl (fun s (t, e) =>
    let psn := e.writes.any fun w => valPsn w.2
    let s := applyEff s t (some t == first) e
    if psn then modThread s t fun th => { th with tstat := th.tstat ||| fPSN } else s) s
  ls.foldl (fun s c => advance s c.n.t i.ctl none) s

/-- Run the issue of a collective. -/
def runColl (s : State) (ins : Instr) (f : State → List CLane → CollRes) : Result :=
  match s.cur with
  | none => .next s
  | some iss =>
    let s := { s with cur := none }
    match iss.lanes, iss.lanes.head?.bind fun t => infoNow s t.team t.gid ins with
    | t0 :: _, some i =>
      let (s, ex, bz) := prepare s i iss.lanes
      if !bz.isEmpty || !collReady s i iss.lanes then .next (collBlock s iss.lanes)
      else
        let opx := iss.lanes.filterMap fun t => (thread? s t).bind fun th => (operandExc s t th i).map fun e => (t, e, (0 : BitVec 7))
        let ex := ex.map fun (t, e) => (t, e, (0 : BitVec 7))
        if !(ex ++ opx).isEmpty then .next (collRaise s iss.lanes (ex ++ opx))
        else
          let ls := collLanes s i iss.lanes
          let r := f s ls
          let ten := tenOf s t0.team
          let tr := r.effs.filterMap fun (t, e) => (arithTrap ten e).map fun x => (t, x, e.flags)
          if let some pa := r.stop then .fault (.reservedPackage pa)
          else if r.busy then .next (collBlock s iss.lanes)
          else if !(r.excs ++ tr).isEmpty then .next (collRaise (r.walked.getD s) iss.lanes (r.excs ++ tr))
          else .next (collWrites (r.grp (collReads s i ls)) i ls r.effs)
    | _, _ => .next s

/-! Helpers on lanes. -/

def onMask (ls : List CLane) (p : CLane → Bool) : Nat :=
  ls.foldl (fun m c => if c.on && p c then m + 2 ^ c.n.t.lane else m) 0

def laneArg (ls : List CLane) (l k : Nat) : List Val :=
  match ls.find? fun c => c.n.t.lane == l with
  | some c => c.n.v.getD k []
  | none => []

/-- One effect for each lane of G. -/
def onLanes (ls : List CLane) (f : CLane → LaneEff) : List (TRef × LaneEff) :=
  ls.filterMap fun c => if c.on then some (c.n.t, f c) else none

/-- PSN in every lane of G (R331). -/
def psnAll (ls : List CLane) (s : State) : State :=
  ls.foldl (fun s c => if c.on then modThread s c.n.t fun th => { th with tstat := th.tstat ||| fPSN } else s) s

def setK (s : State) (tm gid n : Nat) (v : W32) : State := modGroup s tm gid fun g => { g with ks := Tab.set g.ks n v }

/-- The team and group of an issue. -/
def grpOf (ls : List CLane) : Nat × Nat := match ls with | c :: _ => (c.n.t.team, c.n.t.gid) | [] => (0, 0)

/-! Votes, matches, elections: R335. -/

/-- VOTE. -/
def execVote (x : Vote) (s : State) : Result :=
  runColl s (.vote x) fun _ ls =>
    let all := onMask ls fun _ => true
    let ballot := onMask ls fun c => predOf c.n.th x.s != x.neg
    let r := match x.mode.val with
      | 0 => ballot == all
      | 1 => ballot != 0
      | _ => ballot == 0 || ballot == all
    { effs := onLanes ls fun _ => { writes := result32 x.d ballot false, preds := [(x.n.toNat, r)] } }

/-- MATCH: bit for bit; poison of any value compared enters the result (R331). -/
def execMatchg (x : Match) (s : State) : Result :=
  runColl s (.matchg x) fun _ ls =>
    let psn := ls.any fun c => c.on && c.n.psn
    let val := fun (c : CLane) => c.n.arg 0
    let same := fun (c : CLane) => onMask ls fun d => val d == val c
    let all := onMask ls fun _ => true
    { effs := onLanes ls fun c => { writes := result32 x.d (same c) psn, preds := [(x.n.toNat, same c == all)] } }

/-- ELECT. -/
def execElect (x : Elect) (s : State) : Result :=
  runColl s (.elect x) fun _ ls =>
    let e := match ls.find? fun c => c.on with | some c => c.n.t.lane | none => 0
    { effs := onLanes ls fun c => { writes := result32 x.d e false, preds := [(x.n.toNat, c.n.t.lane == e)] } }

/-! Shuffles: R336, R337. -/

/-- The lane a shuffle reads and whether it lies in the segment. -/
def shflFrom (mode : BitVec 2) (w i b : Nat) : Nat × Bool :=
  let base : Int := i - i % w
  let j : Int := match mode.toNat with
    | 0 => base + b % w
    | 1 => i - b
    | 2 => i + b
    | _ => i ^^^ b
  if base ≤ j && j < base + w then (j.toNat, true) else (i, false)

/-- SHFL. -/
def execShfl (x : Shfl) (s : State) : Result :=
  runColl s (.shfl x) fun _ ls =>
    { effs := onLanes ls fun c =>
        let (j, ok) := shflFrom x.mode (2 ^ x.seg.val) c.n.t.lane (c.n.arg 1)
        let v := laneArg ls j 0
        let p := valPsn v || valPsn (c.n.v.getD 1 [])
        { writes := [(x.d, v.map fun y => { y with psn := p })], preds := [(x.n.toNat, ok)] } }

/-- BFLY: element (lane, register) changes places with its partner of the stage. -/
def execBfly (x : Bfly) (s : State) : Result :=
  runColl s (.bfly x) fun _ ls =>
    { effs := onLanes ls fun c =>
        let i := c.n.t.lane
        let d := 2 ^ x.s.val
        { writes := [(x.d, (List.range 32).map fun j =>
            if bit i x.s.val != bit j x.s.val then (laneArg ls (i ^^^ d) 0).getD (j ^^^ d) ⟨0, false⟩
            else (laneArg ls i 0).getD j ⟨0, false⟩)] } }

/-! Reductions and scans: R156, R338, R339. -/

/-- The identity of an operation. -/
def gopIdent (x : Redg) : Nat :=
  let f := fmtOf x.ty
  if x.ty.isInt then
    match x.op with
    | .and => 2 ^ x.ty.width - 1
    | .min => wrap x.ty.width (Ty.hi x.ty)
    | .max => wrap x.ty.width (Ty.lo x.ty)
    | _ => 0
  else match x.op with
    | .min => f.inf
    | .max => f.signed true f.inf
    | _ => f.signBit

/-- One step on two values. -/
def gopStep (x : Redg) (mode : Rnd) (w : W32) (u v : Nat) : FRes :=
  let t := x.ty
  if t.isInt then
    ⟨(match x.op with
      | .add => fit t x.f0 (ival t u + ival t v)
      | .min => if ival t u ≤ ival t v then u else v
      | .max => if ival t v ≤ ival t u then u else v
      | .and => u &&& v
      | .or => u ||| v
      | .xor => u ^^^ v), 0⟩
  else match x.op with
    | .min => fminmax (fmtOf t) true x.f1 x.f0 u v
    | .max => fminmax (fmtOf t) false x.f1 x.f0 u v
    | _ => fadd (fmtOf t) mode x.f0 w u v

/-- A lane of a reduction in progress. -/
structure RLane where
  on : Bool
  word : Nat → W32
  y : Nat
  psn : Bool
  conds : BitVec 7
  draws : Nat

/-- A step computed at one lane: under rs it draws there if the lane is in G; conditions count there if it is, NONFIN only when
written (R339). -/
def redAt (x : Redg) (r : RLane) (u v : RLane) : RLane :=
  let mode := if r.on then x.rnd else .rn
  let f := gopStep x mode (r.word r.draws) u.y v.y
  let drawn := r.on && x.rnd == .rs && !x.ty.isInt
  { r with
    y := f.bits, psn := u.psn || v.psn
    conds := if r.on then r.conds ||| (f.flags &&& ~~~fNONFIN) else r.conds
    draws := if drawn then r.draws + 1 else r.draws }

def redStep (x : Redg) (scan : Bool) (d : Nat) (ys : List RLane) : List RLane :=
  ys.zipIdx.map fun (r, i) =>
    let other := fun j => ys.getD j r
    if scan then (if d ≤ i then redAt x r (other (i - d)) r else r)
    else if i < d then redAt x r r (other (i + d)) else r

/-- The steps of REDG or SCANG from the lanes' values. -/
def redAll (x : Redg) (scan : Bool) (ls : List CLane) : List RLane :=
  let ys := ls.map fun c => (⟨c.on, c.n.word, if c.on then c.n.arg 0 else gopIdent x, c.on && c.n.psn, 0, 0⟩ : RLane)
  (if scan then [1, 2, 4, 8, 16] else [16, 8, 4, 2, 1]).foldl (fun ys d => redStep x scan d ys) ys

def redResult (x : Redg) (scan : Bool) (ls : List CLane) : CollRes :=
  let ys := redAll x scan ls
  let at_ := fun (l : Nat) => match ys[l]? with | some r => (r.y, r.psn) | none => (0, false)
  { effs := (ls.zip ys).filterMap fun (c, r) =>
      if c.on then
        let l := c.n.t.lane
        let (v, p) := if !scan then at_ 0
          else if x.excl then (if l == 0 then (gopIdent x, false) else at_ (l - 1)) else at_ l
        let nf := !x.ty.isInt && (match (fmtOf x.ty).decode false v with | .fin .. => false | _ => true)
        some (c.n.t, { writes := result x.d x.ty v p, conds := [r.conds ||| flagIf nf fNONFIN], draws := r.draws })
      else none }

/-- REDG. -/
def execRedg (x : Redg) (s : State) : Result := runColl s (.redg x) fun _ ls => redResult x false ls

/-- SCANG. -/
def execScang (x : Redg) (s : State) : Result := runColl s (.scang x) fun _ ls => redResult x true ls

/-! Tile predicates and nonzero maps: R340, R341. -/

/-- KOP on registers. -/
def kopVal (op : KOpc) (a b : W32) : W32 :=
  match op with
  | .and => a &&& b
  | .or => a ||| b
  | .xor => a ^^^ b
  | .andn => a &&& ~~~b
  | _ => ~~~a

/-- KOP. -/
def execKop (x : Kop) (s : State) : Result :=
  runColl s (.kop x) fun s ls =>
    let (tm, gid) := grpOf ls
    let a := kReg s tm gid x.ka.toNat
    let b := kReg s tm gid x.kb.toNat
    match x.op, ls.find? fun c => c.on with
    | .st, _ => { effs := onLanes ls fun _ => { writes := result32 x.d a.toNat false } }
    | _, none => { effs := [] }
    | .ld, some c =>
      { effs := onLanes ls fun _ => {}
        grp := fun s =>
          let s := setK s tm gid x.kd.toNat (BitVec.ofNat 32 (c.n.arg 0))
          if c.n.psn then psnAll ls s else s }
    | op, some _ => { effs := onLanes ls fun _ => {}, grp := fun s => setK s tm gid x.kd.toNat (kopVal op a b) }

/-- Bits of an element of an input type. -/
def elemBits (t : Ty) : Nat := t.width

/-- The k-step of part `p` of register `j` (of pair 0 for f64) in lane `l` of an A or B fragment (R342). -/
def kStepOf (t : Ty) (l j : Nat) : Nat :=
  match t with
  | .t8 => (32 * (j / 4) + l) / 16
  | .f32 => l % 8 / 2
  | .f64 => l % 4
  | _ => l / 8

/-- The elements of a fragment block in one lane: register and bits. -/
def blockElems (t : Ty) (v : List Val) : List (Nat × Nat) :=
  if t == .f64 then [(0, valNat v)]
  else v.zipIdx.flatMap fun (x, j) =>
    (List.range (32 / t.width)).map fun b => (j, x.v.toNat / 2 ^ (t.width * b) % 2 ^ t.width)

/-- NZMAP. -/
def execNzmap (x : NzMap) (s : State) : Result :=
  runColl s (.nzmap x) fun s ls =>
    let (tm, gid) := grpOf ls
    let map := (List.range 4).foldl (fun m k =>
      if ls.any fun c => (blockElems x.ty (c.n.v.getD 0 [])).any fun (j, e) =>
        kStepOf x.ty c.n.t.lane j == k && countsNonzero x.ty e then m + 2 ^ k else m) 0
    let psn := ls.any fun c => c.n.psn
    let p := 4 * x.pos.toNat
    let old := (kReg s tm gid x.kd.toNat).toNat
    let new := BitVec.ofNat 32 (old % 2 ^ p + map * 2 ^ p + old / 2 ^ (p + 4) * 2 ^ (p + 4))
    if ls.any fun c => c.on then
      { effs := onLanes ls fun _ => {}
        grp := fun s =>
          let s := setK s tm gid x.kd.toNat new
          if psn then psnAll ls s else s }
    else { effs := [] }

/-! CVTB: R344. -/

/-- The scale byte of the supplied values. -/
def cvtbScale (xs : List FV) : Nat :=
  if xs.any fun v => v.isNan || v.isInf then 0xFF
  else
    let m := xs.foldl (fun (m : Dy) v => m.max ⟨v.dy.m.natAbs, v.dy.e⟩) Dy.zero
    if m.isZero then 127 else ((Nat.log2 m.m.natAbs : Int) + m.e + 127).toNat

/-- CVTB after the implicit register is known to be in range and full or void: its read sets VOIDRD or PSN in each lane of G. -/
def cvtbRes (x : CvtB) (old : Val) (void : Bool) (ls : List CLane) : CollRes :=
  let xs := ls.map fun c => fmtF32.decode x.ftz (c.n.arg 0)
  let sc := cvtbScale xs
  let psn := ls.any fun c => valPsn (c.n.v.getD 0 [])
  let sh := 8 * x.byte.toNat
  let put := fun (o n sh : Nat) => o % 2 ^ sh + n * 2 ^ sh + o / 2 ^ (sh + 8) * 2 ^ (sh + 8)
  let (tm, gid) := grpOf ls
  let reg := 8 * x.sg8.toNat + x.q.toNat / 4
  { effs := onLanes ls fun c =>
      let v := fmtF32.decode x.ftz (c.n.arg 0)
      let d := v.dy
      let e := if sc == 0xFF then 0x80 else (tfmtOf .t8).encode x.rnd (c.n.word 0) ⟨d.m, d.e - ((sc : Int) - 127)⟩
      let fl := if sc == 0xFF then fNARP ||| flagIf v.isSnan fINV else 0
      { writes := result32 x.d (put (c.n.arg 1) e sh) (psn || valPsn (c.n.v.getD 1 []))
        conds := [fl ||| flagIf void fVOIDRD ||| flagIf old.psn fPSN]
        draws := drawsFor x.rnd 1 }
    grp := fun s =>
      if ls.any fun c => c.on then
        let v : Val := ⟨BitVec.ofNat 32 (put old.v.toNat sc (8 * (x.q.toNat % 4))), psn || old.psn⟩
        modGroup s tm gid fun g => writeG g reg [v]
      else s }

/-- CVTB: the scale register is an implicit source; an index at or above GREGS faults in every lane. -/
def execCvtb (x : CvtB) (s : State) : Result :=
  let reg := 8 * x.sg8.toNat + x.q.toNat / 4
  let stuck := match s.cur with
    | some iss => (match iss.lanes with
      | t :: _ => (match gReg s t reg with | some (.empty _) => true | _ => false)
      | [] => false)
    | none => false
  if stuck then
    match s.cur with
    | some iss => .next (collBlock { s with cur := none } iss.lanes)
    | none => .next s
  else runColl s (.cvtb x) fun s ls =>
    let (tm, gid) := grpOf ls
    if gregsOf s tm ≤ reg then
      { effs := [], excs := ls.filterMap fun c => if c.on then some (c.n.t, excIndex 4 reg, 0) else none }
    else
      let (old, void) := match group? s tm gid with | some g => readReg1 (Tab.get? g.gregs reg) | none => (Val.zero, false)
      cvtbRes x old void ls

end Sys2Proof.Machine
end

