-- ==== Sys2Proof/Machine/Matrix.lean ====
section
/-! DEFINITION. Class 0xD: MMA and MMAZ with the core's matrix engine (R93, R153, R345-R347), its stop and resumption (R95, R96),
and the fragment moves LDM and STM (R342, R348, R349). -/

namespace Sys2Proof.Machine

/-! Fragment layouts: R342. -/

/-- The elements of a fragment in lane `l`, ascending: byte in the block, row, column. -/
def fragElems (shape : Nat) (role : Role) (l : Nat) : List (Nat × Nat × Nat) :=
  match role with
  | .c =>
    if shape == 3 then (List.range 2).map fun p => (8 * p, 4 * p + l / 8, l % 8)
    else (List.range 8).map fun j => (4 * j, 2 * j + l / 16, l % 16)
  | r =>
    let es : List (Nat × Nat × Nat) := match shape with
      | 0 => (List.range 32).map fun i => (i, 4 * (i / 4 % 4) + i % 4, 32 * (i / 16) + l)
      | 1 => (List.range 16).map fun i => (2 * i, i, l)
      | 2 => (List.range 4).map fun j => (4 * j, 4 * (l / 8) + j, l % 8)
      | _ => [(0, l / 4, l % 4)]
    if r == .a then es else es.map fun (o, m, k) => (o, k, m)

/-- Bytes of an element. -/
def fragSize (shape : Nat) (role : Role) : Nat :=
  match role with
  | .c => if shape == 3 then 8 else 4
  | _ => 2 ^ shape

/-! The sum of one output: R347. -/

/-- The rank of a matrix type: its number of k. -/
def mmaK (t : Ty) : Nat :=
  match t with
  | .t8 => 64
  | .f32 => 8
  | .f64 => 4
  | _ => 32

def mmaOf (i : Instr) : Option Mma :=
  match i with
  | .mma x | .mmaz x => some x
  | _ => none

/-- An input element of A (m, k), or of B (k, n) with `m` for n: its value, its scale's exponent and its poison. -/
def mmaElem (x : Mma) (blk : List (List Val)) (scales : List Val) (m k : Nat) : FV × Int × Bool :=
  let reg := fun (l j : Nat) => (blk.getD l []).getD j ⟨0, false⟩
  match x.ty with
  | .t8 =>
    let r := reg (k % 32) (4 * (k / 32) + m / 4)
    let e := r.v.toNat / 2 ^ (8 * (m % 4)) % 256
    if x.bs then
      let q := m + 16 * (k / 32)
      let sr := scales.getD (q / 4) ⟨0, false⟩
      let sc := sr.v.toNat / 2 ^ (8 * (q % 4)) % 256
      (if sc == 0xFF then .nan true else tapFV (tfmtOf .t8) e, (sc : Int) - 127, r.psn || sr.psn)
    else (tapFV (tfmtOf .t8) e, 0, r.psn)
  | .f32 => let r := reg (8 * (m / 4) + k) (m % 4); (fmtF32.decode x.ftz r.v.toNat, 0, r.psn)
  | .f64 =>
    let lo := reg (4 * m + k) 0
    let hi := reg (4 * m + k) 1
    (fmtF64.decode false (lo.v.toNat + 2 ^ 32 * hi.v.toNat), 0, lo.psn || hi.psn)
  | t =>
    let r := reg k (m / 2)
    let e := r.v.toNat / 2 ^ (16 * (m % 2)) % 65536
    (if t.isTapered then tapFV (tfmtOf t) e else (fmtOf t).decode x.ftz e, 0, r.psn)

/-- The accumulator format. -/
def mmaFmt (x : Mma) : Fmt := if x.ty == .f64 then fmtF64 else fmtF32

/-- Outputs per lane. -/
def mmaOuts (x : Mma) : Nat := if x.ty == .f64 then 2 else 8

/-- Row and column of output `p` of lane `l` (R342). -/
def mmaPlace (x : Mma) (l p : Nat) : Nat × Nat :=
  if x.ty == .f64 then (4 * p + l / 8, l % 8) else (2 * p + l / 16, l % 16)

/-- The accumulator input of an output: +0 for MMAZ. -/
def mmaAcc (x : Mma) (j : MJob) (l p : Nat) : FV × Bool :=
  let c := j.c.getD l []
  if c.isEmpty then (.fin false 0 0, false)
  else if x.ty == .f64 then
    let v := (c.drop (2 * p)).take 2
    (fmtF64.decode false (valNat v), valPsn v)
  else let v := c.getD p ⟨0, false⟩; (fmtF32.decode x.ftz v.v.toNat, v.psn)

/-- The exact sum of an output over the k-steps `frm` to `to_` − 1, and its poison; a skipped product is +0 (R159). -/
def mmaDot (x : Mma) (j : MJob) (l p to_ : Nat) : Dot × Bool :=
  let (m, n) := mmaPlace x l p
  let q := mmaK x.ty / 4
  let (c, cp) := mmaAcc x j l p
  (List.range ((to_ - j.frm) * q)).foldl (fun (d, psn) i =>
    let k := j.frm * q + i
    if bit j.mask.toNat (k / q) then
      let (a, sa, pa) := mmaElem x j.a j.scales m k
      let (b, sb, pb) := mmaElem x j.b (j.scales.drop 8) n k
      (d.prod a b (sa + sb), psn || pa || pb)
    else (d.term (.fin false 0 0), psn)) (Dot.empty.term c, cp)

/-- The value of an output as registers. -/
def mmaVals (x : Mma) (r : FRes) (psn : Bool) : List Val := natVals r.bits psn (if x.ty == .f64 then 2 else 1)

/-- The conditions a matrix instruction sets (R347). -/
def mmaFlags (r : FRes) (psn : Bool) : BitVec 7 := (r.flags &&& (fINV ||| fOVF ||| fNONFIN)) ||| flagIf psn fPSN

/-- Fill every D register of a job from a function of lane and output; a lane whose results are lost receives poisoned zeros (R449). -/
def mmaFill (s : State) (j : MJob) (x : Mma) (f : Nat → Nat → FRes × Bool) : State :=
  let s := (lanesOf j.team j.gid).foldl (fun s t =>
    let outs := (List.range (mmaOuts x)).map fun p => f t.lane p
    let gone := j.lost.contains t.lane
    let vals := if gone then [] else outs.flatMap fun (r, p) => mmaVals x r p
    let fl := if gone then fPSN else outs.foldl (fun a (r, p) => a ||| mmaFlags r p) 0
    let s := (j.dsts.getD t.lane []).foldl (fun s d => fillDst s t d (vals.getD (d.at_ / 4) ⟨0, gone⟩)) s
    modThread s t fun th => { th with tstat := th.tstat ||| fl }) s
  haltSettle s j.team j.gid

/-! The engine. -/

def modMeng (s : State) (core : Nat) (f : MEngine → MEngine) : State := modCore s core fun c => { c with meng := f c.meng }

/-- Its priority now (R93). -/
def MJob.level (j : MJob) : Nat := min 7 (j.prio + j.waited / 512)

def MEngine.all (e : MEngine) : List MJob := e.queue ++ e.suspended.toList ++ e.running.toList ++ e.pipe

/-- Enter an instruction in the queue: its threads stay at it, blocked, until it starts (R346). -/
def mmaIssue (ins : Instr) (x : Mma) (s : State) : Result :=
  match s.cur with
  | none => .next s
  | some iss =>
    match iss.lanes with
    | [] => .next { s with cur := none }
    | t :: _ =>
      if tileOff s t.team t.gid x then runColl s ins fun _ _ => { effs := [] }
      else
        let s := { s with cur := none }
        match infoOf ins with
        | none => .next s
        | some i =>
          let e := (getCore s iss.core).meng
          let (s, ex, bz) := prepare s i iss.lanes
          if !bz.isEmpty || !collReady s i iss.lanes then .next (collBlock s iss.lanes)
          else if x.bs && gregsOf s t.team < 8 * x.sb8.toNat + 16 then
            .next (collRaise s iss.lanes (iss.lanes.map fun u =>
              (u, excIndex 5 (max (gregsOf s t.team) (8 * x.sb8.toNat)), 0)))
          else
            let opx := iss.lanes.filterMap fun u => (thread? s u).bind fun th => (operandExc s u th i).map fun e => (u, e, (0 : BitVec 7))
            let ex := ex.map fun (u, e) => (u, e, (0 : BitVec 7))
            if !(ex ++ opx).isEmpty then .next (collRaise s iss.lanes (ex ++ opx))
            else if 16 ≤ e.queue.length || (e.all.any fun j => j.team == t.team && j.gid == t.gid) then
              .next (collBlock s iss.lanes)
            else
              let job : MJob :=
                { id := s.ids, team := t.team, gid := t.gid, pc := iss.pc, ins := ins
                  prio := (match gridOf s t.team with | some g => g.prio | none => 0), waited := 0, step := 0, frm := 0, base := 0
                  since := 0, started := false, a := [], b := [], c := [], scales := [], mask := 15
                  rkey := rkeyOf s t.team, words := [], dsts := [], due := 0, lost := [] }
              let s := { modMeng s iss.core fun e => { e with queue := e.queue ++ [job] } with ids := s.ids + 1 }
              .next (iss.lanes.foldl (fun s u => modThread s u fun th =>
                { hintsAt s i.ctl th with st := .blocked .unit }) s)

/-- MMA. -/
def execMma (x : Mma) (s : State) : Result := mmaIssue (.mma x) x s

/-- MMAZ: the accumulator input is +0. -/
def execMmaz (x : Mma) (s : State) : Result := mmaIssue (.mmaz x) x s

/-- The highest-priority waiting instruction, the oldest among equals. -/
def bestWaiting (l : List MJob) : Option MJob :=
  match l with
  | [] => none
  | j :: rest => some (rest.foldl (fun b j => if b.level < j.level then j else b) j)

/-- Start a waiting instruction: it reads its operands, releases, draws and claims D; its threads go on, but those of a group that has
halted meanwhile (R466). An instruction that resumes after a pre-emption has its operands already. None while D finds no room in the
pool. -/
def startJob (s : State) (core : Nat) (j : MJob) : Option State :=
  let run := fun (s : State) (j : MJob) => modMeng s core fun e => { e with running := some { j with since := s.now, base := j.step } }
  let s := modMeng s core fun e => { e with queue := e.queue.filter fun k => k.id != j.id }
  if j.started then some (run s j)
  else match infoOf j.ins, mmaOf j.ins with
    | some i, some x =>
      let lanes := lanesOf j.team j.gid
      let halted := match group? s j.team j.gid with | some g => g.halted | none => false
      if !halted && lanes.any fun t => (match thread? s t with | some th => th.st != .blocked .unit | none => true) then some s
      else
        let (s, ex, bz) := prepare s i lanes
        if !bz.isEmpty then none
        else if !ex.isEmpty && halted then some (haltSettle s j.team j.gid)
        else if !ex.isEmpty then
          let s := lanes.foldl (fun s t => modThread s t fun th => { th with st := .eligible }) s
          some (collRaise s lanes (ex.map fun (t, e) => (t, e, 0)))
        else
          let ls := collLanes s i lanes
          let z := !((match j.ins with | .mma _ => true | _ => false))
          let src := fun (k : Nat) => ls.map fun c => c.n.v.getD k []
          let outs := mmaOuts x
          let words := ls.map fun c => if x.rnd == .rs then (List.range outs).map (drawKey j.rkey c.n.t c.n.th.draws) else []
          let k := if z then 2 else 3
          let mask := match x.sk with
            | some n => BitVec.ofNat 4 (kReg s j.team j.gid n.toNat).toNat
            | none => 15
          let s := collReads s i ls
          let s := ls.foldl (fun s c => modThread s c.n.t fun th =>
            { th with draws := th.draws + BitVec.ofNat 64 (drawsFor x.rnd outs) }) s
          let regs := ((fragLens x.ty).getD (1, 1)).2
          let (s, dsts) := lanes.foldl (fun ((s, l) : State × List (List Dst)) t =>
            let (d, s) := claimDst s t s.claims x.d regs
            (s, l ++ [d])) (s, [])
          let s := if halted then s else ls.foldl (fun s c => proceed s c.n.t) s
          some (run s { j with started := true, a := src 0, b := src 1, c := if z then [] else src 2
                               scales := ((src k).getD 0 []), mask := mask, words := words, dsts := dsts, due := s.now + 16 })
    | _, _ => some s

/-- MATRIX_START: the engine takes the next instruction; a suspended one goes first among equals (R93). -/
def execMatrixStart (core : Nat) (s : State) : Result :=
  let e := (getCore s core).meng
  if e.running.isSome then .next s
  else match e.suspended, bestWaiting e.queue with
    | some j, w =>
      if (match w with | some k => decide (j.level < k.level) | none => false) == true then
        (match w with
         | some k => .next ((startJob s core k).getD s)
         | none => .next s)
      else .next (modMeng s core fun e => { e with suspended := none, running := some { j with since := s.now, base := j.step } })
    | none, some k => .next ((startJob s core k).getD s)
    | none, none => .next s

/-- k-steps per cycle (R346). -/
def mmaRate (j : MJob) : Nat := match mmaOf j.ins with | some x => if x.ty == .f64 then 4 else 2 | none => 2

/-- MATRIX_KSTEP_ARBITRATE: one k-step of the running instruction and the arbitration at its end (R93). -/
def execMatrixKstepArbitrate (core : Nat) (s : State) : Result :=
  let e := (getCore s core).meng
  match e.running with
  | none => .next s
  | some j =>
    if (s.now - j.since) * mmaRate j < j.step - j.base + 1 then .next s
    else
      let j := { j with step := j.step + 1 }
      let queue := e.queue.map fun k => { k with waited := k.waited + 1 }
      if 4 ≤ j.step then .next (modMeng s core fun e => { e with queue := queue, running := none, pipe := e.pipe ++ [j] })
      else
        let s := modMeng s core fun e => { e with queue := queue, running := some j }
        match e.suspended, bestWaiting queue with
        | none, some k =>
          if j.level < k.level then
            (match startJob (modMeng s core fun e => { e with suspended := some j, running := none }) core k with
             | some s' => if (getCore s' core).meng.running.isSome then .next s'
                          else .next (modMeng s' core fun e => { e with suspended := none, running := some j })
             | none => .next s)
          else .next s
        | _, _ => .next s

/-- MATRIX_COMPLETE: D is filled 16 cycles after the start (R346, R347). -/
def execMatrixComplete (core : Nat) (s : State) : Result :=
  match (getCore s core).meng.pipe.find? fun j => j.due ≤ s.now with
  | none => .next s
  | some j =>
    let s := modMeng s core fun e => { e with pipe := e.pipe.filter fun k => k.id != j.id }
    match mmaOf j.ins with
    | none => .next s
    | some x => .next (mmaFill s j x fun l p =>
        let (d, psn) := mmaDot x j l p 4
        (d.finish (mmaFmt x) x.rnd x.ftz ((j.words.getD l []).getD p 0), psn))

/-! Pre-emption: R95, R96. -/

/-- Stop a started instruction: its partial sums, rounded to nearest even, stand in D; the group records it. -/
def mmaStop (s : State) (j : MJob) : State :=
  match mmaOf j.ins with
  | none => s
  | some x =>
    -- a k-step in progress completes (R95)
    let j := { j with step := max 1 j.step }
    let s := mmaFill s j x fun l p =>
      let (d, psn) := mmaDot x j l p j.step
      (d.finish (mmaFmt x) .rn false 0, psn)
    modGroup s j.team j.gid fun g => { g with mr := some j }

/-- Stop the matrix engine for a team: unstarted instructions leave their threads at them. -/
def stopMatrix (s : State) (tm : Nat) : State :=
  let core := coreOf s tm
  let e := (getCore s core).meng
  let mine := fun (j : MJob) => j.team == tm
  let s := modMeng s core fun e => { e with queue := e.queue.filter fun j => !mine j
                                            suspended := e.suspended.filter fun j => !mine j
                                            running := e.running.filter fun j => !mine j }
  let jobs := (e.queue ++ e.suspended.toList ++ e.running.toList).filter mine
  jobs.foldl (fun s j =>
    if j.started then mmaStop s j
    else (lanesOf tm j.gid).foldl (fun s t => modThread s t fun th =>
      if th.st == .blocked .unit then { th with st := .eligible } else th) (haltSettle s tm j.gid)) s

/-- Resume a stopped instruction at k-step `step`: D is its accumulator input and is claimed again (R96). -/
def resumeMatrix (s : State) (tm gid step : Nat) (pc : W64) : State :=
  match group? s tm gid with
  | none => s
  | some g => match g.mr with
    | none => s
    | some j => match mmaOf j.ins with
      | none => s
      | some x =>
        let regs := ((fragLens x.ty).getD (1, 1)).2
        let lanes := lanesOf tm gid
        let old := (List.range 32).map fun l => (j.dsts.getD l []).map fun d => match thread? s ⟨tm, gid, l⟩ with
          | some th => (match getReg th d.idx with
              | some (.full v) => v
              | some .stored => bsValue s ⟨tm, gid, l⟩ d.idx
              | _ => ⟨0, false⟩)
          | none => (⟨0, false⟩ : Val)
        let (s, dsts) := lanes.foldl (fun ((s, l) : State × List (List Dst)) t =>
          let ds := (j.dsts.getD t.lane []).zipIdx.map fun (d, i) => { d with tag := s.claims + i }
          let s := ds.foldl (fun s d => modThread s t fun th => { th with regs := Tab.set th.regs d.idx (Reg.claim (getReg th d.idx) d.tag) }) s
          ({ s with claims := s.claims + regs }, l ++ [ds])) (s, [])
        let job := { j with id := s.ids, pc := pc, step := step, frm := step, base := step, c := old, dsts := dsts
                            due := s.now + 16, waited := 0, lost := [] }
        let s := modGroup s tm gid fun g => { g with mr := none }
        { modMeng s (coreOf s tm) fun e => { e with queue := e.queue ++ [job] } with ids := s.ids + 1 }

/-! LDM and STM: R348, R349. -/

/-- Base and stride, from lane 0. -/
def fragBase (x : Frag) (ls : List CLane) : Nat × Nat × Bool :=
  let a := laneArg ls 0 0
  let b := laneArg ls 0 1
  ((valNat a + wrap 64 x.off.toInt) % 2 ^ 64, valNat b, valPsn a || valPsn b)

/-- The address of an element. -/
def fragAddr (x : Frag) (base stride row col : Nat) : Nat := (base + row * stride + col * fragSize x.shape.toNat x.role) % 2 ^ 64

/-- The places of a lane's elements, ascending, or its first fault. -/
def fragParts (s : State) (t : TRef) (x : Frag) (u : Use) (base stride : Nat) :
    List (Nat × Nat × Nat) → List Part → Except (Exc ⊕ Nat) (List Part) × State
  | [], acc => (.ok acc, s)
  | (o, r, c) :: rest, acc =>
    let z := fragSize x.shape.toNat x.role
    match resolve s t x.space x.swz (fragAddr x base stride r c) z u with
    | .exc e s => (.error (.inl e), s)
    | .stop pa => (.error (.inr pa), s)
    | .ok l s => fragParts s t x u base stride rest (acc ++ [⟨l, z, o⟩])

/-- What an LDM or STM does: `go` performs one lane. -/
def fragRes (x : Frag) (u : Use) (s : State) (ls : List CLane) (go : State → CLane → List Part → State) : CollRes :=
  let (base, stride, psn) := fragBase x ls
  if psn then { effs := [], excs := ls.map fun c => (c.n.t, poisonedAddr c.n, 0) }
  else
    let els := fun (t : TRef) => fragElems x.shape.toNat x.role t.lane
    let out := requests s (coreOf s (grpOf ls).1)
    -- each element is a request of the core (R12)
    if out != 0 && coreRequests < out + (ls.map fun c => (els c.n.t).length).sum then { effs := [], busy := true }
    else
      let (rs, s) := ls.foldl (fun ((l, s) : List (CLane × Except (Exc ⊕ Nat) (List Part)) × State) c =>
        let (r, s) := fragParts s c.n.t x u base stride (els c.n.t) []
        (l ++ [(c, r)], s)) ([], s)
      { effs := [], walked := some s
        excs := rs.filterMap fun (c, r) => match r with | .error (.inl e) => some (c.n.t, e, 0) | _ => none
        stop := rs.findSome? fun (_, r) => match r with | .error (.inr pa) => some pa | _ => none
        grp := fun s => ls.foldl (fun s c =>
          match fragParts s c.n.t x u base stride (els c.n.t) [] with
          | (.ok ps, s) => go s c ps
          | (_, s) => s) s }

/-- One lane of an LDM: D is claimed at issue and filled with the lane's last element. -/
def ldmLane (x : Frag) (s : State) (l : CLane) (ps : List Part) : State :=
  let (ab, c) := fragLensShape x.shape
  let regs := if x.role == .c then c else ab
  let (ds, s) := claimDst s l.n.t s.claims x.blk.spec regs
  issueAcc s (coreOf s l.n.t.team)
    { id := 0, t := l.n.t, kind := .frag (natVals 0 false regs), parts := ps, dsts := ds, bulk := false, ord := .plain
      scope := .thread, inL1 := false, l1seq := 0, due := 0, reply := none, mark := none }

/-- LDM. -/
def execLdm (x : Frag) (s : State) : Result := runColl s (.ldm x) fun s ls => fragRes x .load s ls (ldmLane x)

/-- One lane of an STM: each element is stored, ascending. -/
def stmLane (s : State) (l : CLane) (ps : List Part) : State :=
  let v := l.n.v.getD 2 []
  ps.foldl (fun s p =>
    let rs := (v.drop (p.at_ / 4)).take ((p.bytes + 3) / 4)
    issueStore s l.n.t p.loc p.bytes (valNat rs / 2 ^ (8 * (p.at_ % 4)) % 2 ^ (8 * p.bytes)) (valPsn rs) false .plain .thread) s

/-- STM. -/
def execStm (x : Frag) (s : State) : Result := runColl s (.stm x) fun s ls => fragRes x .store s ls stmLane

end Sys2Proof.Machine
end

