-- ==== Sys2Proof/Machine/Solver.lean ====
section
/-! DEFINITION. The block solver: SOLVE and SOLVEB (R375-R380, R492). -/

namespace Sys2Proof.Machine

/-! Matrices of encodings. -/

abbrev Mat := List (List Nat)

def mAt (m : Mat) (i j : Nat) : Nat := (m.getD i []).getD j 0
def mSet (m : Mat) (i j v : Nat) : Mat := m.set i ((m.getD i []).set j v)
def swapAt {α : Type} (l : List α) (i j : Nat) (d : α) : List α := (l.set i (l.getD j d)).set j (l.getD i d)
def mSwapRows (m : Mat) (i j : Nat) : Mat := swapAt m i j []
def mSwapCols (m : Mat) (i j : Nat) : Mat := m.map fun r => swapAt r i j 0

/-- The arithmetic of a solve: its format and mode (R376). -/
structure SArith where
  f : Fmt
  mode : Rnd

def SArith.neg (a : SArith) (x : Nat) : Nat := x ^^^ a.f.signBit
def SArith.fma (a : SArith) (x y z : Nat) : Nat := (ffma a.f a.mode false 0 x y z).bits
def SArith.div (a : SArith) (x y : Nat) : Nat := (fdiv a.f a.mode false 0 x y).bits
def SArith.sqrt (a : SArith) (x : Nat) : Nat := (fsqrt a.f a.mode false 0 x).bits
/-- x < y; false where either is a NaN. -/
def SArith.lt (a : SArith) (x y : Nat) : Bool :=
  !(a.f.decode false x).isNan && !(a.f.decode false y).isNan && (a.f.decode false x).lt (a.f.decode false y)
def SArith.isNan (a : SArith) (x : Nat) : Bool := (a.f.decode false x).isNan
def SArith.isZero (a : SArith) (x : Nat) : Bool := (a.f.decode false x).isZero
def SArith.mag (a : SArith) (x : Nat) : Nat := x % a.f.signBit

/-! Factorisation: R377. -/

structure Fac where
  w : Mat
  l : Mat
  perm : List Nat
  piv : List Nat
  fail : Option Nat
  deriving DecidableEq, Repr

/-- The pivot of a step: the largest magnitude on the diagonal, a NaN counting as largest, the lowest index on a tie. -/
def pivotRow (a : SArith) (w : Mat) (j n : Nat) : Nat :=
  ((List.range (n - j)).map fun i => j + i).foldl (fun p i =>
    let x := mAt w p p
    let y := mAt w i i
    if a.isNan x then p else if a.isNan y then i else if a.mag x < a.mag y then i else p) j

/-- Column `j` of L and the update of the rest; `ldl` selects the factor that multiplies. -/
def facColumn (a : SArith) (ldl : Bool) (n j : Nat) (f : Fac) (piv : Nat) : Fac :=
  let rows := (List.range (n - (j + 1))).map fun i => j + 1 + i
  let l := rows.foldl (fun l i => mSet l i j (a.div (mAt f.w i j) piv)) f.l
  let w := rows.foldl (fun w i => ((List.range (i - j)).map fun k => j + 1 + k).foldl (fun w k =>
    let v := a.fma (a.neg (mAt l i j)) (if ldl then mAt f.w k j else mAt l k j) (mAt w i k)
    mSet (mSet w i k v) k i v) w) f.w
  { f with w := w, l := l, piv := f.piv.set j piv }

def facStep (a : SArith) (ldl : Bool) (n : Nat) (f : Fac) (j : Nat) : Fac :=
  if f.fail.isSome then f
  else if ldl then
    let p := pivotRow a f.w j n
    let g : Fac := { f with w := mSwapCols (mSwapRows f.w j p) j p, l := mSwapRows f.l j p, perm := swapAt f.perm j p 0 }
    let d := mAt g.w j j
    if a.isZero d || a.isNan d then { g with fail := some j } else facColumn a true n j g d
  else
    let d := mAt f.w j j
    if !a.lt 0 d then { f with fail := some j } else facColumn a false n j f (a.sqrt d)

/-- The lower triangle as a symmetric matrix. -/
def symLower (m : Mat) (n : Nat) : Mat :=
  (List.range n).map fun i => (List.range n).map fun j => if j ≤ i then mAt m i j else mAt m j i

def factor (a : SArith) (ldl : Bool) (n : Nat) (m : Mat) : Fac :=
  (List.range n).foldl (facStep a ldl n)
    ⟨symLower m n, List.replicate n (List.replicate n 0), List.range n, List.replicate n 0, none⟩

/-- Ascending substitution: y. -/
def forwardSub (a : SArith) (ldl : Bool) (l : Mat) (piv g : List Nat) (n : Nat) : List Nat :=
  (List.range n).foldl (fun y i =>
    let s := (List.range i).foldl (fun s k => a.fma (a.neg (mAt l i k)) (y.getD k 0) s) (g.getD i 0)
    y ++ [if ldl then s else a.div s (piv.getD i 0)]) []

/-- Descending substitution: x′. -/
def backSub (a : SArith) (ldl : Bool) (l : Mat) (piv y : List Nat) (n : Nat) : List Nat :=
  (List.range n).reverse.foldl (fun x i =>
    let s := ((List.range (n - (i + 1))).map fun k => i + 1 + k).foldl (fun s k =>
      a.fma (a.neg (mAt l k i)) (x.getD k 0) s) (y.getD i 0)
    x.set i (if ldl then s else a.div s (piv.getD i 0))) (List.replicate n 0)

/-- tri_solve. A value that no permutation gives is free (assumption 6): `free` supplies it. -/
def triSolve (a : SArith) (ldl : Bool) (l : Mat) (perm piv g : List Nat) (n : Nat) (free : Nat → Nat) : List Nat :=
  let rhs := (List.range n).map fun i => let p := perm.getD i 0; if p < n then g.getD p 0 else free i
  let y := forwardSub a ldl l piv rhs n
  let y := if ldl then (y.zip piv).map fun (v, d) => a.div v d else y
  let x := backSub a ldl l piv y n
  (List.range n).map fun i =>
    match (List.range n).reverse.find? fun k => perm.getD k 0 == i with
    | some k => x.getD k 0
    | none => free (n + i)

/-! Projected Gauss–Seidel: R378. -/

structure Pgs where
  x : List Nat
  lo : Nat
  hi : Nat
  deriving DecidableEq, Repr

def pgsRow (a : SArith) (n : Nat) (m : Mat) (b lo hi : List Nat) (last : Bool) (p : Pgs) (i : Nat) : Pgs :=
  let r := (List.range n).foldl (fun r k => if k == i then r else a.fma (a.neg (mAt m i k)) (p.x.getD k 0) r) (b.getD i 0)
  let v := a.div r (mAt m i i)
  let below := a.lt v (lo.getD i 0)
  let above := a.lt (hi.getD i 0) v
  { x := p.x.set i (if below then lo.getD i 0 else if above then hi.getD i 0 else v)
    lo := if last && below then p.lo + 2 ^ i else p.lo
    hi := if last && !below && above then p.hi + 2 ^ i else p.hi }

def pgsSweeps (a : SArith) (n : Nat) (m : Mat) (b lo hi : List Nat) : Nat → Pgs → Pgs
  | 0, p => p
  | k + 1, p => pgsSweeps a n m b lo hi k ((List.range n).foldl (pgsRow a n m b lo hi (k == 0)) p)

/-! Blocks and logs: R375, R379. -/

def solveZ (f64 : Bool) : Nat := if f64 then 8 else 4

/-- `n` elements at element index `k` of a block. -/
def blkVec (s : State) (tm blk z k n : Nat) : List (Nat × Bool) := (List.range n).map fun i => spadLoad s tm (blk + z * (k + i)) z

def blkMat (s : State) (tm blk z n : Nat) : List (List (Nat × Bool)) := (List.range n).map fun i => blkVec s tm blk z (16 * i) n

def vals (l : List (Nat × Bool)) : List Nat := l.map (·.1)
def anyPsn (l : List (Nat × Bool)) : Bool := l.any (·.2)

def putVec (s : State) (tm blk z k : Nat) (l : List Nat) (psn : Bool) : State :=
  l.zipIdx.foldl (fun s (v, i) => spadStore s tm (blk + z * (k + i)) z v psn) s

/-- The factor: columns below `cols`, strictly lower. -/
def putFactor (s : State) (tm blk z n cols : Nat) (l : Mat) (psn : Bool) : State :=
  (List.range n).foldl (fun s i => (List.range (min i cols)).foldl (fun s j =>
    spadStore s tm (blk + z * (16 * i + j)) z (mAt l i j) psn) s) s

/-- PERM of a log: the manual gives no value for an index that has no pivot order, so that byte is free (assumption 6). -/
def permBytes (s : State) (perm : List Nat) : List Nat :=
  (List.range 16).map fun i => match perm[i]? with
    | some p => p
    | none => (Config.freeValue (s.free + i)).toNat % 256

/-- The log as a number of 256 bytes. -/
def logBytes (method n z status sweeps lo hi : Nat) (perm piv : List Nat) : Nat :=
  packFields ([(0, 1, method), (1, 1, n), (2, 1, z), (3, 1, status), (4, 2, sweeps), (8, 2, lo), (0xA, 2, hi)] ++
    (perm.zipIdx.map fun (p, i) => (0x10 + i, 1, p)) ++ piv.zipIdx.map fun (p, i) => (0x20 + z * i, z, p))

/-! Issue: R376. -/

/-- Steps 1, 2, 4 and 5 of R351 for a solve. -/
def solveIssue (ins : Instr) (c : Ctl) (d : Spec) (f64 withLog : Bool) (s0 : State) : Result :=
  runSeqR s0 ins fun reads s n =>
    let tm := n.t.team
    let core := coreOf s tm
    let a := n.arg 0
    let b := n.arg 1
    let z := solveZ f64
    let lim := 4096 * pagesOf s tm
    if a % 64 != 0 then { s := s, exc := some (excAlign a false) }
    else if withLog && b % 256 != 0 then { s := s, exc := some (excAlign b false) }
    else if lim < a + 320 * z then { s := s, exc := some (excEngine a) }
    else if withLog && lim < b + 256 then { s := s, exc := some (excEngine b) }
    else
      let pages := ownPages tm (pagesIn a (320 * z) ++ if withLog then pagesIn b 256 else [])
      match pages.find? fun (t, p) => pageE s t p with
      | some (_, p) => { s := s, exc := some (excOwner (4096 * p)) }
      | none =>
        if 16 ≤ (getCore s core).solves.length || !relReady s n.t .package then { s := s, busy := true }
        else
          let s := reads s
          let (ds, s) := claimDst s n.t s0.claims d 1
          let s := pages.foldl (fun s (t, p) => setOwner s t p true) s
          let job : SJob := { t := n.t, ins := ins, blk := a, log := b, pages := pages, dst := ds.head?, failed := false }
          let s := modCore s core fun k => { k with solves := k.solves ++ [job] }
          { s := advance s n.t c none, own := true }

/-- SOLVE. -/
def execSolve (x : Solve) (s : State) : Result := solveIssue (.solve x) x.ctl x.d x.f64 x.log s

/-- SOLVEB. -/
def execSolveb (x : SolveB) (s : State) : Result := solveIssue (.solveb x) x.ctl x.d x.f64 true s

/-! Completion. -/

def arithOf (f64 : Bool) (rnd : Rnd) : SArith := ⟨if f64 then fmtF64 else fmtF32, rnd⟩

/-- The writes of a SOLVE and its code and index. -/
def solveRun (s : State) (tm : Nat) (j : SJob) (x : Solve) : State × Nat × Nat :=
  let z := solveZ x.f64
  let n := x.n.toNat + 1
  let a := arithOf x.f64 x.rnd
  let m := blkMat s tm j.blk z n
  let b := blkVec s tm j.blk z 256 n
  let mv := m.map vals
  let status := fun (k : Nat) => if j.failed then 3 else k
  let sweeps := x.sweeps.toNat
  let putLog := fun (s : State) (psn : Bool) (code lo hi : Nat) (perm piv : List Nat) =>
    if x.log then
      spadStore { s with free := s.free + 16 } tm j.log 256
        (logBytes (x.meth.val + 1) n z (status code) sweeps lo hi (permBytes s perm) piv) (psn || j.failed)
    else s
  if x.meth.val == 2 then
    let xs := blkVec s tm j.blk z 272 n
    let lo := blkVec s tm j.blk z 288 n
    let hi := blkVec s tm j.blk z 304 n
    let psn := m.any anyPsn || anyPsn b || anyPsn xs || anyPsn lo || anyPsn hi
    let p := pgsSweeps a n mv (vals b) (vals lo) (vals hi) sweeps ⟨vals xs, 0, 0⟩
    let s := putVec s tm j.blk z 272 p.x (psn || j.failed)
    (putLog s psn 0 p.lo p.hi [] [], status 0, 0)
  else
    let ldl := x.meth.val == 1
    let f := factor a ldl n mv
    let psn := (m.zipIdx.any fun (r, i) => anyPsn (r.take (i + 1))) || (f.fail.isNone && anyPsn b)
    let s := putFactor s tm j.blk z n (f.fail.getD n) f.l (psn || j.failed)
    match f.fail with
    | some k => (putLog s psn 1 0 0 f.perm f.piv, status 1, if j.failed then 0 else k)
    | none =>
      let xs := triSolve a ldl f.l f.perm f.piv (vals b) n fun _ => 0
      let s := putVec s tm j.blk z 272 xs (psn || j.failed)
      (putLog s psn 0 0 0 f.perm f.piv, status 0, 0)

/-- The writes of a SOLVEB and its code and index (R380). -/
def solvebRun (s : State) (tm : Nat) (j : SJob) (x : SolveB) : State × Nat × Nat :=
  let z := solveZ x.f64
  let a := arithOf x.f64 x.rnd
  let (lg, _) := spadLoad s tm j.log 256
  let by_ := fun (o n : Nat) => lg / 2 ^ (8 * o) % 2 ^ (8 * n)
  let method := by_ 0 1
  let n := by_ 1 1
  if j.failed then (s, 3, 0)
  else if method < 1 || 3 < method || n < 1 || 16 < n || by_ 2 1 != z || by_ 3 1 != 0 then (s, 2, 0)
  else
    let m := blkMat s tm j.blk z n
    let g := blkVec s tm j.blk z 256 n
    let mv := m.map vals
    let lp := (spadLoad s tm j.log 32).2 || (method != 3 && (spadLoad s tm (j.log + 0x20) (n * z)).2)
    let psn := lp || m.any anyPsn || anyPsn g
    let free := fun (i : Nat) => (Config.freeValue (s.free + i)).toNat % 2 ^ (8 * z)
    if method != 3 then
      let perm := (List.range n).map fun i => by_ (0x10 + i) 1
      let piv := (List.range n).map fun i => by_ (0x20 + z * i) z
      let l := (List.range n).map fun i => (List.range n).map fun k => if k < i then mAt mv i k else 0
      let xs := triSolve a (method == 2) l perm piv (vals g) n free
      (putVec { s with free := s.free + 32 } tm j.blk z 272 xs psn, 0, 0)
    else
      let fr := (List.range n).filter fun i => !bit (by_ 8 2) i && !bit (by_ 0xA 2) i
      let sub := fr.map fun i => fr.map fun k => mAt mv i k
      let f := factor a true fr.length sub
      match f.fail with
      | some k => (s, 1, k)
      | none =>
        let xs := triSolve a true f.l f.perm f.piv (fr.map fun i => (vals g).getD i 0) fr.length fun _ => 0
        let out := (List.range n).map fun i => match fr.findIdx? fun k => k == i with
          | some k => xs.getD k 0
          | none => 0
        (putVec s tm j.blk z 272 out psn, 0, 0)

/-- SOLVE_COMPLETE (R376): the oldest solve of a core performs its writes, its pages flip to T and D is filled. -/
def execSolveComplete (core : Nat) (s : State) : Result :=
  match (getCore s core).solves with
  | [] => .next s
  | j :: rest =>
    let s := modCore s core fun c => { c with solves := rest }
    let tm := j.t.team
    let (s, code, idx) := match j.ins with
      | .solve x => solveRun s tm j x
      | .solveb x => solvebRun s tm j x
      | _ => (s, 0, 0)
    let s := if j.failed then logEvent s (unitCore core) 9 1 j.blk 1 (ctxOf s tm) 0 else s
    let s := j.pages.foldl (fun s (t, p) => setOwner s t p false) s
    let s := match j.dst with
      | some d => fillDst s j.t d ⟨BitVec.ofNat 32 (code + 256 * idx), false⟩
      | none => s
    .next (teamSettle (haltSettle (ownSettle s tm) tm j.t.gid) tm)

end Sys2Proof.Machine
end

