-- ==== Sys2Proof/Machine/Save.lean ====
section
/-! DEFINITION. Parking, pre-emption and restoring: when a team is due to park (R62), stopping its engines (R94, R95, R441), the save
area that the core writes (R97-R101, R319), the wait list (R65) and what a restore reinstates (R102, R312, R316, R446). -/

namespace Sys2Proof.Machine

/-! Stopping: R94. -/

def teamHalted (s : State) (tm : Nat) : Bool :=
  match team? s tm with
  | some t => (List.range t.ngrp).any fun g => match group? s tm g with | some x => x.halted | none => false
  | none => false

/-- Stop a resident team: no vector issue, no letters, no deposits; its engines are told to stop. -/
def stopTeam (s : State) (tm : Nat) : State :=
  let s := modTeam s tm fun t => { t with
    stopped := true
    engs := t.engs.map fun e => if e.failed.isNone then { e with stopSent := some s.now } else e }
  stopMatrix s tm

/-- What the core reads and writes of a thread's backing store: its registers, their states and poison, its latches (R106). -/
def stackRanges (s : State) (u : TRef) (th : Thread) : List (Nat × Nat) :=
  let l := localBase s u
  (th.regs.flatMap fun (d, _) => [(l + 4 * d, 4), (l + 0x440000 + d / 8, 1)]) ++ [(l + 0x400000 + th.bot / 4, 128), (l + 0x460000, 16)]

/-- The parts of a team's save block that the core uses (R97). -/
def blockRanges (s : State) (tm : Nat) (t : Team) : List (Nat × Nat) :=
  let b := blockBase s tm
  [(b, 0x1000), (b + 0x1000, 0x8000 * t.ngrp), (b + 0x161000, 0x11C)]

/-- The pages, by a VA in each, that some ranges touch. -/
def rangePages (l : List (Nat × Nat)) : List Nat :=
  (l.flatMap fun (va, n) => (List.range ((va % 65536 + n + 65535) / 65536)).map fun i =>
    (if i == 0 then va else (va / 65536 + i) * 65536) % 2 ^ 64)

/-- The first of some pages that the core does not reach, with what its walks have cached (R184). -/
def pageGap (core ctx : Nat) (need : Need) : List Nat → State → Option BsFault × State
  | [], s => (none, s)
  | v :: rest, s => match xlate s core ctx v need with
    | (.ok pa _, s) => if isOwnMem s pa then pageGap core ctx need rest s else (some ⟨BitVec.ofNat 64 v, false⟩, s)
    | (.trans, s) => (some ⟨BitVec.ofNat 64 v, false⟩, s)
    | (.perm, s) => (some ⟨BitVec.ofNat 64 v, true⟩, s)

/-- What the core's own accesses of a save or a restore touch, `stack` in a thread's backing store, with the thread that takes the
translation fault of each part (R97, R164): the owner of a stack; for the team's block, and for a thread that has exited, the lowest
thread that lives (assumption 49). -/
def areaParts (s : State) (tm : Nat) (stack : TRef → Thread → List (Nat × Nat)) : List (TRef × List Nat) :=
  match team? s tm, (threadsOf s tm).find? fun u => match thread? s u with | some th => !th.exited | none => false with
  | some t, some t0 =>
    (t0, rangePages (blockRanges s tm t)) :: (threadsOf s tm).filterMap fun u => (thread? s u).map fun th =>
      (if th.exited then t0 else u, rangePages (stack u th))
  | _, _ => []

/-- The faults that these accesses would meet, the first of each thread. -/
def areaGaps (need : Need) (stack : TRef → Thread → List (Nat × Nat)) (s : State) (tm : Nat) : List (TRef × BsFault) × State :=
  (areaParts s tm stack).foldl (fun (l, s) (u, vs) =>
    if l.any fun x => x.1 == u then (l, s)
    else match pageGap (coreOf s tm) (ctxOf s tm) need vs s with
      | (some f, s) => (l ++ [(u, f)], s)
      | (none, s) => (l, s)) ([], s)

def saveGaps (s : State) (tm : Nat) : List (TRef × BsFault) × State := areaGaps .write (stackRanges s) s tm

/-- The threads concerned leave their waits and take their faults; they run until RTE although the team is stopped or their handler is
over, which its RET then ends again. -/
def raiseGaps (s : State) (l : List (TRef × BsFault)) : State :=
  l.foldl (fun s (t, f) => match thread? s t with
    | none => s
    | some th => modThread (withdrawWait s t th) t fun th => { th with
        barxSent := match th.st with | .waiting (.barx _ a true ph) => some (ph, a) | _ => th.barxSent
        bsFault := some f, fixing := true, st := .eligible, win := none, joined := false, since := s.now, ready := min th.ready s.now
        yld := none }) s

/-- Is a thread of the team at work on a mapping for its save? -/
def teamFixing (s : State) (tm : Nat) : Bool :=
  (threadsOf s tm).any fun u => match thread? s u with | some th => th.fixing && !th.exited | none => false

/-- Have the team's engines stopped (R94 step 3, R95)? -/
def engsStopped (s : State) (tm : Nat) (t : Team) : Bool :=
  let c := getCore s t.core
  (t.engs.all fun e => e.delivered || e.failed.isSome || e.stopped) &&
  (c.solves.all fun j => j.t.team != tm) && (c.compacts.all fun j => j.team != tm) && c.meng.all.all fun j => j.team != tm

/-- Has everything that the team has issued completed, and its engines stopped (R94, R95, R201), and every trap entry and RTE that has
begun (R468)? A team that parks leaves its accesses on their way (R62); the reading of a remote word for a wait is made again. -/
def saveReady (s : State) (tm : Nat) (park : Bool) : Bool :=
  match team? s tm with
  | none => false
  | some t =>
    let c := getCore s t.core
    ((threadsOf s tm).all fun u => match thread? s u with
      | some th => th.unres.isNone && th.held.isEmpty && th.begun.isNone && th.st != .blocked .unit
      | none => true) &&
    (c.acc.all fun a => a.t.team != tm || a.kind == .poll || park) &&
    (s.links.all fun l => l.t.team != tm) && (s.vinvs.all fun v => v.t.team != tm) &&
    (c.solves.all fun j => j.t.team != tm) && (c.compacts.all fun j => j.team != tm) && (c.meng.all.all fun j => j.team != tm) &&
    (s.msgs.all fun m => match m with | .deposit _ k _ _ _ _ _ => k != tm | .barx k .. => k != tm | _ => true) && t.sysw.isEmpty &&
    (t.engs.all fun e => e.delivered || (e.failed.isNone && !engPending s tm e.id &&
      (e.stopped || (park && !unitOpen s tm e && relayAtBoundary s e)))) &&
    !teamFixing s tm

/-! Saving: R97-R101. -/

/-- The command as a stop leaves it. -/
def Eng.halt (e : Eng) : Eng := { e with stopped := true, stopSent := none, replies := [], sent := false, work := none, wback := false }

/-- An engine record (R98). -/
def engRec (e : Eng) : Nat :=
  packFields [(0x00, 1, e.cls), (0x01, 1, e.sem), (0x02, 1, e.gid), (0x03, 1, e.lane), (0x08, 8, e.pc.toNat), (0x10, 8, e.done),
    (0x18, 8, e.opa.toNat), (0x20, 8, e.opb.toNat), (0x28, 8, e.opc.toNat), (0x30, 4, e.imm.toNat)]

/-- The team header up to its engine records. -/
def teamHeader (s : State) (t : Team) (g : GridRec) (reason : Nat) : Nat :=
  packFields [(0x00, 4, reason), (0x04, 2, t.grid), (0x06, 1, t.ngrp), (0x07, 1, g.pages), (0x08, 4, t.team),
    (0x0C, 4, (liveEngs t).length), (0x10, 16, t.owner.toNat), (0x20, 8, s.saveSeq)]

/-- RKEY, VTBASE, the core's semaphores, TVEC and TEN (R97, R319). -/
def teamRegs (s : State) (t : Team) : Nat :=
  packFields ([(0x000, 8, t.rkey.toNat), (0x008, 8, t.vtbase.toNat), (0x110, 8, t.tvec.toNat), (0x118, 4, 2 * t.ten.toNat)] ++
    (List.range 64).map fun n => (0x010 + 4 * n, 4, semOf s t.core n))

/-- The save begins: the core writes its records and enters SAVEH in every thread (R100). -/
def beginSave (s : State) (tm reason : Nat) : State :=
  match team? s tm, gridOf s tm with
  | some t, some g =>
    let s := dropWalks { s with saveSeq := s.saveSeq + 1 } t.core tm
    let s := modCore s t.core fun c => { c with acc := c.acc.filter fun a => !(a.t.team == tm && a.kind == .poll) }
    let b := blockBase s tm
    let put := fun (s : State) (o n x : Nat) => vaPut s t.core t.ctx ((b + o) % 2 ^ 64) n x false
    let s := put s 0 0x400 (teamHeader s t g reason)
    let s := (liveEngs t).zipIdx.foldl (fun s (e, i) => put s (0x400 + 0x40 * i) 0x40 (engRec e)) s
    let s := put s 0x800 0x800 0
    let s := put s 0x161000 0x11C (teamRegs s t)
    let entry := match planOf s t.ctx with | some p => p.saveh | none => 0
    let s := (List.range t.ngrp).foldl (fun s gid =>
      let s := match group? s tm gid with | some x => saveGroupFields s tm gid x | none => s
      let s := modGroup s tm gid fun x => { x with conv := none }
      (lanesOf tm gid).foldl (fun s u => match thread? s u with
        | none => s
        | some th =>
          let s := saveWindowMaps s u th
          let s := saveThreadFields s u th
          let s := dumpStack s u th
          modThread (enterHandler s u entry th.wbase) u fun x =>
            { x with kept := some ⟨th.after, th.tfix, th.tretry, th.st, th.bsFault⟩ }) s) s
    let s := modTeam s tm fun t => { t with
      st := .saving reason false, saveSeq := s.saveSeq, stopped := false, ready := false, arrivals := []
      engs := t.engs.map Eng.halt }
    { s with queues := s.queues.map fun (q, x) => (q, { x with waits := x.waits.filter fun w => w.t.team != tm }) }
  | _, _ => s

/-- The end of a pre-emption: every team of the context has left its core or stands there halted (R94, R444). -/
def stopSettle (s : State) (ctx : Nat) : State :=
  let busy := s.teams.any fun (k, t) => t.ctx == ctx && t.onCore && !teamHalted s k
  match Tab.get? s.ctxs ctx with
  | some c =>
    if c.stop.isNone || busy then s
    else
      let s := { s with ctxs := Tab.set s.ctxs ctx { c with stop := none } }
      { s with teams := s.teams.map fun (k, t) =>
          (k, if t.ctx == ctx && t.st == .resident then
                { t with stopped := false, engs := t.engs.map fun e => { e with stopped := false, stopSent := none } } else t) }
  | none => s

/-- Save the teams of a context that have come to their stop, once the engines of all its teams have (R94 steps 3 and 4); a page that
a save would not reach faults first (R97). -/
def saveSettle (s : State) (ctx : Nat) : State :=
  let s := { s with teams := s.teams.map fun (k, t) => (k, if t.ctx == ctx && t.st == .resident && t.stopped then
      { t with engs := t.engs.map fun e => if e.failed.isNone && e.stopSent.isNone && !e.stopped then { e with stopSent := some s.now } else e }
    else t) }
  let stopped := s.teams.all fun (k, t) => !(t.ctx == ctx && t.st == .resident && t.stopped) || engsStopped s k t
  let s := if !stopped then s else s.teams.foldl (fun s (k, t) =>
    if t.ctx == ctx && t.st == .resident && t.stopped && !teamHalted s k && saveReady s k false then
      (match saveGaps s k with
       | ([], s) => beginSave s k 2
       | (l, s) => raiseGaps s l)
    else s) s
  stopSettle s ctx

/-- Saves that a pre-emption awaits, in every context. -/
def saveSettleAll (s : State) : State := s.ctxs.foldl (fun s (k, c) => if c.stop.isSome then saveSettle s k else s) s

/-- A context is pre-empted (R94, R442); one that is already has nothing more to do. -/
def startPreempt (s : State) (ctx : Nat) : State :=
  match Tab.get? s.ctxs ctx with
  | none => s
  | some c =>
    if c.stop.isSome then s
    else
      let s := { s with ctxs := Tab.set s.ctxs ctx { c with stop := some ⟨s.now⟩ } }
      let s := s.teams.foldl (fun s (k, t) =>
        if t.ctx != ctx then s
        else match t.st with
          | .resident => stopTeam s k
          | .saving 1 _ => modTeam s k fun t => { t with st := .saving 1 true }
          | _ => s) s
      saveSettle s ctx

/-- Has every thread of the team ended its handler, and every store of the handler been performed (R101)? -/
def handlerOver (s : State) (tm : Nat) : Bool :=
  ((threadsOf s tm).all fun u => match thread? s u with | some th => th.st == .handlerDone | none => true) &&
  (getCore s (coreOf s tm)).acc.all fun a => a.t.team != tm

/-- SAVE_COMPLETE (R69, R70, R101). -/
def execSaveComplete (team : Nat) (s : State) : Result :=
  match team? s team with
  | none => .next s
  | some t => match t.st with
    | .saving reason again =>
      if !handlerOver s team then .next s
      else
        let s := (List.range t.ngrp).foldl (fun s gid =>
          let s := modGroup s team gid fun g => { g with gregs := [], gseen := [], gwait := [], gown := [], ks := [], arr := 0, ph := [] }
          (lanesOf team gid).foldl (fun s u => modThread s u fun th =>
            { th with st := match th.kept with | some k => k.st | none => .eligible, regs := [] }) s) s
        let st : TeamSt := if reason == 1 then (if again then .preempted true else .parked) else .preempted false
        let s := modTeam s team fun t => { t with
          st := st, spad := [], spsn := [], owner := 0, bars := [], claim := s.now }
        let cl := t.core / 8
        let s := setClusterQ s cl 3 ((clusterQ s cl 3).filter fun x => x.1 != team)
        let s := setClusterQ s cl 4 ((clusterQ s cl 4).filter fun x => x.1 != team)
        .next (stopSettle (unfuse s t.core) t.ctx)
    | _ => .next s

/-! Parking: R62. -/

/-- A thread that counts as waiting for parking: since when (R61, R67). -/
def parkWait (th : Thread) : Option Nat :=
  match th.st with
  | .waiting w => (match w with
    | .bar .. | .barx .. | .waitv .. | .vread .. | .ltake .. => some th.since
    | _ => none)
  | .blocked b => if b.parks then some th.since else none
  | _ => none

/-- Is the team due to park, and not deferred? -/
def parkable (s : State) (tm : Nat) : Bool :=
  match team? s tm, gridOf s tm with
  | some t, some g =>
    let live := (threadsOf s tm).filterMap fun u => (thread? s u).bind fun th => if th.exited then none else some th
    t.st == .resident && !t.stopped && !g.pinned && !(match planOf s t.ctx with | some p => p.cores | none => true) &&
    !teamHalted s tm && !live.isEmpty &&
    (live.all fun th => match parkWait th with | some c => parkOf g < s.now - c | none => false) &&
    t.owner == 0 && (live.all fun th => th.regs.all fun x => !x.2.isEmpty) &&
    ((List.range t.ngrp).all fun i => match group? s tm i with | some x => x.gregs.all fun r => !r.2.isEmpty | none => true) &&
    saveReady s tm true
  | _, _ => false

/-- PARK_DUE (R62): a gang parks as a whole; a page that its save would not reach faults first (R97). -/
def execParkDue (team : Nat) (s : State) : Result :=
  match team? s team, gridOf s team with
  | some t, some g =>
    let u := unitOf s team t g
    if u.all fun x => parkable s x.1 then
      (match u.foldl (fun (l, s) x => let (m, s) := saveGaps s x.1; (l ++ m, s)) (([] : List (TRef × BsFault)), s) with
       | ([], s) => .next (u.foldl (fun s x => beginSave s x.1 1) s)
       | (l, s) => .next (raiseGaps s l))
    else .next s
  | _, _ => .next s

/-! The wait list: R65. -/

/-- Is a recorded wait satisfied? -/
def waitMet (s : State) (t : TRef) (w : Wait) : Bool :=
  let ctx := ctxOf s t.team
  let at_ := fun (va : Nat) => match hubXlate s ctx va .read with | .ok pa _ => some pa | _ => none
  match w with
  | .barx _ a sent ph =>
    sent && (match at_ a.toNat with
      | some pa => isOwnMem s pa && (let r := readRec s pa; r.st % 4 != 1 || r.phase != ph)
      | none => false)
  | .waitv x a b =>
    let va := match x.space with | .global => some a.toNat | .local => some ((localBase s t + a.toNat) % 2 ^ 64) | _ => none
    (match va.bind at_ with
     | some pa => waitCond x.c.toNat (8 * waitBytes x) (wordAtPa s ctx pa (waitBytes x)).1 b
     | none => false)
  | .vread x b => reached (vsOf s x.i.toNat).version.toNat b.toNat
  | .ltake _ q => (match getQueue? s q with
    | some y => y.ctx == ctx && !(y.ack && y.cap ≤ y.nout) && (!y.letters.isEmpty || !y.spseq.isEmpty || y.range.isSome)
    | none => false)
  | _ => false

/-- WAIT_LIST_RETEST (R65). -/
def execWaitListRetest (team : Nat) (s : State) : Result :=
  match team? s team with
  | none => .next s
  | some t =>
    let parked := match t.st with | .parked | .preempted true => true | _ => false
    if !parked || t.ready then .next s
    else if (threadsOf s team).any fun u => match thread? s u with
        | some th => (match th.st with | .waiting w => waitMet s u w | _ => false)
        | none => false
    then .next (modTeam s team fun t => { t with ready := true, claim := s.now })
    else .next s

/-! Engine stops: R94, R95, R441. -/

/-- Has a command performed its last unit? It completes, although a stop has come (R352, R354). -/
def engOver (s : State) (tm : Nat) (e : Eng) : Bool :=
  match engTotal s tm e with
  | some n => n ≤ e.done
  | none => (collStatus s e).isSome

/-- Has a command come to the unit at which its class stops (R95)? A unit that is discarded still waits for the writes it has sent. -/
def engAtStop (s : State) (tm : Nat) (e : Eng) : Bool :=
  !engOver s tm e && (if stopDiscards e then !engStoring s tm e.id else !unitOpen s tm e) && (e.cls != 5 || relayAtBoundary s e)

/-- Answers to what a command has asked for are dropped. -/
def disown (s : State) (tm eng : Nat) : State :=
  { s with rreqs := s.rreqs.map fun r => match r.eng with
      | some (a, b, _) => if a == tm && b == eng then { r with eng := none, core := numCores } else r
      | none => r }

/-- ENGINE_STOP_ACK: the engine has reached its unit (R95). -/
def execEngineStopAck (team eng : Nat) (s : State) : Result :=
  match findEng s team eng, team? s team with
  | some e, some t =>
    if e.stopSent.isNone || e.stopped || !engAtStop s team e then .next s
    else .next (saveSettle (modEng (disown s team eng) team eng fun e => { e.halt with stopSent := e.stopSent }) t.ctx)
  | _, _ => .next s

/-- Cycles of its own clock that a collector waits (R441). -/
def stopLimit : Nat := 2 ^ 24

/-- DONE of a command that was reset. -/
def doneLost : Nat := 2 ^ 64 - 1

/-- STOP_TIMEOUT (R441): the engine is reset and its record marked. -/
def execStopTimeout (team eng : Nat) (s : State) : Result :=
  match findEng s team eng, team? s team with
  | some e, some t => match e.stopSent with
    | none => .next s
    | some c =>
      let waited := if e.cls == 5 then hubCycle s.now - hubCycle c else s.now - c
      if e.stopped || waited ≤ stopLimit then .next s
      else
        let s := logEvent s (engUnit s team e.cls) 0x0A 1 0 0 t.ctx e.cls
        .next (saveSettle (modEng (disown s team eng) team eng fun e => { e.halt with stopSent := e.stopSent, done := doneLost }) t.ctx)
  | _, _ => .next s

/-! Restoring: R102, R446. -/

/-- The 2-bit codes of a state map; none where a code is not void or full. -/
def mapCodes (m n : Nat) : Option (List Bool) :=
  let l := (List.range n).map fun i => m / 2 ^ (2 * i) % 4
  if l.all fun c => c == 0 || c == 2 then some (l.map fun c => c == 2) else none

/-- The thread record of R99 as the core reads it. -/
structure SavedThread where
  full : List Bool
  psn : Nat
  pc : Nat
  st : Nat
  idem : Bool
  wait : Nat
  preds : Nat
  tstat : Nat
  wbase : Nat
  nregs : Nat
  pause : Nat
  draws : Nat
  w0 : Nat
  w1 : Nat
  tdepth : Bool

/-- Read a thread record; else SUB and the VA of the field (R446). A PC that is not a multiple of 12 is taken as it stands (DESIGN
CHOICE: R232 and R446 give it no result, assumption 82). -/
def readThreadRec (s : State) (t : TRef) : Except (Nat × Nat) SavedThread :=
  let b := threadRec s t
  match (vaRead s (coreOf s t.team) (ctxOf s t.team) (b + 0x100) 0x54).1 with
  | .error _ => .error (0, b + 0x100)
  | .ok (v, p) =>
    let f := fun (o n : Nat) => v / 2 ^ (8 * (o - 0x100)) % 2 ^ (8 * n)
    let ts := f 0x120 4
    if p then .error (0, b + 0x100)
    else match mapCodes (f 0x100 16) 64 with
      | none => .error (1, b + 0x100)
      | some full =>
        if 6 ≤ ts % 8 || 10 ≤ ts / 16 % 16 || 256 ≤ ts then .error (1, b + 0x120)
        else if f 0x12C 4 % 8 != 0 || 2 ^ 20 < f 0x12C 4 + 64 then .error (1, b + 0x12C)
        else if f 0x130 4 == 0 || 64 < f 0x130 4 then .error (1, b + 0x130)
        else .ok { full := full, psn := f 0x110 8, pc := f 0x118 8, st := ts % 8, idem := bit ts 3, wait := ts / 16 % 16
                   preds := f 0x124 4, tstat := f 0x128 4, wbase := f 0x12C 4, nregs := f 0x130 4, pause := f 0x134 4
                   draws := f 0x138 8, w0 := f 0x140 8, w1 := f 0x148 8, tdepth := f 0x150 4 != 0 }

/-- What the core reads of a thread's backing store at a restore: the full registers of its window, the states of what lies below it in its
unit, and the latches (R102, R106). -/
def savedRanges (s : State) (u : TRef) : List (Nat × Nat) :=
  match readThreadRec s u with
  | .error _ => []
  | .ok r =>
    let l := localBase s u
    if r.st == 5 then []
    else (r.full.zipIdx.flatMap fun (f, i) => if f then [(l + 4 * (r.wbase + i), 4), (l + 0x440000 + (r.wbase + i) / 8, 1)] else []) ++
      (if r.wbase % 64 == 0 then [] else [(l + 0x400000 + r.wbase / 64 * 16, 16)]) ++ [(l + 0x460000, 16)]

/-- The translation faults that the core's reads of a restore would meet (R164). -/
def restoreGaps (s : State) (tm : Nat) : List (TRef × BsFault) × State := areaGaps .read (fun u _ => savedRanges s u) s tm

/-- The group fields of R99 as the core reads them. -/
structure SavedGroup where
  full : List Bool
  psn : Nat
  arr : Nat
  ks : List Nat
  mr : Option (Nat × Nat)

def readGroupRec (s : State) (tm gid : Nat) : Except (Nat × Nat) SavedGroup :=
  let b := groupBlock s tm gid
  let rd := fun (o n : Nat) => match (vaRead s (coreOf s tm) (ctxOf s tm) (b + o) n).1 with
    | .ok x => x
    | .error _ => (0, true)
  let (v, p) := rd 0x4100 0x20
  let (k, _) := rd 0x4120 0x40
  let (m, q) := rd 0x4160 0x0C
  let fl := v / 2 ^ (8 * 0x1C) % 2 ^ 32
  let step := m / 2 ^ 64 % 2 ^ 32
  if p then .error (0, b + 0x4100)
  else if q then .error (0, b + 0x4160)
  else match mapCodes (v % 2 ^ 128) 64 with
    | none => .error (1, b + 0x4100)
    | some full =>
      if 4 ≤ fl then .error (1, b + 0x411C)
      else if bit fl 0 && !(1 ≤ step && step ≤ 3) then .error (1, b + 0x4168)
      else .ok { full := full, psn := v / 2 ^ 128 % 2 ^ 64, arr := v / 2 ^ 192 % 2 ^ 32
                 ks := (List.range 16).map fun i => k / 2 ^ (32 * i) % 2 ^ 32
                 mr := if bit fl 0 then some (m % 2 ^ 64, step) else none }

/-- A latch from LVAL and LSTATE (R106); where they read poisoned it has two uses of a poisoned value (R410). -/
def savedLatch (v : Nat) (bad : Bool) (i : Nat) : Latch :=
  if bad then ⟨⟨BitVec.ofNat 32 (v / 2 ^ (32 * i)), true⟩, 2⟩
  else ⟨⟨BitVec.ofNat 32 (v / 2 ^ (32 * i)), bit (v / 2 ^ 96) (6 + i)⟩, min 2 (v / 2 ^ (96 + 2 * i) % 4)⟩

/-- The state in which a thread goes on: one that waited, was blocked or held stands at its instruction again. -/
def savedState (s : State) (r : SavedThread) : TState :=
  match r.st with
  | 4 => .paused (s.now + r.pause)
  | 5 => .exited
  | _ => .eligible

/-- The register stack from the backing store (R102, R106): the window with its maps, what lies below it in its unit as stored. -/
def savedRegs (s : State) (t : TRef) (r : SavedThread) : Tab Reg × State :=
  let bot := r.wbase / 64 * 64
  let (low, s) := match unitStates s t bot with | .ok x => x | .error (_, _, s) => (0, s)
  let below := (List.range (r.wbase - bot)).filterMap fun i =>
    if low / 2 ^ (2 * i) % 4 == 2 then some (bot + i, Reg.stored) else none
  let window := r.full.zipIdx.filterMap fun (f, i) =>
    if f then
      let x := bsValue s t (r.wbase + i)
      some (r.wbase + i, Reg.full { x with psn := x.psn || bit r.psn i })
    else none
  (below ++ window, s)

/-- Reinstate a thread. Where its latches read poisoned they are poisoned (R410). -/
def restoreThread (s : State) (t : TRef) (r : SavedThread) : State :=
  let (lat, bad) := match (vaRead s (coreOf s t.team) (ctxOf s t.team) (localBase s t + 0x460000) 16).1 with
    | .ok x => x
    | .error _ => (0, true)
  let (regs, s) := savedRegs s t r
  modThread s t fun th =>
    let k := th.kept.getD ⟨none, false, false, .eligible, none⟩
    { th with
      pc := BitVec.ofNat 64 r.pc, st := savedState s r, regs := if r.st == 5 then [] else regs, wbase := r.wbase
      bot := r.wbase / 64 * 64, nregs := r.nregs, preds := BitVec.ofNat 7 r.preds, lat0 := savedLatch lat bad 0
      lat1 := savedLatch lat bad 1, lat2 := savedLatch lat bad 2, win := none, joined := false, begun := none, tstat := BitVec.ofNat 7 r.tstat, draws := BitVec.ofNat 64 r.draws
      idem := r.idem, tdepth := r.tdepth, tfix := k.tfix, tretry := k.tretry, after := k.after, bsFault := k.bsFault, since := s.now, ready := s.now, fixing := false
      yld := none, held := [], unres := none, kept := none
      barxSent := if r.st == 2 && r.wait == 2 && bit r.w1 63 then some (r.w1 % 2 ^ 32, BitVec.ofNat 64 r.w0) else none }

/-- A group whose records are sound. -/
def restoreGroup (s : State) (tm gid : Nat) (g : SavedGroup) (l : List (TRef × SavedThread)) : State :=
  let s := l.foldl (fun s (t, r) => restoreThread s t r) s
  let s := modGroup s tm gid fun x => { x with
    gregs := g.full.zipIdx.filterMap fun (f, i) =>
      if f then
        let v := match Tab.get? x.gregs i with | some (.full y) => y.v | _ => 0
        some (i, Reg.full ⟨v, bit g.psn i⟩)
      else none
    gseen := []
    gwait := []
    gown := []
    ks := g.ks.zipIdx.filterMap fun (v, i) => if v == 0 then none else some (i, BitVec.ofNat 32 v)
    arr := BitVec.ofNat 32 g.arr
    finished := l.all fun x => x.2.st == 5 }
  match g.mr with
  | some (pc, step) => resumeMatrix s tm gid step (BitVec.ofNat 64 pc)
  | none => modGroup s tm gid fun x => { x with mr := none }

/-- Every record of a group, or what is wrong with the first that is not sound: its lane, SUB and VA. -/
def readGroup (s : State) (tm gid : Nat) : Except (Nat × Nat × Nat) (SavedGroup × List (TRef × SavedThread)) :=
  match readGroupRec s tm gid with
  | .error (sub, va) => .error (0, sub, va)
  | .ok g =>
    (lanesOf tm gid).foldl (fun acc t => match acc with
      | .error e => .error e
      | .ok (g, l) => match readThreadRec s t with
        | .error (sub, va) => .error (t.lane, sub, va)
        | .ok r => .ok (g, l ++ [(t, r)])) (.ok (g, []))

/-- A group restores halted with cause 0x1D (R446); class 0x08 is logged where a field was poisoned. -/
def restoreHalted (s : State) (tm gid lane sub va : Nat) : State :=
  let s := haltGroup s tm gid [⟨lane, ⟨0x1D, sub, some va, true, 0⟩, 0, 0⟩] fun _ => BitVec.ofNat 32 (2 ^ lane)
  if sub == 0 then logEvent s (unitCore (coreOf s tm)) 8 1 0 0 (ctxOf s tm) 1 else s

/-- An engine record is reissued from DONE; one that was reset stops with reason 0x21 and its pages flip to T (R441). -/
def reissue (s : State) (tm : Nat) (e : Eng) (r : Nat) : State :=
  let f := fun (o n : Nat) => r / 2 ^ (8 * o) % 2 ^ (8 * n)
  let e' := { e with
    sem := f 0x01 1 % 64, gid := f 0x02 1 % 32, lane := f 0x03 1 % 32, pc := BitVec.ofNat 64 (f 0x08 8), done := f 0x10 8
    opa := BitVec.ofNat 64 (f 0x18 8), opb := BitVec.ofNat 64 (f 0x20 8), opc := BitVec.ofNat 64 (f 0x28 8)
    imm := BitVec.ofNat 32 (f 0x30 4), stopped := false, stopSent := none, replies := [] }
  if e'.done == doneLost then
    let s := e.pages.foldl (fun s (t, p) => setOwner s t p false) s
    modEng s tm e.id fun _ => { e' with failed := some ⟨0x21, BitVec.allOnes 64, false⟩, pages := [] }
  else
    let die := coreOf s tm / 192
    let s := match e.slot with
      | some k => { s with slots := Tab.modify s.slots k fun x => { x with die := die } }
      | none => s
    queueUnit (modEng s tm e.id fun _ => e') tm e'

/-- The VA of the first part of a team's own saved state that reads poisoned: its groups restore halted (R410, R446, R487; assumption
80). -/
def teamBad (s : State) (tm : Nat) : Option Nat :=
  let b := blockBase s tm
  [(0, 0x30), (0x400, 0x400), (0x161000, 0x11C)].findSome? fun (o, n) =>
    match (vaRead s (coreOf s tm) (ctxOf s tm) ((b + o) % 2 ^ 64) n).1 with
    | .ok (_, true) => some ((b + o) % 2 ^ 64)
    | _ => none

/-- The team's own registers, pages, semaphores and engine commands (R98, R102, R312, R319). -/
def restoreTeam (s : State) (tm : Nat) : State :=
  match team? s tm with
  | none => s
  | some t =>
    let b := blockBase s tm
    let rd := fun (o n : Nat) => match (vaRead s t.core t.ctx ((b + o) % 2 ^ 64) n).1 with | .ok (v, _) => v | .error _ => 0
    let alone := (teamsOn s t.core).all fun (k, u) => k == tm || u.st == .restoring
    let sems := rd 0x161010 0x100
    let vals : Tab W32 := (List.range 64).filterMap fun n =>
      let v := sems / 2 ^ (32 * n) % 2 ^ 32
      if v == 0 then none else some (n, BitVec.ofNat 32 v)
    let s := if alone then modCore s t.core fun c => { c with sems := vals } else s
    let s := modTeam s tm fun t => { t with
      st := .resident, owner := BitVec.ofNat 96 (rd 0x10 16), rkey := BitVec.ofNat 64 (rd 0x161000 8)
      vtbase := BitVec.ofNat 64 (rd 0x161008 8) &&& ~~~0xFFF, tvec := BitVec.ofNat 64 (rd 0x161110 8) &&& ~~~3
      ten := BitVec.ofNat 5 (rd 0x161118 4 / 2), bars := [], claim := s.now }
    ((liveEngs t).zipIdx.take (rd 0x0C 4)).foldl (fun s (e, i) => reissue s tm e (rd (0x400 + 0x40 * i) 0x40)) s

/-- Obtain what the groups of a restored team need, each beside those before it (R114). -/
def obtainSum (tm : Nat) : List (Nat × Nat) → Nat → State → State × Bool
  | [], _, s => (s, true)
  | (gid, k) :: rest, tot, s =>
    let (s, ok) := obtain s tm gid (tot + k)
    let (s, ok') := obtainSum tm rest (tot + k) s
    (s, ok && ok')

/-- v entries that a group's windows need when it is restored. -/
def restoreNeed (l : List (TRef × SavedThread)) : Nat :=
  (l.map fun x => if x.2.st == 5 then 0 else (x.2.full.filter (· == true)).length).sum

/-- RESTORE_COMPLETE (R102, R442): a pre-emption that has come meanwhile stops the team again. -/
def execRestoreComplete (team : Nat) (s : State) : Result :=
  match team? s team with
  | none => .next s
  | some t =>
    if t.st != .restoring || !handlerOver s team then .next s
    else match restoreGaps s team with
    | (x :: l, s) => .next (raiseGaps s (x :: l))
    | ([], s) =>
      let bad := teamBad s team
      let recs := (List.range t.ngrp).map fun gid => (gid, match bad with
        | some va => Except.error (0, 0, va)
        | none => readGroup s team gid)
      let s := (threadsOf s team).foldl (fun s u => modThread s u fun th => { th with regs := [] }) s
      let (s, room) := obtainSum team (recs.filterMap fun (gid, r) => match r with
        | .ok (_, l) => some (gid, restoreNeed l)
        | .error _ => none) 0 s
      if !room then .next s
      else
        let s := restoreTeam s team
        let s := recs.foldl (fun s (gid, r) => match r with
          | .ok (g, l) => restoreGroup s team gid g l
          | .error (lane, sub, va) => restoreHalted s team gid lane sub va) s
        let stop := match Tab.get? s.ctxs t.ctx with | some c => c.stop.isSome | none => false
        .next (if stop then saveSettle (stopTeam s team) t.ctx else teamSettle s team)

end Sys2Proof.Machine
end

