-- ==== Sys2Proof/Machine/Sched.lean ====
section
/-! DEFINITION. Place plan (R26, R42-R46), Pre-empt context and Kill context (R69, R80, R94), the context scheduler (R90, R91), the
convergence timer (R59, R60, R428) and the ends of pauses, JOIN holds and yields (R63, R241, R273). -/

namespace Sys2Proof.Machine

/-! The plan image: R42, R43. -/

def imgField (r o n : Nat) : Nat := r / 2 ^ (8 * o) % 2 ^ (8 * n)

/-- A grid record. -/
def parseGrid (r : Nat) : GridRec :=
  let f := imgField r
  { pentry := BitVec.ofNat 64 (f 0x00 8), centry := BitVec.ofNat 64 (f 0x08 8), nteam := f 0x10 4, ngrp := f 0x14 1, nprod := f 0x15 1
    pfloor := f 0x16 1, cfloor := f 0x17 1, gregs := f 0x18 1, pages := f 0x19 1, prio := f 0x1A 1 % 8, pinned := bit (f 0x1B 1) 0
    gang := bit (f 0x1B 1) 1, fuse := bit (f 0x1B 1) 2, ctimeout := f 0x1C 4, park := f 0x20 4 }

def parsePlan (h : Nat) (recs : List Nat) : Plan :=
  let f := imgField h
  { cores := bit (f 0x08 4) 0, ptroot := f 0x10 8, savebase := BitVec.ofNat 64 (f 0x18 8), saveh := BitVec.ofNat 64 (f 0x20 8)
    resth := BitVec.ofNat 64 (f 0x28 8), constva := BitVec.ofNat 64 (f 0x30 8), constlen := f 0x38 4, grids := recs.map parseGrid }

/-- Are the reserved fields zero (R44 step 2)? DESIGN CHOICE: PRIO[7:3] and MODE[7:3], which R43 shows as 0, count among them
(assumption 78). -/
def planReserved (h : Nat) (recs : List Nat) : Bool :=
  let f := imgField h
  f 0x08 4 < 2 && f 0x0C 4 == 0 && f 0x3C 4 == 0 &&
  recs.all fun r => imgField r 0x1A 1 < 8 && imgField r 0x1B 1 < 8 && imgField r 0x24 28 == 0

def floorOk (n : Nat) : Bool := 16 ≤ n && n ≤ 64 && n % 8 == 0

/-- Are the fields of a grid record in their ranges (R43)? -/
def GridRec.ok (g : GridRec) : Bool :=
  g.pentry.toNat % 12 == 0 && g.centry.toNat % 12 == 0 && 1 ≤ g.nteam && g.nteam ≤ 2 ^ 20 && 1 ≤ g.ngrp && g.ngrp ≤ 32 &&
  g.nprod ≤ g.ngrp / 2 && (if g.nprod == 0 then g.pentry == 0 && g.pfloor == 0 else floorOk g.pfloor) && floorOk g.cfloor &&
  g.gregs ≤ 64 && g.pages ≤ 96 && (g.ctimeout == 0 || (256 ≤ g.ctimeout && g.ctimeout ≤ 65536)) && (g.park == 0 || 1024 ≤ g.park) &&
  (!g.fuse || g.gang)

/-- Does every byte of the constant image translate for reading (R44)? -/
def constMapped (s : State) (ctx : Nat) (p : Plan) : Bool :=
  let va := p.constva.toNat
  p.constlen == 0 || (List.range ((va % 65536 + p.constlen + 65535) / 65536)).all fun i =>
    (walk s ctx p.ptroot ((va + 65536 * i) % 2 ^ 64)).isSome

/-- R44 step 3. DESIGN CHOICE: the address fields are held to their alignment alone; one that is not canonical is accepted and fails where
it is used (assumption 77). -/
def Plan.ok (s : State) (ctx : Nat) (p : Plan) : Bool :=
  1 ≤ p.grids.length && p.grids.length ≤ 256 && p.ptroot % 4096 == 0 && p.ptroot < 2 ^ 48 && p.savebase.toNat % 4096 == 0 &&
  p.saveh.toNat % 12 == 0 && p.resth.toNat % 12 == 0 && p.constva.toNat % 4 == 0 && p.constlen ≤ 131072 && p.constlen % 4 == 0 &&
  p.grids.all (·.ok) && (p.grids.map fun g => 32 * g.ngrp * g.nteam).sum ≤ 2 ^ 33 && constMapped s ctx p

/-! Initial placement: R46. -/

/-- Grid records in the order of placement: pinned first, then by priority, then by number. -/
def placeOrder (p : Plan) : List (Nat × GridRec) :=
  sortBy (fun a b => if a.2.pinned != b.2.pinned then a.2.pinned
    else if a.2.prio != b.2.prio then b.2.prio < a.2.prio else a.1 ≤ b.1) (p.grids.zipIdx.map fun (g, i) => (i, g))

/-- The units of a grid record in the order of their lowest teams. -/
def gridUnits (ctx n : Nat) (g : GridRec) : List (List Nat) :=
  if g.gang then (List.range ((g.nteam + 7) / 8)).map fun k =>
      (List.range (min 8 (g.nteam - 8 * k))).map fun i => teamKey ctx n (8 * k + i)
  else (List.range g.nteam).map fun t => [teamKey ctx n t]

/-- The context with its teams, all pending. -/
def enterPlan (s : State) (ctx : Nat) (p : Plan) (prio : Nat) : State :=
  let c : Ctx := { plan := p, prio := prio, placed := s.ids, vcores := [], stop := none, coresSince := s.now }
  let s := { s with ctxs := Tab.set s.ctxs ctx c, ids := s.ids + 1 }
  p.grids.zipIdx.foldl (fun s (g, n) => (List.range g.nteam).foldl (fun s t =>
    { s with teams := Tab.set s.teams (teamKey ctx n t) { Team.fresh ctx n t 0 g.ngrp 0 s.now with st := .pending } }) s) s

/-- Place every unit that finds room. -/
def placeAll (s : State) (ctx : Nat) (p : Plan) : State :=
  (placeOrder p).foldl (fun s (n, g) => (gridUnits ctx n g).foldl (fun s u => match bestFit s ctx u with
    | some l => admitUnit s ctx l
    | none => s) s) s

/-- R44: the state with the plan placed, or the code of the first check that fails. -/
def placeNow (s : State) (ctx : Nat) (sigOk : Bool) : Except Nat State :=
  let a := s.harg0.toNat
  let n := s.harg1.toNat
  let h := (cohRead s a 64).1
  if n < 576 || imgField h 0x00 4 != 0x4E414C50 || imgField h 0x04 2 != 1 || n != 576 + 64 * imgField h 0x06 2 ||
     (cohRead s a n).2 || !sigOk then .error 0x82
  else
    let recs := (List.range (imgField h 0x06 2)).map fun i => (cohRead s (a + 64 + 64 * i) 64).1
    let p := parsePlan h recs
    if !planReserved h recs then .error 0x81
    else if !p.ok s ctx then .error 0x83
    else
      let s := { s with retired := s.retiring.foldl setInsert s.retired, retiring := [], fenced := [] }
      let s := placeAll (enterPlan s ctx p (s.harg2.toNat % 8)) ctx p
      let bad := s.teams.any fun (_, t) => t.ctx == ctx && t.st == .pending &&
        (p.cores || (match p.grids[t.grid]? with | some g => g.pinned | none => false))
      if bad then .error 0x83 else .ok s

/-- PLACE_PLAN. `sigOk` is the verdict of the RSA check over the bytes read (R26). -/
def execPlacePlan (hcmd : W32) (sigOk : Bool) (s : State) : Result :=
  if hcmdOp hcmd != 1 then .next s
  else
    let ctx := hcmdCtx hcmd
    .next (hubCommand s hcmd (
      if (Tab.get? s.ctxs ctx).isSome then hubEnd s hcmd 0x84 0 0
      else if !argOk s s.harg0.toNat s.harg1.toNat 64 then hubEnd s hcmd 0x81 0 0
      else match placeNow s ctx sigOk with
        | .error code => hubEnd s hcmd code 0 0
        | .ok s => hubEnd s hcmd 2 0 0))

/-! Pre-empt and kill. -/

/-- PRE_EMPT_CONTEXT (R94): the command ends; the pre-emption goes on by itself (R443). -/
def execPreEmptContext (hcmd : W32) (s : State) : Result :=
  if hcmdOp hcmd != 2 then .next s
  else
    let ctx := hcmdCtx hcmd
    .next (hubCommand s hcmd (
      if (Tab.get? s.ctxs ctx).isNone then hubEnd s hcmd 0x84 0 0 else hubEnd (startPreempt s ctx) hcmd 2 0 0))

/-- A context leaves the package: its teams retire with nothing saved, its queues are discarded, its ranks leave (R69, R80, R442,
R496); translations and bricks cached for it are dropped. -/
def killContext (s : State) (ctx : Nat) : State :=
  let s := leaveSlots s fun x => x.ctx == ctx
  let mine := s.teams.filter fun (_, t) => t.ctx == ctx
  let s := mine.foldl (fun s (k, _) => retireTeam s k) s
  let s := mine.foldl (fun s (_, t) => unfuse s t.core) s
  let s := s.queues.foldl (fun s (q, x) => if x.ctx == ctx then queueGone s q x else s) s
  let drop := fun (l : List TlbEnt) => l.filter fun e => e.ctx != ctx
  let gone := fun (x : Nat × Nat) => x.1 / 2 ^ 28 == ctx
  { s with
    teams := s.teams.filter fun (_, t) => t.ctx != ctx
    ctxs := Tab.erase s.ctxs ctx
    cores := s.cores.map fun (i, c) => (i, { c with
      ctx := if c.ctx == some ctx then none else c.ctx, tlb := drop c.tlb, clb := c.clb.filter fun e => e.ctx != ctx })
    clusters := s.clusters.map fun (i, c) => (i, { c with
      sortQ := c.sortQ.filter fun x => !gone x, travQ := c.travQ.filter fun x => !gone x })
    l2tlb := s.l2tlb.map fun (d, l) => (d, drop l)
    barxs := s.barxs.filter fun b => b.team / 2 ^ 28 != ctx
    discarded := s.discarded.filter fun x => x.2.team / 2 ^ 28 != ctx }

/-- KILL_CONTEXT. -/
def execKillContext (hcmd : W32) (s : State) : Result :=
  if hcmdOp hcmd != 3 then .next s
  else
    let ctx := hcmdCtx hcmd
    .next (hubCommand s hcmd (
      if (Tab.get? s.ctxs ctx).isNone then hubEnd s hcmd 0x84 0 0 else hubEnd (killContext s ctx) hcmd 2 0 0))

/-! The context scheduler: R90, R91. -/

/-- A context that holds a claim: its number, its record, its candidates. -/
def claimants (s : State) : List (Nat × Ctx × List Cand) :=
  let oldest := fun (l : List Cand) => l.foldl (fun m c => min m c.claim) s.now
  sortBy (fun a b => if a.2.1.prio != b.2.1.prio then b.2.1.prio < a.2.1.prio else oldest a.2.2 ≤ oldest b.2.2)
    (s.ctxs.filterMap fun (k, c) => let l := candsOf s k; if l.isEmpty then none else some (k, c, l))

/-- Does a context hold cores that a pre-emption would free (R444)? -/
def holdsCores (s : State) (ctx : Nat) : Bool := s.teams.any fun (k, t) => t.ctx == ctx && t.onCore && !teamHalted s k

/-- Give free cores to the first claim that fits. -/
def grantOne (s : State) : Option State :=
  (claimants s).findSome? fun (k, _, l) => l.findSome? fun c => admitCand k (fun _ => true) c.units s

/-- PRIORITY_PREEMPT (R91): the lowest-priority context below a claim that fits nowhere, the one placed last among equals; not while
another one below it is being pre-empted. -/
def priorityPreempt (s : State) : State :=
  let victim := (claimants s).findSome? fun (_, c, _) =>
    let below := s.ctxs.filter fun (k, x) => x.prio < c.prio && holdsCores s k
    match below with
    | [] => none
    | b :: rest =>
      if below.any fun x => x.2.stop.isSome then none
      else some (rest.foldl (fun m x => if x.2.prio < m.2.prio || (x.2.prio == m.2.prio && m.2.placed < x.2.placed) then x else m) b).1
  match victim with
  | some k => startPreempt s k
  | none => s

/-- CONTEXT_GRANT (R90, R91). -/
def execContextGrant (s : State) : Result := .next ((grantOne s).getD (priorityPreempt s))

/-- Hub cycles after which a claim of equal priority pre-empts (R91). -/
def fairTime : Nat := 2 ^ 25

/-- FAIRNESS_PREEMPT (R91) of context `ctx`. -/
def execFairnessPreempt (ctx : Nat) (s : State) : Result :=
  match Tab.get? s.ctxs ctx with
  | none => .next s
  | some c =>
    let aged := fun (t : Nat) => hubCycle t + fairTime ≤ hubCycle s.now
    let pinned := s.teams.any fun (k, t) => t.ctx == ctx && t.onCore && (match gridOf s k with | some g => g.pinned | none => false)
    if c.stop.isSome || pinned || !aged c.coresSince || !holdsCores s ctx then .next s
    else if (claimants s).any fun (k, x, l) => k != ctx && x.prio == c.prio && l.any fun d => aged d.claim
    then .next (startPreempt s ctx)
    else .next s

/-! Timers of threads and groups. -/

/-- CONVERGENCE_TIMEOUT (R60, R428): once the cycle in which the timer reaches CTIMEOUT has passed, since an arrival in that cycle
converges. -/
def execConvergenceTimeout (team gid : Nat) (s : State) : Result :=
  match team? s team, group? s team gid, gridOf s team with
  | some t, some g, some r => match g.conv with
    | none => .next s
    | some c =>
      let held := heldLanes s team gid
      let pcs := (held.map (·.2)).eraseDups
      if !t.runs || g.halted || s.now ≤ c + ctimeOf r || held.isEmpty || (held.length == 32 && pcs.length == 1) then .next s
      else .next (convHalt s team gid (if 1 < pcs.length then 2 else 0))
  | _, _, _ => .next s

/-- PAUSE_EXPIRE (R63): eligible with the cycle of expiry as its age. -/
def execPauseExpire (t : TRef) (s : State) : Result :=
  match thread? s t with
  | some th => (match th.st with
    | .paused lim => if lim ≤ s.now then .next (setThread s t { th with st := .eligible, since := lim }) else .next s
    | _ => .next s)
  | none => .next s

/-- JOIN_LIMIT_EXPIRE (R273). -/
def execJoinLimitExpire (t : TRef) (s : State) : Result :=
  match thread? s t with
  | some th => (match th.st with
    | .blocked (.join lim) => if lim ≤ s.now then .next (setThread s t { th with st := .eligible, since := s.now, joined := true }) else .next s
    | _ => .next s)
  | none => .next s

/-- YIELD_EXPIRE (R241). -/
def execYieldExpire (t : TRef) (s : State) : Result :=
  match thread? s t with
  | some th => (match th.yld with
    | some u => if u ≤ s.now then .next (setThread s t { th with yld := none }) else .next s
    | none => .next s)
  | none => .next s

/-- POOL_OBTAIN (R112-R114, R451): a group obtains `k` entries as far as others can be spilled. -/
def execPoolObtain (team gid k : Nat) (s : State) : Result :=
  match team? s team with
  | some t => if t.onCore then .next (obtain s team gid k).1 else .next s
  | none => .next s

end Sys2Proof.Machine
end

