-- ==== Sys2Proof/Machine/Fabric.lean ====
section
/-! DEFINITION. Shoot-downs of translations (R185, R477), Keanik links and planes (R493-R495), the loss of dies (R424-R427, R440,
R485-R487), and errors that units detect (R410, R411, R416, R419-R421, R436, R449, R476, R478, R482, R484, R492, R498). -/

namespace Sys2Proof.Machine

/-! Shoot-downs: R185. -/

def tictlOp (c : W32) : Nat := bits c.toNat 31 28
def tictlCtx (c : W32) : Nat := bits c.toNat 27 20
def tictlBad (c : W32) : Bool := tictlOp c < 1 || 3 < tictlOp c || bits c.toNat 19 2 != 0 || bits c.toNat 1 0 == 3
def pageSize (k : Nat) : Nat := match k with | 0 => 2 ^ 16 | 1 => 2 ^ 21 | _ => 2 ^ 27

/-- Does a shoot-down drop this entry? -/
def shootDrops (c : W32) (va : W64) (e : TlbEnt) : Bool :=
  match tictlOp c with
  | 1 =>
    let z := pageSize (bits c.toNat 1 0)
    let b := va.toNat % 2 ^ 57 / z * z
    e.ctx == tictlCtx c && e.va < b + z && b < e.va + e.size
  | 2 => e.ctx == tictlCtx c
  | _ => true

/-- Does the shoot-down concern accesses of the context? -/
def shootCtx (c : W32) (ctx : Nat) : Bool := tictlOp c == 3 || tictlCtx c == ctx

/-- Has a core accesses of these contexts that are older than `upto`, in flight, sent to another package and not acknowledged, or on
their way to a barrier unit? -/
def oldAccess (s : State) (core upto : Nat) (p : Nat → Bool) : Bool :=
  ((getCore s core).acc.any fun a => a.id < upto && p (a.t.team / 2 ^ 28)) ||
  (s.msgs.any fun m => match m with
    | .barx tm _ _ _ id => id < upto && coreOf s tm == core && p (ctxOf s tm)
    | .barinit t _ ctx _ _ _ id => id < upto && coreOf s t.team == core && p ctx
    | .deposit .. => false) ||
  s.rreqs.any fun r => r.core == core && r.acc < upto && p r.ctx

/-- Every TLB drops the matching entries; cores with accesses that were translated before owe their acknowledgement. -/
def shootStart (s : State) (c : W32) (va : W64) : State :=
  let keep := fun (l : List TlbEnt) => l.filter fun e => !shootDrops c va e
  let await := (s.cores.map (·.1)).filter fun i => oldAccess s i s.ids (shootCtx c)
  { s with
    cores := s.cores.map fun (i, k) => (i, { k with tlb := keep k.tlb })
    l2tlb := s.l2tlb.map fun (d, l) => (d, keep l)
    shoot := some ⟨c, va, await, s.ids, hubCycle s.now⟩ }

/-- Take up the writes of TICTL that wait, until one has to be waited for. -/
def shootNext : List (W32 × W64) → State → State
  | [], s => { s with shootQ := [] }
  | (c, va) :: rest, s =>
    if tictlBad c then shootNext rest { s with tistat := 0x80 } else { shootStart s c va with shootQ := rest }

/-- A host write of TICTL: one runs at a time, in the order of arrival. -/
def tictlWrite (s : State) (c : W32) : State :=
  if !isUp s then s
  else
    let s := { s with tictl := c }
    if s.shoot.isSome then { s with shootQ := s.shootQ ++ [(c, s.tiva)] }
    else shootNext [(c, s.tiva)] s

/-- SHOOTDOWN_PAGE. -/
def execShootdownPage (tictl : W32) (s : State) : Result := if tictlOp tictl == 1 then .next (tictlWrite s tictl) else .next s
/-- SHOOTDOWN_CONTEXT. -/
def execShootdownContext (tictl : W32) (s : State) : Result := if tictlOp tictl == 2 then .next (tictlWrite s tictl) else .next s
/-- SHOOTDOWN_ALL. -/
def execShootdownAll (tictl : W32) (s : State) : Result := if tictlOp tictl == 3 then .next (tictlWrite s tictl) else .next s
/-- TICTL_BAD_OP. -/
def execTictlBadOp (tictl : W32) (s : State) : Result := if tictlBad tictl then .next (tictlWrite s tictl) else .next s

/-- SHOOTDOWN_COMPLETE: every unit has acknowledged. -/
def execShootdownComplete (s : State) : Result :=
  match s.shoot with
  | none => .next s
  | some x =>
    if x.await.any fun c => oldAccess s c x.upto (shootCtx x.tictl) then .next s
    else .next (shootNext s.shootQ { s with shoot := none, tistat := 0 })

/-! Units that do not acknowledge: R477. -/

/-- Hub cycles before a unit is reset, and again before its core is declared faulty. -/
def ackLimit : Nat := 2 ^ 24

/-- Halt a group for damaged control state; its lowest live lane carries the cause (R467). -/
def haltControl (s : State) (tm gid : Nat) : State :=
  match (lanesOf tm gid).filterMap fun t => (thread? s t).bind fun th => if th.exited then none else some (t, th) with
  | (t, th) :: _ => haltGroup s tm gid [⟨t.lane, excControl, th.pc, th.pc⟩] fun _ => BitVec.ofNat 32 (2 ^ t.lane)
  | [] => s

/-- The live groups of a core that have not halted. -/
def liveGroups (s : State) (core : Nat) : List (Nat × Nat) :=
  (groupsOn s core).filter fun (k, g) => match group? s k g with | some x => !x.halted && !x.finished | none => false

/-- The accesses of a core end: loads fill as poisoned zeros, stores are discarded; what has left for another package is no longer the
core's (R477). -/
def dropAccesses (s : State) (core : Nat) : State :=
  let owed := (getCore s core).acc
  let mine := fun (r : RReq) => r.core == core
  let s := { s with msgs := s.msgs.filter fun m => match m with
    | .barx tm .. => coreOf s tm != core
    | .barinit t .. => coreOf s t.team != core
    | .deposit .. => true }
  let sent := (s.rreqs.filter fun r => mine r && r.eng.isNone && (match r.op with | .load .. => false | _ => true)).length
  let s := modCore { s with rreqs := s.rreqs.map fun r => if mine r then { r with core := numCores } else r } core
    fun c => { c with acks := c.acks - sent }
  owed.foldl (fun s a =>
    let s := fillAcc (dropAcc s core a.id) a 0 true
    match a.kind, a.part.loc with
    | .store .., .mem pa _ => discardPend s (l1Slice s core (lineOf pa)) (lineOf pa)
    | _, _ => s) s

/-- A core that fails to acknowledge for the second time. -/
def coreFails (s : State) (core : Nat) : State :=
  let u := unitCore core
  let c := (Tab.getD s.counters u ⟨none, 0, false⟩).settle (unitCycle s u)
  let s := logRec s u 7 2 0 0 0xFF c.count c.count
  let s := retireUnit { s with counters := Tab.set s.counters u { c with stopped := true } } u 0
  let gs := liveGroups s core
  let s := gs.foldl (fun s (k, g) => haltControl s k g) s
  let s := if gs.isEmpty then s else logEvent s u 8 1 0 0 ((getCore s core).ctx.getD 0xFF) gs.length
  dropAccesses s core

/-- SHOOTDOWN_ACK_TIMEOUT (R477): a core's TLB, or its CLB for a VINVAL, is reset; after as long again the core fails. -/
def execShootdownAckTimeout (core : Nat) (s : State) : Result :=
  let now := hubCycle s.now
  let s := match s.shoot with
    | none => s
    | some x =>
      if !(x.await.contains core && oldAccess s core x.upto (shootCtx x.tictl)) || now ≤ x.since + ackLimit then s
      else
        let s := modCore s core fun c => { c with tlb := [] }
        if now ≤ x.since + 2 * ackLimit then s else coreFails s core
  .next (s.vinvs.foldl (fun s v =>
    if !oldAccess s core v.upto (· == v.ctx) || now ≤ v.since + ackLimit then s
    else
      let s := modCore s core fun c => { c with clb := [], walks := [] }
      if now ≤ v.since + 2 * ackLimit then s else coreFails s core) s)

/-! Keanik: R493-R495. -/

def portAt (s : State) (p : Nat) : Port := Tab.getD s.ports p ⟨8, true, 0⟩

/-- FLIT_REPLAY (R493): a class 0x05 event; after 16 replays of a flit the link retrains. -/
def execFlitReplay (port : Nat) (s : State) : Result :=
  if 18 ≤ port || !isUp s || !portUp s port then .next s
  else
    let p := portAt s port
    .next (logEvent { s with ports := Tab.set s.ports port { p with replays := (p.replays + 1) % 16 } } (unitPort port) 5 0 0 0 0xFF 1)

/-- A plane goes down: its requests are sent again on the planes of the new hash, in order; without a plane they are lost (R494,
R495). -/
def portDown (s : State) (port : Nat) : State :=
  if !portUp s port then s
  else
    let s := { s with ports := Tab.set s.ports port ⟨0, false, 0⟩ }
    let all := s.rreqs
    let s := all.foldl (fun s r =>
      if r.port != some port then { s with rreqs := s.rreqs ++ [r] }
      else match portOf s r.pa with
        | some q => { s with rreqs := s.rreqs ++ [{ r with port := some q, sent := hubCycle s.now }] }
        | none => loseRemote { s with fenced := setInsert s.fenced (paPkg r.pa) } r.core r.acc r.ctx r.op r.port r.eng)
      { s with rreqs := [] }
    ((all.map (·.core)).eraseDups).foldl drain s

/-- PLANE_DOWN. -/
def execPlaneDown (port : Nat) (s : State) : Result := if 18 ≤ port || !isUp s then .next s else .next (portDown s port)

/-! The loss of a memory die: R426, R486, R487. -/

/-- A die is entered as lost. -/
def loseDie (s : State) (d : Nat) : State :=
  logEvent { s with lostDies := setInsert s.lostDies d, probes := Tab.erase s.probes d } (unitDie d) 0x0B 3 0 0 0xFF d

/-- Memory die `m`: agents drop its lines, dirty ones counted; its writes settle; waiters at its barriers go on. -/
def loseMemory (s : State) (m : Nat) : State :=
  if dieLost s (2 + m) then s
  else
    let mine := fun (ln : Nat) => lineMdie ln == m
    let dirty := (s.ag.filter fun (k, l) => mine (k % 2 ^ 32) && l.st.dirty).length +
      (s.homeQ.filter fun r => mine r.line && (match r.kind with | .wbd .. => true | _ => false)).length +
      (s.pwrites.filter fun w => mine w.line).length
    let s := loseDie s (2 + m)
    let s := if dirty == 0 then s else logEvent s (unitDie (2 + m)) 3 1 0 0 0xFF dirty
    -- an atomic that its home has taken up is answered as one that waits there
    let taken : List HReq := (s.txns.map fun t => t.req).filter fun r => mine r.line && (match r.kind with
      | .atomic .. => true
      | _ => false)
    let s := { s with homeQ := s.homeQ ++ taken }
    let s := { s with
      ag := s.ag.filter fun (k, _) => !mine (k % 2 ^ 32)
      l1 := s.l1.filter fun (k, _) => !mine (k % 2 ^ 32)
      llc := s.llc.filter fun (k, _) => !mine k
      dir := s.dir.filter fun (k, _) => !mine k
      txns := s.txns.filter fun t => !mine t.req.line
      pwrites := s.pwrites.filter fun w => !mine w.line
      homeQ := s.homeQ.filter fun r => !(mine r.line && (match r.kind with | .atomic .. => false | _ => true)) }
    let s := [0, 1, 2].foldl resettle s
    ((s.barxs.map (·.pa)).filter fun pa => paMdie pa == m).foldl (fun s pa => barxRelease s pa 1) s

/-! The loss of a compute die: R425, R440, R483, R486. -/

/-- A line is poisoned whole at its home. -/
def poisonHome (s : State) (ln : Nat) : State :=
  if dieLost s (2 + lineMdie ln) then s else llcPut s ln { homeLine s ln with psn := 15 }

/-- Chunks of the die's distributors go back to the package distributor. -/
def chunksBack (d : Nat) (q : Queue) : Queue :=
  let mine := fun (x : Nat × List Span) => x.1 / 24 == d
  let back := Tab.getD q.dieSpans d [] ++ (q.cluSpans.filter mine).flatMap (·.2)
  { q with
    dieSpans := Tab.erase q.dieSpans d
    cluSpans := q.cluSpans.filter fun x => !mine x
    pkgSpans := sortBy (fun a b => a.lo ≤ b.lo) (q.pkgSpans ++ back) }

/-- Queues whose store lay on the die are discarded, their queued letters counted in DROPPED. -/
def loseQueues (s : State) (d : Nat) : State :=
  s.queues.foldl (fun s (n, q) =>
    if q.die == d then queueDiscard s n { q with dropped := (q.dropped + q.letters.length + q.spseq.length) % 2 ^ 32 }
    else setQueue s n (chunksBack d q)) s

/-- Ready barriers of the affected contexts break. -/
def breakBarriers (s : State) (ctxs : List Nat) : State :=
  s.barRecs.foldl (fun s pa =>
    let r := readRec s pa
    if !dieLost s (2 + paMdie pa) && r.st % 4 == 1 && ctxs.contains (r.st / 4 % 256) then
      barxRelease (writeRec s pa { r with st := r.st + 1 } none) pa 1
    else s) s

/-- The granule of an address is poisoned at its home. -/
def poisonGran (s : State) (pa : Nat) : State :=
  let ln := lineOf pa
  if dieLost s (2 + lineMdie ln) then s
  else
    let l := homeLine s ln
    llcPut s ln { l with psn := l.psn ||| BitVec.ofNat 4 (2 ^ (pa % 128 / 32)) }

/-- What the die held or had on its way: its writes settle, those not applied are discarded and what they would have written is
poisoned, as are the lines it held in M or O; transactions go on without it (R425, R486). -/
def loseLines (s : State) (d : Nat) : State :=
  let held := (s.ag.filter fun (k, l) => k / 2 ^ 32 == d && l.st.dirty).map fun x => x.1 % 2 ^ 32
  let wbs := (s.homeQ.filter fun r => r.agent == d && (match r.kind with | .wbd .. => true | _ => false)).map (·.line)
  let pws := (s.pwrites.filter fun w => w.agent == d).map (·.line)
  let fwd := (s.txns.filter fun t => t.req.agent == d && t.data.isSome).map (·.req.line)
  let atoms := (s.homeQ ++ s.txns.map (·.req)).filterMap fun r => if r.agent != d then none else (match r.kind with
    | .atomic core acc => (findAcc s core acc).bind fun a => (match a.part.loc with | .mem pa _ => some pa | _ => none)
    | _ => none)
  let lines := (s.ag.filter fun (k, _) => k / 2 ^ 32 == d).map fun x => x.1 % 2 ^ 32
  let waits := (s.txns.filter fun t => t.req.agent != d).map (·.req.line)
  let s := { s with
    ag := s.ag.filter fun (k, _) => k / 2 ^ 32 != d
    l1 := s.l1.filter fun (k, _) => k / 2 ^ 32 / 192 != d
    homeQ := s.homeQ.filter fun r => r.agent != d
    pwrites := s.pwrites.filter fun w => w.agent != d
    txns := (s.txns.filter fun t => t.req.agent != d).map fun t => { t with await := t.await.filter (· != d) } }
  let s := atoms.foldl poisonGran ((held ++ wbs ++ pws ++ fwd).foldl poisonHome s)
  let s := lines.foldl (fun s ln => dirDrop s ln d) s
  let s := resettle s d
  waits.foldl settleTxn (settleTell s d)

/-- The ranks of a die: those whose last command came from it, or that have one outstanding there (R496, assumption 43). -/
def ranksOn (s : State) (d : Nat) : List Slot :=
  ((s.slots.map (·.2)).filter fun x => x.die == d) ++
  (s.teams.filter fun (_, t) => t.onCore && t.core / 192 == d).flatMap fun (_, t) =>
    t.engs.filterMap fun e => e.slot.bind fun k => Tab.get? s.slots k

/-- Compute die `d` is lost, and its four memory dies with it. -/
def loseCompute (s : State) (d : Nat) : State :=
  if dieLost s d then s
  else
    let gone := s.teams.filter fun (_, t) => t.onCore && t.core / 192 == d
    let ranks := ranksOn s d
    let s := leaveSlots s fun x => ranks.contains x
    let s := loseDie s d
    let s := gone.foldl (fun s (k, _) => retireTeam s k) s
    let s := loseQueues s d
    let s := breakBarriers s ((gone.map fun x => x.2.ctx).eraseDups)
    let s := loseLines s d
    let s := { s with
      cores := s.cores.filter fun (k, _) => k / 192 != d
      clusters := s.clusters.filter fun (k, _) => k / 24 != d
      l2tlb := Tab.erase s.l2tlb d
      storeUsed := Tab.erase s.storeUsed d
      shoot := s.shoot.map fun x => { x with await := x.await.filter fun c => c / 192 != d } }
    let s := [0, 1, 2, 3].foldl (fun s i => loseMemory s (4 * d + i)) s
    s.ctxs.foldl (fun s (k, _) => stopSettle s k) s

/-- Die by number: 0 C0, 1 C1, 2 to 9 M0 to M7. -/
def loseAny (s : State) (d : Nat) : State := if d < 2 then loseCompute s d else if d < 10 then loseMemory s (d - 2) else s

/-- Missed probes that lose a die, and hub cycles from one probe of a die to the next (R424). -/
def probeMax : Nat := 3
def probeGap : Nat := 2 ^ 20

/-- Is a probe of a die due (R424)? -/
def probeDue (s : State) (die : Nat) : Bool :=
  die < 10 && !dieLost s die && isUp s && Tab.getD s.probeAt die 0 + probeGap ≤ hubCycle s.now

/-- DIE_PROBE (R424). -/
def execDieProbe (die : Nat) (answered : Bool) (s : State) : Result :=
  if !probeDue s die then .next s
  else
  let s := { s with probeAt := Tab.set s.probeAt die (hubCycle s.now) }
  if answered then .next { s with probes := Tab.erase s.probes die }
  else
    let n := Tab.getD s.probes die 0 + 1
    if n < probeMax then .next { s with probes := Tab.set s.probes die n } else .next (loseAny s die)

/-! Lanes: R421, R485, R493. -/

/-- The lanes of a mask below `n`. -/
def laneCount (mask n : Nat) : Nat := ((List.range n).filter fun i => bit mask i).length

/-- The largest power of two of at most 8 working lanes (R493). -/
def lanesUsed (n : Nat) : Nat := if 8 ≤ n then 8 else if 4 ≤ n then 4 else if 2 ≤ n then 2 else n

/-- The die that is lost with a UCIe link (R424, R485). -/
def linkDie (u : Nat) : Nat :=
  let a := unitDieOf u
  let b := u % 256
  if a < 2 && b < 2 then 1 else if a == 10 then b else if b == 10 then a else max a b

/-- LANE_FAIL. -/
def execLaneFail (unit : BitVec 16) (lane : Nat) (s : State) : Result :=
  let u := unit.toNat
  let mask := Tab.getD s.linkLanes u 0
  if !isUp s || bit mask lane then .next s
  else
    let mask := mask + 2 ^ lane
    let enter := fun (s : State) => logEvent { s with linkLanes := Tab.set s.linkLanes u mask } u 6 2 0 0 0xFF lane
    if unitKind u == 6 then
      let p := u % 256
      if 18 ≤ p || 8 ≤ lane || !portUp s p then .next s
      else
        let s := enter s
        let n := lanesUsed (8 - laneCount mask 8)
        if n == 0 then .next (portDown s p) else .next { s with ports := Tab.set s.ports p { portAt s p with lanes := n } }
    else if unitKind u == 5 then
      if !isLink u || Config.linkLanes u ≤ lane then .next s
      else
        let s := enter s
        if laneCount mask (Config.linkLanes u) == Config.linkLanes u then .next (loseAny s (linkDie u)) else .next s
    else .next s

/-! Detected errors: R410, R482. -/

/-- Poison the granule of an address wherever its line stands now. -/
def poisonAt (s : State) (pa : Nat) : State := cohWrite s pa 1 (cohRead s pa 1).1 true none

def Line.poison (l : Line) (g : Nat) : Line := { l with psn := l.psn ||| BitVec.ofNat 4 (2 ^ g) }

def poisonReg (r : Reg) : Reg :=
  match r with
  | .full x => .full { x with psn := true }
  | r => r

/-- The block solver or the compactor: the job at work ends in error (R492). -/
def failFirst {α : Type} (f : α → α) : List α → List α
  | [] => []
  | x :: rest => f x :: rest

/-- A register that holds a value. -/
def Reg.holds (r : Option Reg) : Bool := match r with | some (.full _) => true | _ => false

/-- The line of L1 slice `sl` with a granule poisoned, and the stores that stand in it (R208, R482). -/
def poisonL1 (s : State) (core sl pa : Nat) (l : L1Line) : State :=
  let ln := lineOf pa
  let s := { s with l1 := Tab.set s.l1 (l1Key sl ln) { l with line := l.line.poison (pa % 128 / 32) } }
  (coreGroup s core).foldl (fun s c => modCore s c fun k => { k with acc := k.acc.map fun a => match a.kind, a.part.loc with
    | .store d p, .mem q _ => { a with kind := .store d (p || (a.inL1 && q / 32 == pa / 32)) }
    | _, _ => a }) s

/-- A group that runs: a control error of another has nothing to halt. -/
def groupUp (s : State) (tm gid : Nat) : Bool :=
  match group? s tm gid with
  | some g => !g.halted && !g.finished
  | none => false

/-- What an error does at its site, and its record: class, unit, ADDR, FLAGS, CTX and DETAIL are those that R411, R436, R449, R476, R478,
R482, R484, R492 and R498 give the site. A site that holds nothing has no error; a letter, a chunk, a solver and a compactor are recorded
by the operation that finds the error. The index of the versioned registers' unit is the model's choice (assumption 88). -/
def errSite (s : State) (e : ErrEvent) : State × Option ErrRec :=
  let mk := fun (u cls addr flags ctx detail : Nat) => some (⟨u, cls, addr, flags, ctx, detail, e.check⟩ : ErrRec)
  let x := e.ctx.toNat
  -- corrected, or set right by reading again: class 0x01
  let mend := fun (u addr flags ctx : Nat) (s' : State) => (s', mk u 1 addr flags ctx e.bits.toNat)
  -- corrected, or poisoned: class 0x02
  let hit := fun (u addr flags ctx : Nat) (s' : State) =>
    if e.fixed then mend u addr flags ctx s else (s', mk u 2 addr flags ctx 1)
  -- corrected, or found later
  let later := fun (u addr flags ctx : Nat) (s' : State) => if e.fixed then mend u addr flags ctx s else (s', none)
  let no : State × Option ErrRec := (s, none)
  match e.site with
  | .unit u => if unitExists u.toNat then mend u.toNat 0 0 x s else no
  | .link u => if isLink u.toNat then (s, mk u.toNat 5 0 0 0xFF e.bits.toNat) else no
  | .l1 core pa =>
    let ln := lineOf pa
    let sl := l1Slice s core ln
    (match l1Line? s sl ln with
     | some l => if !isOwnMem s pa then no
       else if l.pend &&& byteMask (32 * (pa % 128 / 32)) 32 == 0 then mend (unitCore core) pa 1 x (l1InvalWhere s ln (· == sl))
       else hit (unitCore core) pa 1 x (poisonL1 s core sl pa l)
     | none => no)
  | .agent ag pa =>
    let ln := lineOf pa
    let u := if ag < 2 then unitDie ag else unitH
    (match agLine? s ag ln with
     | some l => if 2 < ag || !isOwnMem s pa then no
       else if !l.st.dirty then mend u pa 1 x (evictLine s ag ln)
       else hit u pa 1 x (modAg s ag ln fun a => { a with line := a.line.poison (pa % 128 / 32) })
     | none => no)
  | .llc pa =>
    let ln := lineOf pa
    (match Tab.get? s.llc ln with
     | some l => if !isOwnMem s pa then no
       else if !l.dirty then mend (unitLlc (paMdie pa)) pa 1 x { s with llc := Tab.erase s.llc ln }
       else hit (unitLlc (paMdie pa)) pa 1 x { s with llc := Tab.set s.llc ln { l with line := l.line.poison (pa % 128 / 32) } }
     | none => no)
  | .hbm pa =>
    if !isOwnMem s pa || dieLost s (2 + paMdie pa) then no
    else hit (unitHbm (paMdie pa) (hbmChannel pa)) pa 1 x { s with mpsn := setInsert s.mpsn (lineOf pa * 4 + pa % 128 / 32) }
  | .icache core pa => if core < numCores then mend (unitCore core) pa 1 x s else no
  | .scratchpad tm o =>
    if (team? s tm).isNone then no
    else hit (unitCore (coreOf s tm)) 0 0 (ctxOf s tm) (modTeam s tm fun t => { t with spsn := setInsert t.spsn (o / 32) })
  | .constant core o =>
    if numCores ≤ core then no
    else hit (unitCore core) 0 0 ((getCore s core).ctx.getD 0xFF) (modCore s core fun c => { c with cpsn := setInsert c.cpsn (o / 32) })
  | .vreg t d =>
    if !Reg.holds ((thread? s t).bind fun th => getReg th d) then no
    else hit (unitCore (coreOf s t.team)) 0 0 (ctxOf s t.team) (modThread s t fun th => { th with regs := Tab.modify th.regs d poisonReg })
  | .greg tm gid n =>
    if !Reg.holds ((group? s tm gid).bind fun g => Tab.get? g.gregs n) then no
    else hit (unitCore (coreOf s tm)) 0 0 (ctxOf s tm) (modGroup s tm gid fun g => { g with gregs := Tab.modify g.gregs n poisonReg })
  | .latch t n =>
    if (thread? s t).isNone then no
    else hit (unitCore (coreOf s t.team)) 0 0 (ctxOf s t.team) (modThread s t fun th =>
      let bad := fun (l : Latch) => { l with x := { l.x with psn := true } }
      match n with
      | 0 => { th with lat0 := bad th.lat0 }
      | 1 => { th with lat1 := bad th.lat1 }
      | _ => { th with lat2 := bad th.lat2 })
  | .pigeon tm gid k =>
    if (group? s tm gid).isNone then no
    else hit (unitCore (coreOf s tm)) 0 0 (ctxOf s tm) (modGroup s tm gid fun g =>
      { g with ph := Tab.modify g.ph k fun l => failFirst (fun v => { v with psn := true }) l })
  | .fill core k => (match findAcc s core k with
    | some a => if a.dsts.isEmpty then no
      else hit (unitCore core) 0 0 (ctxOf s a.t.team) (fillAcc (dropAcc s core k) a 0 true)
    | none => no)
  | .matrix core k lane => (match (getCore s core).meng.all[k]? with
    | some j =>
      let mark := fun (i : MJob) => if i.id == j.id then { i with lost := setInsert i.lost lane } else i
      hit (unitCore core) 0 0 (ctxOf s j.team) (modMeng s core fun e =>
        { queue := e.queue.map mark, suspended := e.suspended.map mark, running := e.running.map mark, pipe := e.pipe.map mark })
    | none => no)
  | .deposit k => (match s.msgs[k]? with
    | some (.deposit src tm gid n tag _ claimed) =>
      hit (unitCore (coreOf s tm)) 0 0 (ctxOf s tm) { s with msgs := s.msgs.set k (.deposit src tm gid n tag ⟨0, true⟩ claimed) }
    | _ => no)
  | .letter q => (match getQueue? s q with
    | some y => if y.letters.isEmpty then no
      else later unitH (qdPa s q) 1 y.ctx
        (setQueue s q { y with letters := failFirst (fun l => { l with bad := true }) y.letters })
    | none => no)
  | .spilled q => (match getQueue? s q with
    | some y => if y.spseq.isEmpty then no else (match hubXlate s y.ctx (y.entryVa y.sphead) .read with
      | .ok pa _ => if isOwnMem s pa then later unitH (qdPa s q) 1 y.ctx (poisonAt s pa) else no
      | _ => no)
    | none => no)
  | .chunk q die cl => (match getQueue? s q with
    | some y => (match Tab.getD y.cluSpans cl [] ++ Tab.getD y.dieSpans die [] with
      | sp :: _ => later unitH (qdPa s q) 1 y.ctx (setQueue s q { y with badChunks := setInsert y.badChunks sp.lo })
      | [] => no)
    | none => no)
  | .block pa =>
    let b := pa % 2 ^ 39 / 256
    let u := unitHbm (paMdie pa) (hbmChannel pa)
    if !isOwnMem s pa || dieLost s (2 + paMdie pa) then no
    else if e.fixed then mend u pa 1 x s
    else ({ s with
      mem := memStore s.mem (256 * b) 256 0
      mpsn := (List.range 8).foldl (fun l i => setInsert l (8 * b + i)) s.mpsn
      ccode := Tab.set s.ccode b 0 }, mk u 2 pa 1 x 8)
  | .ownerBit tm page => (match team? s tm with
    | some t =>
      let u := unitCore (coreOf s tm)
      let gs := (List.range t.ngrp).filter (groupUp s tm)
      if 96 ≤ page then no
      else if e.fixed then mend u 0 0 (ctxOf s tm) s
      else (gs.foldl (fun s g => haltControl s tm g) (setOwner s tm page true), mk u 8 0 0 (ctxOf s tm) gs.length)
    | none => no)
  | .control tm gid =>
    let u := unitCore (coreOf s tm)
    if !groupUp s tm gid then no
    else if e.fixed then mend u 0 0 (ctxOf s tm) s
    else (haltControl s tm gid, mk u 8 0 0 (ctxOf s tm) 1)
  | .vsValue i => hit (unitHub 5) 0 0 x { s with vs := Tab.set s.vs i { vsOf s i with psn := true } }
  | .vsVersion i => hit (unitHub 5) 0 0 x { s with vs := Tab.set s.vs i { vsOf s i with version := 0, psn := true } }
  | .solver core => (match (getCore s core).solves with
    | j :: _ => later (unitCore core) 0 0 (ctxOf s j.t.team)
        (modCore s core fun c => { c with solves := failFirst (fun j => { j with failed := true }) c.solves })
    | [] => no)
  | .compactor core => (match (getCore s core).compacts with
    | j :: _ => later (unitCore core) 0 0 (ctxOf s j.team)
        (modCore s core fun c => { c with compacts := failFirst (fun j => { j with failed := true }) c.compacts })
    | [] => no)
  | .tlb core k => (match (getCore s core).tlb[k]? with
    | some en => mend (unitCore core) 0 0 en.ctx (modCore s core fun c => { c with tlb := c.tlb.eraseIdx k })
    | none => no)
  | .l2tlb die k => (match (Tab.getD s.l2tlb die [])[k]? with
    | some en => mend (unitDie die) 0 0 en.ctx { s with l2tlb := Tab.modify s.l2tlb die fun l => l.eraseIdx k }
    | none => no)
  | .filter ln =>
    if dieLost s (2 + lineMdie ln) then no
    else mend (unitLlc (lineMdie ln)) (s.hpkg * 2 ^ 40 + 128 * ln) 1 x { s with
      txns := s.txns ++ ((dirSet s ln).filter fun (l, _) => (txnOf s l).isNone).map fun (l, _) =>
        ⟨⟨l, 3, .evc, V3.zero⟩, dirHolders s l, 2, none, false⟩ }

/-- ERROR_EVENT (R419): the effect at the site; the event is counted and logged when the unit's cycle ends (R420). -/
def execErrorEvent (e : ErrEvent) (s : State) : Result :=
  if !isUp s then .next s
  else match errSite s e with
    | (s, some r) => .next { s with errs := s.errs ++ [r] }
    | (s, none) => .next s

/-- A lasting fault in the shared units of a compute die loses the die (R421). -/
def loseRetired (s : State) : State :=
  [0, 1].foldl (fun s d =>
    if s.retiring.contains (unitDie d) || s.retired.contains (unitDie d) then loseCompute s d else s) s

/-- FAULT_WINDOW_CLOSE (R419, R420). -/
def execFaultWindowClose (unit : BitVec 16) (s : State) : Result :=
  match Tab.get? s.counters unit.toNat with
  | none => .next s
  | some c => .next { s with counters := Tab.set s.counters unit.toNat (c.settle (unitCycle s unit.toNat)) }

/-- ROW_REMAP_COMPLETE (R419, R421): the row stands in a spare, or its page is given up, and the channel counts again. -/
def execRowRemapComplete (md channel : Nat) (s : State) : Result :=
  match s.remaps.find? fun r => r.1 == md && r.2.1 == channel with
  | none => .next s
  | some r =>
    let u := unitHbm md channel
    let n := Tab.getD s.spareRows u 0
    .next { s with
      remaps := s.remaps.erase r
      spareRows := Tab.set s.spareRows u (min spareMax (n + 1))
      counters := Tab.erase s.counters u }

end Sys2Proof.Machine
end

