-- ==== Sys2Proof/Machine/Dispatch.lean ====
section
/-! DEFINITION. One arm for each row of the opcode table: one direct call of its meaning. -/

namespace Sys2Proof.Machine

def exec (i : Instr) (s : State) : Host.Outcome State Fault Refusal :=
  match i with
  | .powerOnBoot step unit => Sys2Proof.Machine.execPowerOnBoot step unit s
  | .powerRemoved => Sys2Proof.Machine.execPowerRemoved s
  | .placePlan hcmd sigOk => Sys2Proof.Machine.execPlacePlan hcmd sigOk s
  | .preEmptContext hcmd => Sys2Proof.Machine.execPreEmptContext hcmd s
  | .killContext hcmd => Sys2Proof.Machine.execKillContext hcmd s
  | .readErrorLog hcmd => Sys2Proof.Machine.execReadErrorLog hcmd s
  | .setPowerProfile hcmd => Sys2Proof.Machine.execSetPowerProfile hcmd s
  | .attest hcmd => Sys2Proof.Machine.execAttest hcmd s
  | .hpkgWrite v => Sys2Proof.Machine.execHpkgWrite v s
  | .registerWrite off v => Sys2Proof.Machine.execRegisterWrite off v s
  | .qdtbaseWrite v => Sys2Proof.Machine.execQdtbaseWrite v s
  | .qsizeWrite v => Sys2Proof.Machine.execQsizeWrite v s
  | .queueEnable qctl => Sys2Proof.Machine.execQueueEnable qctl s
  | .queueDisable qctl => Sys2Proof.Machine.execQueueDisable qctl s
  | .queueDiscardDisable qctl => Sys2Proof.Machine.execQueueDiscardDisable qctl s
  | .qctlBadOp qctl => Sys2Proof.Machine.execQctlBadOp qctl s
  | .hostWindowPost q line data psn => Sys2Proof.Machine.execHostWindowPost q line data psn s
  | .spillRefill q => Sys2Proof.Machine.execSpillRefill q s
  | .spillRefillRetry q => Sys2Proof.Machine.execSpillRefillRetry q s
  | .distSplit q die => Sys2Proof.Machine.execDistSplit q die s
  | .clusterSteal die cluster q => Sys2Proof.Machine.execClusterSteal die cluster q s
  | .dieSteal die q => Sys2Proof.Machine.execDieSteal die q s
  | .contextGrant => Sys2Proof.Machine.execContextGrant s
  | .fairnessPreempt ctx => Sys2Proof.Machine.execFairnessPreempt ctx s
  | .teamAdmission ctx => Sys2Proof.Machine.execTeamAdmission ctx s
  | .pick core sub => Sys2Proof.Machine.execPick core sub s
  | .convergenceTimeout team gid => Sys2Proof.Machine.execConvergenceTimeout team gid s
  | .parkDue team => Sys2Proof.Machine.execParkDue team s
  | .saveComplete team => Sys2Proof.Machine.execSaveComplete team s
  | .restoreComplete team => Sys2Proof.Machine.execRestoreComplete team s
  | .waitListRetest team => Sys2Proof.Machine.execWaitListRetest team s
  | .pauseExpire t => Sys2Proof.Machine.execPauseExpire t s
  | .joinLimitExpire t => Sys2Proof.Machine.execJoinLimitExpire t s
  | .yieldExpire t => Sys2Proof.Machine.execYieldExpire t s
  | .engineStopAck team eng => Sys2Proof.Machine.execEngineStopAck team eng s
  | .stopTimeout team eng => Sys2Proof.Machine.execStopTimeout team eng s
  | .matrixStart core => Sys2Proof.Machine.execMatrixStart core s
  | .matrixComplete core => Sys2Proof.Machine.execMatrixComplete core s
  | .matrixKstepArbitrate core => Sys2Proof.Machine.execMatrixKstepArbitrate core s
  | .loadFill core k => Sys2Proof.Machine.execLoadFill core k s
  | .poolObtain team gid k => Sys2Proof.Machine.execPoolObtain team gid k s
  | .storeApplyL2 core k => Sys2Proof.Machine.execStoreApplyL2 core k s
  | .homeRds md k => Sys2Proof.Machine.execHomeRds md k s
  | .homeRdu md k => Sys2Proof.Machine.execHomeRdu md k s
  | .homeUpg md k => Sys2Proof.Machine.execHomeUpg md k s
  | .homeWbd md k => Sys2Proof.Machine.execHomeWbd md k s
  | .homeEvc md k => Sys2Proof.Machine.execHomeEvc md k s
  | .snoopSnps md line agent => Sys2Proof.Machine.execSnoopSnps md line agent s
  | .snoopSnpi md line agent => Sys2Proof.Machine.execSnoopSnpi md line agent s
  | .backInv md line agent => Sys2Proof.Machine.execBackInv md line agent s
  | .writeApplyHome md k => Sys2Proof.Machine.execWriteApplyHome md k s
  | .settleBroadcast agent => Sys2Proof.Machine.execSettleBroadcast agent s
  | .atomicHomeExec md k => Sys2Proof.Machine.execAtomicHomeExec md k s
  | .llcEvict md line => Sys2Proof.Machine.execLlcEvict md line s
  | .hostMemWrite pa data psn => Sys2Proof.Machine.execHostMemWrite pa data psn s
  | .hostMemRead pa bytes => Sys2Proof.Machine.execHostMemRead pa bytes s
  | .remoteRequestApply src tag op => Sys2Proof.Machine.execRemoteRequestApply src tag op s
  | .remoteAck k value psn => Sys2Proof.Machine.execRemoteAck k value psn s
  | .remoteRequestTimeout k => Sys2Proof.Machine.execRemoteRequestTimeout k s
  | .flitReplay port => Sys2Proof.Machine.execFlitReplay port s
  | .planeDown port => Sys2Proof.Machine.execPlaneDown port s
  | .laneFail unit lane => Sys2Proof.Machine.execLaneFail unit lane s
  | .waitvReread t => Sys2Proof.Machine.execWaitvReread t s
  | .linkRequest k => Sys2Proof.Machine.execLinkRequest k s
  | .vinvalComplete k => Sys2Proof.Machine.execVinvalComplete k s
  | .shootdownPage tictl => Sys2Proof.Machine.execShootdownPage tictl s
  | .shootdownContext tictl => Sys2Proof.Machine.execShootdownContext tictl s
  | .shootdownAll tictl => Sys2Proof.Machine.execShootdownAll tictl s
  | .shootdownComplete => Sys2Proof.Machine.execShootdownComplete s
  | .shootdownAckTimeout core => Sys2Proof.Machine.execShootdownAckTimeout core s
  | .rdepAccept k => Sys2Proof.Machine.execRdepAccept k s
  | .barxArrive k => Sys2Proof.Machine.execBarxArrive k s
  | .barinitApply k => Sys2Proof.Machine.execBarinitApply k s
  | .engineComplete team eng => Sys2Proof.Machine.execEngineComplete team eng s
  | .engineRetry team eng => Sys2Proof.Machine.execEngineRetry team eng s
  | .engineStopFault team eng => Sys2Proof.Machine.execEngineStopFault team eng s
  | .parcelMarker team eng => Sys2Proof.Machine.execParcelMarker team eng s
  | .commForm team eng peer => Sys2Proof.Machine.execCommForm team eng peer s
  | .relayChunkStep => Sys2Proof.Machine.execRelayChunkStep s
  | .relayCollectiveComplete team eng => Sys2Proof.Machine.execRelayCollectiveComplete team eng s
  | .relayLeave slot rank => Sys2Proof.Machine.execRelayLeave slot rank s
  | .sortPass team eng => Sys2Proof.Machine.execSortPass team eng s
  | .travBatch team eng => Sys2Proof.Machine.execTravBatch team eng s
  | .solveComplete core => Sys2Proof.Machine.execSolveComplete core s
  | .compactFill core => Sys2Proof.Machine.execCompactFill core s
  | .postmasterInterval die excess moduleExcess => Sys2Proof.Machine.execPostmasterInterval die excess moduleExcess s
  | .errorEvent e => Sys2Proof.Machine.execErrorEvent e s
  | .faultWindowClose unit => Sys2Proof.Machine.execFaultWindowClose unit s
  | .dieProbe die answered => Sys2Proof.Machine.execDieProbe die answered s
  | .hubLost => Sys2Proof.Machine.execHubLost s
  | .shadowCommit t => Sys2Proof.Machine.execShadowCommit t s
  | .iadd x => Sys2Proof.Machine.execIadd x s
  | .isub x => Sys2Proof.Machine.execIsub x s
  | .imul x => Sys2Proof.Machine.execImul x s
  | .imad x => Sys2Proof.Machine.execImad x s
  | .idiv x => Sys2Proof.Machine.execIdiv x s
  | .irem x => Sys2Proof.Machine.execIrem x s
  | .ineg x => Sys2Proof.Machine.execIneg x s
  | .iabs x => Sys2Proof.Machine.execIabs x s
  | .imin x => Sys2Proof.Machine.execImin x s
  | .imax x => Sys2Proof.Machine.execImax x s
  | .lea x => Sys2Proof.Machine.execLea x s
  | .cvti x => Sys2Proof.Machine.execCvti x s
  | .idp4 x => Sys2Proof.Machine.execIdp4 x s
  | .and x => Sys2Proof.Machine.execAnd x s
  | .or x => Sys2Proof.Machine.execOr x s
  | .xor x => Sys2Proof.Machine.execXor x s
  | .not x => Sys2Proof.Machine.execNot x s
  | .bmix x => Sys2Proof.Machine.execBmix x s
  | .shl x => Sys2Proof.Machine.execShl x s
  | .shr x => Sys2Proof.Machine.execShr x s
  | .rot x => Sys2Proof.Machine.execRot x s
  | .shf x => Sys2Proof.Machine.execShf x s
  | .bfe x => Sys2Proof.Machine.execBfe x s
  | .bfi x => Sys2Proof.Machine.execBfi x s
  | .popc x => Sys2Proof.Machine.execPopc x s
  | .clz x => Sys2Proof.Machine.execClz x s
  | .brev x => Sys2Proof.Machine.execBrev x s
  | .ffs x => Sys2Proof.Machine.execFfs x s
  | .bswz x => Sys2Proof.Machine.execBswz x s
  | .mov x => Sys2Proof.Machine.execMov x s
  | .movi x => Sys2Proof.Machine.execMovi x s
  | .movx x => Sys2Proof.Machine.execMovx x s
  | .movxw x => Sys2Proof.Machine.execMovxw x s
  | .icmp x => Sys2Proof.Machine.execIcmp x s
  | .fcmp x => Sys2Proof.Machine.execFcmp x s
  | .tcmp x => Sys2Proof.Machine.execTcmp x s
  | .sel x => Sys2Proof.Machine.execSel x s
  | .plop x => Sys2Proof.Machine.execPlop x s
  | .pmov x => Sys2Proof.Machine.execPmov x s
  | .movs x => Sys2Proof.Machine.execMovs x s
  | .fclass x => Sys2Proof.Machine.execFclass x s
  | .bra x => Sys2Proof.Machine.execBra x s
  | .brx x => Sys2Proof.Machine.execBrx x s
  | .call x => Sys2Proof.Machine.execCall x s
  | .callx x => Sys2Proof.Machine.execCallx x s
  | .ret x => Sys2Proof.Machine.execRet x s
  | .exit x => Sys2Proof.Machine.execExit x s
  | .yield x => Sys2Proof.Machine.execYield x s
  | .pause x => Sys2Proof.Machine.execPause x s
  | .nop x => Sys2Proof.Machine.execNop x s
  | .join x => Sys2Proof.Machine.execJoin x s
  | .trap x => Sys2Proof.Machine.execTrap x s
  | .rte x => Sys2Proof.Machine.execRte x s
  | .brk x => Sys2Proof.Machine.execBrk x s
  | .sysr x => Sys2Proof.Machine.execSysr x s
  | .sysw x => Sys2Proof.Machine.execSysw x s
  | .stat x => Sys2Proof.Machine.execStat x s
  | .fadd x => Sys2Proof.Machine.execFadd x s
  | .fsub x => Sys2Proof.Machine.execFsub x s
  | .fmul x => Sys2Proof.Machine.execFmul x s
  | .ffma x => Sys2Proof.Machine.execFfma x s
  | .fmin x => Sys2Proof.Machine.execFmin x s
  | .fmax x => Sys2Proof.Machine.execFmax x s
  | .fdiv x => Sys2Proof.Machine.execFdiv x s
  | .fsqrt x => Sys2Proof.Machine.execFsqrt x s
  | .frcp x => Sys2Proof.Machine.execFrcp x s
  | .frsq x => Sys2Proof.Machine.execFrsq x s
  | .frnd x => Sys2Proof.Machine.execFrnd x s
  | .fscale x => Sys2Proof.Machine.execFscale x s
  | .fexp2 x => Sys2Proof.Machine.execFexp2 x s
  | .flog2 x => Sys2Proof.Machine.execFlog2 x s
  | .fsin x => Sys2Proof.Machine.execFsin x s
  | .fcos x => Sys2Proof.Machine.execFcos x s
  | .ftanh x => Sys2Proof.Machine.execFtanh x s
  | .fsigm x => Sys2Proof.Machine.execFsigm x s
  | .cvt x => Sys2Proof.Machine.execCvt x s
  | .cvtp x => Sys2Proof.Machine.execCvtp x s
  | .tmin x => Sys2Proof.Machine.execTmin x s
  | .tmax x => Sys2Proof.Machine.execTmax x s
  | .tneg x => Sys2Proof.Machine.execTneg x s
  | .tabs x => Sys2Proof.Machine.execTabs x s
  | .mvt x => Sys2Proof.Machine.execMvt x s
  | .nzcnt x => Sys2Proof.Machine.execNzcnt x s
  | .ld x => Sys2Proof.Machine.execLd x s
  | .st x => Sys2Proof.Machine.execSt x s
  | .ldv x => Sys2Proof.Machine.execLdv x s
  | .stv x => Sys2Proof.Machine.execStv x s
  | .pref x => Sys2Proof.Machine.execPref x s
  | .flush x => Sys2Proof.Machine.execFlush x s
  | .atom x => Sys2Proof.Machine.execAtom x s
  | .red x => Sys2Proof.Machine.execRed x s
  | .atomv x => Sys2Proof.Machine.execAtomv x s
  | .fence x => Sys2Proof.Machine.execFence x s
  | .bar x => Sys2Proof.Machine.execBar x s
  | .barx x => Sys2Proof.Machine.execBarx x s
  | .barinit x => Sys2Proof.Machine.execBarinit x s
  | .waitv x => Sys2Proof.Machine.execWaitv x s
  | .seminc x => Sys2Proof.Machine.execSeminc x s
  | .semwait x => Sys2Proof.Machine.execSemwait x s
  | .semset x => Sys2Proof.Machine.execSemset x s
  | .own x => Sys2Proof.Machine.execOwn x s
  | .ownwait x => Sys2Proof.Machine.execOwnwait x s
  | .vread x => Sys2Proof.Machine.execVread x s
  | .vwrite x => Sys2Proof.Machine.execVwrite x s
  | .vinval x => Sys2Proof.Machine.execVinval x s
  | .lpost x => Sys2Proof.Machine.execLpost x s
  | .ltake x => Sys2Proof.Machine.execLtake x s
  | .ldone x => Sys2Proof.Machine.execLdone x s
  | .rdep x => Sys2Proof.Machine.execRdep x s
  | .arrwait x => Sys2Proof.Machine.execArrwait x s
  | .vote x => Sys2Proof.Machine.execVote x s
  | .matchg x => Sys2Proof.Machine.execMatchg x s
  | .shfl x => Sys2Proof.Machine.execShfl x s
  | .bfly x => Sys2Proof.Machine.execBfly x s
  | .redg x => Sys2Proof.Machine.execRedg x s
  | .scang x => Sys2Proof.Machine.execScang x s
  | .elect x => Sys2Proof.Machine.execElect x s
  | .nzmap x => Sys2Proof.Machine.execNzmap x s
  | .kop x => Sys2Proof.Machine.execKop x s
  | .cvtb x => Sys2Proof.Machine.execCvtb x s
  | .mma x => Sys2Proof.Machine.execMma x s
  | .mmaz x => Sys2Proof.Machine.execMmaz x s
  | .ldm x => Sys2Proof.Machine.execLdm x s
  | .stm x => Sys2Proof.Machine.execStm x s
  | .cpy x => Sys2Proof.Machine.execCpy x s
  | .cpyv x => Sys2Proof.Machine.execCpyv x s
  | .gath x => Sys2Proof.Machine.execGath x s
  | .scat x => Sys2Proof.Machine.execScat x s
  | .idem x => Sys2Proof.Machine.execIdem x s
  | .idemend x => Sys2Proof.Machine.execIdemend x s
  | .ared x => Sys2Proof.Machine.execAred x s
  | .rscat x => Sys2Proof.Machine.execRscat x s
  | .agath x => Sys2Proof.Machine.execAgath x s
  | .bcast x => Sys2Proof.Machine.execBcast x s
  | .cbar x => Sys2Proof.Machine.execCbar x s
  | .sort x => Sys2Proof.Machine.execSort x s
  | .trav x => Sys2Proof.Machine.execTrav x s
  | .solve x => Sys2Proof.Machine.execSolve x s
  | .solveb x => Sys2Proof.Machine.execSolveb x s
  | .compact x => Sys2Proof.Machine.execCompact x s
  | .rnd x => Sys2Proof.Machine.execRnd x s
  | .rndf x => Sys2Proof.Machine.execRndf x s
  | .epis x => Sys2Proof.Machine.execEpis x s
  | .hcmdUnknownOp hcmd => Sys2Proof.Machine.execHcmdUnknownOp hcmd s
  | .hubCommandComplete => Sys2Proof.Machine.execHubCommandComplete s
  | .queueCommandComplete => Sys2Proof.Machine.execQueueCommandComplete s
  | .tictlBadOp tictl => Sys2Proof.Machine.execTictlBadOp tictl s
  | .rowRemapComplete md channel => Sys2Proof.Machine.execRowRemapComplete md channel s

end Sys2Proof.Machine
end

