-- ==== Sys2Proof/Machine/Due.lean ====
section
/-! DEFINITION. Which internal event is due: the order in which one step after another lets the machine's agents act when no input
stands in the agenda (assumption 3), and the passing of a cycle. -/

namespace Sys2Proof.Machine

/-- Events of the core's clocks: shadows that end, pauses, JOIN limits and yields that expire. -/
def dueThreads (s : State) : List Instr :=
  s.threads.flatMap fun (k, th) =>
    let t : TRef := ⟨k / 1024, k / 32 % 32, k % 32⟩
    (match th.unres with
     | some u => if u.due ≤ s.now then [.shadowCommit t] else []
     | none => []) ++
    (match th.st with
     | .paused lim => if lim ≤ s.now && th.unres.isNone then [.pauseExpire t] else []
     | .blocked (.join lim) => if lim ≤ s.now then [.joinLimitExpire t] else []
     | _ => []) ++
    (match th.yld with
     | some u => if u ≤ s.now then [.yieldExpire t] else []
     | none => [])

/-- The accesses in flight at the cores. -/
def dueAccesses (s : State) : List Instr :=
  s.cores.flatMap fun (c, k) => (k.acc.filter fun a => a.due ≤ s.now).map fun a => match a.kind with
    | .store .. | .flush => .storeApplyL2 c a.id
    | _ => .loadFill c a.id

/-- What stands at the homes: requests, snoops and writes that have arrived (R173-R177, R214). -/
def dueHomes (s : State) : List Instr :=
  (s.homeQ.zipIdx.map fun (r, k) =>
    let md := lineMdie r.line
    match r.kind with
    | .rds => .homeRds md k
    | .rdu => .homeRdu md k
    | .upg => .homeUpg md k
    | .wbd .. => .homeWbd md k
    | .evc => .homeEvc md k
    | .atomic .. => .atomicHomeExec md k) ++
  (s.txns.flatMap fun x => x.await.map fun a =>
    let md := lineMdie x.req.line
    match x.snoop with
    | 0 => .snoopSnps md x.req.line a
    | 1 | 3 => .snoopSnpi md x.req.line a
    | _ => .backInv md x.req.line a) ++
  (s.pwrites.zipIdx.map fun (w, k) => .writeApplyHome (lineMdie w.line) k) ++
  ([0, 1, 2].filterMap fun d => if settleTold (resettle s d) d then none else some (.settleBroadcast d)) ++
  match llcOver s with
  | some ln => [.llcEvict (lineMdie ln) ln]
  | none => []

/-- Requests to units of the package and messages between cores. -/
def dueUnits (s : State) : List Instr :=
  ((List.range s.rreqs.length).map .remoteRequestTimeout) ++
  ((List.range s.links.length).map .linkRequest) ++
  ((List.range s.vinvs.length).map .vinvalComplete) ++
  (s.msgs.zipIdx.map fun (m, k) => match m with
    | .deposit .. => .rdepAccept k
    | .barx .. => .barxArrive k
    | .barinit .. => .barinitApply k) ++
  s.threads.filterMap fun (k, th) => match th.st with
    | .waiting (.waitv ..) => some (.waitvReread ⟨k / 1024, k / 32 % 32, k % 32⟩)
    | _ => none

/-- The order in which queues are served: higher PRIO first, queues of equal PRIO in rotation by queue number, from the one after the
last served (R85). -/
def queueOrder (s : State) (a b : Nat × Queue) : Bool :=
  let past := fun (x : Nat × Queue) => match Tab.get? s.qturn x.2.prio with
    | some l => decide (l < x.1)
    | none => true
  b.2.prio < a.2.prio || (b.2.prio == a.2.prio &&
    ((past a && !past b) || (past a == past b && a.1 ≤ b.1)))

/-- The work of the queues, in the order in which they are served. -/
def dueQueues (s : State) : List Instr :=
  ((sortBy (queueOrder s) s.queues).flatMap fun (q, x) =>
    (if x.waits.isEmpty then [] else [.spillRefill q]) ++
    (if x.spseq.isEmpty then [] else [.spillRefillRetry q]) ++
    (if !x.dist || (x.range.isNone && x.letters.isEmpty) then []
     else [.distSplit q none, .distSplit q (some 0), .distSplit q (some 1)] ++
       ((List.range 48).map fun c => .clusterSteal (c / 24) c q) ++ [.dieSteal 0 q, .dieSteal 1 q])) ++
  if s.qrun.isSome then [.queueCommandComplete] else []

/-- The matrix engines, solvers and compactors of the cores. -/
def dueCores (s : State) : List Instr :=
  s.cores.flatMap fun (c, k) =>
    (if k.meng == ⟨[], none, none, []⟩ then [] else [.matrixComplete c, .matrixKstepArbitrate c, .matrixStart c]) ++
    (if k.solves.isEmpty then [] else [.solveComplete c]) ++
    (if k.compacts.isEmpty then [] else [.compactFill c])

/-- The engines; and the ranks of communicators that are lost with a fenced package (R496). -/
def dueEngines (s : State) : List Instr :=
  (s.teams.flatMap fun (t, x) => x.engs.flatMap fun e =>
    (match e.cls with
     | 2 => [.parcelMarker t e.id]
     | 3 => [.sortPass t e.id]
     | 4 => [.travBatch t e.id]
     | 5 => [.commForm t e.id none, .relayCollectiveComplete t e.id]
     | _ => []) ++
    [.engineComplete t e.id, .engineStopFault t e.id, .engineStopAck t e.id, .stopTimeout t e.id]) ++
  (s.slots.flatMap fun (k, x) => ((List.range x.nrank).filter fun r =>
    s.fenced.contains (x.pkgs.getD r 0) && !x.lost.contains r && x.rank != r).map fun r => .relayLeave k r) ++
  if s.slots.isEmpty then [] else [.relayChunkStep]

/-- The scheduling of teams and contexts: R60, R62, R65, R66, R90, R91, R101, R102. -/
def dueSchedule (s : State) : List Instr :=
  (s.groups.filterMap fun (k, g) => match g.conv, gridOf s (k / 32) with
    | some c, some r => if c + ctimeOf r < s.now then some (.convergenceTimeout (k / 32) (k % 32)) else none
    | _, _ => none) ++
  (s.teams.filterMap fun (k, t) => match t.st with
    | .resident => if parkable s k then some (.parkDue k) else none
    | .saving .. => some (.saveComplete k)
    | .restoring => some (.restoreComplete k)
    | .parked | .preempted _ => if t.ready then none else some (.waitListRetest k)
    | _ => none) ++
  (s.ctxs.filterMap fun (k, _) => if (candsOf s k).isEmpty then none else some (.teamAdmission k)) ++
  (if (claimants s).isEmpty then [] else [.contextGrant]) ++
  s.ctxs.map fun (k, _) => .fairnessPreempt k

/-- The hub and the collectors. A die whose probe is due answers, where no input has said otherwise (assumption 79). -/
def dueHub (s : State) : List Instr :=
  (if s.hubRun.isSome then [.hubCommandComplete] else []) ++
  (if s.shoot.isSome then [.shootdownComplete] else []) ++
  (if s.shoot.isNone && s.vinvs.isEmpty then [] else s.cores.map fun (c, _) => .shootdownAckTimeout c) ++
  (s.counters.filterMap fun (u, c) => match c.closes with
    | some t => if t ≤ unitCycle s u then some (.faultWindowClose (BitVec.ofNat 16 u)) else none
    | none => none) ++
  (s.remaps.map fun (d, c, _) => .rowRemapComplete d c) ++
  (((List.range 10).filter (probeDue s)).map fun d => .dieProbe d true) ++
  ((List.range 11).filter (intervalDue s)).map fun d =>
    let (excess, mod) := Config.powerDrawn d (powerOf s d).interval
    .postmasterInterval d excess mod

/-- Does the event change anything, or stop? -/
def acts (s : State) (e : Instr) : Bool :=
  match exec e s with
  | .next s' => s' != s
  | _ => true

/-- The first internal event that is due: of each kind in turn, the first that acts. -/
def dueEvent (s : State) : Option Instr :=
  ((dueThreads s).find? (acts s)).orElse fun _ =>
  ((dueAccesses s).find? (acts s)).orElse fun _ =>
  ((dueHomes s).find? (acts s)).orElse fun _ =>
  ((dueUnits s).find? (acts s)).orElse fun _ =>
  ((dueQueues s).find? (acts s)).orElse fun _ =>
  ((dueCores s).find? (acts s)).orElse fun _ =>
  ((dueEngines s).find? (acts s)).orElse fun _ =>
  ((dueSchedule s).find? (acts s)).orElse fun _ =>
  (dueHub s).find? (acts s)

/-- The subcores that pick in a cycle: four for each core that holds a team. -/
def pickers (s : State) : List (Nat × Nat) :=
  let cores := s.teams.foldl (fun l (_, t) => if t.onCore then setInsert l t.core else l) []
  cores.flatMap fun c => [(c, 0), (c, 1), (c, 2), (c, 3)]

/-- One arithmetic cycle passes. -/
def tick (s : State) : State :=
  let s := (s.teams.map (·.1)).foldl barTick (applySysw s)
  let s := errSettle (loseRetired (relayRefresh (saveSettleAll (retryEntries (depositTick s)))))
  { s with now := s.now + 1, todo := pickers s }

end Sys2Proof.Machine
end

