-- ==== Sys2Proof/Machine/Step.lean ====
section
/-! DEFINITION. One step of the package: an input of the agenda, else an internal event that is due, else the next pick of the
cycle with the instruction it issues, else the passing of a cycle (assumption 3). -/

namespace Sys2Proof.Machine

/-- Run one row of the table; the instruction that a pick issues runs in the same step. -/
def run (e : Instr) (s : State) : Host.Outcome State Fault Refusal :=
  match exec e s with
  | .next s' =>
    (match s'.cur with
     | some iss => exec iss.ins s'
     | none => .next s')
  | r => r

def step (s : State) : Host.Outcome State Fault Refusal :=
  match s.agenda with
  | e :: rest => run e { s with agenda := rest }
  | [] =>
    match dueEvent s with
    | some e => run e s
    | none =>
      match s.todo with
      | (c, u) :: rest => run (.pick c u) { s with todo := rest }
      | [] => .next (tick s)

/-- The state whose next step issues the instruction with these bits (assumption 2). -/
def State.withFetchWord (s : State) (nbits w : Nat) : State := placeWord s (w % 2 ^ nbits)

end Sys2Proof.Machine
end

