-- ==== Sys2Proof/Safety.lean ====
section
/-! DEFINITION. The terms in which claims about the machine are stated: the invariant of a state, what it means that one thread
alone, or a whole group, issues an instruction that nothing holds back, and what a next state holds of a thread. -/

namespace Sys2Proof.Machine

/-- A step is safe when it neither faults nor is refused. -/
def SafeStep (s : State) : Prop := ∃ t, step s = .next t

/-- What every state that a run reaches has in common: HBM in its canonical form, and the registers whose illegal values are
refused at legal ones: HPKG (R19), QSIZE and QDTBASE (R79), the error log within its 8,192 records (R412). -/
structure Inv (s : State) : Prop where
  mem : Memory.wf s.mem = true
  hpkg : s.hpkg < 192
  qsize : s.qsize.toNat ≤ 32
  qdtbase : s.qdtbase.toNat % 2 ^ 18 = 0 ∧ s.qdtbase.toNat < 2 ^ 48
  log : s.log.length ≤ logCap

/-- A state as the lanes of its issue see it. -/
def State.lanesSee (s : State) : State := { s with cur := none }

/-- Is a register among the sources in the backing store? -/
def storedSrc (th : Thread) (o : OpInfo) : Bool :=
  o.srcs.any fun x => match x.op with
    | .src ⟨_, _, .v k⟩ => (List.range (x.w / 32)).any fun j => getReg th (th.wbase + k.toNat + j) == some .stored
    | _ => false

/-- Thread `t` alone issues `i`, its guard is true, its sources deliver `vals`, and nothing holds it back: no shadow, nothing kept
from an issue that was held back before, no empty register, no register index out of range, the pool entries it needs free and its sources in the pool. -/
structure Alone (s : State) (i : Instr) (o : OpInfo) (t : TRef) (th : Thread) (vals : List (List Val)) (void : Bool)
    (pops : Pops) : Prop where
  info : infoOf i = some o
  cur : ∃ core sub pc word, s.cur = some ⟨core, sub, pc, word, i, [t]⟩
  thread : thread? s t = some th
  able : th.canIssue = true
  clear : th.unres = none
  fresh : th.win = none
  guard : guardOf th o.ctl = true
  room : entriesNeeded th (nowInfo t th o) ≤ poolFree s (coreOf s t.team)
  inPool : storedSrc th o = false
  unblocked : blockOf s.lanesSee t th o = none
  legal : operandExc s.lanesSee t th o = none
  reads : readSrcs s.lanesSee t th [] o.srcs = (vals, void, pops)

/-- Thread `t` alone issues `i`, and its guard is false. -/
structure GuardedOff (s : State) (i : Instr) (o : OpInfo) (t : TRef) (th : Thread) : Prop where
  info : infoOf i = some o
  cur : ∃ core sub pc word, s.cur = some ⟨core, sub, pc, word, i, [t]⟩
  thread : thread? s t = some th
  able : th.canIssue = true
  clear : th.unres = none
  guard : guardOf th o.ctl = false

/-- Instructions whose threads act each for itself: all but the group collectives (R330) and COMPACT (R381). -/
def perThread : Instr → Bool
  | .vote _ | .matchg _ | .elect _ | .shfl _ | .bfly _ | .redg _ | .scang _ | .kop _ | .nzmap _ | .cvtb _ | .mma _ | .mmaz _ | .ldm _
  | .stm _ | .compact _ => false
  | _ => true

/-- The state after an issue whose one thread passes with a false guard: last-use releases and the next instruction (R111). -/
def offNext (s : State) (t : TRef) (o : OpInfo) : State := advance (afterReads s.lanesSee t o false [] [] 0) t o.ctl none

/-- The state after the reads of a lane: pops, last-use releases, latch uses, a hold, and the sticky bits of the reads. -/
def readState (s : State) (t : TRef) (o : OpInfo) (vals : List (List Val)) (void : Bool) (pops : Pops) : State :=
  afterReads s.lanesSee t o true vals pops (readFlags vals void)

/-- What a lane works from. -/
def laneOf (s : State) (t : TRef) (th : Thread) (vals : List (List Val)) : LaneIn :=
  ⟨t, th, vals, pairLanes s.lanesSee t th.draws⟩

/-- The state after an instruction with effect `e` on thread `t`: its reads, its writes, then its next instruction. -/
def laneNext (s : State) (t : TRef) (o : OpInfo) (vals : List (List Val)) (void : Bool) (pops : Pops) (e : LaneEff) : State :=
  advance (applyEff (readState s t o vals void pops) t true e) t o.ctl e.pc

/-- Nothing but threads and groups differs: every byte of memory, every cache, team, core and hub register is the same. -/
def SameOutside (s s' : State) : Prop := s' = { s with threads := s'.threads, groups := s'.groups }

/-- Does reading with these sources release register `d` of the thread (R108, R111)? -/
def releasedBy (th : Thread) (o : OpInfo) (d : Nat) : Bool :=
  o.srcs.any fun x => match x.op with
    | .src ⟨true, _, .v k⟩ => th.wbase + k.toNat ≤ d && d < th.wbase + k.toNat + x.w / 32
    | _ => false

/-- No register that an instruction with these operands releases awaits a fill: its thread has read them. -/
def HasRead (th : Thread) (o : OpInfo) : Prop := ∀ d q, releasedBy th o d = true → getReg th d ≠ some (.empty q)

/-- Is register `d` of the thread among the writes of an effect? -/
def writtenBy (th : Thread) (e : LaneEff) (d : Nat) : Bool :=
  e.writes.any fun w => match w.1 with
    | .v k => th.wbase + k.toNat ≤ d && d < th.wbase + k.toNat + w.2.length
    | _ => false

/-- Does one of the sources carry the last-use mark on a g register (R109)? -/
def OpInfo.lastUseG (o : OpInfo) : Bool :=
  o.srcs.any fun x => match x.op with
    | .src ⟨true, _, .g _⟩ => true
    | _ => false

/-- Does one of the sources carry the last-use mark on g register `n`? -/
def OpInfo.lastUseOf (o : OpInfo) (n : Nat) : Bool :=
  o.srcs.any fun x => match x.op with
    | .src ⟨true, _, .g k⟩ => k.toNat ≤ n && n < k.toNat + x.w / 32
    | _ => false

/-- Does an effect write g register `n`, or push to pigeonhole `j`? -/
def LaneEff.namesG (e : LaneEff) (n : Nat) : Bool := e.writes.any fun w => match w.1 with
  | .g k => k.toNat ≤ n && n < k.toNat + w.2.length
  | _ => false

def LaneEff.namesQ (e : LaneEff) (j : Nat) : Bool := e.writes.any fun w => match w.1 with
  | .q k => k.toNat == j
  | _ => false

/-- The field number that a hold names, and whether a source is a register specifier (R123, R240). -/
def holdNum : HoldField → Nat
  | .a => 0
  | .b => 1
  | .c => 2

def SrcOp.isReg (x : SrcOp) : Bool := match x.op with
  | .src _ => true
  | .imm32 _ => false

/-- The issue of `i` by thread `t` alone answers the next state of one effect, of which `P` holds. -/
def Does (s : State) (i : Instr) (o : OpInfo) (t : TRef) (vals : List (List Val)) (void : Bool) (pops : Pops)
    (P : LaneEff → Prop) : Prop :=
  ∃ e, exec i s = .next (laneNext s t o vals void pops e) ∧ P e

/-- A 32-bit operand. -/
def w1 (a : W32) (p : Bool) : List Val := [⟨a, p⟩]

/-- A 32-bit result. -/
def LaneEff.writes1 (e : LaneEff) (d : Spec) (a : W32) (p : Bool) : Prop := e.writes = [(d, [⟨a, p⟩])]

/-- The 32 threads of a group issue collective `i` together and nothing holds one of them back. -/
structure Together (s : State) (i : Instr) (o : OpInfo) (tm gid : Nat) : Prop where
  info : infoNow s.lanesSee tm gid i = some o
  cur : ∃ core sub pc word, s.cur = some ⟨core, sub, pc, word, i, lanesOf tm gid⟩
  prepared : prepare s.lanesSee o (lanesOf tm gid) = (s.lanesSee, [], [])
  ready : collReady s.lanesSee o (lanesOf tm gid) = true
  legal : ∀ t ∈ lanesOf tm gid, ∀ th, thread? s t = some th → operandExc s.lanesSee t th o = none

/-- The lanes of that issue with what they read. -/
def lanesRead (s : State) (o : OpInfo) (tm gid : Nat) : List CLane := collLanes s.lanesSee o (lanesOf tm gid)

/-- The state after the collective: every lane's reads, what it does to the group, the writes of G, the next instruction. -/
def collNext (s : State) (o : OpInfo) (tm gid : Nat) (r : CollRes) : State :=
  collWrites (r.grp (collReads s.lanesSee o (lanesRead s o tm gid))) o (lanesRead s o tm gid) r.effs

/-- Does a collective complete: no fault, no trap, no unit wanting? -/
def CollRes.completes (s : State) (tm : Nat) (r : CollRes) : Prop :=
  r.stop = none ∧ r.busy = false ∧ r.excs = [] ∧ ∀ x ∈ r.effs, arithTrap (tenOf s tm) x.2 = none

/-- Is register `x` of the thread among `n` registers that `d` names? -/
def claimed (th : Thread) (d : Spec) (n x : Nat) : Bool := match d with
  | .v k => th.wbase + k.toNat ≤ x && x < th.wbase + k.toNat + n
  | _ => false

/-- The frame of an instruction that names `n` registers by `d` and the predicates `ps`: the window, the frame size and the trap
depth of its thread stand, so does every other predicate, and every other v register, or it is void by a last use. -/
def Keeps (th : Thread) (d : Spec) (n : Nat) (ps : List (BitVec 3)) (th' : Thread) : Prop :=
  th'.wbase = th.wbase ∧ th'.nregs = th.nregs ∧ th'.tdepth = th.tdepth ∧ (∀ p, p ∉ ps → predOf th' p = predOf th p) ∧
  ∀ x, claimed th d n x = false → getReg th' x = getReg th x ∨ getReg th' x = none

/-- Does the thread exist with a true guard? -/
def guardTrue (s : State) (c : Ctl) (t : TRef) : Bool :=
  match thread? s t with
  | some th => guardOf th c
  | none => false

/-- The thread stands at its next instruction and may issue it. -/
def GoesOn (s' : State) (t : TRef) (th : Thread) (P : Thread → Prop) : Prop :=
  ∃ th', thread? s' t = some th' ∧ th'.pc = th.next ∧ th'.st = .eligible ∧ P th'

/-- The thread waits at its instruction, and has written nothing. -/
def WaitsAt (s' : State) (t : TRef) (th : Thread) (w : Wait) : Prop :=
  ∃ th', thread? s' t = some th' ∧ th'.pc = th.pc ∧ th'.st = .waiting w ∧ Keeps th .zero 0 [] th'

/-- The v registers that `d` names in the window of `th` hold these values in `th'`: full, or, where they still await fills, as the
values that they hold after those (R108). -/
def Holds (th : Thread) (d : Spec) (l : List Val) (th' : Thread) : Prop :=
  ∀ k, d = .v k → ∀ (j : Nat) (hj : j < l.length),
    getReg th' (th.wbase + k.toNat + j) = some (Reg.write (getReg th (th.wbase + k.toNat + j)) l[j])

/-- The v registers that `d` names are claimed, empty, each behind what it awaits already. -/
def Claims (th : Thread) (d : Spec) (n : Nat) (th' : Thread) : Prop :=
  ∀ k, d = .v k → ∀ j, j < n → ∃ tag, getReg th' (th.wbase + k.toNat + j) = some (Reg.claim (getReg th (th.wbase + k.toNat + j)) tag)

/-- The value of a finite f32 encoding in units of 2^−149, the smallest subnormal. -/
def f32Units (x : W32) : Int :=
  let m : Nat := if x.toNat / 2 ^ 23 % 256 = 0 then x.toNat % 2 ^ 23
    else (2 ^ 23 + x.toNat % 2 ^ 23) * 2 ^ (x.toNat / 2 ^ 23 % 256 - 1)
  if x.msb then -(m : Int) else m

/-- Is an f32 encoding finite, a NaN? -/
def f32Finite (x : W32) : Bool := x.toNat / 2 ^ 23 % 256 < 255
def f32Nan (x : W32) : Bool := x.toNat / 2 ^ 23 % 256 == 255 && x.toNat % 2 ^ 23 != 0

/-- The largest finite f32 in those units. -/
def f32Max : Int := (2 ^ 24 - 1) * 2 ^ 253

/-- Does `r` lie within half a unit of the last place of the exact value num / den, in units of 2^−149? -/
def f32Near (r : W32) (num den : Int) : Prop :=
  2 ^ 24 * (f32Units r * den - num).natAbs ≤ max num.natAbs (2 ^ 23 * den.natAbs)

/-- The state in which the issue of a thread alone has raised `e` at its instruction with operands `o`, its reads' sticky bits `fl`
set: a trap or fault that is taken, or halts the group. -/
def raisedAt (s : State) (t : TRef) (o : OpInfo) (fl : BitVec 7) (e : Exc) : State :=
  raiseAll (trapPre o (modThread s.lanesSee t fun th => { th with tstat := th.tstat ||| fl }) t e) [] [(t, e)]

/-- The accesses of the core on which a thread runs. -/
def accs (s : State) (t : TRef) : List Acc := (getCore s (coreOf s t.team)).acc

/-- The thread has no access in flight, nor has another thread of its group one of this cycle. -/
def NoAccess (s : State) (t : TRef) : Prop := ∀ a ∈ accs s t, a.t ≠ t ∧ (a.t.gkey = t.gkey → a.cyc ≠ s.now)

/-- Every cache, every home and HBM is the same: no byte of memory differs. -/
def SameMemory (s s' : State) : Prop :=
  s'.mem = s.mem ∧ s'.mpsn = s.mpsn ∧ s'.llc = s.llc ∧ s'.ag = s.ag ∧ s'.l1 = s.l1 ∧ s'.homeQ = s.homeQ ∧ s'.pwrites = s.pwrites

/-- Every line of every agent has the same bytes and the same state. -/
def SameLines (s s' : State) : Prop :=
  ∀ k, (Tab.get? s'.ag k).map (fun a => (a.st, a.line)) = (Tab.get? s.ag k).map fun a => (a.st, a.line)

/-- An access of one piece has gone in flight: it stands last at its core, its destination is claimed, no memory differs, no other
thread and no other v register, predicate or frame of its own. -/
def InFlight (s s' : State) (t : TRef) (th : Thread) (o : OpInfo) (d : Spec) (n : Nat) (kind : AccKind) (l : Loc) (bytes : Nat) :
    Prop :=
  GoesOn s' t th (fun th' => Claims th d n th' ∧ th'.preds = th.preds ∧ th'.wbase = th.wbase ∧ th'.nregs = th.nregs ∧
    th'.tdepth = th.tdepth ∧
    ∀ x, releasedBy th o x = false → claimed th d n x = false → getReg th' x = getReg th x) ∧
  (∀ u : TRef, u.key ≠ t.key → thread? s' u = thread? s u) ∧ SameMemory s s' ∧
  ∃ a, accs s' t = accs s t ++ [a] ∧ a.t = t ∧ a.kind = kind ∧ a.parts = [⟨l, bytes, 0⟩] ∧
    ∀ k, d = .v k → a.dsts.map (fun x => (x.isG, x.idx)) = (List.range n).map fun j => (false, th.wbase + k.toNat + j)

/-- A location of this package: memory, a scratchpad, the constant store or a device register. -/
def Loc.here (l : Loc) : Prop := ∀ pa, l ≠ .remote pa

/-- The group of a thread has not halted. -/
def Live (s : State) (t : TRef) : Prop := ∀ g, group? s t.team t.gid = some g → g.halted = false

/-- The collective gives every lane of G the effect of a function of the lane. -/
def Gives (s : State) (i : Instr) (o : OpInfo) (tm gid : Nat) (f : CLane → LaneEff) : Prop :=
  exec i s = .next (collNext s o tm gid { effs := onLanes (lanesRead s o tm gid) f })

/-- A command of an engine has been issued: it stands last among its team's, its pages are owned by E, its thread goes on. -/
def Commanded (s' : State) (t : TRef) (th : Thread) (tm : Team) (cls sem : Nat) (i : Instr) (pages : List (Nat × Nat)) : Prop :=
  GoesOn s' t th (Keeps th .zero 0 []) ∧ (∀ x ∈ pages, x.1 = t.team → x.2 < 96 → pageE s' t.team x.2 = true) ∧
  ∃ tm' e, team? s' t.team = some tm' ∧ tm'.engs = tm.engs ++ [e] ∧ e.cls = cls ∧ e.sem = sem ∧ e.ins = i ∧ e.done = 0 ∧
    e.pages = pages ∧ e.gid = t.gid ∧ e.lane = t.lane ∧ e.pc = th.pc

/-- Nothing holds a command back: fewer than 16 are outstanding, its pages are T, its unit has room, and what precedes it is
performed at package scope. -/
def CanCommand (s : State) (t : TRef) (tm : Team) (cls : Nat) (pages : List (Nat × Nat)) : Prop :=
  team? s t.team = some tm ∧ (liveEngs tm).length < 16 ∧ (∀ x ∈ pages, pageE s x.1 x.2 = false) ∧
  relReady s t .package = true ∧ unitRoom s (coreOf s t.team) cls = true

end Sys2Proof.Machine
end

