-- ==== Sys2Proof/Certificates/Slice0/Obligations.lean ====
section
/-! DEFINITION. The statements for the provers: what the decoder, the instructions, the events and the machine as a whole do. -/

open Sys2Proof Sys2Proof.Machine

/-! Encoding: R232-R246. -/

/-- The decoder reads every well-formed instruction back from its word, with every operand at every value. -/
def Obligations.EncodedInstructionDecodes : Prop :=
  ∀ i w, wellFormed i = true → encode i = some w → decodeWord w = .ok i

/-- A word that decodes is the word of the well-formed instruction it decodes to: no bit of it is dropped. -/
def Obligations.DecodedWordIsItsEncoding : Prop :=
  ∀ w i, w < 2 ^ 96 → decodeWord w = .ok i → wellFormed i = true ∧ encode i = some w

/-- The first 12 bytes, little-endian, are the word, and the bytes after it are left (R232); a word whose OPC R246 does not assign is
rejected by its number, whatever its other fields hold. -/
def Obligations.TwelveBytesAreOneWord : Prop :=
  (∀ w rest, w < 2 ^ 96 →
     decode (leBytes 12 w ++ rest) = (match decodeWord w with
       | .ok i => .ok (i, rest)
       | .error e => .error e)) ∧
  (∀ w, opsInClass (bits w 95 92) ≤ bits w 91 86 → decodeWord w = .error (.unassigned (bits w 95 86)))

/-- Words written out from the encoding tables decode to the instructions they stand for. -/
def Obligations.WordsOfTheTables : Prop :=
  -- iadd.n32 v1, v2, v3: TYPE 6
  decodeWord (7 * 2 ^ 82 + 1 * 2 ^ 74 + 2 * 2 ^ 64 + 3 * 2 ^ 54 + 0x8B * 2 ^ 44 + 6 * 2 ^ 39) =
    .ok (.iadd ⟨⟨false, 7, 0, false, .none 0⟩, .n32, .rn, false, false, .v 1, ⟨false, false, .v 2⟩, .src ⟨false, false, .v 3⟩⟩) ∧
  -- nop
  decodeWord (0x0C8 * 2 ^ 86 + 7 * 2 ^ 82 + 0x8B * 2 ^ 74 + 0x8B * 2 ^ 64 + 0x8B * 2 ^ 54 + 0x8B * 2 ^ 44) =
    .ok (.nop ⟨⟨false, 7, 0, false, .none 0⟩⟩) ∧
  -- bra −1
  decodeWord (0x0C0 * 2 ^ 86 + 7 * 2 ^ 82 + 0x8B * 2 ^ 74 + 0x8B * 2 ^ 64 + 0x8B * 2 ^ 54 + 0x8B * 2 ^ 44 + 0xFFFFFF) =
    .ok (.bra ⟨⟨false, 7, 0, false, .none 0⟩, 0xFFFFFF⟩) ∧
  -- the word of all zeros is no instruction: B = 0 beside C = 0 and IMM = 0
  decodeWord 0 = .error (.reserved 0)

/-! The machine's step: R53-R56, R182, R232. -/

/-- A step whose input, event or pick leaves an issue runs exactly the instruction of that issue; one that leaves none ends there: a
step performs the first input of the agenda, else the internal event that is due, else the next pick of the cycle. A step with no
input, no event due and no pick left passes one arithmetic cycle: the clock counts one on and the picks of the next cycle stand ready
(the model's own order of agents, assumption 3). -/
def Obligations.StepRunsTheIssuedInstruction : Prop :=
  ((∀ s e rest s' iss, s.agenda = e :: rest → exec e { s with agenda := rest } = .next s' → s'.cur = some iss →
     step s = exec iss.ins s') ∧
   (∀ s e rest s', s.agenda = e :: rest → exec e { s with agenda := rest } = .next s' → s'.cur = none → step s = .next s') ∧
   (∀ s e s', s.agenda = [] → dueEvent s = some e → exec e s = .next s' →
     (s'.cur = none → step s = .next s') ∧ ∀ iss, s'.cur = some iss → step s = exec iss.ins s') ∧
   (∀ s c u rest s', s.agenda = [] → dueEvent s = none → s.todo = (c, u) :: rest →
     exec (.pick c u) { s with todo := rest } = .next s' →
     (s'.cur = none → step s = .next s') ∧ ∀ iss, s'.cur = some iss → step s = exec iss.ins s')) ∧
  (∀ s, s.agenda = [] → dueEvent s = none → s.todo = [] →
     ∃ s', step s = .next s' ∧ s'.now = s.now + 1 ∧ s'.todo = pickers s' ∧ (s'.agenda = [] ∧ s'.hpkg = s.hpkg))

/-- The lanes that a pick has chosen at a PC issue the instruction that the 12 bytes there decode to. -/
def Obligations.ChosenLanesIssueTheDecodedWord : Prop :=
  ∀ s s' core sub pc t0 rest w i info,
    (∀ t ∈ t0 :: rest, ∃ th, thread? s t = some th ∧ th.bsFault = none ∧ th.canIssue = true ∧ th.pc = pc ∧
      (∀ l, th.st ≠ .paused l)) →
    fetchWord s core (ctxOf s t0.team) pc = (.word w, s') → s'.threads = s.threads →
    decodeWord w = .ok i → infoOf i = some info → (∀ t ∈ t0 :: rest, phIllegal s' t.team t.gid info = false) →
    ∃ s2, issueLanes s core sub pc (t0 :: rest) = .next s2 ∧
      s2.cur = some ⟨core, sub, pc, BitVec.ofNat 96 w, i, t0 :: rest⟩ ∧ s2.mem = s'.mem ∧ s2.teams = s'.teams

/-! Pure instructions: classes 0x0, 0x1, 0x2, 0x5, 0x6 and 0x7 (R254-R296). -/

/-- Each of the 64 pure instructions (IADD ISUB IMUL IMAD IDIV IREM INEG IABS IMIN IMAX LEA CVTI IDP4 AND OR XOR NOT BMIX SHL SHR
ROT SHF BFE BFI POPC CLZ BREV FFS BSWZ MOV MOVI ICMP FCMP TCMP SEL PLOP PMOV MOVS FCLASS FADD FSUB FMUL FFMA FMIN FMAX FDIV
FSQRT FRCP FRSQ FRND FSCALE FEXP2 FLOG2 FSIN FCOS FTANH FSIGM CVT CVTP TMIN TMAX TNEG TABS NZCNT) completes where nothing holds
its thread back and no trap is enabled: the thread's sources are read and released, the result of the instruction's function is
written, the sticky bits are set and the thread goes on. The reads of MOVS alone set no VOIDRD, and MOVS alone waits for the sticky
bits that instructions before it are still to set (R266). -/
def Obligations.PureInstructionCompletes : Prop :=
  ∀ s i a t th vals void pops, aluOf i = some a → Alone s i a.info t th vals void pops →
    (a.traps = true → tenOf s t.team = 0) → (a.quiet = true → statPending s t = false) →
    exec i s = .next (laneNext s t a.info vals (void && !a.quiet) pops (a.eval (laneOf s t th vals)))

/-- What a pure instruction leaves unchanged: everything outside threads and groups, with it every byte of memory; every other
thread; of its own thread every v register that it neither writes nor releases, the window, the frame size, the trap depth, the
predicates that it does not write and the latches that it does not load, which count one use less; %tstat gains the bits of the reads
and of the result, and the draw count the draws it makes; of every group the g registers that it neither writes nor releases and
the pigeonholes that it neither pops nor pushes to. D holds its result: v and g registers full, or after the fills that they still
await (R108), a pigeonhole behind what it holds (R117); a latch that the hold loads holds the value that its field delivered (R123). -/
def Obligations.PureInstructionFrame : Prop :=
  ∀ s i a t th vals void pops e, aluOf i = some a → Alone s i a.info t th vals void pops →
    (a.traps = true → tenOf s t.team = 0) → (a.quiet = true → statPending s t = false) → e = a.eval (laneOf s t th vals) →
    ∃ s' th', exec i s = .next s' ∧ SameOutside s.lanesSee s' ∧ (∀ x, memGet s'.mem x = memGet s.mem x) ∧
      (∀ u : TRef, u.key ≠ t.key → thread? s' u = thread? s u) ∧ thread? s' t = some th' ∧
      (th'.wbase = th.wbase ∧ th'.bot = th.bot ∧ th'.nregs = th.nregs ∧ th'.tdepth = th.tdepth ∧
        (∀ d, releasedBy th a.info d = false → writtenBy th e d = false → getReg th' d = getReg th d) ∧
        (∀ p : BitVec 3, (∀ x ∈ e.preds, x.1 ≠ p.toNat) → predOf th' p = predOf th p) ∧
        (e.tstat = none → th'.tstat = th.tstat ||| readFlags vals (void && !a.quiet) ||| e.flags) ∧
        th'.draws = th.draws + BitVec.ofNat 64 e.draws ∧
        (∀ n, (∀ f, a.info.ctl.hold ≠ .of f n) → latchOf th' n = (latchOf th n).tick)) ∧
      (∀ k g, Tab.get? s.groups k = some g → ∃ g', Tab.get? s'.groups k = some g' ∧
        g' = { g with gregs := g'.gregs, gseen := g'.gseen, gwait := g'.gwait, gown := g'.gown, ph := g'.ph } ∧
        (∀ n, (k = t.gkey → e.namesG n = false) →
          Tab.get? g'.gregs n = Tab.get? g.gregs n ∨ (k = t.gkey ∧ a.info.lastUseOf n = true ∧ Tab.get? g'.gregs n = none)) ∧
        (∀ n, (∀ c j, phGroup s t.team t.gid = some c → k = groupKey t.team c → n = 32 * j + t.lane →
            (∀ x ∈ pops, x.1 ≠ j) ∧ e.namesQ j = false) → Tab.get? g'.ph n = Tab.get? g.ph n)) ∧
      (∀ d l, e.writes = [(d, l)] → Holds th d l th' ∧
        (∀ k g, d = .g k → group? s t.team t.gid = some g → ∀ (j : Nat) (hj : j < l.length),
          gReg s' t (k.toNat + j) = some (Reg.write (gReg s t (k.toNat + j)) l[j])) ∧
        (∀ j c g, d = .q j → phGroup s t.team t.gid = some c → group? s t.team c = some g → (∀ x ∈ pops, x.1 ≠ j.toNat) →
          phOf s' t j.toNat = phOf s t j.toNat ++ l)) ∧
      (∀ f n x y rest, a.info.ctl.hold = .of f n →
        (a.info.srcs.zip vals).find? (fun z => z.1.fld == holdNum f && z.1.isReg) = some (x, y :: rest) → latchOf th' n = ⟨y, 2⟩)

/-- Reading a void register never blocks or traps: it delivers 0, a void half of a pair delivers 0 for that half, and an expired latch
delivers 0; such a read sets VOIDRD, and nothing else in the thread changes for it (R110, R450). -/
def Obligations.VoidReadsDeliverZero : Prop :=
  (∀ s t th pops (o : SrcOp) lu te (f : Nat → Option Reg),
     (∃ k, (o.op = .src ⟨lu, te, .v k⟩ ∧ f = fun j => getReg th (th.wbase + k.toNat + j)) ∨
       (o.op = .src ⟨lu, te, .g k⟩ ∧ f = fun j => gReg s t (k.toNat + j))) →
     ((readSrc s t th pops o).2.1 = true ↔ ∃ j, j < o.w / 32 ∧ f j = none) ∧
     (∀ j, j < o.w / 32 → f j = none → (readSrc s t th pops o).1[j]? = some ⟨0, false⟩) ∧
     (∀ j x, j < o.w / 32 → f j = some (.full x) → (readSrc s t th pops o).1[j]? = some x) ∧
     ((∀ j tag, j < o.w / 32 → f j ≠ some (.empty tag)) → srcWait s t th pops o = none)) ∧
  (∀ s t th pops (o : SrcOp) lu te n, o.op = .src ⟨lu, te, .latch n⟩ → srcWait s t th pops o = none ∧
     readSrc s t th pops o = if (latchOf th n).left = 0 then ([⟨0, false⟩], true, pops) else ([(latchOf th n).x], false, pops)) ∧
  (∀ s t o vals pops, thread? (readState s t o vals true pops) t =
     (thread? (readState s t o vals false pops) t).map fun th => { th with tstat := th.tstat ||| fVOIDRD })

/-- A thread whose guard is false issues an instruction whose threads act each for itself, and goes on at its next instruction: it
reads, writes, pops and pushes nothing, sets no sticky bit and draws nothing; its last-use marks release (R111, R233). That the mark
on X[0] of a guard-false MOVX does not release the register it indexes is the model's reading (assumption 33). After EXIT and RET the
group settles as after every one of them. -/
def Obligations.GuardFalseThreadPasses : Prop :=
  ∀ s i o t th, GuardedOff s i o t th → perThread i = true →
    ∃ s1 th', (exec i s = .next s1 ∨
        (((∃ x, i = .exit x) ∨ (∃ x, i = .ret x)) ∧ exec i s = .next (afterExit s1 t.team t.gid))) ∧
      SameOutside s.lanesSee s1 ∧ (∀ u : TRef, u.key ≠ t.key → thread? s1 u = thread? s u) ∧ thread? s1 t = some th' ∧
      th'.pc = th.next ∧ th'.st = .eligible ∧ th'.wbase = th.wbase ∧ th'.nregs = th.nregs ∧ th'.tdepth = th.tdepth ∧
      th'.preds = th.preds ∧ th'.tstat = th.tstat ∧ th'.draws = th.draws ∧
      (∀ d, getReg th' d = if releasedBy th o d then none else getReg th d) ∧
      (∀ k g, Tab.get? s.groups k = some g → ∃ g', Tab.get? s1.groups k = some g' ∧
        g' = { g with gregs := g'.gregs, gseen := g'.gseen } ∧ (o.lastUseG = false → g' = g))

/-- IADD, ISUB, IMUL, IMAD, INEG and IABS on 32-bit words without .sat: arithmetic modulo 2^32, poison entering from every operand
(R256, R258). IDIV and IREM by a zero divisor write the extreme value of the dividend's sign, and the dividend, and raise DZ
(R258, R259); other quotients of n32 and of i32 are rounded toward zero, the least i32 by −1 wraps, or is the greatest with .sat,
and the remainder takes the dividend's sign. IMIN and IMAX follow the order of their type, LEA adds a shifted index, CVTI widens by the
source's sign and narrows to the low word, or with .sat to the nearest end (R150), and IDP4 adds four byte products (R258). -/
def Obligations.IntegerArithmetic : Prop :=
  (∀ s t th void pops (a b c : W32) (p q r : Bool),
     (∀ x : Bin, (x.ty = .n32 ∨ x.ty = .i32) → x.f0 = false → x.f1 = false →
       (Alone s (.iadd x) (binI x) t th [w1 a p, w1 b q] void pops →
         Does s (.iadd x) (binI x) t [w1 a p, w1 b q] void pops fun e => e.writes1 x.d (a + b) (p || q) ∧ e.flags = 0) ∧
       (Alone s (.isub x) (binI x) t th [w1 a p, w1 b q] void pops →
         Does s (.isub x) (binI x) t [w1 a p, w1 b q] void pops fun e => e.writes1 x.d (a - b) (p || q) ∧ e.flags = 0) ∧
       (Alone s (.imul x) (binI x) t th [w1 a p, w1 b q] void pops →
         Does s (.imul x) (binI x) t [w1 a p, w1 b q] void pops fun e => e.writes1 x.d (a * b) (p || q) ∧ e.flags = 0)) ∧
     (∀ x : Tri, (x.ty = .n32 ∨ x.ty = .i32) → x.f0 = false →
       Alone s (.imad x) (triInfo x 32 x.ty 32 x.ty) t th [w1 a p, w1 b q, w1 c r] void pops →
         Does s (.imad x) (triInfo x 32 x.ty 32 x.ty) t [w1 a p, w1 b q, w1 c r] void pops fun e =>
           e.writes1 x.d (a * b + c) (p || (q || r))) ∧
     (∀ x : Un, (x.ty = .n32 ∨ x.ty = .i32) → x.f0 = false →
       (Alone s (.ineg x) (unInfo x 32) t th [w1 a p] void pops →
         Does s (.ineg x) (unInfo x 32) t [w1 a p] void pops fun e => e.writes1 x.d (-a) p) ∧
       (Alone s (.iabs x) (unInfo x 32) t th [w1 a p] void pops →
         Does s (.iabs x) (unInfo x 32) t [w1 a p] void pops fun e =>
           e.writes1 x.d (if x.ty = .i32 ∧ a.toInt < 0 then -a else a) p))) ∧
  (∀ s t th void pops (x : Bin) (a b : W32) (p q : Bool), x.ty = .n32 ∨ x.ty = .i32 → tenOf s t.team = 0 →
     (Alone s (.idiv x) (binI x) t th [w1 a p, w1 b q] void pops →
       Does s (.idiv x) (binI x) t [w1 a p, w1 b q] void pops fun e => (e.flags = if b = 0 then fDZ else 0) ∧
         e.writes1 x.d (match x.ty with
           | .i32 => if b = 0 then (if a.toInt < 0 then 0x80000000 else 0x7FFFFFFF)
             else if x.f0 = true ∧ a = 0x80000000 ∧ b = 0xFFFFFFFF then 0x7FFFFFFF else a.sdiv b
           | _ => if b = 0 then 0xFFFFFFFF else a / b) (p || q)) ∧
     (Alone s (.irem x) (binI x) t th [w1 a p, w1 b q] void pops →
       Does s (.irem x) (binI x) t [w1 a p, w1 b q] void pops fun e => (e.flags = if b = 0 then fDZ else 0) ∧
         e.writes1 x.d (if b = 0 then a else match x.ty with
           | .i32 => a.srem b
           | _ => a % b) (p || q))) ∧
  (∀ s t th void pops (a b c : W32) (p q r : Bool),
     (∀ x : Bin, x.ty = .n32 ∨ x.ty = .i32 → ∀ below : Bool, (below = if x.ty = .i32 then a.slt b else a.ult b) →
       (Alone s (.imin x) (binI x) t th [w1 a p, w1 b q] void pops →
         Does s (.imin x) (binI x) t [w1 a p, w1 b q] void pops fun e => e.writes1 x.d (if below then a else b) (p || q)) ∧
       (Alone s (.imax x) (binI x) t th [w1 a p, w1 b q] void pops →
         Does s (.imax x) (binI x) t [w1 a p, w1 b q] void pops fun e => e.writes1 x.d (if below then b else a) (p || q))) ∧
     (∀ x : Tri, x.ty = .n32 ∨ x.ty = .i32 → x.f0 = false →
       Alone s (.idp4 x) (aluIdp4 x).info t th [w1 a p, w1 b q, w1 c r] void pops →
         Does s (.idp4 x) (aluIdp4 x).info t [w1 a p, w1 b q, w1 c r] void pops fun e =>
           ∃ f g : Nat → Int, (∀ j, f j = if x.ty = .i32 then ((a >>> (8 * j)).setWidth 8).toInt else (a.toNat / 256 ^ j % 256 : Nat)) ∧
             (∀ j, g j = if x.ty = .i32 ∧ x.f1 = false then ((b >>> (8 * j)).setWidth 8).toInt else (b.toNat / 256 ^ j % 256 : Nat)) ∧
             e.writes1 x.d (BitVec.ofInt 32 (c.toInt + f 0 * g 0 + f 1 * g 1 + f 2 * g 2 + f 3 * g 3)) (p || (q || r))) ∧
     (∀ (x : Cvt) (hi : W32) (p' : Bool),
       ((x.sty = .i32 ∨ x.sty = .n32) → (x.ty = .i64 ∨ x.ty = .n64) → x.f0 = false →
         Alone s (.cvti x) (aluCvti x).info t th [w1 a p] void pops →
         Does s (.cvti x) (aluCvti x).info t [w1 a p] void pops fun e =>
           e.writes = [(x.d, [⟨a, p⟩, ⟨if x.sty = .i32 ∧ a.toInt < 0 then 0xFFFFFFFF else 0, p⟩])]) ∧
       ((x.sty = .i64 ∨ x.sty = .n64) → (x.ty = .i32 ∨ x.ty = .n32) →
         Alone s (.cvti x) (aluCvti x).info t th [[⟨a, p⟩, ⟨hi, p'⟩]] void pops →
         Does s (.cvti x) (aluCvti x).info t [[⟨a, p⟩, ⟨hi, p'⟩]] void pops fun e =>
           (x.f0 = false → e.writes1 x.d a (p || p')) ∧
           (x.f0 = true → x.ty = .i32 → x.sty = .i64 → ∀ v : Int, v = (hi ++ a).toInt →
             e.writes1 x.d (if v < -2 ^ 31 then 0x80000000 else if 2 ^ 31 ≤ v then 0x7FFFFFFF else a) (p || p'))))) ∧
  (∀ s t th void pops (x : Lea) vals (b : W32) (q : Bool), vals.getD 1 [] = w1 b q → x.ty = .n32 ∨ x.ty = .i32 →
     Alone s (.lea x) (aluLea x).info t th vals void pops →
     Does s (.lea x) (aluLea x).info t vals void pops fun e => ∃ k : Int, k = (if x.ty = .i32 then b.toInt else b.toNat) ∧
       e.writes = [(x.d, natVals (((valNat (vals.getD 0 []) : Int) + k * 2 ^ valNat (vals.getD 2 [])) % 2 ^ 64).toNat
         (vals.any valPsn) 2)])

/-- AND, OR, XOR, NOT and BMIX are bitwise; SHL and SHR of 32-bit words fill with zeros, or with the sign for i32, for counts of 32 or
more too; ROT rotates by the count modulo 32 and SHF shifts the 64 bits {B, A}; BFE and BFI take and place a field whose position and
length B or C gives; POPC, CLZ, FFS, BREV and BSWZ count, find and move bits and bytes (R261). ICMP writes its predicate, and a mask of
ones or zeros in D: unsigned order for n32, signed for i32 (R264); TCMP of t32 compares the encodings as signed integers (R291). -/
def Obligations.BitwiseShiftsAndCompares : Prop :=
  (∀ s t th void pops (a b : W32) (p q : Bool),
     (∀ x : Bin, x.ty = .n32 ∨ x.ty = .i32 →
       (Alone s (.and x) (binI x) t th [w1 a p, w1 b q] void pops →
         Does s (.and x) (binI x) t [w1 a p, w1 b q] void pops fun e => e.writes1 x.d (a &&& b) (p || q)) ∧
       (Alone s (.or x) (binI x) t th [w1 a p, w1 b q] void pops →
         Does s (.or x) (binI x) t [w1 a p, w1 b q] void pops fun e => e.writes1 x.d (a ||| b) (p || q)) ∧
       (Alone s (.xor x) (binI x) t th [w1 a p, w1 b q] void pops →
         Does s (.xor x) (binI x) t [w1 a p, w1 b q] void pops fun e => e.writes1 x.d (a ^^^ b) (p || q)) ∧
       (Alone s (.shl x) (binInfo x 32 .n32 32) t th [w1 a p, w1 b q] void pops →
         Does s (.shl x) (binInfo x 32 .n32 32) t [w1 a p, w1 b q] void pops fun e =>
           e.writes1 x.d (a <<< b.toNat) (p || q)) ∧
       (x.ty = .n32 → Alone s (.shr x) (binInfo x 32 .n32 32) t th [w1 a p, w1 b q] void pops →
         Does s (.shr x) (binInfo x 32 .n32 32) t [w1 a p, w1 b q] void pops fun e =>
           e.writes1 x.d (a >>> b.toNat) (p || q)) ∧
       (x.ty = .i32 → Alone s (.shr x) (binInfo x 32 .n32 32) t th [w1 a p, w1 b q] void pops →
         Does s (.shr x) (binInfo x 32 .n32 32) t [w1 a p, w1 b q] void pops fun e =>
           e.writes1 x.d (a.sshiftRight b.toNat) (p || q)) ∧
       (Alone s (.rot x) (aluRot x).info t th [w1 a p, w1 b q] void pops →
         Does s (.rot x) (aluRot x).info t [w1 a p, w1 b q] void pops fun e =>
           e.writes1 x.d (if x.f1 then a.rotateRight b.toNat else a.rotateLeft b.toNat) (p || q)) ∧
       (Alone s (.bfe x) (aluBfe x).info t th [w1 a p, w1 b q] void pops →
         Does s (.bfe x) (aluBfe x).info t [w1 a p, w1 b q] void pops fun e => ∃ m : W32, e.writes1 x.d m (p || q) ∧
           ∀ pos len, pos = b.toNat % 256 → len = min (b.toNat / 256 % 256) 32 → ∀ i, i < 32 →
             m.getLsbD i = (decide (0 < len) && (decide (i < len) || decide (x.ty = .i32)) &&
               if pos + min i (len - 1) < 32 then a.getLsbD (pos + min i (len - 1)) else (decide (x.ty = .i32) && a.msb)))) ∧
     (∀ x : Un, x.ty = .n32 ∨ x.ty = .i32 →
       (Alone s (.not x) (unInfo x 32) t th [w1 a p] void pops →
         Does s (.not x) (unInfo x 32) t [w1 a p] void pops fun e => e.writes1 x.d (~~~a) p) ∧
       (Alone s (.popc x) (aluPopc x).info t th [w1 a p] void pops →
         Does s (.popc x) (aluPopc x).info t [w1 a p] void pops fun e =>
           e.writes1 x.d (BitVec.ofNat 32 ((List.range 32).countP fun i => a.getLsbD i)) p) ∧
       (Alone s (.clz x) (aluClz x).info t th [w1 a p] void pops →
         Does s (.clz x) (aluClz x).info t [w1 a p] void pops fun e => ∃ k, k ≤ 32 ∧ e.writes1 x.d (BitVec.ofNat 32 k) p ∧
           (∀ i, i < k → a.getMsbD i = false) ∧ (k < 32 → a.getMsbD k = true)) ∧
       (Alone s (.ffs x) (aluFfs x).info t th [w1 a p] void pops →
         Does s (.ffs x) (aluFfs x).info t [w1 a p] void pops fun e =>
           (a = 0 → e.writes1 x.d 0xFFFFFFFF p) ∧
           (a ≠ 0 → ∃ k, k < 32 ∧ e.writes1 x.d (BitVec.ofNat 32 k) p ∧ a.getLsbD k = true ∧ ∀ i, i < k → a.getLsbD i = false)) ∧
       (Alone s (.brev x) (aluBrev x).info t th [w1 a p] void pops →
         Does s (.brev x) (aluBrev x).info t [w1 a p] void pops fun e => ∃ m : W32, e.writes1 x.d m p ∧
           ∀ i, i < 32 → m.getLsbD i = a.getMsbD i))) ∧
  (∀ s t th void pops (a b c : W32) (p q r : Bool),
     (∀ x : Tri, x.ty = .n32 ∨ x.ty = .i32 →
       (Alone s (.shf x) (aluShf x).info t th [w1 a p, w1 b q, w1 c r] void pops →
         Does s (.shf x) (aluShf x).info t [w1 a p, w1 b q, w1 c r] void pops fun e =>
           e.writes1 x.d (if x.f1 then ((b ++ a) >>> (c.toNat % 64)).setWidth 32
             else ((b ++ a) <<< (c.toNat % 64) >>> 32).setWidth 32) (p || (q || r))) ∧
       (Alone s (.bfi x) (aluBfi x).info t th [w1 a p, w1 b q, w1 c r] void pops →
         Does s (.bfi x) (aluBfi x).info t [w1 a p, w1 b q, w1 c r] void pops fun e => ∃ m : W32, e.writes1 x.d m (p || (q || r)) ∧
           ∀ pos len, pos = c.toNat % 256 → len = min (c.toNat / 256 % 256) 32 → ∀ i, i < 32 →
             m.getLsbD i = if pos ≤ i ∧ i < pos + len then a.getLsbD (i - pos) else b.getLsbD i)) ∧
     (∀ x : BMix, x.ty = .n32 ∨ x.ty = .i32 → Alone s (.bmix x) (aluBmix x).info t th [w1 a p, w1 b q, w1 c r] void pops →
       Does s (.bmix x) (aluBmix x).info t [w1 a p, w1 b q, w1 c r] void pops fun e => ∃ m : W32, e.writes1 x.d m (p || (q || r)) ∧
         ∀ i, i < 32 → m.getLsbD i = x.tab.getLsbD (4 * (c.getLsbD i).toNat + 2 * (b.getLsbD i).toNat + (a.getLsbD i).toNat)) ∧
     (∀ (x : BSwz) vals (sel : Nat),
       ((∃ m, x.sel = .sel m ∧ sel = m.toNat ∧ vals = [w1 a p, w1 b q] ∧ r = false) ∨
         (∃ y, x.sel = .reg y ∧ sel = c.toNat ∧ vals = [w1 a p, w1 b q, w1 c r])) →
       Alone s (.bswz x) (aluBswz x).info t th vals void pops →
       Does s (.bswz x) (aluBswz x).info t vals void pops fun e => ∃ m : W32, e.writes1 x.d m (p || (q || r)) ∧
         ∀ i j k, i < 4 → j < 8 → k = sel / 32 ^ i % 32 → m.getLsbD (8 * i + j) =
           if k < 8 then (b ++ a).getLsbD (8 * k + j) else if k < 16 then (b ++ a).getLsbD (8 * (k - 8) + 7) else k == 17)) ∧
  (∀ s t th void pops (x : Cmp) (a b : W32) (p q : Bool) i (lt : Bool), x.cc.toNat ≤ 5 →
     (i = .icmp x ∧ ((x.ty = .n32 ∧ lt = a.ult b) ∨ (x.ty = .i32 ∧ lt = a.slt b)) ∨ i = .tcmp x ∧ x.ty = .t32 ∧ lt = a.slt b) →
     Alone s i (cmpInfo x) t th [w1 a p, w1 b q] void pops →
     Does s i (cmpInfo x) t [w1 a p, w1 b q] void pops fun e =>
       ∃ c : Bool, e.preds = [(x.n.toNat, c)] ∧ e.writes1 x.d (if c then 0xFFFFFFFF else 0) (p || q) ∧
         c = (match x.cc.toNat with
           | 0 => a == b
           | 1 => a != b
           | 2 => lt
           | 3 => lt || a == b
           | 4 => !lt && a != b
           | _ => !lt))

/-- MOV copies a word with its poison, MOVI pairs a register with an immediate, SEL takes one of two words by a predicate, PLOP looks
up a table of three predicates, MOVS sets %tstat under a mask, FCLASS names one class (R263, R264, R266, R292). MOVX reads and
MOVXW writes the v register whose index is A + B, where it lies in the frame; the poison of the index enters the result (R264,
R265). -/
def Obligations.MovesAndPredicates : Prop :=
  (∀ s t th void pops (a b : W32) (p q : Bool),
     (∀ x : Mov, x.wide = false → Alone s (.mov x) (aluMov x).info t th [w1 a p] void pops →
       Does s (.mov x) (aluMov x).info t [w1 a p] void pops fun e => e.writes1 x.d a p) ∧
     (∀ x : Movi, Alone s (.movi x) (aluMovi x).info t th [w1 a p] void pops →
       Does s (.movi x) (aluMovi x).info t [w1 a p] void pops fun e => e.writes = [(x.d, [⟨a, p⟩, ⟨x.m, p⟩])]) ∧
     (∀ x : Sel, x.wide = false → Alone s (.sel x) (aluSel x).info t th [w1 a p, w1 b q] void pops →
       Does s (.sel x) (aluSel x).info t [w1 a p, w1 b q] void pops fun e =>
         if predOf th x.n != x.neg then e.writes1 x.d a p else e.writes1 x.d b q) ∧
     (∀ x : Plop, Alone s (.plop x) (aluPlop x).info t th [] void pops →
       Does s (.plop x) (aluPlop x).info t [] void pops fun e => e.writes = [] ∧ e.preds =
         [(x.pd.toNat, bit x.lut.toNat (4 * b2n (predOf th x.pa) + 2 * b2n (predOf th x.pb) + b2n (predOf th x.pc)))]) ∧
     (∀ x : MovS, Alone s (.movs x) (aluMovs x).info t th [w1 a p, w1 b q] void pops → statPending s t = false →
       ∃ s', exec (.movs x) s = .next s' ∧ GoesOn s' t th fun th' => Keeps th .zero 0 [] th' ∧
         th'.tstat = ((th.tstat ||| if p || q then fPSN else 0) &&& ~~~b.setWidth 7) ||| (a.setWidth 7 &&& b.setWidth 7)) ∧
     (∀ x : FClass, Alone s (.fclass x) (aluFclass x).info t th [w1 a p] void pops →
       Does s (.fclass x) (aluFclass x).info t [w1 a p] void pops fun e => e.conds = [] ∧
         ∃ k, k ≤ 10 ∧ e.writes1 x.d (BitVec.ofNat 32 (2 ^ k)) p)) ∧
  (∀ s t th void pops (a b : W32) (p q : Bool) (i : Nat),
     signed 32 a.toNat + signed 32 b.toNat = (i : Int) → i < 64 → i < th.nregs →
     (∀ (x : MovX) (c : Val) o, o = (⟨x.ctl, [sA x.a 32 .i32, sB x.b 32 .i32], [⟨x.d, 32⟩], .own⟩ : OpInfo) →
       Alone s (.movx x) o t th [w1 a p, w1 b q] void pops → x.wide = false → getReg th (th.wbase + i) = some (.full c) →
       ∃ s', exec (.movx x) s = .next s' ∧ GoesOn s' t th fun th' => Holds th x.d [⟨c.v, c.psn || (p || q)⟩] th' ∧
         Keeps th x.d 1 [] th') ∧
     (∀ (x : MovXW) (c : Val) o, o = (⟨x.ctl, [sA x.a 32 .i32, sB x.b 32 .i32, sC x.c 32 .i32], [], .own⟩ : OpInfo) →
       Alone s (.movxw x) o t th [w1 a p, w1 b q, [c]] void pops → x.wide = false →
       entriesNeeded th ⟨x.ctl, [], [⟨.v (BitVec.ofNat 6 i), 32⟩], .own⟩ ≤ poolFree s (coreOf s t.team) →
       ∃ s', exec (.movxw x) s = .next s' ∧
         GoesOn s' t th fun th' => Holds th (.v (BitVec.ofNat 6 i)) [⟨c.v, c.psn || (p || q)⟩] th' ∧
           Keeps th (.v (BitVec.ofNat 6 i)) 1 [] th'))

/-- Floating and tapered arithmetic. FADD, FSUB, FMUL, FFMA and FDIV of finite f32 values in rn deliver the exact result rounded once, to
within half a unit of its last place, with the sign that a zero has (R137, R155, R283); special operands and special functions give
the results of R284 and R287; FMIN and FMAX choose by value, −0 below +0 (R285); FCMP compares by value, −0 equal to +0, and a NaN is
unordered (R290). CVT of f32 to i32 in rz truncates and saturates with INV (R138, R150), and of i32 to f32 in rn rounds once (R288).
TMIN, TMAX, TNEG and TABS of t32 act on the encoding as a signed integer, and a NaR operand gives NaR (R293). -/
def Obligations.FloatingPointArithmetic : Prop :=
  (∀ s t th void pops (a b : W32) (p q : Bool) (x : Bin), tenOf s t.team = 0 → x.ty = .f32 → x.rnd = .rn → x.f0 = false →
     let gives (i : Instr) (P : LaneEff → Prop) : Prop :=
       Alone s i (binI x) t th [w1 a p, w1 b q] void pops → Does s i (binI x) t [w1 a p, w1 b q] void pops P
     let rounds (i : Instr) (num den : Int) (zero : W32) : Prop :=
       f32Finite a → f32Finite b → num.natAbs ≤ (f32Max * den).natAbs → gives i fun e => ∃ r, e.writes1 x.d r (p || q) ∧
         f32Finite r ∧ e.flags = 0 ∧ f32Near r num den ∧ (num = 0 → r = zero)
     rounds (.fadd x) (f32Units a + f32Units b) 1 (if a = 0x80000000 ∧ b = 0x80000000 then 0x80000000 else 0) ∧
     rounds (.fsub x) (f32Units a - f32Units b) 1 (if a = 0x80000000 ∧ b = 0 then 0x80000000 else 0) ∧
     rounds (.fmul x) (f32Units a * f32Units b) (2 ^ 149) ((a ^^^ b) &&& 0x80000000) ∧
     (f32Units b ≠ 0 → rounds (.fdiv x) (f32Units a * 2 ^ 149) (f32Units b) ((a ^^^ b) &&& 0x80000000)) ∧
     -- a NaN operand, the first in field order, comes out quiet; INV where one is signalling
     (∀ i, (i = .fadd x ∨ i = .fsub x ∨ i = .fmul x ∨ i = .fdiv x) → (f32Nan a ∨ f32Nan b) →
       ∀ n : W32, (f32Nan a → n = a) → (¬ f32Nan a → n = b) → gives i fun e => e.writes1 x.d (n ||| 0x400000) (p || q) ∧
         e.flags = fNONFIN ||| (if (f32Nan a ∧ a.getLsbD 22 = false) ∨ (f32Nan b ∧ b.getLsbD 22 = false) then fINV else 0)) ∧
     (∀ (i : Instr) (r : W32) (fl : BitVec 7),
       (i, a, b, r, fl) ∈ [(Instr.fadd x, 0x7F800000, 0xFF800000, 0x7FC00000, fINV ||| fNONFIN),
         (.fsub x, 0x7F800000, 0x7F800000, 0x7FC00000, fINV ||| fNONFIN), (.fmul x, 0, 0xFF800000, 0x7FC00000, fINV ||| fNONFIN),
         (.fdiv x, 0, 0x80000000, 0x7FC00000, fINV ||| fNONFIN), (.fdiv x, 0x7F800000, 0x7F800000, 0x7FC00000, fINV ||| fNONFIN),
         (.fdiv x, 0xBF800000, 0, 0xFF800000, fDZ ||| fNONFIN), (.fadd x, 0x7F7FFFFF, 0x7F7FFFFF, 0x7F800000, fOVF ||| fNONFIN)] →
       gives i fun e => e.writes1 x.d r (p || q) ∧ e.flags = fl) ∧
     (x.f1 = false → ∀ less : Bool, (less = true ↔ f32Units a < f32Units b ∨ (f32Units a = f32Units b ∧ a.msb = true)) →
       (f32Finite a → f32Finite b → gives (.fmin x) (fun e => e.writes1 x.d (if less then a else b) (p || q) ∧ e.flags = 0) ∧
         gives (.fmax x) (fun e => e.writes1 x.d (if less then b else a) (p || q) ∧ e.flags = 0)) ∧
       (f32Nan a → f32Finite b → gives (.fmin x) (fun e => e.writes1 x.d b (p || q)) ∧
         gives (.fmax x) (fun e => e.writes1 x.d b (p || q))))) ∧
  (∀ s t th void pops (a b c : W32) (p q r : Bool) (x : Tri) num, tenOf s t.team = 0 → x.ty = .f32 → x.rnd = .rn → x.f0 = false →
     f32Finite a → f32Finite b → f32Finite c → num = f32Units a * f32Units b + f32Units c * 2 ^ 149 →
     num.natAbs ≤ (f32Max * 2 ^ 149).natAbs → Alone s (.ffma x) (aluFfma x).info t th [w1 a p, w1 b q, w1 c r] void pops →
     Does s (.ffma x) (aluFfma x).info t [w1 a p, w1 b q, w1 c r] void pops fun e => ∃ y, e.writes1 x.d y (p || (q || r)) ∧
       f32Finite y ∧ e.flags = 0 ∧ f32Near y num (2 ^ 149)) ∧
  (∀ s t th void pops (a b : W32) (p q : Bool) (x : Cmp), tenOf s t.team = 0 → x.ty = .f32 → x.f1 = false → x.f0 = false →
     Alone s (.fcmp x) (cmpInfo x) t th [w1 a p, w1 b q] void pops →
     Does s (.fcmp x) (cmpInfo x) t [w1 a p, w1 b q] void pops fun e => ∃ c : Bool, e.preds = [(x.n.toNat, c)] ∧
       e.writes1 x.d (if c then 0xFFFFFFFF else 0) (p || q) ∧
       (f32Finite a → f32Finite b → e.flags = 0 ∧ (c = true ↔ match x.cc.toNat with
         | 0 => f32Units a = f32Units b
         | 1 => f32Units a ≠ f32Units b
         | 2 => f32Units a < f32Units b
         | 3 => f32Units a ≤ f32Units b
         | 4 => f32Units b < f32Units a
         | 5 => f32Units b ≤ f32Units a
         | 6 => True
         | _ => False)) ∧
       ((f32Nan a ∨ f32Nan b) → (c = true ↔ x.cc.toNat = 1 ∨ x.cc.toNat = 7) ∧
         (2 ≤ x.cc.toNat → x.cc.toNat ≤ 5 → e.flags = fINV))) ∧
  (∀ s t th void pops (a : W32) (p : Bool) (x : Cvt), tenOf s t.team = 0 → x.f0 = false → x.f1 = false →
     Alone s (.cvt x) (aluCvt x).info t th [w1 a p] void pops →
     Does s (.cvt x) (aluCvt x).info t [w1 a p] void pops fun e =>
       (x.ty = .i32 → x.sty = .f32 → x.rnd = .rz → f32Finite a → ∀ v, v = (f32Units a).tdiv (2 ^ 149) →
         if v < -2 ^ 31 then e.writes1 x.d 0x80000000 p ∧ e.flags = fINV
         else if 2 ^ 31 ≤ v then e.writes1 x.d 0x7FFFFFFF p ∧ e.flags = fINV
         else e.writes1 x.d (BitVec.ofInt 32 v) p ∧ e.flags = 0) ∧
       (x.ty = .f32 → x.sty = .i32 → x.rnd = .rn → ∃ y, e.writes1 x.d y p ∧ f32Finite y ∧ f32Near y (a.toInt * 2 ^ 149) 1)) ∧
  (∀ s t th void pops (a b : W32) (p q : Bool), tenOf s t.team = 0 →
     (∀ x : Bin, x.ty = .t32 →
       (Alone s (.tmin x) (aluTmin x).info t th [w1 a p, w1 b q] void pops →
         Does s (.tmin x) (aluTmin x).info t [w1 a p, w1 b q] void pops fun e =>
           e.writes1 x.d (if a.slt b then a else b) (p || q) ∧ e.flags = 0) ∧
       (Alone s (.tmax x) (aluTmax x).info t th [w1 a p, w1 b q] void pops →
         Does s (.tmax x) (aluTmax x).info t [w1 a p, w1 b q] void pops fun e =>
           e.writes1 x.d (if a = 0x80000000 ∨ b = 0x80000000 then 0x80000000 else if a.slt b then b else a) (p || q) ∧ e.flags = 0)) ∧
     (∀ x : Un, x.ty = .t32 →
       (Alone s (.tneg x) (aluTneg x).info t th [w1 a p] void pops →
         Does s (.tneg x) (aluTneg x).info t [w1 a p] void pops fun e => e.writes1 x.d (-a) p ∧ e.flags = 0) ∧
       (Alone s (.tabs x) (aluTabs x).info t th [w1 a p] void pops →
         Does s (.tabs x) (aluTabs x).info t [w1 a p] void pops fun e => e.writes1 x.d (if a.msb then -a else a) p ∧ e.flags = 0)) ∧
     (∀ (x : Un) (i : Instr) (r : W32) (fl : BitVec 7), x.ty = .f32 → x.f0 = false → x.rnd = .rn →
       (i, a, r, fl) ∈ [(Instr.fexp2 x, 0x80000000, 0x3F800000, 0), (.fexp2 x, 0xFF800000, 0, 0), (.flog2 x, 0, 0xFF800000, fDZ ||| fNONFIN),
         (.flog2 x, 0xBF800000, 0x7FC00000, fINV ||| fNONFIN), (.fsin x, 0x80000000, 0x80000000, 0), (.fcos x, 0, 0x3F800000, 0),
         (.fsin x, 0x7F800000, 0x7FC00000, fINV ||| fNONFIN), (.fcos x, 0xFF800000, 0x7FC00000, fINV ||| fNONFIN),
         (.ftanh x, 0x7F800000, 0x3F800000, 0), (.ftanh x, 0x80000000, 0x80000000, 0), (.fsigm x, 0, 0x3F000000, 0),
         (.fsigm x, 0x7F800000, 0x3F800000, 0), (.fsqrt x, 0x80000000, 0x80000000, 0), (.fsqrt x, 0xBF800000, 0x7FC00000, fINV ||| fNONFIN),
         (.frcp x, 0x80000000, 0xFF800000, fDZ ||| fNONFIN), (.frsq x, 0x7F800000, 0, 0), (.frnd x, 0x80000000, 0x80000000, 0)] →
       Alone s i (unInfo x 32) t th [w1 a p] void pops →
       Does s i (unInfo x 32) t [w1 a p] void pops fun e => e.writes1 x.d r p ∧ e.flags = fl))

/-! Control: class 0x3 (R267-R273). -/

/-- BRA goes to PC + 12 × its signed offset and BRX to the address in A, where the target is canonical and a multiple of 12; neither
writes a register or a predicate. Another target of BRA is an address fault, SUB 1, at the branch (R268). -/
def Obligations.BranchesGoToTheirTargets : Prop :=
  (∀ s t th vals void pops,
     (∀ x : Bra, Alone s (.bra x) ⟨x.ctl, [], [], .own⟩ t th [] void pops →
       canonical (th.pc + BitVec.ofInt 64 (12 * x.off.toInt)).toNat = true →
       (th.pc + BitVec.ofInt 64 (12 * x.off.toInt)).toNat % 12 = 0 →
       Does s (.bra x) ⟨x.ctl, [], [], .own⟩ t [] void pops fun e =>
         e.pc = some (th.pc + BitVec.ofInt 64 (12 * x.off.toInt)) ∧ e.writes = [] ∧ e.preds = []) ∧
     (∀ x : OneSrc, Alone s (.brx x) ⟨x.ctl, [sA x.a 64 .n64], [], .own⟩ t th vals void pops → vals.any valPsn = false →
       valNat (vals.getD 0 []) < 2 ^ 64 → canonical (valNat (vals.getD 0 [])) = true → valNat (vals.getD 0 []) % 12 = 0 →
       Does s (.brx x) ⟨x.ctl, [sA x.a 64 .n64], [], .own⟩ t vals void pops fun e =>
         e.pc = some (BitVec.ofNat 64 (valNat (vals.getD 0 []))) ∧ e.writes = [] ∧ e.preds = [])) ∧
  (∀ s t th void pops (x : Bra), Alone s (.bra x) ⟨x.ctl, [], [], .own⟩ t th [] void pops →
     (canonical (th.pc + BitVec.ofInt 64 (12 * x.off.toInt)).toNat = false ∨
       (th.pc + BitVec.ofInt 64 (12 * x.off.toInt)).toNat % 12 ≠ 0) →
     exec (.bra x) s = .next (raisedAt s t ⟨x.ctl, [], [], .own⟩ 0
       (excAddr 1 (th.pc + BitVec.ofInt 64 (12 * x.off.toInt)).toNat true)))

/-- NOP and JOIN, once issued, only go on to the next instruction, with their hints (R271, R273). YIELD has exactly the effect of a NOP
with the hint YLD, on every thread that it issues, whatever its guard: YLD keeps a thread out of the ready list for 64 cycles
(R241, R271). When a JOIN may issue is no part of this statement (R273). -/
def Obligations.NopJoinAndYield : Prop :=
  (∀ s t th void pops,
     (∀ x : Plain, Alone s (.nop x) ⟨x.ctl, [], [], .own⟩ t th [] void pops →
       Does s (.nop x) ⟨x.ctl, [], [], .own⟩ t [] void pops fun e => e = {}) ∧
     (∀ x : Join, Alone s (.join x) ⟨x.ctl, [], [], .own⟩ t th [] void pops →
       Does s (.join x) ⟨x.ctl, [], [], .own⟩ t [] void pops fun e => e = {}) ∧
     (∀ x : Plain, Alone s (.yield x) ⟨x.ctl, [], [], .own⟩ t th [] void pops →
       ∃ s' th', exec (.yield x) s = .next s' ∧ SameOutside s.lanesSee s' ∧ thread? s' t = some th' ∧ th'.pc = th.next ∧
         th'.yld = some (s.now + 64) ∧ th'.regs = th.regs ∧ th'.preds = th.preds)) ∧
  (∀ (s : State) (x : Plain) core sub pc word lanes, s.cur = some ⟨core, sub, pc, word, .yield x, lanes⟩ →
     exec (.yield x) s = exec (.nop ⟨{ x.ctl with yld := true }⟩)
       { s with cur := some ⟨core, sub, pc, word, .nop ⟨{ x.ctl with yld := true }⟩, lanes⟩ })

/-- CALL and CALLX move the window up by S, leave the link pair in the callee's window and set its frame size, where the register
stack has room without a spill and two pool entries are free; RET with a link moves it down by the link's S, restores the frame
size that it holds and goes to its target, where the registers of the caller's window are all in the pool (R104, R268). -/
def Obligations.CallsAndReturnsMoveTheWindow : Prop :=
  (∀ s t th vals void pops (d : BitVec 6) (c : Ctl) (n : BitVec 6) (s8 : BitVec 3) (o : OpInfo) (i : Instr) (target : W64),
     ((∃ x : Call, i = .call x ∧ o = ⟨x.ctl, [], [], .own⟩ ∧ x.ctl = c ∧ x.d = .v d ∧ x.n = n ∧ x.s = s8 ∧ vals = [] ∧
         target = relTarget th.pc x.off) ∨
      (∃ x : CallX, i = .callx x ∧ o = ⟨x.ctl, [sA x.a 64 .n64], [], .own⟩ ∧ x.ctl = c ∧ x.d = .v d ∧ x.n = n ∧ x.s = s8 ∧
         vals.any valPsn = false ∧ target = BitVec.ofNat 64 (valNat (vals.getD 0 [])))) →
     Alone s i o t th vals void pops → canonical target.toNat = true → target.toNat % 12 = 0 →
     th.wbase + 8 * s8.toNat + 64 ≤ 2 ^ 20 → th.wbase + 8 * s8.toNat + 64 ≤ th.bot + 512 →
     2 ≤ poolFree (modThread (readState s t o vals void pops) t fun th => { th with wbase := th.wbase + 8 * s8.toNat })
       (coreOf s t.team) →
     ∃ s' th', exec i s = .next s' ∧ thread? s' t = some th' ∧ th'.pc = target ∧ th'.wbase = th.wbase + 8 * s8.toNat ∧
       th'.nregs = n.toNat + 1 ∧ th'.bot = th.bot ∧
       (∀ j : Nat, j < 2 → getReg th' (th'.wbase + d.toNat + j) = (natVals (linkWord th s8).toNat false 2)[j]?.map fun x =>
         Reg.write (getReg th (th'.wbase + d.toNat + j)) x) ∧
       (∀ u : TRef, u.key ≠ t.key → thread? s' u = thread? s u) ∧ (∀ a, memGet s'.mem a = memGet s.mem a)) ∧
  (∀ s t th void pops (x : OneSrc) (a b : W32) (S : Nat) (target : W64),
     Alone s (.ret x) ⟨x.ctl, [sA x.a 64 .n64], [], .own⟩ t th [[⟨a, false⟩, ⟨b, false⟩]] void pops → x.a.spec ≠ .zero →
     S = 8 * (b.toNat / 2 ^ 23 % 8) → S ≠ 0 → S ≤ th.wbase → th.bot ≤ th.wbase - S →
     target = BitVec.ofNat 64 (sx57 ((a.toNat + 2 ^ 32 * b.toNat) % 2 ^ 55 * 4)) → canonical target.toNat = true →
     target.toNat % 12 = 0 →
     ∃ s1 th', exec (.ret x) s = .next (afterExit s1 t.team t.gid) ∧ thread? s1 t = some th' ∧ th'.pc = target ∧
       th'.wbase = th.wbase - S ∧ th'.nregs = b.toNat / 2 ^ 26 % 64 + 1 ∧ th'.st = .eligible ∧
       (∀ d, th.wbase - S + 64 ≤ d → getReg th' d = none))

/-- EXIT, and RET without a link outside a save or restore handler, end the thread: its registers are released and its latches void;
then the group and its team settle (R269, R270). -/
def Obligations.ExitEndsTheThread : Prop :=
  ∀ s t th void pops,
    (∀ x : Plain, Alone s (.exit x) ⟨x.ctl, [], [], .own⟩ t th [] void pops →
      ∃ s1 th', exec (.exit x) s = .next (afterExit s1 t.team t.gid) ∧ thread? s1 t = some th' ∧ th'.st = .exited ∧
        th'.regs = [] ∧ th'.lat0 = Latch.void ∧ th'.lat1 = Latch.void ∧ th'.lat2 = Latch.void ∧ s1.mem = s.mem ∧
        s1.teams = s.teams) ∧
    (∀ (x : OneSrc) vals, Alone s (.ret x) ⟨x.ctl, [sA x.a 64 .n64], [], .own⟩ t th vals void pops → x.a.spec = .zero →
      inHandler s t.team = false →
      ∃ s1 th', exec (.ret x) s = .next (afterExit s1 t.team t.gid) ∧ thread? s1 t = some th' ∧ th'.st = .exited ∧
        th'.regs = [] ∧ s1.mem = s.mem ∧ s1.teams = s.teams)

/-! System registers, traps and halts: class 0x4 (R274-R276, R453-R466, R500). -/

/-- SYSR and STAT write what they read of the machine (R276, R465), MVT completes with its rows (R295); SYSW sets DRAWS at once
and a team register at the end of the cycle (R140, R276): there the last write of a cycle to a register stands. The order at
the end of the cycle is the model's reading (assumption 64). -/
def Obligations.SystemRegisterAccess : Prop :=
  (∀ s t th vals void pops,
     (∀ x : SysR, Alone s (.sysr x) ⟨x.ctl, [], [⟨x.d, (sysRegWidth x.num.toNat).getD 32⟩], .own⟩ t th [] void pops →
       Does s (.sysr x) ⟨x.ctl, [], [⟨x.d, (sysRegWidth x.num.toNat).getD 32⟩], .own⟩ t [] void pops fun e =>
         e.writes = [(x.d, natVals (sysRead s.lanesSee t th x.num.toNat) false ((sysRegWidth x.num.toNat).getD 32 / 32))]) ∧
     (∀ x : Stat, Alone s (.stat x) ⟨x.ctl, [], [⟨x.d, 32⟩], .own⟩ t th [] void pops →
       Does s (.stat x) ⟨x.ctl, [], [⟨x.d, 32⟩], .own⟩ t [] void pops fun e =>
         e.writes = [(x.d, natVals (statOf s.lanesSee t th x.sel.toNat) false 1)]) ∧
     (∀ (x : SysW) o, Alone s (.sysw x) o t th vals void pops → x.num = 0x08 →
       ∃ s', exec (.sysw x) s = .next s' ∧ GoesOn s' t th fun th' => Keeps th .zero 0 [] th' ∧
         th'.draws = BitVec.ofNat 64 (valNat (vals.getD 0 []))) ∧
     (∀ (x : SysW) o tm, Alone s (.sysw x) o t th vals void pops → x.num ≠ 0x08 → team? s t.team = some tm →
       ∃ s' tm', exec (.sysw x) s = .next s' ∧ team? s' t.team = some tm' ∧
         tm' = { tm with sysw := tm.sysw ++ [(x.num.toNat, BitVec.ofNat 64 (valNat (vals.getD 0 [])))] }) ∧
     (∀ x : Mvt, Alone s (.mvt x) ⟨x.ctl, [mvtSrc x, sB x.b 32 .n32], [⟨.v x.d, 32 * (x.rows.toNat + 1)⟩], .own⟩ t th vals void
         pops → (mvtLane x s.lanesSee (laneOf s t th vals)).exc = none →
       exec (.mvt x) s = .next (laneNext s t ⟨x.ctl, [mvtSrc x, sB x.b 32 .n32], [⟨.v x.d, 32 * (x.rows.toNat + 1)⟩], .own⟩ vals
         void pops (mvtLane x s.lanesSee (laneOf s t th vals))))) ∧
  (∀ s k tm l v, team? s k = some tm → ∃ tm', team? (applySysw s) k = some tm' ∧ tm'.sysw = [] ∧
     (tm.sysw = l ++ [(0x00, v)] → tm'.rkey = v) ∧ (tm.sysw = l ++ [(0x01, v)] → tm'.vtbase = v &&& ~~~0xFFF) ∧
     (tm.sysw = l ++ [(0x10, v)] → tm'.tvec = v &&& ~~~3) ∧ (tm.sysw = l ++ [(0x11, v)] → tm'.ten = BitVec.ofNat 5 (v.toNat / 2)) ∧
     (tm.sysw = [] → tm' = tm))

/-- Taking a recoverable trap: TDEPTH 1, the window 64 registers up with a frame of 64, the address of the record in its v0 and
v1, the thread at TVEC, its SEQ one higher; the record stands in memory before (R457, R458). Where the pool has no room for the
entry the thread is blocked with it (R468). A recoverable trap of a thread in its handler, or in a save or restore handler whose
record cannot be written, halts its group with cause 0x1B, then one of a team without a handler with cause 0x1A, then one whose record
cannot be written with 0x1B (R457). That SEQ counts the trap itself is the model's reading (assumption 26). -/
def Obligations.TrapEntersTheHandler : Prop :=
  (∀ s (x : Raise) t th s1, x.t = t → thread? s t = some th → th.tdepth = false → recordWritable s t = true → x.tvec ≠ 0 →
     callShift s t 64 = .ok s1 →
     (∀ s2 s3 th3, obtain s1 t.team t.gid 2 = (s2, true) →
       vaWrite s2 (coreOf s t.team) (ctxOf s t.team) (trapRecVa s t) 256
         (trapRecord x.exc { th with seq := th.seq + 1 } x.lanes x.pc x.resume false (inHandler s t.team) x.rep) false = .ok s3 →
       thread? s3 t = some th3 →
       ∃ th', thread? (takeTrap s x) t = some th' ∧ th'.pc = x.tvec ∧ th'.nregs = 64 ∧ th'.tdepth = true ∧ th'.wbase = th3.wbase ∧
         th'.seq = th3.seq + 1 ∧ th'.st = .eligible ∧ th'.held = [] ∧ th'.unres = none ∧
         getReg th' th3.wbase = some (.full ⟨BitVec.ofNat 32 (trapRecVa s t), false⟩) ∧
         getReg th' (th3.wbase + 1) = some (.full ⟨BitVec.ofNat 32 (trapRecVa s t / 2 ^ 32), false⟩) ∧
         (takeTrap s x).mem = s3.mem ∧ ∀ u : TRef, u.key ≠ t.key → thread? (takeTrap s x) u = thread? s3 u) ∧
     (∀ s2, obtain s1 t.team t.gid 2 = (s2, false) →
       ∃ th', thread? (takeTrap s x) t = some th' ∧ th'.st = .blocked .busy ∧ th'.pc = th.pc ∧ th'.regs = th.regs ∧
         th'.begun = some (.trap x.exc x.lanes x.pc x.resume x.rep x.tvec) ∧ SameMemory s (takeTrap s x))) ∧
  (∀ s (x : Raise) t th halted, x.t = t → thread? s t = some th →
     (halted = fun cause => haltGroup s t.team t.gid [⟨t.lane, x.exc.asHalt cause, x.pc, x.resume⟩] fun _ => x.lanes) →
     ((th.tdepth = true ∨ (inHandler s t.team = true ∧ recordWritable s t = false)) → takeTrap s x = halted 0x1B) ∧
     (th.tdepth = false → (inHandler s t.team = false ∨ recordWritable s t = true) → x.tvec = 0 → takeTrap s x = halted 0x1A) ∧
     (th.tdepth = false → inHandler s t.team = false → x.tvec ≠ 0 → recordWritable s t = false → takeTrap s x = halted 0x1B))

/-- TRAP raises cause 0x07 with its code in DETAIL and A in ADDR, after its last-use release (R455, R463). When any thread of an
issue of BRK has a true guard, its group halts with cause 0x1E, the threads with a true guard recorded with that cause and LANES
naming them; the threads with a false guard go on, and where no thread has a true guard BRK does no more (R464). -/
def Obligations.TrapAndBreakpointRaise : Prop :=
  (∀ s t th void pops,
    (∀ (x : TrapOp) (a : W32) (p : Bool) o, o = (⟨x.ctl, [sA x.a 32 .n32], [], .own⟩ : OpInfo) →
      Alone s (.trap x) o t th [[⟨a, p⟩]] void pops →
      exec (.trap x) s = .next (raisedAt s t o (readFlags [[⟨a, p⟩]] void) ⟨7, 0, some a.toNat, false, x.code.toNat⟩)) ∧
    (∀ x : Brk, Alone s (.brk x) ⟨x.ctl, [], [], .own⟩ t th [] void pops →
      exec (.brk x) s = .next (raisedAt s t ⟨x.ctl, [], [], .own⟩ 0 ⟨0x1E, 0, none, false, x.code.toNat⟩))) ∧
  (∀ s (x : Brk) core sub pc word (lanes on : List TRef),
    s.cur = some ⟨core, sub, pc, word, .brk x, lanes⟩ → (lanes.map TRef.key).Nodup →
    (∀ t ∈ lanes, ∃ th, thread? s t = some th ∧ th.canIssue = true ∧ th.unres = none) →
    on = lanes.filter (guardTrue s x.ctl) →
    ∃ (s1 : State) (m : W32), s1 = { s.lanesSee with threads := s1.threads } ∧
      (∀ u : TRef, (∀ t ∈ lanes, t.key = u.key → guardTrue s x.ctl t = true) → thread? s1 u = thread? s u) ∧
      (∀ t ∈ lanes, ∀ th, thread? s t = some th → guardOf th x.ctl = false → GoesOn s1 t th fun th' =>
        th'.regs = th.regs ∧ th'.preds = th.preds ∧ th'.tstat = th.tstat ∧ th'.wbase = th.wbase ∧ th'.nregs = th.nregs ∧
        th'.tdepth = th.tdepth) ∧
      (∀ l, l < 32 → m.getLsbD l = on.any (·.lane == l)) ∧
      exec (.brk x) s = .next ((groupsIn on).foldl (fun s' (tm, gid) =>
        let who := on.filter fun t => t.team == tm && t.gid == gid
        haltGroup s' tm gid (who.filterMap fun t => (thread? s t).map fun th =>
          ⟨t.lane, ⟨0x1E, 0, none, false, x.code.toNat⟩, th.pc, th.next⟩) fun c =>
            if who.any (·.lane == c.lane) then m else 0) s1))

/-- RTE with a good record of action 1 and no replay queue moves the window back, installs the record's frame size, predicates and
latches, clears TDEPTH and goes on at RESUME (R460, R461), where the registers of the window below are all in the pool. RTE
outside a trap handler is a bad return, SUB 0 (R460). -/
def Obligations.RteResumesItsThread : Prop :=
  (∀ s t th void pops (x : Plain) v s1 s2 ins,
     Alone s (.rte x) ⟨x.ctl, [], [], .own⟩ t th [] void pops → th.tdepth = true → storesOut s t = false → th.tfix = false →
     vaRead s.lanesSee (coreOf s t.team) (ctxOf s t.team) (trapRecVa s t) 256 = (.ok (v, false), s1) →
     recordOk s1 t.team t.gid (parseRec v) = true → (parseRec v).nrep = 0 → (parseRec v).action = 1 →
     wordAt s1 t.team t.gid (parseRec v).pc = (ins, s2) →
     (ins = none ∨ ∃ i, ins = some i ∧ classOf i ≤ 0xB ∧ classOf i ≠ 3 ∧ classOf i ≠ 4) →
     thread? s2 t = some th → th.bot ≤ th.wbase - 64 →
     ∃ s' th', exec (.rte x) s = .next s' ∧ thread? s' t = some th' ∧ th'.pc = (parseRec v).resume ∧
       th'.wbase = th.wbase - 64 ∧ th'.nregs = (parseRec v).nregs ∧ th'.preds = BitVec.ofNat 7 (parseRec v).pred ∧
       th'.tdepth = false ∧ th'.lat0 = recLatch (parseRec v) 0 ∧ th'.lat1 = recLatch (parseRec v) 1 ∧
       th'.lat2 = recLatch (parseRec v) 2 ∧ th'.st = .eligible ∧ (∀ d, th.wbase - 64 + 64 ≤ d → getReg th' d = none)) ∧
  (∀ s t th void pops (x : Plain), Alone s (.rte x) ⟨x.ctl, [], [], .own⟩ t th [] void pops → th.tdepth = false →
     exec (.rte x) s = .next (raisedAt s t ⟨x.ctl, [], [], .own⟩ 0 (excBadReturn 0 (trapRecVa s.lanesSee t))))

/-- An instruction that can trap, issued while a condition is enabled, opens a shadow: it writes nothing yet, and whether it traps
is settled with the team's enables at its issue (R454, R456). When it is complete SHADOW_COMMIT takes its trap with the held
instructions as replay queue, at the TVEC of its issue (R140, R457), or writes its result, of the g registers those that nothing has
written or claimed since; before that it does nothing. When a trap is detected is the model's reading (assumption 13). -/
def Obligations.ShadowOpensAndCommits : Prop :=
  (∀ s i a t th vals void pops, aluOf i = some a → Alone s i a.info t th vals void pops → a.traps = true → a.quiet = false →
    tenOf s t.team ≠ 0 → th.after = none →
    ∃ s' th' u, exec i s = .next s' ∧ thread? s' t = some th' ∧ th'.unres = some u ∧ u.ins = i ∧ u.pc = th.pc ∧
      u.due = s.now + a.lat ∧ u.eff = a.eval (laneOf s t th vals) ∧ u.trap = arithTrap (tenOf s t.team) u.eff ∧
      u.tvec = tvecOf s t.team ∧ (∀ d, releasedBy th a.info d = false → getReg th' d = getReg th d) ∧ th'.preds = th.preds ∧
      th'.tstat = (if u.trap.isNone then th.tstat ||| readFlags vals void else th.tstat) ∧ th'.pc = th.next ∧
      s' = { s.lanesSee with threads := s'.threads, groups := s'.groups, claims := s.claims + 1 }) ∧
  (∀ s t th u, thread? s t = some th → th.unres = some u →
    (s.now < u.due → exec (.shadowCommit t) s = .next s) ∧
    (u.due ≤ s.now → u.trap = none → ∃ s' th', exec (.shadowCommit t) s = .next s' ∧ thread? s' t = some th' ∧ th'.unres = none ∧
      th'.held = [] ∧ th'.pc = th.pc ∧
      (th.held = [] → (∀ k l, u.eff.writes = [(.v k, l)] → Holds th (.v k) l th') ∧
        ∀ d, writtenBy th u.eff d = false → getReg th' d = getReg th d)) ∧
    (∀ x, u.due ≤ s.now → u.trap = some x → t ∈ lanesOf t.team t.gid →
      (∀ v ∈ lanesOf t.team t.gid, v ≠ t → deferred s v u.due u.pc = none) →
      exec (.shadowCommit t) s = .next (raiseList (modThread s t fun th => { th with tstat := th.tstat ||| u.eff.flags })
        [{ t := t, exc := (match trapHalts s t u.tvec with | some c => x.asHalt c | none => x), lanes := u.lanes, pc := u.pc
           resume := th.pc, rep := th.held, tvec := u.tvec }])))

/-! Memory: classes 0x8 and 0x9 (R297-R308). -/

/-- LD, LDV, ATOM, RED and ATOMV of up to 64 bits at a place in this package: the destination is claimed empty, the access stands in
flight at the core with its address, and the thread goes on; no byte of memory differs yet (R107, R300, R304-R306). An LDV or
ATOMV goes so once its brick is found. What orders the fills is the model's reading (assumption 9). -/
def Obligations.LoadsAndAtomicsGoInFlight : Prop :=
  ∀ s t th vals void pops l s1, l.here → requests s1 (coreOf s t.team) < coreRequests →
    (∀ x : Ld, x.width.bytes ≤ 8 →
      Alone s (.ld x) ⟨x.ctl, [memSrc x.m], [⟨x.d, x.width.rwidth⟩], .own⟩ t th vals void pops →
      valPsn (vals.getD 0 []) = false →
      resolve s.lanesSee t x.m.space x.m.swz (memAddr (laneOf s t th vals) x.m.off) x.width.bytes .load = .ok l s1 →
      ∃ s', exec (.ld x) s = .next s' ∧
        InFlight s s' t th ⟨x.ctl, [memSrc x.m], [⟨x.d, x.width.rwidth⟩], .own⟩ x.d (x.width.rwidth / 32)
          (.load x.sx (8 * x.width.bytes)) l x.width.bytes) ∧
    (∀ (x : Ldv) vol vx vy vz va extra s0, x.width.bytes ≤ 8 →
      Alone s (.ldv x) ⟨x.ctl, volSrcs x.m, [⟨x.d, x.width.rwidth⟩], .own⟩ t th vals void pops →
      volArgs (laneOf s t th vals) false = .ok (vol, vx, vy, vz) →
      volFind s.lanesSee t vol (Coord.of vx vy vz) (Width_log x.width) = .elem va extra s0 →
      resolve s0 t .global 0 va x.width.bytes .load = .ok l s1 →
      ∃ s', exec (.ldv x) s = .next s' ∧ (∀ u : TRef, u.key ≠ t.key → thread? s' u = thread? s u) ∧
        InFlight s1 s' t th ⟨x.ctl, volSrcs x.m, [⟨x.d, x.width.rwidth⟩], .own⟩ x.d (x.width.rwidth / 32)
          (.load x.sx (8 * x.width.bytes)) l x.width.bytes) ∧
    (∀ (x : Atom) o i, (i = .atom x ∨ i = .red x) → x.width.bytes ≤ 8 → Alone s i o t th vals void pops →
      valPsn (vals.getD 0 []) = false →
      resolve s.lanesSee t x.m.space x.m.swz (memAddr (laneOf s t th vals) x.m.off) x.width.bytes .atomic = .ok l s1 →
      ∃ s', exec i s = .next s' ∧
        InFlight s s' t th o x.d (x.width.rwidth / 32) (.atomic (atomOpOf x.aop x.kind x.rnd x.place x.width.bytes
          (valNat (vals.getD 1 [])) (valPsn (vals.getD 1 [])) (drawWord s.lanesSee t th.draws 0))) l x.width.bytes) ∧
    (∀ (x : AtomV) o vol vx vy vz va extra s0, x.width.bytes ≤ 8 → Alone s (.atomv x) o t th vals void pops →
      volArgs (laneOf s t th vals) false = .ok (vol, vx, vy, vz) →
      volFind s.lanesSee t vol (Coord.of vx vy vz) (Width_log x.width) = .elem va extra s0 →
      resolve s0 t .global 0 va x.width.bytes .atomic = .ok l s1 →
      ∃ s', exec (.atomv x) s = .next s' ∧ (∀ u : TRef, u.key ≠ t.key → thread? s' u = thread? s u) ∧
        InFlight s1 s' t th o x.d (x.width.rwidth / 32) (.atomic (atomOpOf x.aop x.kind x.rnd .auto x.width.bytes
          (valNat (vals.getD 4 [])) (valPsn (vals.getD 4 [])) (drawWord s.lanesSee t th.draws 0))) l x.width.bytes)

/-- LOAD_FILL of a load whose value is there, or of an atomic whose answer has come, fills the claimed register with it; the access
leaves the core (R16, R107, R245). An atomic of the scratchpad, alone at its core, leaves the word that R305 gives in its place
and fills its register with the old one; every other byte of the scratchpad stands. -/
def Obligations.FillsWriteTheirRegisters : Prop :=
  (∀ s core k a th v p s1 idx tag, findAcc s core k = some a → a.due ≤ s.now → a.dsts = [⟨false, idx, tag, 0⟩] →
     thread? s a.t = some th → Reg.awaits (getReg th idx) tag = true → Live s a.t →
     (∀ sx n, a.kind = .load sx n → loadReady s core a = true → loadValue s core a = some (v, p, s1) →
       ∃ s' th' x, exec (.loadFill core k) s = .next s' ∧ thread? s' a.t = some th' ∧ x = ⟨BitVec.ofNat 32 (extend sx n v), p⟩ ∧
         getReg th' idx = (getReg th idx).map (fun r => r.fill tag x) ∧
         (getReg th idx = some (.empty [⟨some tag, none⟩]) → getReg th' idx = some (.full x)) ∧ findAcc s' core k = none ∧ s'.mem = s.mem) ∧
     (∀ o, a.kind = .atomic o → a.reply = some (v, p) →
       ∃ s' th' x, exec (.loadFill core k) s = .next s' ∧ thread? s' a.t = some th' ∧ x = ⟨BitVec.ofNat 32 v, p⟩ ∧
         getReg th' idx = (getReg th idx).map (fun r => r.fill tag x) ∧
         (getReg th idx = some (.empty [⟨some tag, none⟩]) → getReg th' idx = some (.full x)) ∧ findAcc s' core k = none ∧ s'.mem = s.mem)) ∧
  (∀ s core k a o tm off new tmr, findAcc s core k = some a → (getCore s core).acc = [a] → coreGroup s core = [core] → a.due ≤ s.now →
     a.kind = .atomic o → a.reply = none → a.inL1 = false → a.scope ≠ .system → a.parts = [⟨.spad tm off, o.bytes, 0⟩] →
     team? s tm = some tmr → o.new (memLoad tmr.spad off o.bytes) = some new → Live s a.t →
     ∃ s' tm', exec (.loadFill core k) s = .next s' ∧ team? s' tm = some tm' ∧ tm'.spad = memStore tmr.spad off o.bytes new ∧
       (∀ x, x < off ∨ off + o.bytes ≤ x → memGet tm'.spad x = memGet tmr.spad x) ∧ s'.mem = s.mem)

/-- A store of any width whose thread has no access in flight. In a scratchpad its bytes stand at the address at once and every other
byte is unchanged: a plain store of a team that is no gang's, and another where nothing is pending in the L1 and, for a release, what
precedes it is performed; a gang's plain store behind a store that is pending in the L1 waits in flight (R207, R218). In memory a
plain store's bytes enter the L1, where a way of the line's set holds no pending byte, as valid and pending bytes of that line; another
line of an L1 goes only where it holds none; a release stands in flight. No line of an L2, no home and no byte of HBM differs (R169,
R208, R300, R306). Stores of 128 bits are two of 64 (R222). What orders those of a gang is the model's reading (assumption 9). -/
def Obligations.StoresWriteTheirBytes : Prop :=
  ∀ s t th vals void pops i o (w : Width) (ord : Ord) sc l s1 n core data psn, Alone s i o t th vals void pops → NoAccess s t →
    core = coreOf s t.team → requests s1 core + (pieces l w.bytes).length ≤ coreRequests →
    data = valNat (vals.getD n []) → psn = valPsn (vals.getD n []) →
    ((∃ x : St, i = .st x ∧ x.width = w ∧ x.ord = ord ∧ sc = scopeOn x.m.space x.scope ∧ n = 1 ∧ valPsn (vals.getD 0 []) = false ∧
        resolve s.lanesSee t x.m.space x.m.swz (memAddr (laneOf s t th vals) x.m.off) w.bytes .store = .ok l s1) ∨
     (∃ (x : Stv) (vol : Nat) (vx vy vz : Int) (va extra : Nat) (s0 : State), i = .stv x ∧ x.width = w ∧ x.ord = ord ∧ sc = x.scope ∧ n = 4 ∧
        volArgs (laneOf s t th vals) false = .ok (vol, vx, vy, vz) ∧
        volFind s.lanesSee t vol (Coord.of vx vy vz) (Width_log w) = .elem va extra s0 ∧
        resolve s0 t .global 0 va w.bytes .store = .ok l s1)) →
    (∀ u off tm, l = .spad u off → team? s u = some tm →
      (ord.releases = false ∧ teamGang s u = false) ∨
        (pendingStores s1 core = [] ∧ (ord.releases = true → relReady s1 t sc = true)) →
      ∃ s' tm', exec i s = .next s' ∧ GoesOn s' t th (Keeps th .zero 0 []) ∧ team? s' u = some tm' ∧ SameMemory s1 s' ∧
        tm'.spad = (pieces l w.bytes).foldl (fun m p =>
          memStore m (off + p.at_) p.bytes (data / 2 ^ (8 * p.at_) % 2 ^ (8 * p.bytes))) tm.spad ∧
        ∀ x, x < off ∨ off + w.bytes ≤ x → memGet tm'.spad x = memGet tm.spad x) ∧
    (∀ u off, l = .spad u off → w.bytes ≤ 8 → ord.releases = false → teamGang s u = true →
      (∃ a ∈ pendingStores s1 core, a.id < s1.ids ∧ a.bulk = false) →
      ∃ s', exec i s = .next s' ∧ InFlight s1 s' t th o .zero 0 (.store (data % 2 ^ (8 * w.bytes)) psn) l w.bytes) ∧
    (∀ pa cmp sl old, l = .mem pa cmp → ord.releases = false → pa % w.bytes = 0 → sl = l1Slice s1 core (lineOf pa) →
      l1Room s1 sl (lineOf pa) ≠ .none → old = (l1Line? s1 sl (lineOf pa)).getD ⟨0, 0, Line.zero, 0⟩ →
      ∃ s' ln, exec i s = .next s' ∧ GoesOn s' t th (Keeps th .zero 0 []) ∧ s'.mem = s.mem ∧ s'.llc = s1.llc ∧ SameLines s1 s' ∧
        s'.homeQ = s1.homeQ ∧ s'.pwrites = s1.pwrites ∧ l1Line? s' sl (lineOf pa) = some ln ∧
        ln.valid = old.valid ||| byteMask (pa % 128) w.bytes ∧ ln.pend = old.pend ||| byteMask (pa % 128) w.bytes ∧
        ln.line = (pieces l w.bytes).foldl (fun c p =>
          c.put (pa % 128 + p.at_) p.bytes (data / 2 ^ (8 * p.at_) % 2 ^ (8 * p.bytes)) psn) old.line ∧
        ∀ k, k ≠ l1Key sl (lineOf pa) → Tab.get? s'.l1 k = Tab.get? s1.l1 k ∨
          (Tab.get? s'.l1 k = none ∧ ∃ x, Tab.get? s1.l1 k = some x ∧ x.pend = 0)) ∧
    (∀ pa cmp, l = .mem pa cmp → w.bytes ≤ 8 → ord.releases = true →
      ∃ s', exec i s = .next s' ∧ InFlight s1 s' t th o .zero 0 (.store (data % 2 ^ (8 * w.bytes)) psn) l w.bytes)

/-- Bytes put into a line read back, and the bytes beside them are as they were. STORE_APPLY_L2: a store whose turn has come, whose
L2 holds the line in M or E: the L2's line takes its bytes and is M; the state and the bytes of every other line of every agent,
the LLC and HBM are unchanged (R170, R208). The order of the applications is the model's reading (assumption 10). -/
def Obligations.StoreReachesItsL2 : Prop :=
  (∀ (l : Line) (o n x : Nat) (p : Bool), o + n ≤ 128 →
     (l.put o n x p).get o n = x % 2 ^ (8 * n) ∧ ∀ a, a < 128 → a < o ∨ o + n ≤ a → (l.put o n x p).get a 1 = l.get a 1) ∧
  (∀ s core k a d psn pa cmp n at_ al, findAcc s core k = some a → a.kind = .store d psn → a.parts = [⟨.mem pa cmp, n, at_⟩] →
     a.inL1 = true → applyNext s core a = true → dieLost s (2 + lineMdie (lineOf pa)) = false →
     agLine? s (agentOf core) (lineOf pa) = some al → (al.st = .m ∨ al.st = .e) →
     ∃ s' al', exec (.storeApplyL2 core k) s = .next s' ∧ agLine? s' (agentOf core) (lineOf pa) = some al' ∧ al'.st = .m ∧
       al'.line = { al.line.put (pa % 128) n d psn with cmp := cmp } ∧
       (∀ key, key ≠ agKey (agentOf core) (lineOf pa) →
         (Tab.get? s'.ag key).map (fun x => (x.st, x.line)) = (Tab.get? s.ag key).map fun x => (x.st, x.line)) ∧
       s'.llc = s.llc ∧ s'.mem = s.mem)

/-- PREF never faults and never waits, whatever its address (R302); FLUSH of an address of this package's memory stands in flight as
a flush of its line, and its thread goes on (R303). Neither changes a byte of memory. A FENCE whose thread's earlier accesses are
performed only goes on (R310). -/
def Obligations.PrefetchFlushAndFence : Prop :=
  (∀ s t th vals void pops,
    (∀ x : Pref, Alone s (.pref x) ⟨x.ctl, [sA x.addr 64 .n64], [], .own⟩ t th vals void pops →
      ∃ s', exec (.pref x) s = .next s' ∧ GoesOn s' t th (Keeps th .zero 0 []) ∧ s'.mem = s.mem ∧ s'.ag = s.ag) ∧
    (∀ (x : Flush) pa cmp s1, Alone s (.flush x) ⟨x.ctl, [sA x.addr 64 .n64], [], .own⟩ t th vals void pops →
      valPsn (vals.getD 0 []) = false →
      resolve s.lanesSee t x.space 0 (memAddr (laneOf s t th vals) x.off) 1 .load = .ok (.mem pa cmp) s1 →
      requests s1 (coreOf s t.team) < coreRequests →
      ∃ s', exec (.flush x) s = .next s' ∧ InFlight s s' t th ⟨x.ctl, [sA x.addr 64 .n64], [], .own⟩ .zero 0 .flush (.mem pa cmp) 1)) ∧
  (∀ s t th void pops (x : Fence), Alone s (.fence x) ⟨x.ctl, [], [], .own⟩ t th [] void pops →
     (∀ a ∈ accs s t, a.t = t → FenceKind_covers x.kind a = true → (a.bulk = true → x.bulk = true) →
       performedAt s (coreOf s t.team) a x.scope = true) →
     (x.scope = .system → (getCore s (coreOf s t.team)).acks = 0) →
     ∃ s', exec (.fence x) s = .next s' ∧ GoesOn s' t th (Keeps th .zero 0 []) ∧ SameMemory s s')

/-- Volumes: LDV of an absent element reads the background (R306, R194); VINVAL drops the CLB entries that match, waits for its answer
and goes on at VINVAL_COMPLETE, once the walks, links, copies and accesses before it are over (R203). A LINK_REQUEST ends in one
transaction: of an entry that has been linked in the meantime it writes nothing, and the walk goes on below it; a link that fails
raises its fault (R198, R200). That the core keeps the result for the thread, which still stands at its instruction, is the model's
choice (assumption 72). -/
def Obligations.VolumeInstructions : Prop :=
  (∀ s t th vals void pops (x : Ldv) vol vx vy vz d line lv wva s1,
    Alone s (.ldv x) ⟨x.ctl, volSrcs x.m, [⟨x.d, x.width.rwidth⟩], .own⟩ t th vals void pops →
    volArgs (laneOf s t th vals) false = .ok (vol, vx, vy, vz) →
    volFind s.lanesSee t vol (Coord.of vx vy vz) (Width_log x.width) = .absent d line lv wva s1 →
    ∃ s', exec (.ldv x) s = .next s' ∧ SameMemory s1 s' ∧
      GoesOn s' t th fun th' => Keeps th x.d (x.width.rwidth / 32) [] th' ∧
        Holds th x.d (natVals (extend x.sx (8 * x.width.bytes) d.bg) false (x.width.rwidth / 32)) th') ∧
  (∀ s t th vals void pops (x : VInval) o vol vx vy vz, Alone s (.vinval x) o t th vals void pops →
    volArgs (laneOf s t th vals) x.all = .ok (vol, vx, vy, vz) →
    ∃ s' th' j, exec (.vinval x) s = .next s' ∧ thread? s' t = some th' ∧ th'.st = .blocked .unit ∧ th'.pc = th.pc ∧
      s'.vinvs = s.vinvs ++ [j] ∧ j.t = t ∧ j.dva = descVa s t.team vol ∧
      (j.key = if x.all then none else some (Coord.of vx vy vz).brickKey) ∧
      ∀ c e, e ∈ (getCore s' c).clb → e.ctx = ctxOf s t.team → e.dva = j.dva → x.all = false ∧ j.key ≠ some e.key) ∧
  (∀ s k j th, s.vinvs[k]? = some j → vinvalReady s j = true → thread? s j.t = some th → th.st = .blocked .unit →
    ∃ s', exec (.vinvalComplete k) s = .next s' ∧ GoesOn s' j.t th (fun _ => True) ∧ s'.vinvs = s.vinvs.eraseIdx k) ∧
  (∀ s k r th s0 s1, s.links[k]? = some r → s0 = { s with links := s.links.eraseIdx k } → thread? s1 r.t = some th →
    th.st = .blocked .busy → th.pc = r.pc →
    (∀ w, linkRun s0 r = .present w s1 → (∀ z e, w ≠ .exc z e) →
      ∃ s', exec (.linkRequest k) s = .next s' ∧ s'.links = s1.links ∧ thread? s' r.t = some th ∧ SameMemory s1 s' ∧
        ∃ y ∈ (getCore s' (coreOf s1 r.t.team)).walks, y.res = some w ∧ y.waiters = [(r.t, r.pc)] ∧ y.dva = r.dva) ∧
    (∀ e, linkRun s0 r = .exc e s1 → exec (.linkRequest k) s = .next (raiseOne s1 r.t e)) ∧
    (∀ d e, parseDesc r.desc.toNat = some d → r.level = 2 → homesIdle s = true →
      volRead s0 true (coreOf s r.t.team / 192) (ctxOf s r.t.team) r.wva 4 1 = (.ok (e, false), s1) →
      bits e 30 24 = 0 → bit e 31 = true →
      ∃ s', exec (.linkRequest k) s = .next s' ∧ SameMemory s s' ∧
        ∃ y ∈ (getCore s' (coreOf s1 r.t.team)).walks, y.waiters = [(r.t, r.pc)] ∧
          y.res = some (.brick ((d.brk + 64 * 2 ^ d.esz * bits e 23 0) % 2 ^ 64) d.esz)))

/-! Synchronisation: class 0xA (R309-R322). -/

/-- BAR waits at its instruction and stands among the arrivals of the cycle; at its end the arrival counts (the model's reading of
"arrivals of one cycle", assumption 64): the first of a phase
fixes the target, its operand or, where that is 0, the team's non-exited threads; below the target the thread waits on, and the
arrival that reaches it sets the count to 0 and lets every thread that waits there go on, itself included (R311). -/
def Obligations.BarrierCountsAndReleases : Prop :=
  (∀ s t th tm void pops (x : Bar) (e : W32) (p : Bool),
    Alone s (.bar x) ⟨x.ctl, [sA x.a 32 .n32], [], .own⟩ t th [w1 e p] void pops → inHandler s t.team = false →
    relReady s t .team = true → team? s t.team = some tm →
    ∃ s' tm', exec (.bar x) s = .next s' ∧ WaitsAt s' t th (.bar x e.toNat) ∧ SameMemory s s' ∧ team? s' t.team = some tm' ∧
      tm' = { tm with arrivals := tm.arrivals ++ [t.tid] } ∧ (∀ u : TRef, u.key ≠ t.key → thread? s' u = thread? s u)) ∧
  (∀ s t th tm (x : Bar) (e : Nat) (old : BarSt) (given target : Nat), team? s t.team = some tm → tm.st = .resident →
    tm.arrivals = [t.tid] → t ∈ threadsOf s t.team → thread? s t = some th → th.st = .waiting (.bar x e) →
    old = Tab.getD tm.bars x.b.toNat ⟨0, 0⟩ → given = (if old.count = 0 then e else old.target) →
    target = (if given = 0 then liveThreads s t.team else given) →
    (old.count + 1 < target → ∃ tm', team? (barTick s t.team) t.team = some tm' ∧
      Tab.get? tm'.bars x.b.toNat = some ⟨old.count + 1, given⟩ ∧ tm'.arrivals = [] ∧ thread? (barTick s t.team) t = some th) ∧
    (target ≤ old.count + 1 → ∃ tm', team? (barTick s t.team) t.team = some tm' ∧
      Tab.get? tm'.bars x.b.toNat = none ∧ tm'.arrivals = [] ∧
      ∀ u thu y f, u ∈ threadsOf s t.team → thread? s u = some thu → thu.st = .waiting (.bar y f) → y.b = x.b →
        GoesOn (barTick s t.team) u thu fun _ => True))

/-- Package barriers: BARX waits with its address; its arrival at the record counts one, and the last one of a phase writes COUNT 0
and the next PHASE and releases the teams that wait, which wait in the record's phase; a record that is not ready gives its status
at once (R315). BARINIT waits for its answer; applied, it leaves COUNT 0, PHASE 0 and EXPECT, releases waiting teams with status 3
and lets its thread go on (R314). -/
def Obligations.PackageBarriers : Prop :=
  (∀ s t th vals void pops (x : Barx) pa cmp s1, Alone s (.barx x) ⟨x.ctl, [sA x.addr 64 .n64], [⟨x.d, 32⟩], .own⟩ t th vals void
      pops →
    inHandler s t.team = false → valPsn (vals.getD 0 []) = false → relReady s t .package = true → th.barxSent = none →
    barAddr s.lanesSee (laneOf s t th vals) x.off = .ok (.mem pa cmp) s1 →
    ∃ s' sent, exec (.barx x) s = .next s' ∧
      WaitsAt s' t th (.barx x (BitVec.ofNat 64 (memAddr (laneOf s t th vals) x.off)) sent 0) ∧ s'.mem = s.mem) ∧
  (∀ s k tm pa a c id r, s.msgs[k]? = some (.barx tm pa a c id) → dieLost s (2 + paMdie pa) = false → r = readRec s pa →
    recStatus (tm / 2 ^ 28) r = none →
    ∃ s1, s1.barxs = s.barxs ++ [⟨tm, pa, r.phase⟩] ∧ s1.msgs = s.msgs.eraseIdx k ∧ SameMemory s s1 ∧
      (∀ u th x a' ph, (u, Wait.barx x a' true ph) ∈ waitersOf s tm → thread? s u = some th →
        thread? s1 u = some { th with st := .waiting (.barx x a' true r.phase) }) ∧
      exec (.barxArrive k) s = .next (if (r.count + 1) % 2 ^ 32 = r.expect
        then barxRelease (writeRec s1 pa ⟨0, r.expect, r.phase + 1, r.st⟩ (some c)) pa 0
        else writeRec s1 pa ⟨r.count + 1, r.expect, r.phase, r.st⟩ (some c))) ∧
  (∀ s k tm pa a c id v, s.msgs[k]? = some (.barx tm pa a c id) → dieLost s (2 + paMdie pa) = false →
    recStatus (tm / 2 ^ 28) (readRec s pa) = some v →
    exec (.barxArrive k) s = .next (barxWake { s with msgs := s.msgs.eraseIdx k } tm v)) ∧
  (∀ s t th vals void pops (x : BarInit) pa cmp s1, Alone s (.barinit x) ⟨x.ctl, [sA x.addr 64 .n64, sB x.b 32 .n32], [], .own⟩ t th
      vals void pops →
    valPsn (vals.getD 0 []) = false → relReady s t .package = true →
    barAddr s.lanesSee (laneOf s t th vals) x.off = .ok (.mem pa cmp) s1 →
    ∃ s' th', exec (.barinit x) s = .next s' ∧ thread? s' t = some th' ∧ th'.st = .blocked .unit ∧ th'.pc = th.pc ∧
      s'.msgs = s.msgs ++ [.barinit t x.ctl (ctxOf s t.team) pa (BitVec.ofNat 32 (valNat (vals.getD 1 []))) cmp s1.ids]) ∧
  (∀ s k t c ctx pa (e : W32) cmp id s1 th, s.msgs[k]? = some (.barinit t c ctx pa e cmp id) → dieLost s (2 + paMdie pa) = false →
    s1 = barxRelease { writeRec { s with msgs := s.msgs.eraseIdx k } pa ⟨0, e.toNat, 0, if e = 0 then 0 else 1 + 4 * ctx⟩ (some cmp) with
      barRecs := setPut s.barRecs pa (e != 0) } pa 3 →
    thread? s1 t = some th → th.st = .blocked .unit →
    exec (.barinitApply k) s = .next (proceed s1 t))

/-- WAITV of a word of the scratchpad: where the word meets the condition D receives it and the thread goes on; else it waits, and
WAITV_REREAD lets it go on as soon as the word does (R317). -/
def Obligations.WaitvTestsItsWord : Prop :=
  ∀ s t th (x : Waitv) off v p, x.space = .spad →
    resolve s t .spad 0 off (waitBytes x) .load = .ok (.spad t.team off) s → spadLoad s t.team off (waitBytes x) = (v, p) →
    (∀ vals void pops o, Alone s (.waitv x) o t th vals void pops → inHandler s t.team = false → NoAccess s t → valPsn (vals.getD 0 []) = false → memAddr (laneOf s t th vals) x.off = off →
      off < 2 ^ 64 →
      ∃ s', exec (.waitv x) s = .next s' ∧
        if waitCond x.c.toNat (8 * waitBytes x) v (valNat (vals.getD 1 [])) = true
        then GoesOn s' t th (fun th' => Holds th x.d (natVals v p (waitBytes x / 4)) th' ∧ Keeps th x.d (waitBytes x / 4) [] th')
        else WaitsAt s' t th (.waitv x (BitVec.ofNat 64 off) (valNat (vals.getD 1 [])))) ∧
    (∀ b tm o, thread? s t = some th → th.st = .waiting (.waitv x (BitVec.ofNat 64 off) b) → infoOf (.waitv x) = some o → HasRead th o →
      off < 2 ^ 64 →
      team? s t.team = some tm → tm.st = .resident → t ∈ threadsOf s t.team →
      waitCond x.c.toNat (8 * waitBytes x) v b = true →
      ∃ s', exec (.waitvReread t) s = .next s' ∧ GoesOn s' t th (fun th' => Holds th x.d (natVals v p (waitBytes x / 4)) th' ∧ Keeps th x.d (waitBytes x / 4) [] th'))

/-- Semaphores: SEMINC adds modulo 2^32 and SEMSET writes, where no thread waits at theirs; one thread that waits there goes on where
SEMINC has brought its value, and, with .dec, takes it off. SEMWAIT of a value that has come goes on and, with .dec, takes it off;
SEMWAIT of a greater value waits (R318). -/
def Obligations.SemaphoresCount : Prop :=
  ∀ s t th void pops core (a : W32) (p : Bool), core = coreOf s t.team →
    (∀ x : Sem, Alone s (.seminc x) ⟨x.ctl, [sA x.a 32 .n32], [], .own⟩ t th [w1 a p] void pops → relReady s t .team = true →
      semWaiters s core x.n.toNat = [] →
      ∃ s', exec (.seminc x) s = .next s' ∧ GoesOn s' t th (Keeps th .zero 0 []) ∧
        semOf s' core x.n.toNat = (semOf s core x.n.toNat + a.toNat) % 2 ^ 32 ∧
        ∀ n, n ≠ x.n.toNat → semOf s' core n = semOf s core n) ∧
    (∀ (x : Sem) u y b thu v, Alone s (.seminc x) ⟨x.ctl, [sA x.a 32 .n32], [], .own⟩ t th [w1 a p] void pops →
      relReady s t .team = true → semWaiters s core x.n.toNat = [(u, y, b)] → thread? s u = some thu → u.key ≠ t.key →
      v = (semOf s core x.n.toNat + a.toNat) % 2 ^ 32 →
      ∃ s', exec (.seminc x) s = .next s' ∧ GoesOn s' t th (Keeps th .zero 0 []) ∧
        if b ≤ v then GoesOn s' u thu (fun _ => True) ∧ semOf s' core x.n.toNat = v - (if y.dec = true then b else 0)
        else thread? s' u = some thu ∧ semOf s' core x.n.toNat = v) ∧
    (∀ x : Sem, Alone s (.semset x) ⟨x.ctl, [sA x.a 32 .n32], [], .own⟩ t th [w1 a p] void pops →
      semWaiters s core x.n.toNat = [] →
      ∃ s', exec (.semset x) s = .next s' ∧ GoesOn s' t th (Keeps th .zero 0 []) ∧ semOf s' core x.n.toNat = a.toNat ∧
        ∀ n, n ≠ x.n.toNat → semOf s' core n = semOf s core n) ∧
    (∀ (x : SemWait) o s1, o = (⟨x.ctl, [sB x.b 32 .n32], [], .own⟩ : OpInfo) → Alone s (.semwait x) o t th [w1 a p] void pops →
      inHandler s t.team = false →
      s1 = startWait s.lanesSee t (.semwait x a) →
      semWaiters s1 core x.n.toNat = [(t, x, a.toNat)] →
      ∃ s', exec (.semwait x) s = .next s' ∧
        if a.toNat ≤ semOf s core x.n.toNat
        then GoesOn s' t th (Keeps th .zero 0 []) ∧ semOf s' core x.n.toNat = semOf s core x.n.toNat - (if x.dec = true then a.toNat else 0)
        else WaitsAt s' t th (.semwait x a) ∧ semOf s' core x.n.toNat = semOf s core x.n.toNat)

/-- OWN sets its predicate to whether it flips the page's owner bit: .e a page that is T, .t a page that is E and that no outstanding
command names; OWNWAIT goes on where the page is T and waits where it is E (R320). -/
def Obligations.OwnerBitsFlip : Prop :=
  ∀ s t th tm void pops (a : W32) (p : Bool), a.toNat / 4096 < pagesOf s t.team → a.toNat / 4096 < 96 → team? s t.team = some tm →
    (∀ x : Own, Alone s (.own x) ⟨x.ctl, [sA x.a 32 .n32], [], .own⟩ t th [w1 a p] void pops → relReady s t .team = true →
      ∃ (s' : State) (flip : Bool), exec (.own x) s = .next s' ∧
        (flip = true ↔ (x.toE = true ∧ pageE s t.team (a.toNat / 4096) = false) ∨
          (x.toE = false ∧ pageE s t.team (a.toNat / 4096) = true ∧ pageNamed s t.team (a.toNat / 4096) = false)) ∧
        GoesOn s' t th (fun th' => Keeps th .zero 0 [x.n] th' ∧ (x.n ≠ 7 → predOf th' x.n = flip)) ∧
        pageE s' t.team (a.toNat / 4096) = (if flip then x.toE else pageE s t.team (a.toNat / 4096)) ∧
        (∀ k, k < 96 → k ≠ a.toNat / 4096 → pageE s' t.team k = pageE s t.team k) ∧ SameMemory s s') ∧
    (∀ x : OneSrc, Alone s (.ownwait x) ⟨x.ctl, [sA x.a 32 .n32], [], .own⟩ t th [w1 a p] void pops →
      inHandler s t.team = false → tm.st = .resident → t ∈ threadsOf s t.team →
      ∃ s', exec (.ownwait x) s = .next s' ∧
        if pageE s t.team (a.toNat / 4096) = true then WaitsAt s' t th (.ownwait x a) else GoesOn s' t th (Keeps th .zero 0 []))

/-- VREAD of a version that has come, its thread standing once among those that wait, delivers the register's value and whether the
version is exactly the one asked for; else it waits. VWRITE writes value and version where the version is 1 to 2^31 − 1 ahead, and
sets its predicate to whether it did (R322). -/
def Obligations.VersionedRegisters : Prop :=
  ∀ s t th vals void pops,
    (∀ (x : VRead) (b : W32) (p : Bool) o s1, vals = [w1 b p] → o = (⟨x.ctl, [sB x.b 32 .n32], [⟨x.d, 64⟩], .own⟩ : OpInfo) →
      Alone s (.vread x) o t th vals void pops → inHandler s t.team = false →
      s1 = startWait s.lanesSee t (.vread x b) →
      (allWaiters s1).filter (fun y => y.1.key == t.key) = [(t, .vread x b)] →
      ∃ s', exec (.vread x) s = .next s' ∧
        if reached (vsOf s x.i.toNat).version.toNat b.toNat = true
        then GoesOn s' t th (fun th' => Keeps th x.d 2 [x.n] th' ∧ Holds th x.d (natVals (vsOf s x.i.toNat).value.toNat (vsOf s x.i.toNat).psn 2) th' ∧
          (x.n ≠ 7 → predOf th' x.n = ((vsOf s x.i.toNat).version == b)))
        else WaitsAt s' t th (.vread x b)) ∧
    (∀ (x : VWrite) (a : List Val) (b : W32) (p : Bool), vals = [a, w1 b p] →
      Alone s (.vwrite x) ⟨x.ctl, [sA x.a 64 .n64, sB x.b 32 .n32], [], .own⟩ t th vals void pops → relReady s t .package = true →
      ∃ (s' : State) (ok : Bool), exec (.vwrite x) s = .next s' ∧
        (ok = true ↔ 1 ≤ (b - (vsOf s x.i.toNat).version).toNat ∧ (b - (vsOf s x.i.toNat).version).toNat < 2 ^ 31) ∧
        GoesOn s' t th (fun th' => Keeps th .zero 0 [x.n] th' ∧ (x.n ≠ 7 → predOf th' x.n = ok)) ∧
        vsOf s' x.i.toNat = (if ok then ⟨BitVec.ofNat 64 (valNat a), b, valPsn a⟩ else vsOf s x.i.toNat) ∧
        ∀ i, i ≠ x.i.toNat → vsOf s' i = vsOf s i)

/-! Letters and queues: class 0xB and R75-R89. -/

/-- LPOST writes the status of its post and goes on; a mail-slot letter is posted with its body, which is read only where the post is
not refused without it (R82, R324). LTAKE of a queue that holds a letter takes the first one: its 8 registers hold it; of a queue that
holds none it waits, and with .try it sets its predicate false (R325). LDONE releases the oldest letter that its thread has taken
(R326), and of a queue that has been discarded since nothing: its predicate is false (R80). -/
def Obligations.LettersPassBetweenThreads : Prop :=
  ∀ s t th vals void pops,
    (∀ (x : LPost) (st q : Nat) (l : BitVec 256) (p : Bool) s1,
      Alone s (.lpost x) ⟨x.ctl, [sBlk 0 x.a 8, sB x.b 32 .n32, sC x.c 64 .n64], [⟨x.d, 32⟩], .own⟩ t th vals void pops →
      l = BitVec.ofNat 256 (valNat (vals.getD 0 [])) → p = valPsn (vals.getD 0 []) →
      q = queueArg (valNat (vals.getD 1 [])) x.e → q < 4096 → relReady s t .package = true →
      ((letKind l ≠ 4 ∧ postAndTake s.lanesSee q (if valNat (vals.getD 2 []) = 0 then l else 0) p (some (ctxOf s t.team)) ([], []) =
          (st, s1)) ∨
        (letKind l = 4 ∧ st ≠ 0 ∧ postLetter s.lanesSee q l p (some (ctxOf s t.team)) ([], []) = (st, s1)) ∨
        (letKind l = 4 ∧ (postLetter s.lanesSee q l p (some (ctxOf s t.team)) ([], [])).1 = 0 ∧ valPsn (vals.getD 2 []) = false ∧
          ∃ pieces s2, readBody (coreOf s t.team) (ctxOf s t.team) 3 s.lanesSee (valNat (vals.getD 2 [])) (letField l 4 4) =
              (.ok pieces, s2) ∧ (∀ y ∈ pieces, paPkg y.1 < 192) ∧
            postAndTake s2 q l p (some (ctxOf s t.team)) (slotBody (bodyBytes s2 (ctxOf s t.team) pieces)) = (st, s1))) →
      ∃ s', exec (.lpost x) s = .next s' ∧ SameOutside s1 s' ∧
        GoesOn s' t th fun th' => Keeps th x.d 1 [x.n] th' ∧ Holds th x.d (natVals st false 1) th' ∧ (x.n ≠ 7 → predOf th' x.n = (st == 0))) ∧
    (∀ (x : LTake) q y l rest tm, Alone s (.ltake x) ⟨x.ctl, [sB x.b 32 .n32], [⟨x.d, 256⟩], .own⟩ t th vals void pops →
      q = queueArg (valNat (vals.getD 0 [])) x.e → (x.try_ = true ∨ inHandler s t.team = false) → takeQueue s t q = some y →
      y.waits = [] → y.letters = l :: rest → l.bad = false → y.range = none → (y.dist = false ∨ isRange l = false) →
      (y.ack = false ∨ y.nout < y.cap) → team? s t.team = some tm → tm.st = .resident → tm.stopped = false →
      ∃ s' y', exec (.ltake x) s = .next s' ∧ getQueue? s' q = some y' ∧ y'.letters = rest ∧
        y'.taken = y.taken ++ [⟨t, l, y.ack⟩] ∧
        GoesOn s' t th fun th' => Keeps th x.d 8 [x.n] th' ∧ Holds th x.d (natVals l.bytes.toNat false 8) th' ∧
          (x.try_ = true → x.n ≠ 7 → predOf th' x.n = true)) ∧
    (∀ (x : LTake) q y, Alone s (.ltake x) ⟨x.ctl, [sB x.b 32 .n32], [⟨x.d, 256⟩], .own⟩ t th vals void pops →
      q = queueArg (valNat (vals.getD 0 [])) x.e → (x.try_ = true ∨ inHandler s t.team = false) → takeQueue s t q = some y →
      y.letters = [] → y.range = none →
      ∃ s' y', exec (.ltake x) s = .next s' ∧ getQueue? s' q = some y' ∧ y'.letters = [] ∧ y'.taken = y.taken ∧
        if x.try_ = true then GoesOn s' t th fun th' => Keeps th .zero 0 [x.n] th' ∧ (x.n ≠ 7 → predOf th' x.n = false)
        else WaitsAt s' t th (.ltake x q) ∧ y'.waits = y.waits ++ [⟨t⟩]) ∧
    (∀ (x : LDone) q y, Alone s (.ldone x) ⟨x.ctl, [sB x.b 32 .n32], [], .own⟩ t th vals void pops →
      q = queueArg (valNat (vals.getD 0 [])) x.e → takeQueue s t q = some y → relReady s t .package = true → y.waits = [] →
      ∃ s' y', exec (.ldone x) s = .next s' ∧ getQueue? s' q = some y' ∧ y'.letters = y.letters ∧
        GoesOn s' t th (fun th' => Keeps th .zero 0 [x.n] th' ∧ (x.n ≠ 7 → predOf th' x.n = (oldestTaken y t).isSome)) ∧
        y'.taken = (match oldestTaken y t with
          | some k => y.taken.erase k
          | none => y.taken)) ∧
    (∀ (x : LDone) q, Alone s (.ldone x) ⟨x.ctl, [sB x.b 32 .n32], [], .own⟩ t th vals void pops →
      q = queueArg (valNat (vals.getD 0 [])) x.e → q < 4096 → getQueue? s q = none → s.discarded.contains (q, t) = true →
      relReady s t .package = true →
      ∃ s', exec (.ldone x) s = .next s' ∧ SameOutside s.lanesSee s' ∧
        GoesOn s' t th fun th' => Keeps th .zero 0 [x.n] th' ∧ (x.n ≠ 7 → predOf th' x.n = false))

/-- RDEP that the target accepts sends its value and sets its predicate, one that is not accepted clears it and sends nothing (R327).
A deposit under way claims its register, which is empty then; at RDEP_ACCEPT, after the sender's earlier deposits to the group, it
fills the register and %arr is one higher (R125, R126). ARRWAIT of a count that has come goes on, of one that has not waits (R321).
That the register is claimed at the end of the cycle, before the deposit fills it, is the model's reading (assumptions 3 and 64). -/
def Obligations.DepositsArrive : Prop :=
  (∀ s t th void pops (x : RDep) (a b : W32) (p q : Bool) w v,
    Alone s (.rdep x) ⟨x.ctl, [sA x.a 32 .n32, sB x.b 32 .n32], [], .own⟩ t th [w1 a p, w1 b q] void pops →
    w = (b.toNat + x.t.toNat) % 2 ^ 14 → depositTeam s t.team (w % 8) = .ok v → relReady s t .cluster = true →
    (∀ tm, v = some tm → depositOk s tm (w / 8 % 32) (w / 256) = true →
      ∃ s', exec (.rdep x) s = .next s' ∧ s'.msgs = s.msgs ++ [.deposit t tm (w / 8 % 32) (w / 256) s.claims ⟨a, p⟩ false] ∧
        GoesOn s' t th fun th' => Keeps th .zero 0 [x.n] th' ∧ (x.n ≠ 7 → predOf th' x.n = true)) ∧
    ((∀ tm, v = some tm → depositOk s tm (w / 8 % 32) (w / 256) = false) →
      ∃ s', exec (.rdep x) s = .next s' ∧ s'.msgs = s.msgs ∧
        GoesOn s' t th fun th' => Keeps th .zero 0 [x.n] th' ∧ (x.n ≠ 7 → predOf th' x.n = false))) ∧
  (∀ s src tm gid n tag v g, s.msgs = [.deposit src tm gid n tag v false] → group? s tm gid = some g →
    ∃ g', group? (depositTick s) tm gid = some g' ∧ Tab.get? g'.gregs n = some (Reg.claim (Tab.get? g.gregs n) tag) ∧
      g'.arr = g.arr ∧ (∀ m, m ≠ n → Tab.get? g'.gregs m = Tab.get? g.gregs m) ∧
      (depositTick s).msgs = [.deposit src tm gid n tag v true]) ∧
  (∀ s k src tm gid n tag v g, s.msgs[k]? = some (.deposit src tm gid n tag v true) → group? s tm gid = some g →
    (depositFirst s k = true → Reg.turn (Tab.get? g.gregs n) tag = true →
      ∃ s1 g', exec (.rdepAccept k) s = .next (arrSettle (haltSettle s1 tm gid) tm gid) ∧ group? s1 tm gid = some g' ∧
        Tab.get? g'.gregs n = (Tab.get? g.gregs n).map (fun r => r.fill tag v) ∧
        (Tab.get? g.gregs n = some (.empty [⟨some tag, none⟩]) → Tab.get? g'.gregs n = some (.full v)) ∧ g'.arr = g.arr + 1 ∧
        (∀ m, m ≠ n → Tab.get? g'.gregs m = Tab.get? g.gregs m) ∧ s1.msgs = s.msgs.eraseIdx k ∧ SameMemory s s1) ∧
    (depositFirst s k = false → exec (.rdepAccept k) s = .next s)) ∧
  (∀ s t th tm g void pops (x : OneSrc) (c : W32) (p : Bool),
    Alone s (.arrwait x) ⟨x.ctl, [sA x.a 32 .n32], [], .own⟩ t th [w1 c p] void pops → inHandler s t.team = false →
    team? s t.team = some tm → tm.st = .resident → t ∈ threadsOf s t.team → group? s t.team t.gid = some g →
    ∃ s', exec (.arrwait x) s = .next s' ∧
      if reached g.arr.toNat c.toNat = true then GoesOn s' t th (Keeps th .zero 0 []) else WaitsAt s' t th (.arrwait x c))

/-- The queue command page: QDTBASE and QSIZE take legal values while no queue is enabled, 0x80 tells of an illegal one and 0x84 of an
enabled queue; a command makes QSTAT busy and ends with its status; enabling reads the descriptor, disabling removes a queue without
letters, discarding any; a queue that is enabled cannot be enabled, one that is not cannot be disabled (R79-R81). -/
def Obligations.QueueCommands : Prop :=
  ∀ s, isUp s = true →
    (∀ v : W64, s.queues = [] → v.toNat % 2 ^ 18 = 0 → v.toNat < 2 ^ 48 → isOwnMem s v.toNat = true →
      exec (.qdtbaseWrite v) s = .next { s with qdtbase := v, qstat := 0 }) ∧
    (∀ v : W32, s.queues = [] → v.toNat ≤ 32 → exec (.qsizeWrite v) s = .next { trimL2 { s with qsize := v } with qstat := 0 }) ∧
    (∀ v : W64, s.queues = [] → (v.toNat % 2 ^ 18 ≠ 0 ∨ 2 ^ 48 ≤ v.toNat ∨ isOwnMem s v.toNat = false) →
      exec (.qdtbaseWrite v) s = .next { s with qstat := 0x80 }) ∧
    (∀ v : W32, s.queues = [] → 32 < v.toNat → exec (.qsizeWrite v) s = .next { s with qstat := 0x80 }) ∧
    (s.queues ≠ [] → ∀ (v : W64) (w : W32), exec (.qdtbaseWrite v) s = .next { s with qstat := 0x84 } ∧
      exec (.qsizeWrite w) s = .next { s with qstat := 0x84 }) ∧
    (s.qrun = none → ∀ c : W32, bits c.toNat 27 12 = 0 →
      (∀ q d die, bits c.toNat 31 28 = 1 → getQueue? s (c.toNat % 4096) = none →
        cohRead s (qdPa s (c.toNat % 4096)) 64 = (d, false) → parseQueue d = some q → storeDie s (32 * q.cap + 256 * q.mailn) = some die →
        ∃ s' q', exec (.queueEnable c) s = .next s' ∧ s'.qstat = 1 ∧ s'.qrun = some 0 ∧
          getQueue? s' (c.toNat % 4096) = some q' ∧ q'.ctx = q.ctx ∧ q'.letters = [] ∧ q'.die = die ∧
          q'.store = 32 * q.cap + 256 * q.mailn ∧ SameMemory s s') ∧
      (bits c.toNat 31 28 = 1 → getQueue? s (c.toNat % 4096) ≠ none →
        exec (.queueEnable c) s = .next { s with qstat := 1, qrun := some 0x83 }) ∧
      (getQueue? s (c.toNat % 4096) = none →
        (bits c.toNat 31 28 = 2 → exec (.queueDisable c) s = .next { s with qstat := 1, qrun := some 0x83 }) ∧
        (bits c.toNat 31 28 = 3 → exec (.queueDiscardDisable c) s = .next { s with qstat := 1, qrun := some 0x83 })) ∧
      (∀ q, getQueue? s (c.toNat % 4096) = some q → s.queues = [(c.toNat % 4096, q)] →
        (bits c.toNat 31 28 = 2 → q.hasLetters = false →
          ∃ s', exec (.queueDisable c) s = .next s' ∧ s'.qstat = 1 ∧ s'.qrun = some 0 ∧ s'.queues = []) ∧
        (bits c.toNat 31 28 = 2 → q.hasLetters = true →
          exec (.queueDisable c) s = .next { s with qstat := 1, qrun := some 0x82 }) ∧
        (bits c.toNat 31 28 = 3 →
          ∃ s', exec (.queueDiscardDisable c) s = .next s' ∧ s'.qstat = 1 ∧ s'.qrun = some 0 ∧ s'.queues = [])) ∧
      (bits c.toNat 31 28 = 0 ∨ 4 ≤ bits c.toNat 31 28 → exec (.qctlBadOp c) s = .next { s with qstat := 0x80 })) ∧
    (∀ v, s.qrun = some v → exec .queueCommandComplete s = .next { s with qstat := v, qrun := none })

/-- What moves letters and chunks besides the threads: a host write of one line posts its first letter and then its second, where
its byte 0x20 is not 0xFF, and a write of parts of lines is refused (R83); a refill moves a letter to the ring (R82); a split
hands the chunks to the dies, or to the clusters of a die, by their weights (R87); a steal takes the top half of the richest
cluster (R88); taking chunks loses none. That refills run one event each is the model's choice (assumption 3). Moves that meet an
uncorrectable letter or chunk are no part of it (R436). -/
def Obligations.LettersMove : Prop :=
  ∀ s qn q, getQueue? s qn = some q →
    (∀ line data, isUp s = true → data.length = 64 → data.getD 32 0 = 0xFF → line < 64 →
      exec (.hostWindowPost qn line data false) s =
        .next (takeSettle (postLetter s qn (BitVec.ofNat 256 (bytesNat (data.take 32))) false none ([], [])).2 qn)) ∧
    (∀ line data, isUp s = true → data.length = 64 → data.getD 32 0 ≠ 0xFF → line < 64 →
      exec (.hostWindowPost qn line data false) s =
        .next (takeSettle (postLetter (postLetter s qn (BitVec.ofNat 256 (bytesNat (data.take 32))) false none ([], [])).2 qn
          (BitVec.ofNat 256 (bytesNat (data.drop 32))) false none ([], [])).2 qn)) ∧
    (∀ line data, isUp s = true → data.length % 64 ≠ 0 → exec (.hostWindowPost qn line data false) s = .next (countRefused s qn)) ∧
    (∀ n v rest, q.spseq = n :: rest → q.letters.length < q.cap → q.waits = [] → rest = [] →
      hubRead s q.ctx (q.entryVa q.sphead) 32 = some (v, false) →
      ∃ s', exec (.spillRefill qn) s = .next s' ∧ exec (.spillRefillRetry qn) s = .next s' ∧
        getQueue? s' qn = some { q with letters := q.letters ++ [⟨BitVec.ofNat 256 v, n, false⟩],
                                        sphead := (q.sphead + 1) % 2 ^ 32, spseq := [] }) ∧
    (q.badChunks = [] → q.range.isSome = true → q.pkgSpans ≠ [] → (weights s qn q.ctx (dieChildren s)).any (fun x => x.2 != 0) = true →
      exec (.distSplit qn none) s = .next (served s (placeSpans s qn fun q => { q with
        pkgSpans := [], dieSpans := addSpans q.dieSpans (split q.pkgSpans (weights s qn q.ctx (dieChildren s))) }) qn)) ∧
    (∀ d, q.badChunks = [] → Tab.getD q.dieSpans d [] ≠ [] → (weights s qn q.ctx (clusterChildren d)).any (fun x => x.2 != 0) = true →
      exec (.distSplit qn (some d)) s = .next (served s (takeSettle (placeSpans s qn fun q => { q with
        dieSpans := Tab.erase q.dieSpans d
        cluSpans := addSpans q.cluSpans (split (Tab.getD q.dieSpans d []) (weights s qn q.ctx (clusterChildren d))) }) qn) qn)) ∧
    (∀ die c v, q.badChunks = [] → c / 24 = die → cluChunks q c = 0 → takers s qn (fun k => k / 8 == c) ≠ 0 →
      richest q (((List.range 24).map fun i => 24 * die + i).filter (· != c)) = some v → 2 ≤ cluChunks q v →
      exec (.clusterSteal die c qn) s = .next (takeSettle (placeSpans s qn fun q =>
        { (stealTop q v).2 with cluSpans := Tab.set (stealTop q v).2.cluSpans c (stealTop q v).1 }) qn)) ∧
    (∀ die v, q.badChunks = [] → die ≤ 1 → Tab.getD q.dieSpans die [] = [] →
      (∀ i, i < 24 → cluChunks q (24 * die + i) = 0) → takers s qn (fun k => k / 192 == die) ≠ 0 →
      richest q ((List.range 24).map fun i => 24 * (1 - die) + i) = some v → 2 ≤ cluChunks q v →
      exec (.dieSteal die qn) s = .next (takeSettle (placeSpans s qn fun q => { (stealTop q v).2 with
        cluSpans := addSpans (stealTop q v).2.cluSpans (split (stealTop q v).1 (weights s qn q.ctx (clusterChildren die))) }) qn)) ∧
    (∀ n sp, (∀ x ∈ sp, x.lo ≤ x.hi) →
      spanCount (spanTake sp n).1 = min n (spanCount sp) ∧ spanCount (spanTake sp n).1 + spanCount (spanTake sp n).2 = spanCount sp)

/-! The group: class 0xC (R329-R344). -/

/-- VOTE gives every lane of G the ballot and its predicate, MATCHG the lanes with the same value, ELECT the lowest lane of G (R335).
SHFL gives each lane of G the value of the lane that its mode names, where that lane lies in its segment, else its own (R336);
BFLY changes the places of register j of lane i and register j ^ 2^s of lane i ^ 2^s (R337). How the poison of the registers of a
pair goes is the model's reading (assumption 81). -/
def Obligations.VotesAndShuffles : Prop :=
  (∀ s tm gid o L, L = lanesRead s o tm gid →
     (∀ x : Vote, Together s (.vote x) o tm gid → ∃ (f : CLane → LaneEff) (ballot : W32) (r : Bool), Gives s (.vote x) o tm gid f ∧
       (∀ b, b < 32 → ballot.getLsbD b = L.any fun c => c.n.t.lane == b && (c.on && (predOf c.n.th x.s != x.neg))) ∧
       (∀ c ∈ L, c.on = true → (f c).writes1 x.d ballot false ∧ (f c).preds = [(x.n.toNat, r)]) ∧
       (r = true ↔
         (x.mode = 0 ∧ ∀ c ∈ L, c.on = true → (predOf c.n.th x.s != x.neg) = true) ∨
         (x.mode = 1 ∧ ∃ c ∈ L, c.on = true ∧ (predOf c.n.th x.s != x.neg) = true) ∨
         (x.mode = 2 ∧ ∃ v, ∀ c ∈ L, c.on = true → (predOf c.n.th x.s != x.neg) = v))) ∧
     (∀ x : Match, Together s (.matchg x) o tm gid → ∃ f : CLane → LaneEff, Gives s (.matchg x) o tm gid f ∧
       ∀ c ∈ L, c.on = true → ∃ m : W32, (f c).writes1 x.d m (L.any fun d => d.on && d.n.psn) ∧
         (∀ b, b < 32 → m.getLsbD b = L.any fun d => d.n.t.lane == b && (d.on && (d.n.arg 0 == c.n.arg 0))) ∧
         ∃ r, (f c).preds = [(x.n.toNat, r)] ∧ (r = true ↔ ∀ d ∈ L, d.on = true → d.n.arg 0 = c.n.arg 0)) ∧
     (∀ (x : Elect) c0, Together s (.elect x) o tm gid → c0 ∈ L → c0.on = true →
       (∀ c ∈ L, c.on = true → c0.n.t.lane ≤ c.n.t.lane) →
       ∃ f : CLane → LaneEff, Gives s (.elect x) o tm gid f ∧ ∀ c ∈ L, c.on = true →
         (f c).writes1 x.d (BitVec.ofNat 32 c0.n.t.lane) false ∧ (f c).preds = [(x.n.toNat, c.n.t.lane == c0.n.t.lane)])) ∧
  (∀ s tm gid o L, L = lanesRead s o tm gid →
     (∀ x : Shfl, Together s (.shfl x) o tm gid → ∃ f : CLane → LaneEff, Gives s (.shfl x) o tm gid f ∧
       ∀ c ∈ L, c.on = true → ∀ w i b base, w = 2 ^ x.seg.val → i = c.n.t.lane → b = c.n.arg 1 → base = i - i % w →
         ∀ names : Nat → Prop, (∀ j, names j ↔
             (x.mode = 0 ∧ j = base + b % w) ∨ (x.mode = 1 ∧ j + b = i) ∨ (x.mode = 2 ∧ j = i + b) ∨ (x.mode = 3 ∧ j = i ^^^ b)) →
           (∀ e ∈ L, names e.n.t.lane → base ≤ e.n.t.lane → e.n.t.lane < base + w →
             (f c).preds = [(x.n.toNat, true)] ∧ (f c).writes = [(x.d, (e.n.v.getD 0 []).map fun y =>
               { y with psn := valPsn (e.n.v.getD 0 []) || valPsn (c.n.v.getD 1 []) })]) ∧
           ((∀ j, names j → ¬ (base ≤ j ∧ j < base + w)) →
             (f c).preds = [(x.n.toNat, false)] ∧ (f c).writes = [(x.d, (c.n.v.getD 0 []).map fun y =>
               { y with psn := valPsn (c.n.v.getD 0 []) || valPsn (c.n.v.getD 1 []) })])) ∧
     (∀ x : Bfly, Together s (.bfly x) o tm gid → ∃ f : CLane → LaneEff, Gives s (.bfly x) o tm gid f ∧
       ∀ c ∈ L, c.on = true → ∃ l, (f c).writes = [(x.d, l)] ∧ l.length = 32 ∧
         ∀ e ∈ L, e.n.t.lane = c.n.t.lane ^^^ 2 ^ x.s.val → ∀ j, j < 32 →
           l[j]? = some (if c.n.t.lane.testBit x.s.val != j.testBit x.s.val
             then (e.n.v.getD 0 []).getD (j ^^^ 2 ^ x.s.val) ⟨0, false⟩ else (c.n.v.getD 0 []).getD j ⟨0, false⟩)))

/-- Reductions and scans: REDG and SCANG that meet no enabled condition complete (R338, R339); their sum of n32 values without
saturation is the sum over G, the sum over the lanes of G up to the lane, or before it with .excl, modulo 2^32, and poisoned where
one of those values is. -/
def Obligations.ReductionsAndScansSum : Prop :=
  ∀ s tm gid o L (x : Redg), L = lanesRead s o tm gid →
    (∀ i scan r, (i = Instr.redg x ∧ scan = false ∨ i = Instr.scang x ∧ scan = true) → Together s i o tm gid →
      r = redResult x scan L → r.completes s tm →
      exec i s = .next (collNext s o tm gid r) ∧ ∀ c ∈ L, c.on = true → ∃ e, (c.n.t, e) ∈ r.effs) ∧
    (x.ty = .n32 → x.op = .add → x.f0 = false → L.map (fun c => c.n.t) = lanesOf tm gid →
      (∀ e ∈ (redResult x false L).effs, e.2.writes1 x.d
        (BitVec.ofNat 32 ((L.filter fun c => c.on).map fun c => c.n.arg 0).sum) (L.any fun c => c.on && c.n.psn)) ∧
      (∀ e ∈ (redResult x true L).effs, ∃ M, M = (L.filter fun c => c.on && (if x.excl then decide (c.n.t.lane < e.1.lane)
          else decide (c.n.t.lane ≤ e.1.lane))) ∧
        e.2.writes1 x.d (BitVec.ofNat 32 (M.map fun c => c.n.arg 0).sum) (M.any fun c => c.n.psn)))

/-- Tile predicates and conversions: KOP writes its K register or delivers it (R340), NZMAP writes into four bits of its K register
which k-steps of the fragment hold a nonzero element (R341), CVTB with no condition enabled completes and leaves the other bytes of
its D (R344); LDM and STM complete where lane 0's base and stride are not poisoned, no element of a lane faults and the core has no
request outstanding (R348, R349). -/
def Obligations.TilePredicatesAndFragments : Prop :=
  ∀ s tm gid o L g, L = lanesRead s o tm gid → group? s tm gid = some g →
    (∀ (x : Kop) c0, Together s (.kop x) o tm gid → L.find? (fun c => c.on) = some c0 →
      (x.op = .st → Gives s (.kop x) o tm gid fun _ => { writes := result32 x.d (kReg s tm gid x.ka.toNat).toNat false }) ∧
      (x.op ≠ .st → ∃ s', exec (.kop x) s = .next s' ∧
        (∀ n, n ≠ x.kd.toNat → kReg s' tm gid n = kReg s tm gid n) ∧
        kReg s' tm gid x.kd.toNat = (match x.op with
          | .and => kReg s tm gid x.ka.toNat &&& kReg s tm gid x.kb.toNat
          | .or => kReg s tm gid x.ka.toNat ||| kReg s tm gid x.kb.toNat
          | .xor => kReg s tm gid x.ka.toNat ^^^ kReg s tm gid x.kb.toNat
          | .andn => kReg s tm gid x.ka.toNat &&& ~~~(kReg s tm gid x.kb.toNat)
          | .not => ~~~(kReg s tm gid x.ka.toNat)
          | _ => BitVec.ofNat 32 (c0.n.arg 0)))) ∧
    (∀ x : NzMap, Together s (.nzmap x) o tm gid → (∃ c ∈ L, c.on = true) →
      ∃ s', exec (.nzmap x) s = .next s' ∧
        (∀ n, n ≠ x.kd.toNat → kReg s' tm gid n = kReg s tm gid n) ∧
        ∀ b, b < 32 → (kReg s' tm gid x.kd.toNat).getLsbD b =
          if b / 4 = x.pos.toNat
          then L.any fun c => (blockElems x.ty (c.n.v.getD 0 [])).any fun y =>
            kStepOf x.ty c.n.t.lane y.1 == b % 4 && countsNonzero x.ty y.2
          else (kReg s tm gid x.kd.toNat).getLsbD b) ∧
    (∀ (x : CvtB) reg r v, Together s (.cvtb x) o tm gid → reg = 8 * x.sg8.toNat + x.q.toNat / 4 → reg < gregsOf s tm →
      Tab.get? g.gregs reg = some (.full v) → r = cvtbRes x v false L → tenOf s tm = 0 →
      exec (.cvtb x) s = .next (collNext s o tm gid r) ∧
        ∀ c ∈ L, c.on = true → ∃ e a p, (c.n.t, e) ∈ r.effs ∧ e.writes1 x.d a p ∧
          ∀ b, b < 32 → b / 8 ≠ x.byte.toNat → a.getLsbD b = (c.n.arg 1).testBit b) ∧
    (∀ (x : Frag) r, Together s (.ldm x) o tm gid → r = fragRes x .load s.lanesSee L (ldmLane x) → r.completes s tm →
      exec (.ldm x) s = .next (collNext s o tm gid r)) ∧
    (∀ (x : Frag) r, Together s (.stm x) o tm gid → r = fragRes x .store s.lanesSee L stmLane → r.completes s tm →
      exec (.stm x) s = .next (collNext s o tm gid r)) ∧
    (∀ (x : Frag) u go base stride, fragBase x L = (base, stride, false) → requests s (coreOf s tm) = 0 → L ≠ [] →
      (∀ c ∈ L, c.n.t.team = tm) →
      (∀ c ∈ L, ∃ ps, (fragParts s.lanesSee c.n.t x u base stride (fragElems x.shape.toNat x.role c.n.t.lane) []).1 = .ok ps) →
      (fragRes x u s.lanesSee L go).completes s tm)

/-! The matrix engine: class 0xD (R345-R347) and R93. -/

/-- MMA and MMAZ whose tile predicate is off change nothing but the pc of their threads (R159); else the instruction enters the
queue of its core's engine and its threads wait at it. MATRIX_START of the one waiting instruction takes its operands, claims D
and lets its threads go on; MATRIX_KSTEP_ARBITRATE counts a k-step, and the fourth one ends the instruction's use of the array;
MATRIX_COMPLETE fills D with the sums rounded once (R93, R346, R347), of a lane whose results an error has lost with poisoned zeros
(R449). That the threads wait until the start is the model's
choice (assumption 48). -/
def Obligations.MatrixInstructionsRun : Prop :=
  (∀ s tm gid o (x : Mma) i, (i = .mma x ∨ i = .mmaz x) → Together s i o tm gid →
     (tileOff s tm gid x = true → exec i s = .next (collNext s o tm gid { effs := [] })) ∧
     (∀ core sub pc word, s.cur = some ⟨core, sub, pc, word, i, lanesOf tm gid⟩ → tileOff s tm gid x = false →
       (x.bs = true → 8 * x.sb8.toNat + 16 ≤ gregsOf s tm) → (getCore s core).meng.queue.length < 16 →
       (∀ j ∈ (getCore s core).meng.all, j.team = tm → j.gid ≠ gid) →
       ∃ s' j, exec i s = .next s' ∧ (getCore s' core).meng.queue = (getCore s core).meng.queue ++ [j] ∧
         j.team = tm ∧ j.gid = gid ∧ j.ins = i ∧ j.pc = pc ∧ j.step = 0 ∧ j.started = false ∧ SameMemory s s' ∧
         ∀ t ∈ lanesOf tm gid, ∀ th, thread? s t = some th →
           ∃ th', thread? s' t = some th' ∧ th'.st = .blocked .unit ∧ th'.pc = th.pc ∧ th'.regs = th.regs)) ∧
  (∀ s core e, e = (getCore s core).meng →
     (∀ j i x s1 ls, e.running = none → e.suspended = none → e.queue = [j] → j.started = false → infoOf j.ins = some i →
       mmaOf j.ins = some x → s1 = modMeng s core (fun e => { e with queue := e.queue.filter fun k => k.id != j.id }) →
       (∀ t ∈ lanesOf j.team j.gid, ∃ th, thread? s t = some th ∧ th.st = .blocked .unit ∧ HasRead th i) →
       (∀ g, group? s j.team j.gid = some g → g.halted = false) → prepare s1 i (lanesOf j.team j.gid) = (s1, [], []) → ls = collLanes s1 i (lanesOf j.team j.gid) →
       ∃ s' j', exec (.matrixStart core) s = .next s' ∧ (getCore s' core).meng.queue = [] ∧
         (getCore s' core).meng.running = some j' ∧ j'.started = true ∧ j'.step = j.step ∧ j'.due = s.now + 16 ∧
         j'.a = ls.map (fun c => c.n.v.getD 0 []) ∧ j'.b = ls.map (fun c => c.n.v.getD 1 []) ∧
         j'.c = (if j.ins = .mma x then ls.map (fun c => c.n.v.getD 2 []) else []) ∧
         ∀ t ∈ lanesOf j.team j.gid, ∀ th, thread? s t = some th →
           GoesOn s' t th (Claims th x.d ((fragLens x.ty).getD (1, 1)).2)) ∧
     (∀ j, e.running = some j → j.step - j.base + 1 ≤ (s.now - j.since) * mmaRate j →
       (j.step = 3 → exec (.matrixKstepArbitrate core) s = .next (modMeng s core fun e => { e with
         queue := e.queue.map fun k => { k with waited := k.waited + 1 }, running := none
         pipe := e.pipe ++ [{ j with step := 4 }] })) ∧
       (j.step < 3 → (∀ k ∈ e.queue, { k with waited := k.waited + 1 }.level ≤ j.level) →
         exec (.matrixKstepArbitrate core) s = .next (modMeng s core fun e => { e with
           queue := e.queue.map fun k => { k with waited := k.waited + 1 }, running := some { j with step := j.step + 1 } }))) ∧
     (∀ j x, e.pipe.find? (fun j => j.due ≤ s.now) = some j → mmaOf j.ins = some x → x.ty ≠ .f64 →
       (∀ g, group? s j.team j.gid = some g → g.halted = false) →
       ∃ s', exec (.matrixComplete core) s = .next s' ∧ s'.mem = s.mem ∧
         (getCore s' core).meng.pipe = e.pipe.filter (fun k => k.id != j.id) ∧
         ∀ t ∈ lanesOf j.team j.gid, ∀ th, thread? s t = some th → ∀ ds, ds = j.dsts.getD t.lane [] →
           (ds.map fun d => d.idx).Nodup → (∀ d ∈ ds, d.isG = false ∧ Reg.awaits (getReg th d.idx) d.tag = true ∧ d.at_ / 4 < 8) →
           ∀ d ∈ ds, ∃ th' y, thread? s' t = some th' ∧ getReg th' d.idx = (getReg th d.idx).map (fun r => r.fill d.tag y) ∧
             y = (if j.lost.contains t.lane = true then ⟨0, true⟩ else
               ⟨BitVec.ofNat 32 ((mmaDot x j t.lane (d.at_ / 4) 4).1.finish fmtF32 x.rnd x.ftz
                 ((j.words.getD t.lane []).getD (d.at_ / 4) 0)).bits, (mmaDot x j t.lane (d.at_ / 4) 4).2⟩) ∧
             (getReg th d.idx = some (.empty [⟨some d.tag, none⟩]) → getReg th' d.idx = some (.full y))))

/-! Engines and physics units: classes 0xE and 0xF (R350-R387). -/

/-- Every engine command that passes the checks of its own rule and of R351 is issued: its operands are captured, its pages are
owned by E, it stands last among its team's commands and its thread goes on; no byte of memory differs. Which pages a strided
copy names is the model's reading (assumption 42). -/
def Obligations.EngineCommandsIssue : Prop :=
  ∀ s i o t th tm vals void pops n a b c, Alone s i o t th vals void pops → n = laneOf s t th vals → a = n.arg 0 → b = n.arg 1 →
    c = n.arg 2 →
    let issued (s1 : State) (cls sem : Nat) (pages : List (Nat × Nat)) : Prop :=
      CanCommand s1 t tm cls pages → ∃ s', exec i s = .next s' ∧ Commanded s' t th tm cls sem i pages ∧ SameMemory s1 s'
    (∀ (x : Cpy) sh, i = .cpy x → a % 4 = 0 → b % 4 = 0 → cpyShape s t.team x c = some sh →
      inSpace s t.team x.dsp (strideSpan a sh.len sh.n1 sh.n2 sh.ds1 sh.ds2) sh.len = true →
      inSpace s t.team x.ssp (strideSpan b sh.len sh.n1 sh.n2 sh.ss1 sh.ss2) sh.len = true →
      issued s 1 x.sem.toNat (ownPages t.team ((if x.dsp == .spad then stridePages a sh.len sh.n1 sh.n2 sh.ds1 sh.ds2 else []) ++
        (if x.ssp == .spad then stridePages b sh.len sh.n1 sh.n2 sh.ss1 sh.ss2 else []) ++
        (if x.dim.val == 0 then [] else pagesIn c 32)))) ∧
    (∀ (x : CpyV) vol vx vy vz hit r esz s1, i = .cpyv x → volArgs n false = .ok (vol, vx, vy, vz) →
      brickFor s.lanesSee t vol (Coord.of vx vy vz) = .done hit r s1 →
      ((∃ va, r = .brick va esz) ∨ ∃ lv wva line d, (r = .absent lv wva line ∨ r = .full line) ∧ parseDesc line.toNat = some d ∧
        d.esz = esz) →
      n.arg 4 % (64 * 2 ^ esz) = 0 → n.arg 4 + 64 * 2 ^ esz ≤ 4096 * pagesOf s1 t.team →
      issued s1 1 x.sem.toNat (ownPages t.team (pagesIn (n.arg 4) (64 * 2 ^ esz)))) ∧
    (∀ x : Parcel, (i = .gath x ∨ i = .scat x) → b % x.idx = 0 → c % x.bytes = 0 →
      b + x.idx * x.entries ≤ 4096 * pagesOf s t.team → c + x.bytes * x.entries ≤ 4096 * pagesOf s t.team →
      (x.op.val = 0 ∨ th.idem = false) →
      issued s 2 x.sem.toNat (ownPages t.team (pagesIn b (x.idx * x.entries) ++ pagesIn c (x.bytes * x.entries)))) ∧
    (∀ (x : SortOp) ta oa tb ob, i = .sort x → a % 4 = 0 → (x.kv = true → b % 4 = 0) → 0 < c → c ≤ 65536 →
      sortArr s t.team x.krem a (4 * c) = some (ta, oa) → (x.kv = true → sortArr s t.team x.vrem b (4 * c) = some (tb, ob)) →
      (x.kv = true → ta = tb → ob + 4 * c ≤ oa ∨ oa + 4 * c ≤ ob) →
      issued s 3 x.sem.toNat ((pagesIn oa (4 * c)).map (fun p => (ta, p)) ++
        (if x.kv then (pagesIn ob (4 * c)).map fun p => (tb, p) else []).filter fun p =>
          !((pagesIn oa (4 * c)).map fun p => (ta, p)).contains p)) ∧
    (∀ x : Trav, i = .trav x → b % 32 = 0 → c % 8 = 0 → b + 32 * (x.count.toNat + 1) ≤ 4096 * pagesOf s t.team →
      c + 8 * 2 ^ x.clog.toNat * (x.count.toNat + 1) ≤ 4096 * pagesOf s t.team → a % 128 = 0 → canonical a = true →
      issued s 4 x.sem.toNat (ownPages t.team (pagesIn b (32 * (x.count.toNat + 1)) ++
        pagesIn c (8 * 2 ^ x.clog.toNat * (x.count.toNat + 1))))) ∧
    (∀ x : Coll, (i = .ared x ∨ i = .rscat x ∨ i = .agath x ∨ i = .bcast x ∨ i = .cbar x) →
      (i = .cbar x ∨ a % (x.ty.width / 8) = 0) → c % 128 = 0 → issued s 5 x.sem.toNat [])

/-- IDEM and IDEMEND set and clear the mark of their thread (R357); SOLVE and SOLVEB claim D and stand last at their core's solver,
their pages owned by E (R376); COMPACT claims its pair of registers and stands last at its core's compactor (R381). -/
def Obligations.SolvesAndCompactsIssue : Prop :=
  ∀ s i o t th vals void pops, Alone s i o t th vals void pops →
    (∀ x : Plain, i = .idem x ∨ i = .idemend x →
      ∃ s', exec i s = .next s' ∧ SameMemory s s' ∧ GoesOn s' t th fun th' => Keeps th .zero 0 [] th' ∧ (th'.idem = true ↔ i = .idem x)) ∧
    (∀ (f64 withLog : Bool) (d : Spec) a b pages,
      ((∃ x : Solve, i = .solve x ∧ x.f64 = f64 ∧ x.log = withLog ∧ x.d = d) ∨
        (∃ x : SolveB, i = .solveb x ∧ x.f64 = f64 ∧ withLog = true ∧ x.d = d)) →
      a = valNat (vals.getD 0 []) → b = valNat (vals.getD 1 []) → a % 64 = 0 → (withLog = true → b % 256 = 0) →
      a + 320 * solveZ f64 ≤ 4096 * pagesOf s t.team → (withLog = true → b + 256 ≤ 4096 * pagesOf s t.team) →
      pages = ownPages t.team (pagesIn a (320 * solveZ f64) ++ if withLog then pagesIn b 256 else []) →
      (∀ x ∈ pages, pageE s x.1 x.2 = false) → (getCore s (coreOf s t.team)).solves.length < 16 → relReady s t .package = true →
      ∃ s' j, exec i s = .next s' ∧ GoesOn s' t th (fun th' => Claims th d 1 th' ∧ Keeps th d 1 [] th') ∧ SameMemory s s' ∧
        (getCore s' (coreOf s t.team)).solves = (getCore s (coreOf s t.team)).solves ++ [j] ∧ j.t = t ∧ j.ins = i ∧ j.blk = a ∧
        j.log = b ∧ j.pages = pages ∧ ((∃ tm, team? s t.team = some tm) → ∀ x ∈ pages, x.2 < 96 → pageE s' t.team x.2 = true)) ∧
    (∀ (x : Compact) (d : BitVec 6) k v core sub pc word, i = .compact x → x.d = .v d → vals = [[k], [v]] →
      s.cur = some ⟨core, sub, pc, word, i, [t]⟩ →
      ∃ s' j ds, exec i s = .next s' ∧ GoesOn s' t th (fun th' => Claims th x.d 2 th' ∧ Keeps th x.d 2 [] th') ∧ SameMemory s s' ∧
        (getCore s' core).compacts = (getCore s core).compacts ++ [j] ∧ j.parts = [(t, k, v, ds)] ∧
        ds.map (fun y => (y.idx, y.at_)) = [(th.wbase + d.toNat, 0), (th.wbase + d.toNat + 1, 4)] ∧ s.now + 26 ≤ j.due)

/-- RND and RNDF write the first 1, 2 or 4 words of stream(A, B + C) (R384, R385), as they are or as uniform values or normal
deviates; EPIS writes two words of the episode's stream (R386, R387). That a poisoned addend C poisons the result is the model's
reading (assumption 45). -/
def Obligations.RandomStreams : Prop :=
  ∀ s i o t th vals void pops a b c psn, Alone s i o t th vals void pops → a = valNat (vals.getD 0 []) → b = valNat (vals.getD 1 []) →
    c = valNat (vals.getD 2 []) → psn = vals.any valPsn →
    let words := stream a (b / 2 ^ 32 * 2 ^ 32 + (b % 2 ^ 32 + c) % 2 ^ 32)
    let writes (d : Spec) (l : List Nat) : Prop :=
      Does s i o t vals void pops fun e => e.writes = [(d, l.map fun w => ⟨BitVec.ofNat 32 w, psn⟩)]
    (∀ x : Rand, i = .rnd x → writes x.d (words.take (2 ^ x.w.val))) ∧
    (∀ x : Rand, i = .rndf x → x.nrm = false → writes x.d ((words.take (2 ^ x.w.val)).map uniform)) ∧
    (∀ x : Rand, i = .rndf x → x.nrm = true → writes x.d ((List.range (2 ^ x.w.val)).map fun k =>
      normalDeviate (k % 2 == 1) x.rnd ((words.take (2 ^ x.w.val)).getD (k / 2 * 2) 0 / 512)
        ((words.take (2 ^ x.w.val)).getD (k / 2 * 2 + 1) 0 / 512))) ∧
    (∀ x : Epis, i = .epis x → writes x.d ((stream a (0xFFFFFFFFFFFFFFFF + 2 ^ 64 * c + 2 ^ 96 * b)).take 2))

/-- Engines at work. A command whose last unit is performed completes: its pages are T again (R352). A Courier command moves its
next 4 KiB (R353), a Parcel command its next 256 entries (R358); while writes of it are on their way to other packages its retry point
stands, and it ends the unit once they are performed (R354, R358). A traversal performs its next 32 queries (R374). A sort reads and
reorders one stable pass by one byte of its keys, then writes the keys back, then the values (R369, R489). An error in an engine's own
state makes the command work on from its retry point, three times, or fails one that is not restartable (R488, R489); a stopped
command's fault reaches its group (R490). The oldest solve of a core completes: its pages are T again and its D receives its code
and index (R376). A compactor that has waited until its time gives a lone participant its own value, and its key with rank 0 (R382).
That a unit of work is one event, performed when the event order lets it, is the model's choice (assumptions 3 and 47). -/
def Obligations.EnginesRun : Prop :=
  (∀ s team k e, findEng s team k = some e → engRuns s team e = true →
    (∀ n, engTotal s team e = some n → n ≤ e.done →
      exec (.engineComplete team k) s = .next (engDone s team e) ∧ ∀ x ∈ e.pages, pageE (engDone s team e) x.1 x.2 = false) ∧
    (∀ n, engTotal s team e = some n → e.cls = 1 → e.done + 4096 < n → engStoring s team k = false →
      (e.sent = true → ∃ s' e', exec (.engineComplete team k) s = .next s' ∧ findEng s' team k = some e' ∧
        e'.done = e.done + 4096 ∧ e'.sent = false) ∧
      (∀ s1 e1, e.sent = false → courierStep s team e = .done s1 → findEng s1 team k = some e1 → e1.id = k → e1.done = e.done →
        ∃ s' e', exec (.engineComplete team k) s = .next s' ∧ findEng s' team k = some e' ∧
          if engStoring s1 team k = true then e'.done = e.done ∧ e'.sent = true else e'.done = e.done + 4096)) ∧
    (∀ x scat, parcelOf e.ins = some (x, scat) → e.done < x.entries → e.done % 256 = 0 → engStoring s team k = false →
      (e.sent = true → ∃ s' e', exec (.parcelMarker team k) s = .next s' ∧ findEng s' team k = some e' ∧
        e'.done = min (e.done + 256) x.entries ∧ e'.sent = false) ∧
      (∀ s1 e1, e.sent = false →
        runUnit s team e (parcelUnit s team e x scat e.done (min 256 (x.entries - e.done))) = .done s1 →
        findEng s1 team k = some e1 → e1.id = k → e1.done = e.done →
        ∃ s' e', exec (.parcelMarker team k) s = .next s' ∧ findEng s' team k = some e' ∧
          if engStoring s1 team k = true then e'.done = e.done ∧ e'.sent = true else e'.done = min (e.done + 256) x.entries)) ∧
    (∀ x a s1 e1, e.ins = .trav x → unitHead s team e = true → e.done ≤ x.count.toNat →
      runQueries team e x ((List.range (min 32 (x.count.toNat + 1 - e.done))).map fun i => e.done + i) s = .ok a s1 →
      findEng s1 team k = some e1 → e1.id = k →
      ∃ s' e', exec (.travBatch team k) s = .next s' ∧ findEng s' team k = some e' ∧
        e'.done = min (e.done + 32) (x.count.toNat + 1)) ∧
    (∀ x ta oa tb ob, e.ins = .sort x → unitHead s team e = true → e.done < sortPasses x e → e.id = k →
      sortArr s team x.krem e.opa.toNat (4 * e.opc.toNat) = some (ta, oa) →
      (if x.kv then sortArr s team x.vrem e.opb.toNat (4 * e.opc.toNat) else some (0, 0)) = some (tb, ob) →
      (e.work = none → ∃ s' ks vs, exec (.sortPass team k) s = .next s' ∧ SameMemory s s' ∧
        findEng s' team k = some { e with work := some (sortByte x (x.plo.toNat + e.done) (ks.zip vs)) } ∧
        ks = (List.range e.opc.toNat).map (fun i => spadLoad s ta (oa + 4 * i) 4) ∧ vs.length = e.opc.toNat ∧
        (x.kv = true → vs = (List.range e.opc.toNat).map fun i => spadLoad s tb (ob + 4 * i) 4) ∧
        ∀ u o n, spadLoad s' u o n = spadLoad s u o n) ∧
      (∀ l, e.work = some l → l.length = e.opc.toNat → (∀ r ∈ l, r.1.1 < 2 ^ 32 ∧ r.2.1 < 2 ^ 32) →
        (∀ u tm, team? s u = some tm → Memory.wf tm.spad = true) → (∃ tm, team? s ta = some tm) →
        (e.wback = false → ∃ s', exec (.sortPass team k) s = .next s' ∧ findEng s' team k = some { e with wback := true } ∧
          (List.range e.opc.toNat).map (fun i => (spadLoad s' ta (oa + 4 * i) 4).1) = l.map fun r => r.1.1) ∧
        (e.wback = true → ∃ s', exec (.sortPass team k) s = .next s' ∧
          findEng s' team k = some { e with done := e.done + 1, work := none, wback := false } ∧
          (x.kv = true → (∃ tm, team? s tb = some tm) →
            (List.range e.opc.toNat).map (fun i => (spadLoad s' tb (ob + 4 * i) 4).1) = l.map fun r => r.2.1) ∧
          (x.kv = false → ∀ u o n, spadLoad s' u o n = spadLoad s u o n)))) ∧
    (e.id = k → ∃ s' e', exec (.engineRetry team k) s = .next s' ∧ findEng s' team k = some e' ∧
      if restartable e = false then e'.failed = some ⟨0x22, BitVec.ofNat 64 e.done, false⟩
      else if 3 ≤ e.retries then e'.failed = some ⟨0x20, BitVec.ofNat 64 e.done, false⟩
      else e' = { e with retries := e.retries + 1, replies := [], sent := false, work := none })) ∧
  (∀ (x : SortOp) p l d, (sortByte x p l).Perm l ∧
    (sortByte x p l).Pairwise (fun a b => sortKey x a.1.1 / 256 ^ p % 256 ≤ sortKey x b.1.1 / 256 ^ p % 256) ∧
    (sortByte x p l).filter (fun r => sortKey x r.1.1 / 256 ^ p % 256 == d) =
      l.filter fun r => sortKey x r.1.1 / 256 ^ p % 256 == d) ∧
  (∀ s team k e x tm, findEng s team k = some e → e.failed = some x → e.delivered = false → team? s team = some tm →
    tm.st = .resident → exec (.engineStopFault team k) s = .next (teamSettle (deliverStop s team e x) team)) ∧
  (∀ s core j rest, (getCore s core).solves = j :: rest →
    ∃ s', exec (.solveComplete core) s = .next s' ∧ ∀ x ∈ j.pages, pageE s' x.1 x.2 = false) ∧
  (∀ s core j rest s0 s2 code idx d th, (getCore s core).solves = j :: rest → s0 = modCore s core (fun c => { c with solves := rest }) →
    ((∃ x, j.ins = .solve x ∧ solveRun s0 j.t.team j x = (s2, code, idx)) ∨
      (∃ x, j.ins = .solveb x ∧ solvebRun s0 j.t.team j x = (s2, code, idx))) →
    j.dst = some d → d.isG = false → thread? s j.t = some th → Reg.awaits (getReg th d.idx) d.tag = true →
    ∃ s1 th1 y, exec (.solveComplete core) s = .next (teamSettle (haltSettle (ownSettle s1 j.t.team) j.t.team j.t.gid) j.t.team) ∧
      thread? s1 j.t = some th1 ∧ y = ⟨BitVec.ofNat 32 (code + 256 * idx), false⟩ ∧
      getReg th1 d.idx = (getReg th d.idx).map (fun r => r.fill d.tag y) ∧
      (getReg th d.idx = some (.empty [⟨some d.tag, none⟩]) → getReg th1 d.idx = some (.full y))) ∧
  (∀ s core j t th k v d0 d1 tag0 tag1, (getCore s core).compacts = [j] → j.due ≤ s.now → j.failed = false →
    j.parts = [(t, k, v, [⟨false, d0, tag0, 0⟩, ⟨false, d1, tag1, 4⟩])] → thread? s t = some th → d0 ≠ d1 →
    getReg th d0 = some (.empty [⟨some tag0, none⟩]) → getReg th d1 = some (.empty [⟨some tag1, none⟩]) → Live s t → k.psn = false →
    ∃ s' th', exec (.compactFill core) s = .next s' ∧ thread? s' t = some th' ∧ getReg th' d0 = some (.full v) ∧
      getReg th' d1 = some (.full ⟨BitVec.ofNat 32 (k.v.toNat % 256 * 2 ^ 16), false⟩) ∧ (getCore s' core).compacts = [])

/-- Relay. The collective of a rank elsewhere stands among the peers; a command takes up its record: a bad or poisoned record, or one
whose rank another record holds, gives status 5, a degraded one 2, one not formed yet takes a slot, or gives 4 where none is free
(R360, R361). A collective begins once every rank has issued it (R361). Of the steps that are ready the one of the highest level starts,
then the longer ready, then the lower slot; its communicator's count of steps passed over is 0 again, and that of each other with a
step ready gains 1 (R363). A step moves its chunk one place along its course (R362). A collective that has come to its status writes
CSTAT, CSEQ, MASK and PARTIAL into its record and completes (R365); a rank that leaves degrades its communicator and is logged (R496).
That a step is one event, and how a step's buffers are reserved, is the model's choice (assumptions 43 and 85). -/
def Obligations.RelayRuns : Prop :=
  (∀ s team k (p : PeerColl), exec (.commForm team k (some p)) s = .next (relaySettle { s with peers := s.peers ++ [p] })) ∧
  (∀ s team k e r bad s1 va id rank, findEng s team k = some e → e.id = k → e.cls = 5 → e.slot = none → e.cstat = 255 →
    engRuns s team e = true → commFirst s team e = true → va = e.opc.toNat →
    readComm s (coreOf s team / 192) (ctxOf s team) va .write = (.ok (r, bad), s1) →
    id = BitVec.ofNat 32 (commField r 0 4) → rank = commField r 5 1 →
    let status (c : Nat) : Prop := exec (.commForm team k none) s = .next (relaySettle (modEng s1 team k fun e => { e with cstat := c }))
    ((bad = true ∨ commValid r = false) → status 5) ∧
    (bad = false → commValid r = true → (commField r 8 4 = 2 → status 2) ∧
      (commField r 8 4 = 1 → (slotFor s1 id (ctxOf s team) va = none → status 5) ∧
        (∀ n x, slotFor s1 id (ctxOf s team) va = some (n, x) → x.rank = rank → ∃ y, exec (.commForm team k none) s =
          .next (relaySettle (modEng { s1 with slots := Tab.set s1.slots n y } team k fun e => { e with slot := some n })) ∧
          y = { x with die := coreOf s team / 192 })) ∧
      (commField r 8 4 = 0 → slotFor s1 id (ctxOf s team) va = none →
        (slotTaken s1 id rank (ctxOf s team) va = true → status 5) ∧
        (slotTaken s1 id rank (ctxOf s team) va = false → (freeComm s1 = none → status 4) ∧
          (∀ n, freeComm s1 = some n → ∃ x, exec (.commForm team k none) s = .next (relaySettle (commSettle (modEng { s1 with
              slots := Tab.set s1.slots n x } team k fun e => { e with slot := some n }))) ∧
            x.commid = id ∧ x.rank = rank ∧ x.nrank = commField r 4 1 ∧ x.va = e.opc ∧ x.ctx = ctxOf s team ∧ x.epoch = 0 ∧
            x.ready = false ∧ x.degraded = false ∧ x.cdone = 0 ∧ x.w = 0))))) ∧
  (∀ s x l, x.epoch ≠ 0 → findColl s x.epoch x.cdone = none → l = (List.range x.nrank).map (fun r =>
      rankAt s x.epoch x.cdone r (x.pkgs.getD r 0 == s.hpkg) (peerHeads s x.commid x.nrank)) →
    (RankNow.absent ∈ l → collBegin s x = s) ∧
    (RankNow.absent ∉ l → ∃ c, findColl (collBegin s x) x.epoch x.cdone = some c ∧ c.kind = agreed l ∧ c.chunks = [])) ∧
  (∀ s st k x, chooseStep s (readySteps s) = some (st, k, x) → (∀ z ∈ readySteps s, stepBefore s z (st, k, x) = false) ∧
    ∃ s1, exec .relayChunkStep s = .next (relayRefresh (startStep s1 st)) ∧ s1 = { s with slots := s1.slots } ∧
      ∀ j y, Tab.get? s.slots j = some y → Tab.get? s1.slots j = some
        (if y.epoch = st.epoch then { y with w := 0 }
         else if (readySteps s).any (fun z => z.1.epoch == y.epoch) then { y with w := y.w + 1 } else y)) ∧
  (∀ s (st : RStep) c kind d i r t e ch s2, findColl s st.epoch st.num = some c → c.kind = some kind →
    chunkAt? kind c.nrank c.chunklog st.idx = some d →
    chunkNext s c kind (lostRanks s c.epoch) d.seg (c.chunk st.idx) = some (i, r, t, e) →
    stepChunk s c kind d (c.chunk st.idx) i r t e = (.ok ch, s2) →
    ch.idx = st.idx ∧ ch.pos = i + 1 ∧ findColl (startStep s st) st.epoch st.num = some (c.put ch)) ∧
  (∀ s team k e st part mask r bad s2, findEng s team k = some e → e.cls = 5 → engLive s team e = true →
    collStatus s e = some (st, part, mask) →
    readComm s (coreOf s team / 192) (ctxOf s team) e.opc.toNat .write = (.ok (r, bad), s2) →
    let put (s' : State) (o n x : Nat) (p : Bool) : State := putComm s' (coreOf s team / 192) (ctxOf s team) e.opc.toNat o n x p
    let wrote (cseq : Nat) (p : Bool) : State :=
      put (put (put (put s2 0x50 4 st false) 0x54 4 (cseq % 2 ^ 32) p) 0x58 8 mask false) 0x60 4 part false
    (e.slot = none → exec (.relayCollectiveComplete team k) s =
      .next (relaySettle (engDone (wrote (commField r 0x54 4 + if st = 2 then 1 else 0) bad) team e))) ∧
    (∀ n x, e.slot = some n → Tab.get? s2.slots n = some x → exec (.relayCollectiveComplete team k) s =
      .next (relaySettle (engDone { wrote (x.cdone + 1) false with
        slots := Tab.modify (wrote (x.cdone + 1) false).slots n fun x => { x with cdone := x.cdone + 1 } } team e)))) ∧
  (∀ s k x rank, Tab.get? s.slots k = some x → rank < x.nrank → rank ≠ x.rank → x.lost.contains rank = false →
    exec (.relayLeave k rank) s = .next (relaySettle (logEvent (putComm { s with
        slots := Tab.set s.slots k { x with lost := setInsert x.lost rank, degraded := true } } x.die x.ctx x.va.toNat 8 4 2 false)
      unitH 9 1 x.va.toNat 3 x.ctx 5)))

/-! Timers, picking and the placing of teams (R41-R70, R90-R102). -/

/-- What a subcore picks. The key that is chosen has no other key before it (R56); a subcore with one ready entry issues its
threads and leaves its ready list empty (R55), and where nothing faults the issue holds the instruction of their word and those
threads (R235); POOL_OBTAIN changes nothing where the entries are free (R114). That an entry leaves the ready list when its threads
have issued is the model's reading (assumption 22). -/
def Obligations.PickChoosesTheFirstKey : Prop :=
  (∀ l k, chooseKey l = some k → k ∈ l ∧ ∀ x ∈ l, keyBefore l x k = false) ∧
  (∀ s core sub tm gid s1 e,
    (groupsOn s core).filter (fun x => match group? s x.1 x.2 with
      | some g => g.subcore == sub
      | none => false) = [(tm, gid)] →
    settleGroup s core tm gid = (s1, [e], []) → compactEntry s1 core tm gid = [] → e.slot ≤ 8 →
    ∀ s2, s2 = clearYld { s1 with rdy := Tab.erase s1.rdy (4 * core + sub) } [(tm, gid)] (groupsIn e.lanes) →
    exec (.pick core sub) s = issueLanes s2 core sub e.pc e.lanes ∧
    ∀ t0 rest w i info s3, e.lanes = t0 :: rest →
      (∀ t ∈ t0 :: rest, ∃ th, thread? s2 t = some th ∧ th.bsFault = none ∧ th.canIssue = true ∧ th.pc = e.pc ∧ (∀ l, th.st ≠ .paused l)) →
      fetchWord s2 core (ctxOf s2 t0.team) e.pc = (.word w, s3) → s3.threads = s2.threads → decodeWord w = .ok i →
      infoOf i = some info → (∀ t ∈ t0 :: rest, phIllegal s3 t.team t.gid info = false) →
      ∃ s4, exec (.pick core sub) s = .next s4 ∧ s4.cur = some ⟨core, sub, e.pc, BitVec.ofNat 96 w, i, e.lanes⟩) ∧
  (∀ s tm gid k t, team? s tm = some t → t.onCore = true → k ≤ poolFree s (coreOf s tm) → exec (.poolObtain tm gid k) s = .next s)

/-- PAUSE makes its thread paused for the smaller of 2^24 − 1 and A + X cycles, standing at its next instruction; a count of 0
leaves it eligible (R63, R272). Timers: a pause that has run out leaves its thread eligible at its instruction, as old as the
moment it ran out (R63); a JOIN's limit that has run out ends its hold, its thread eligible from then on (R54, R273), and a yield ends
(R241); a group whose threads have stood apart at
collectives for longer than its timeout halts with cause 0x17 (R60, R428). That a pause is counted from the cycle after the
issue, and the SUB codes of the convergence halt, are the model's readings (assumptions 32 and 65). -/
def Obligations.TimersExpire : Prop :=
  (∀ s t th void pops (x : Pause) (a : W32) (p : Bool),
     Alone s (.pause x) ⟨x.ctl, [sA x.a 32 .n32], [], .own⟩ t th [[⟨a, p⟩]] void pops →
     ∃ s' th', exec (.pause x) s = .next s' ∧ thread? s' t = some th' ∧ th'.pc = th.next ∧ Keeps th .zero 0 [] th' ∧
       th'.st = if min (2 ^ 24 - 1) (a.toNat + x.add.toNat) = 0 then .eligible
         else .paused (s.now + 1 + min (2 ^ 24 - 1) (a.toNat + x.add.toNat))) ∧
  (∀ s t th, thread? s t = some th →
    (∀ lim, th.st = .paused lim → lim ≤ s.now →
      exec (.pauseExpire t) s = .next (setThread s t { th with st := .eligible, since := lim })) ∧
    (∀ lim, th.st = .blocked (.join lim) → lim ≤ s.now →
      exec (.joinLimitExpire t) s = .next (setThread s t { th with st := .eligible, since := s.now, joined := true })) ∧
    (∀ u, th.yld = some u → u ≤ s.now → exec (.yieldExpire t) s = .next (setThread s t { th with yld := none })) ∧
    (∀ lim, th.st = .paused lim → s.now < lim → exec (.pauseExpire t) s = .next s)) ∧
  (∀ s tm gid t g r c held, team? s tm = some t → group? s tm gid = some g → gridOf s tm = some r → g.conv = some c →
    t.runs = true → g.halted = false → c + ctimeOf r < s.now → held = heldLanes s tm gid → held ≠ [] → held.length < 32 →
    exec (.convergenceTimeout tm gid) s =
      .next (convHalt s tm gid (if 1 < ((held.map fun x => x.2).eraseDups).length then 2 else 0)))

/-- Teams come and go. A team that is due parks (R62), its threads first taking the faults of the pages that its save would not
reach (R97); one whose handlers are over leaves its core parked or pre-empted with nothing left in it (R69, R101), or comes
back, after the faults of the pages that the core cannot read (R164; the model's reading, assumption 49): its threads hold what
their records say (R102); a satisfied wait makes a parked team ready (R65); an engine that has reached its unit acknowledges its
stop, one that has not in time is reset, its DONE marked and class 0x0A logged (R95, R441; what counts as reached is assumption
51); candidates are admitted in their order on cores where their context has teams (R66, assumption 55), a claim gets free cores
(R90), or the one lower context that holds cores is pre-empted (R91); a context of equal priority is, once both its cores and a
claim have aged (R91). That records are written and read whole at the end of a save and a restore is the model's choice (assumption
49). -/
def Obligations.TeamsComeAndGo : Prop :=
  (∀ s tm t g, team? s tm = some t → gridOf s tm = some g →
    (∀ x ∈ unitOf s tm t g, parkable s x.1 = true) →
    ∀ l s1, (unitOf s tm t g).foldl (fun p x => (p.1 ++ (saveGaps p.2 x.1).1, (saveGaps p.2 x.1).2))
        (([] : List (TRef × BsFault)), s) = (l, s1) →
    (l = [] → exec (.parkDue tm) s = .next ((unitOf s tm t g).foldl (fun s x => beginSave s x.1 1) s1)) ∧
    (l ≠ [] → exec (.parkDue tm) s = .next (raiseGaps s1 l))) ∧
  (∀ s tm t reason again, team? s tm = some t → t.st = .saving reason again → handlerOver s tm = true →
    ∃ s' t', exec (.saveComplete tm) s = .next s' ∧ team? s' tm = some t' ∧ t'.spad = [] ∧ t'.owner = 0 ∧ t'.bars = [] ∧
      t'.st = if reason = 1 then (if again then .preempted true else .parked) else .preempted false) ∧
  (∀ s tm t x l s1, team? s tm = some t → t.st = .restoring → handlerOver s tm = true → restoreGaps s tm = (x :: l, s1) →
    exec (.restoreComplete tm) s = .next (raiseGaps s1 (x :: l))) ∧
  (∀ s tm t g l s0 sr, team? s tm = some t → t.st = .restoring → t.ngrp = 1 → handlerOver s tm = true →
    restoreGaps s tm = ([], sr) → teamBad sr tm = none →
    readGroup sr tm 0 = .ok (g, l) → (∀ c, Tab.get? s.ctxs t.ctx = some c → c.stop = none) →
    s0 = (threadsOf sr tm).foldl (fun s u => modThread s u fun th => { th with regs := [] }) sr →
    restoreNeed l ≤ poolFree s0 (coreOf s tm) →
    ∃ s1, exec (.restoreComplete tm) s = .next (teamSettle s1 tm) ∧ ∀ u r th, (u, r) ∈ l → thread? s u = some th →
      ∃ th', thread? s1 u = some th' ∧ th'.pc = BitVec.ofNat 64 r.pc ∧ th'.wbase = r.wbase ∧ th'.nregs = r.nregs ∧
        th'.preds = BitVec.ofNat 7 r.preds ∧ th'.draws = BitVec.ofNat 64 r.draws ∧ th'.st = savedState s r) ∧
  (∀ s tm t u th w, team? s tm = some t → t.st = .parked → t.ready = false → u ∈ threadsOf s tm → thread? s u = some th →
    th.st = .waiting w → waitMet s u w = true →
    exec (.waitListRetest tm) s = .next (modTeam s tm fun t => { t with ready := true, claim := s.now })) ∧
  (∀ s tm k e t, findEng s tm k = some e → team? s tm = some t → e.stopSent.isSome = true → e.stopped = false →
    (engAtStop s tm e = true →
      exec (.engineStopAck tm k) s =
        .next (saveSettle (modEng (disown s tm k) tm k fun e => { e.halt with stopSent := e.stopSent }) t.ctx)) ∧
    (engAtStop s tm e = false → exec (.engineStopAck tm k) s = .next s) ∧
    (∀ c, e.stopSent = some c → (if e.cls = 5 then hubCycle s.now - hubCycle c else s.now - c) > stopLimit →
      exec (.stopTimeout tm k) s = .next (saveSettle (modEng
        (disown (logEvent s (engUnit s tm e.cls) 0x0A 1 0 0 t.ctx e.cls) tm k) tm k
        fun e => { e.halt with stopSent := e.stopSent, done := doneLost }) t.ctx))) ∧
  (∀ s ctx, exec (.teamAdmission ctx) s =
    .next ((candsOf s ctx).foldl (fun s' c => (admitCand ctx (coreOwn s ctx) c.units s').getD s') s)) ∧
  (∀ s ctx, (candsOf s ctx).Pairwise (fun a b => b.prio ≤ a.prio)) ∧
  (∀ s k c d cs rest s1, claimants s = (k, c, d :: cs) :: rest → admitCand k (fun _ => true) d.units s = some s1 →
    exec .contextGrant s = .next s1) ∧
  (∀ s, claimants s = [] → exec .contextGrant s = .next s) ∧
  (∀ s k c l b x, claimants s = [(k, c, l)] → grantOne s = none →
    s.ctxs.filter (fun y => y.2.prio < c.prio && holdsCores s y.1) = [(b, x)] → x.stop = none →
    exec .contextGrant s = .next (startPreempt s b)) ∧
  (∀ s ctx c k x l d, Tab.get? s.ctxs ctx = some c → c.stop = none → holdsCores s ctx = true →
    hubCycle c.coresSince + fairTime ≤ hubCycle s.now → (∀ y ∈ s.teams, y.2.ctx = ctx → y.2.onCore = true →
      ∀ g, gridOf s y.1 = some g → g.pinned = false) →
    (k, x, l) ∈ claimants s → k ≠ ctx → x.prio = c.prio → d ∈ l → hubCycle d.claim + fairTime ≤ hubCycle s.now →
    exec (.fairnessPreempt ctx) s = .next (startPreempt s ctx))

/-! The hub (R19-R37). -/

/-- Boot and power: a boot that succeeds leaves the package ready and empty (R29), one that fails leaves it in recovery with one
record of class 0x0D, the first event of its unit, out of the host's reach where its own port has failed (R30, R412); HPKG takes a legal value while no context holds a
plan and no command runs (R19); without power nothing is retained, but for the inputs still to come and the count of free values, which
are the model's (R37); the loss of the hub loses everything (R427). -/
def Obligations.BootAndPower : Prop :=
  ∀ s,
    (∀ u, s.phase = .off → ∃ s', exec (.powerOnBoot 0 u) s = .next s' ∧ s'.phase = .ready ∧ s'.ctxs = [] ∧ s'.queues = [] ∧
      s'.mem = [] ∧ s'.log = [] ∧ s'.hpkg = 0) ∧
    (∀ step u, s.phase = .off → step ≠ 0 → bootUnit step u.toNat = true →
      ∃ s' r, exec (.powerOnBoot step u) s = .next s' ∧ s'.phase = .recovery step (!(step == 4 && u.toNat == unitHub 0)) ∧
        s'.log = [r] ∧ r.cls = 0x0D ∧ r.sev = 4 ∧ r.unit = u ∧ r.detail = BitVec.ofNat 32 step ∧ r.ctx = 0xFF ∧ r.flags = 0 ∧
        r.addr = 0 ∧ r.count = 1 ∧ r.seq = 0) ∧
    (exec .powerRemoved s = .next { State.reset with phase := .off, agenda := s.agenda, free := s.free }) ∧
    (s.phase ≠ .off → ∃ s', exec .hubLost s = .next s' ∧ s'.phase = .hubLost ∧ s'.mem = [] ∧ s'.teams = []) ∧
    (∀ v, s.phase = .ready → v.toNat ≤ 191 → s.ctxs = [] → s.hstat ≠ 1 → exec (.hpkgWrite v) s = .next { s with hpkg := v.toNat })

/-- The hub command window: its registers take what is written, and an HCMD written while the hub is busy counts in HREJECT (R22,
R25); a reserved bit ends a command with 0x81, an OP that R23 does not list with 0x80, a context that already has a plan, or has
none, with 0x84, an argument that R24 does not permit with 0x81 (R25). A plan that passes its checks is placed; Pre-empt starts,
Kill leaves nothing of its context; Read error log takes the oldest records, which leave the log when it ends, and those that were
lost are then reported (R413, R415); Attest gives 768 bytes; a new power profile comes
into force at the next interval of each die, 4,096 of its cycles after the last (R33, R35); a command ends with its code and its
result (R22). That a command has its effect when HCMD is written is the model's choice (assumption 52). -/
def Obligations.HubCommandsEnd : Prop :=
  ∀ s c, s.phase = .ready →
    (∀ v, exec (.registerWrite 0x008 v) s = .next { s with harg0 := v } ∧ exec (.registerWrite 0x010 v) s = .next { s with harg1 := v } ∧
      exec (.registerWrite 0x018 v) s = .next { s with harg2 := v } ∧ exec (.registerWrite 0x1000 v) s = .next { s with tiva := v } ∧
      (s.hstat = 1 → exec (.registerWrite 0x000 v) s = .next { s with hreject := s.hreject + 1 })) ∧
    (∀ i, ((∃ ok, i = .placePlan c ok ∧ hcmdOp c = 1) ∨ (i = .preEmptContext c ∧ hcmdOp c = 2) ∨ (i = .killContext c ∧ hcmdOp c = 3) ∨
        (i = .readErrorLog c ∧ hcmdOp c = 4) ∨ (i = .setPowerProfile c ∧ hcmdOp c = 5) ∨ (i = .attest c ∧ hcmdOp c = 6) ∨
        (i = .hcmdUnknownOp c ∧ (hcmdOp c = 0 ∨ 6 < hcmdOp c))) →
      (s.hstat = 1 → exec i s = .next { s with hreject := s.hreject + 1 }) ∧
      (s.hstat ≠ 1 → bits c.toNat 31 16 ≠ 0 → exec i s = .next (hubRefuse s c 0x81))) ∧
    (∀ r, s.hubRun = some r → (r.taken = 0 ∨ s.logLost = 0) →
      exec .hubCommandComplete s = .next { s with hstat := r.code, hresult := r.result, hubRun := none, log := s.log.drop r.taken }) ∧
    (∀ r, s.hubRun = some r → r.taken ≠ 0 → s.logLost ≠ 0 → (s.log.drop r.taken).length < logCap →
      ∃ s' x, exec .hubCommandComplete s = .next s' ∧ s'.hstat = r.code ∧ s'.hubRun = none ∧ s'.logLost = 0 ∧
        s'.log = s.log.drop r.taken ++ [x] ∧ x.cls = 0x0E ∧ x.sev = 1 ∧ x.unit = BitVec.ofNat 16 unitH ∧ x.seq = s.logSeq ∧
        x.ctx = 0xFF ∧ x.addr = 0 ∧ x.detail = BitVec.ofNat 32 s.logLost) ∧
    (∀ die excess mod p, die ≤ 10 → p = powerOf s die →
      (intervalDue s die = true → ∃ s1, exec (.postmasterInterval die excess mod) s = .next s1 ∧
        (powerOf s1 die).profile = p.next ∧ (powerOf s1 die).reduce = excess ∧ (powerOf s1 die).interval = p.interval + 1 ∧
        (powerOf s1 die).since = p.since + 4096 ∧ (die = 10 → s1.halved = decide (0 < mod))) ∧
      (intervalDue s die = false → exec (.postmasterInterval die excess mod) s = .next s)) ∧
    (s.hstat ≠ 1 → bits c.toNat 31 16 = 0 →
    (∀ ok, hcmdOp c = 1 →
      ((Tab.get? s.ctxs (hcmdCtx c)).isSome = true → exec (.placePlan c ok) s = .next (hubEnd s c 0x84 0 0)) ∧
      (Tab.get? s.ctxs (hcmdCtx c) = none →
        (argOk s s.harg0.toNat s.harg1.toNat 64 = false → exec (.placePlan c ok) s = .next (hubEnd s c 0x81 0 0)) ∧
        (argOk s s.harg0.toNat s.harg1.toNat 64 = true →
          (∀ s1, placeNow s (hcmdCtx c) ok = .ok s1 → exec (.placePlan c ok) s = .next (hubEnd s1 c 2 0 0)) ∧
          (∀ code, placeNow s (hcmdCtx c) ok = .error code → exec (.placePlan c ok) s = .next (hubEnd s c code 0 0))))) ∧
    (Tab.get? s.ctxs (hcmdCtx c) = none → (hcmdOp c = 2 → exec (.preEmptContext c) s = .next (hubEnd s c 0x84 0 0)) ∧
      (hcmdOp c = 3 → exec (.killContext c) s = .next (hubEnd s c 0x84 0 0))) ∧
    (hcmdOp c = 2 → (Tab.get? s.ctxs (hcmdCtx c)).isSome = true →
      exec (.preEmptContext c) s = .next (hubEnd (startPreempt s (hcmdCtx c)) c 2 0 0)) ∧
    (hcmdOp c = 3 → (Tab.get? s.ctxs (hcmdCtx c)).isSome = true →
      ∃ s', exec (.killContext c) s = .next s' ∧ s'.hstat = 1 ∧ Tab.get? s'.ctxs (hcmdCtx c) = none ∧
        (∀ x ∈ s'.teams, x.2.ctx ≠ hcmdCtx c) ∧ s'.mem = s.mem) ∧
    (hcmdOp c = 4 → argOk s s.harg0.toNat s.harg1.toNat 64 = false → exec (.readErrorLog c) s = .next (hubEnd s c 0x81 0 0)) ∧
    (hcmdOp c = 4 → argOk s s.harg0.toNat s.harg1.toNat 64 = true → dieLost s (2 + paMdie s.harg0.toNat) = false → ∀ n, n = min (s.harg1.toNat / 64) s.log.length →
      ∃ s', exec (.readErrorLog c) s = .next s' ∧ s'.hstat = 1 ∧ s'.log = s.log ∧
        s'.hubRun = some ⟨2, BitVec.ofNat 64 (64 * n), n⟩) ∧
    (hcmdOp c = 5 → ∃ s', exec (.setPowerProfile c) s = .next s' ∧ s'.hstat = 1 ∧ s'.hubRun = some ⟨2, 0, 0⟩ ∧
      ∀ d, d < 11 → (powerOf s' d).next = BitVec.ofNat 2 s.harg2.toNat ∧ (powerOf s' d).profile = (powerOf s d).profile) ∧
    (hcmdOp c = 6 → argOk s s.harg0.toNat 32 32 = true → argOk s s.harg1.toNat 768 64 = true →
      ∃ s', exec (.attest c) s = .next s' ∧ s'.hstat = 1 ∧ s'.hubRun = some ⟨2, 768, 0⟩) ∧
    (hcmdOp c = 6 → (argOk s s.harg0.toNat 32 32 = false ∨ argOk s s.harg1.toNat 768 64 = false) →
      exec (.attest c) s = .next (hubEnd s c 0x81 0 0)) ∧
    (hcmdOp c = 0 ∨ 6 < hcmdOp c → exec (.hcmdUnknownOp c) s = .next (hubRefuse s c 0x80)))

/-! Homes, caches and other packages (R173-R181, R208-R227). -/

/-- A request that is ready at its home, of a line that nobody holds and nothing stands in the way of, is granted: the agent holds the
home's line in E (R175; for an Upg of a line that its agent has lost meanwhile this is the model's reading, assumption 92). An Upg
of a line that no other agent holds leaves the agent in M with its data. A line that others hold is snooped away first for RdU and Upg,
and the agent has it in M when the last holder has answered, with that holder's data where they are dirty; an RdS is served by the
owner that the directory names, whose data are forwarded, or by the home, and ends in S (R175, R176). Other answers of a home: a
write-back reaches the LLC at once when bulk, else waits for its postmark (R214, R216); an eviction ends the holding; a covered write
is applied; an answered snoop leaves O, S or nothing and a dirty line back-invalidated, or recalled for an atomic, goes home (R176,
R177); the settle value of a die is told to the homes and to the other dies (R214). -/
def Obligations.HomesAnswer : Prop :=
  (∀ s md k r i, reqReady s md k = some r → ((i = .homeRds md k ∧ r.kind = .rds) ∨ (i = .homeRdu md k ∧ r.kind = .rdu) ∨
      (i = .homeUpg md k ∧ r.kind = .upg)) →
    dieLost s (2 + lineMdie r.line) = false → dirRoom s r.line = true → r.line < 2 ^ 32 →
    (agLine? s r.agent r.line = none → dirEnt? s r.line = none → wbInFlight (dropReq s k) r.line = none →
      ∃ s' al, exec i s = .next s' ∧ agLine? s' r.agent r.line = some al ∧ al.st = .e ∧ al.line = homeLine s r.line ∧ s'.mem = s.mem) ∧
    (∀ a, r.kind = .upg → agLine? s r.agent r.line = some a → (∀ x ∈ dirHolders s r.line, x = r.agent) →
      wbInFlight (dropReq s k) r.line = none →
      ∃ s' b, exec i s = .next s' ∧ agLine? s' r.agent r.line = some b ∧ b.st = .m ∧ b.line = a.line ∧ s'.mem = s.mem ∧
        s'.llc = s.llc ∧ s'.homeQ = s.homeQ.eraseIdx k ∧
        ∀ x y, y < 2 ^ 32 → (x ≠ r.agent ∨ y ≠ r.line) → agLine? s' x y = agLine? s x y) ∧
    (r.kind ≠ .rds → (dirHolders s r.line).filter (· != r.agent) ≠ [] →
      exec i s = .next { dropReq s k with
        txns := s.txns ++ [⟨r, (dirHolders s r.line).filter (· != r.agent), 1, none, false⟩] }) ∧
    (∀ d x, r.kind = .rds → agLine? s r.agent r.line = none → dirEnt? s r.line = some d → d.owner = some x → x ≠ r.agent →
      exec i s = .next { dropReq s k with txns := s.txns ++ [⟨r, [x], 0, none, false⟩] }) ∧
    (∀ d, r.kind = .rds → agLine? s r.agent r.line = none → dirEnt? s r.line = some d → d.owner = none → dirHolders s r.line ≠ [] →
      wbInFlight (dropReq s k) r.line = none →
      ∃ s' al, exec i s = .next s' ∧ agLine? s' r.agent r.line = some al ∧ al.st = .s ∧ al.line = homeLine s r.line ∧ s'.mem = s.mem)) ∧
  (∀ s md ln agent a x, txnOf s ln = some x → x.await = [agent] → lineMdie ln = md → agLine? s agent ln = some a → ln < 2 ^ 32 →
    x.req.agent ≠ agent → x.req.agent < 3 → wbInFlight s ln = none →
    (x.snoop = 1 → (x.req.kind = .rdu ∨ x.req.kind = .upg) →
      ∃ s', exec (.snoopSnpi md ln agent) s = .next s' ∧ agLine? s' agent ln = none ∧ s'.mem = s.mem ∧
        (∀ c, agLine? s x.req.agent ln = some c →
          ∃ b, agLine? s' x.req.agent ln = some b ∧ b.st = .m ∧ b.line = c.line) ∧
        (agLine? s x.req.agent ln = none → a.st.dirty = true →
          ∃ b, agLine? s' x.req.agent ln = some b ∧ b.st = .m ∧ b.line = a.line) ∧
        (agLine? s x.req.agent ln = none → a.st.dirty = false → x.data = none →
          ∃ b, agLine? s' x.req.agent ln = some b ∧ b.st = .e ∧ b.line = homeLine s ln)) ∧
    (x.snoop = 0 → x.req.kind = .rds → a.st.owns = true → dirHolders s ln ≠ [] →
      ∃ s' b, exec (.snoopSnps md ln agent) s = .next s' ∧ s'.mem = s.mem ∧ agLine? s' x.req.agent ln = some b ∧ b.st = .s ∧
        b.line = a.line)) ∧
  (∀ s md k r l bulk, s.homeQ[k]? = some r → r.kind = .wbd l bulk → lineMdie r.line = md →
    (∀ q ∈ s.homeQ.take k, q.line = r.line → isLineReq q.kind = true) →
    (bulk = true → (∀ w ∈ s.pwrites, w.line ≠ r.line) → dieLost s (2 + lineMdie r.line) = false → txnOf s r.line = none →
      ∃ s' x, exec (.homeWbd md k) s = .next s' ∧ Tab.get? s'.llc r.line = some x ∧ x.line = l ∧ x.dirty = true ∧ s'.mem = s.mem) ∧
    (bulk = false → exec (.homeWbd md k) s =
      .next { dropReq s k with pwrites := s.pwrites ++ [⟨r.line, r.agent, r.post, false, l⟩] })) ∧
  (∀ s md k r, s.homeQ[k]? = some r → r.kind = .evc → lineMdie r.line = md →
    (∀ q ∈ s.homeQ.take k, q.line = r.line → q.agent ≠ r.agent) → agLine? s r.agent r.line = none → txnOf s r.line = none →
    exec (.homeEvc md k) s = .next (dirDrop (dropReq s k) r.line r.agent)) ∧
  (∀ s md k w, s.pwrites[k]? = some w → lineMdie w.line = md → (∀ x ∈ s.pwrites.take k, x.line ≠ w.line) →
    (w.bulk = true ∨ covered s md w.agent w.post = true) → dieLost s (2 + lineMdie w.line) = false → txnOf s w.line = none →
    ∃ s' x, exec (.writeApplyHome md k) s = .next s' ∧ Tab.get? s'.llc w.line = some x ∧ x.line = w.data ∧ x.dirty = true ∧
      s'.pwrites = s.pwrites.eraseIdx k ∧ s'.mem = s.mem) ∧
  (∀ s md ln agent a, agLine? s agent ln = some a →
    (snoopDue s md ln agent 0 = true → ∃ s1 b, exec (.snoopSnps md ln agent) s = .next (answer s1 ln agent (some a)) ∧
      agLine? s1 agent ln = some b ∧ b.line = a.line ∧ b.st = (if a.st.dirty then .o else .s)) ∧
    (snoopDue s md ln agent 1 = true → ∃ s1, exec (.snoopSnpi md ln agent) s = .next (answer s1 ln agent (some a)) ∧
      agLine? s1 agent ln = none) ∧
    (∀ i, (i = .backInv md ln agent ∧ snoopDue s md ln agent 2 = true) ∨ (i = .snoopSnpi md ln agent ∧ snoopDue s md ln agent 3 = true) →
      mayEvict s agent a = true → ∃ s1, exec i s = .next (answer s1 ln agent (some a)) ∧
      agLine? s1 agent ln = none ∧ (a.st.dirty = true → ∃ w, s1.pwrites = s.pwrites ++ [w] ∧ w.line = ln ∧ w.data = a.line))) ∧
  (∀ s agent, ∃ s', exec (.settleBroadcast agent) s = .next s' ∧ s'.settle = (resettle s agent).settle ∧
    (∀ m, m < 8 → homeView s' m = (homeView s m).set agent (s'.settle.get agent)) ∧
    ∀ e, e < 3 → e ≠ agent → Tab.getD s'.dieSettle e V3.zero = (Tab.getD s.dieSettle e V3.zero).set agent (s'.settle.get agent))

/-- An atomic whose request is ready at its home and whose postmark is covered, where it is told to execute there or the predictor names
the home, leaves the line that R305 gives in the LLC and answers with the old value (R177, R178); where agents hold the line it is
taken up and they are asked for it first (R176, R177; that its place in its die's order is then settled is assumption 83). One whose
placement is left to the predictor, which does not name the home, is sent back to be executed near. LLC_EVICT writes a dirty line to
HBM, where its 128 bytes stand and no other byte differs, and drops it (R173). -/
def Obligations.AtomicsAndEvictionsAtHome : Prop :=
  (∀ s md k r core id a o pa cmp, reqReady s md k = some r → r.kind = .atomic core id → findAcc s core id = some a →
    a.kind = .atomic o → a.part.loc = .mem pa cmp → r.line = lineOf pa → dieLost s (2 + md) = false →
    covered s md r.agent r.post = true →
    ((o.place = .home ∨ (o.place = .auto ∧ (predict s md pa r.agent).1 = true)) →
      (dirHolders s r.line = [] → wbInFlight (dropReq s k) r.line = none →
        ∃ s' x a', exec (.atomicHomeExec md k) s = .next s' ∧ Tab.get? s'.llc (lineOf pa) = some x ∧
          x.line = o.onLine (homeLine s (lineOf pa)) (pa % 128) cmp ∧ findAcc s' core id = some a' ∧
          a'.reply = some ((homeLine s (lineOf pa)).get (pa % 128) o.bytes,
            (homeLine s (lineOf pa)).poisoned (pa % 128) o.bytes || o.psn)) ∧
      (dirHolders s r.line ≠ [] →
        ∃ s', exec (.atomicHomeExec md k) s = .next s' ∧ txnOf s' r.line = some ⟨r, dirHolders s r.line, 3, none, false⟩ ∧
          s'.homeQ = s.homeQ.eraseIdx k ∧ s'.llc = s.llc ∧ s'.mem = s.mem)) ∧
    (o.place = .auto → (predict s md pa r.agent).1 = false →
      ∃ s' a', exec (.atomicHomeExec md k) s = .next s' ∧ findAcc s' core id = some a' ∧
        a'.kind = .atomic { o with place := .near } ∧ a'.inL1 = false ∧ a'.reply = a.reply ∧ s'.llc = s.llc ∧ s'.mem = s.mem)) ∧
  (∀ s ln l, Tab.get? s.llc ln = some l → Memory.wf s.mem = true → dieLost s (2 + lineMdie ln) = false →
    ∃ s', exec (.llcEvict (lineMdie ln) ln) s = .next s' ∧ Tab.get? s'.llc ln = none ∧
      (l.dirty = true → memLoad s'.mem (ln * 128) 128 = l.line.data.toNat) ∧ (l.dirty = false → s'.mem = s.mem) ∧
      ∀ a, a < ln * 128 ∨ ln * 128 + 128 ≤ a → memGet s'.mem a = memGet s.mem a)

/-- The host and other packages. A host write within a line, with nothing else under way at the homes, stands at the point of
coherence, and no byte of another line differs (R225); a host read takes the lines into its cache (R174). A request from another
package is applied once (R494): a store stands there, a tag that is still held changes nothing. An answer takes its request away
(R227); a request without an answer for 2^26 hub cycles fences its package (R495). That a host read caches its lines is the
model's choice (assumption 66). -/
def Obligations.HostAndRemoteAccesses : Prop :=
  (∀ s pa (data : List Byte) psn, isOwnMem s pa = true → isUp s = true → dieLost s (2 + lineMdie (lineOf pa)) = false →
    0 < data.length → pa % 128 + data.length ≤ 128 → paMdie pa = lineMdie (lineOf pa) → homesIdle s = true →
    ∃ s', exec (.hostMemWrite pa data psn) s = .next s' ∧ (cohRead s' pa data.length).1 = bytesNat data ∧
      ∀ b, lineOf b ≠ lineOf pa → cohByte s' b = cohByte s b) ∧
  (∀ s pa n, isOwnMem s pa = true → isUp s = true → (∀ ln ∈ linesOf pa n, (cohLine s ln).psn = 0) →
    exec (.hostMemRead pa n) s = .next ((linesOf pa n).foldl hostFetch s)) ∧
  (∀ s src tag op, isUp s = true → s.rdone.any (fun x => x.1 == src && x.2.1 == tag) = true →
    exec (.remoteRequestApply src tag op) s = .next s) ∧
  (∀ s src tag pa n (d : BitVec 256) p, isUp s = true → s.rdone.any (fun x => x.1 == src && x.2.1 == tag) = false →
    isOwnMem s pa = true → dieLost s (2 + lineMdie (lineOf pa)) = false → paMdie pa = lineMdie (lineOf pa) → 0 < n → n ≤ 32 →
    pa % 128 + n ≤ 128 → homesIdle s = true →
    ∃ s', exec (.remoteRequestApply src tag (.store pa n d p)) s = .next s' ∧ (cohRead s' pa n).1 = d.toNat % 2 ^ (8 * n) ∧
      (src, tag, 0) ∈ s'.rdone) ∧
  (∀ s k r v p, s.rreqs[k]? = some r → exec (.remoteAck k v p) s = .next (drain (remoteEnd s r v.toNat p) r.core) ∧
    ∀ x ∈ (remoteEnd s r v.toNat p).rreqs, x.tag ≠ r.tag) ∧
  (∀ s k r, s.rreqs[k]? = some r → r.sent + 2 ^ 26 ≤ hubCycle s.now →
    ∃ s1, exec (.remoteRequestTimeout k) s = .next (drain s1 r.core) ∧ paPkg r.pa ∈ s1.fenced ∧ ∀ x ∈ s1.rreqs, x.tag ≠ r.tag)

/-! Shoot-downs, links, dies and detected errors (R185, R410-R427, R477-R498). -/

/-- A shoot-down drops the translations that it names from every TLB and stands until the cores it waits for have none older (R185);
a bad write of TICTL ends with 0x80; TICTL reads back what was written; a core that owes its acknowledgement for 2^24 hub cycles loses
its TLB (R477). -/
def Obligations.ShootDownsDropTranslations : Prop :=
  (∀ s (c : W32) i, isUp s = true → s.shoot = none →
    ((i = .shootdownPage c ∧ tictlOp c = 1) ∨ (i = .shootdownContext c ∧ tictlOp c = 2) ∨ (i = .shootdownAll c ∧ tictlOp c = 3)) →
    tictlBad c = false →
    ∃ s' x, exec i s = .next s' ∧ s'.shoot = some x ∧ x.tictl = c ∧ x.since = hubCycle s.now ∧ s'.tictl = c ∧
      (∀ k y, (k, y) ∈ s'.cores → ∀ e ∈ y.tlb, shootDrops c s.tiva e = false) ∧
      (∀ d l, (d, l) ∈ s'.l2tlb → ∀ e ∈ l, shootDrops c s.tiva e = false) ∧ s'.mem = s.mem) ∧
  (∀ s c, isUp s = true → s.shoot = none → tictlBad c = true →
    exec (.tictlBadOp c) s = .next { s with tictl := c, tistat := 0x80, shootQ := [] }) ∧
  (∀ s x, s.shoot = some x → (∀ c ∈ x.await, oldAccess s c x.upto (shootCtx x.tictl) = false) → s.shootQ = [] →
    exec .shootdownComplete s = .next { s with shoot := none, tistat := 0 }) ∧
  (∀ s x core, s.shoot = some x → s.vinvs = [] → core ∈ x.await → oldAccess s core x.upto (shootCtx x.tictl) = true →
    x.since + ackLimit < hubCycle s.now → hubCycle s.now ≤ x.since + 2 * ackLimit →
    exec (.shootdownAckTimeout core) s = .next (modCore s core fun c => { c with tlb := [] }))

/-- Links, dies and errors: a replay counts at its port (R493); a plane that goes down carries nothing more (R494); the first lane
of a Keanik link that fails leaves four in use (R493); a probe of a die comes every 2^20 hub cycles, and three missed in a row
lose the die (R424); an error of a register poisons it, unless its check corrects it, and is counted and logged with the unit and
the class of its site when the unit's cycle ends (R410, R411, R420); while the log has room an event that is no corrected error and
no replay enters its record (R412, R414); a closed window counts from 0 (R419); a remapped row is used and its channel counts
again (R421). The form of the lane masks is the model's own (assumption 88). -/
def Obligations.FaultsAreHandled : Prop :=
  (∀ s p, isUp s = true → p < 18 → portUp s p = true →
    (∃ s', exec (.flitReplay p) s = .next s' ∧ (portAt s' p).replays = ((portAt s p).replays + 1) % 16 ∧
      (portAt s' p).lanes = (portAt s p).lanes) ∧
    (∃ s', exec (.planeDown p) s = .next s' ∧ portUp s' p = false ∧ ∀ r ∈ s'.rreqs, r.port ≠ some p)) ∧
  (∀ s (u : BitVec 16) lane p, isUp s = true → u.toNat = unitPort p → p < 18 → lane < 8 → portUp s p = true →
    Tab.getD s.linkLanes u.toNat 0 = 0 →
    ∃ s', exec (.laneFail u lane) s = .next s' ∧ (portAt s' p).lanes = 4 ∧ Tab.getD s'.linkLanes u.toNat 0 = 2 ^ lane) ∧
  (∀ s d s1, isUp s = true → d < 10 → dieLost s d = false → Tab.getD s.probeAt d 0 + 2 ^ 20 ≤ hubCycle s.now →
    s1 = { s with probeAt := Tab.set s.probeAt d (hubCycle s.now) } →
    exec (.dieProbe d true) s = .next { s1 with probes := Tab.erase s.probes d } ∧
    (Tab.getD s.probes d 0 < 2 →
      exec (.dieProbe d false) s = .next { s1 with probes := Tab.set s.probes d (Tab.getD s.probes d 0 + 1) }) ∧
    (2 ≤ Tab.getD s.probes d 0 → exec (.dieProbe d false) s = .next (loseAny s1 d))) ∧
  (∀ s m, dieLost s (2 + m) = false → dieLost (loseMemory s m) (2 + m) = true) ∧
  (∀ s (e : ErrEvent) t th d v, isUp s = true → e.site = .vreg t d → thread? s t = some th → getReg th d = some (.full v) →
    (e.fixed = false → ∃ s' th', exec (.errorEvent e) s = .next s' ∧ thread? s' t = some th' ∧
      getReg th' d = some (.full { v with psn := true }) ∧ s'.log = s.log ∧
      s'.errs = s.errs ++ [⟨unitCore (coreOf s t.team), 2, 0, 0, ctxOf s t.team, 1, e.check⟩]) ∧
    (e.fixed = true → exec (.errorEvent e) s = .next { s with
      errs := s.errs ++ [⟨unitCore (coreOf s t.team), 1, 0, 0, ctxOf s t.team, e.bits.toNat, e.check⟩] })) ∧
  (∀ s r, s.errs = [r] → unitCycle s r.unit ≠ unitCycle { s with now := s.now + 1 } r.unit →
    errSettle s = ErrRec.enter { s with errs := [] } r) ∧
  (∀ s u cls sev addr flags ctx detail, isUp s = true → s.log.length < logCap → cls ≠ 1 → cls ≠ 5 →
    ∃ r rest, (logEvent s u cls sev addr flags ctx detail).log = s.log ++ r :: rest ∧ r.seq = s.logSeq ∧ r.cls = BitVec.ofNat 8 cls ∧
      r.sev = BitVec.ofNat 8 sev ∧ r.unit = BitVec.ofNat 16 u ∧ r.addr = BitVec.ofNat 64 addr ∧ r.ctx = BitVec.ofNat 8 ctx ∧
      r.detail = BitVec.ofNat 32 detail) ∧
  (∀ s (u : BitVec 16) c e, Tab.get? s.counters u.toNat = some c → c.closes = some e → e ≤ unitCycle s u.toNat → c.stopped = false →
    ∃ s' c', exec (.faultWindowClose u) s = .next s' ∧ Tab.get? s'.counters u.toNat = some c' ∧ c'.count = 0 ∧ c'.closes = none) ∧
  (∀ s md ch r, s.remaps.find? (fun r => r.1 == md && r.2.1 == ch) = some r →
    ∃ s', exec (.rowRemapComplete md ch) s = .next s' ∧ s'.remaps = s.remaps.erase r ∧
      Tab.getD s'.spareRows (unitHbm md ch) 0 = min spareMax (Tab.getD s.spareRows (unitHbm md ch) 0 + 1) ∧
      Tab.get? s'.counters (unitHbm md ch) = none)

/-! Reset and the invariant. -/

/-- After reset the package is ready, HPKG is 0, no plan is placed, no queue is enabled, nothing is resident, nothing is cached or
logged, and memory holds what assumption 1 says an unlisted byte holds (R29, R31); the invariant of Safety, which every step keeps,
holds. -/
def Obligations.ResetLeavesAnEmptyPackage : Prop :=
  State.reset.phase = .ready ∧ State.reset.hpkg = 0 ∧ State.reset.hstat = 0 ∧ State.reset.hreject = 0 ∧ State.reset.ctxs = [] ∧
  State.reset.teams = [] ∧ State.reset.threads = [] ∧ State.reset.queues = [] ∧ State.reset.qsize = 0 ∧ State.reset.log = [] ∧
  State.reset.ag = [] ∧ State.reset.llc = [] ∧ State.reset.dir = [] ∧ State.reset.l1 = [] ∧ State.reset.vs = [] ∧
  State.reset.mem = [] ∧ State.reset.cur = none ∧ State.reset.agenda = [] ∧ State.reset.errs = [] ∧ Machine.Inv State.reset

/-- Every step keeps the invariant: the canonical form of HBM, the legal values of HPKG, QSIZE and QDTBASE (R19, R79), and the log
within its 8,192 records (R412). -/
def Obligations.StepKeepsTheInvariant : Prop := ∀ s s', Machine.Inv s → step s = .next s' → Machine.Inv s'
end

