-- ==== Sys2Proof/Laws/Frame.lean ====
section
/-! SUPPORT. What the frame of an issue does with one thread that nothing holds back: one lemma for each of the four frames
(pure instructions, effects of the state at issue, instructions through the state, group collectives). -/

namespace Sys2Proof.Machine

theorem foldl_id {α β : Type} (f : β → α → β) (l : List α) (b : β) (h : ∀ x, x ∈ l → f b x = b) : l.foldl f b = b := by
  induction l with
  | nil => rfl
  | cons a l ih =>
    rw [List.foldl_cons, h a (by simp)]
    exact ih fun x hx => h x (by simp [hx])

theorem groupsIn_one (t : TRef) : groupsIn [t] = [(t.team, t.gid)] := by simp [groupsIn]

theorem mem_srcDepths {th : Thread} {x : SrcOp} {d : Nat} (h : d ∈ srcDepths th x) :
    ∃ lu te k j, x.op = .src ⟨lu, te, .v k⟩ ∧ j < x.w / 32 ∧ d = th.wbase + k.toNat + j := by
  unfold srcDepths depthsOf at h
  split at h
  · rename_i y hy
    split at h
    · rename_i k hk
      simp only [List.mem_map, List.mem_range] at h
      obtain ⟨j, hj, rfl⟩ := h
      obtain ⟨lu, te, sp⟩ := y
      exact ⟨lu, te, k, j, by rw [hy]; simp_all, hj, rfl⟩
    · simp at h
  · simp at h

theorem refillSrcs_inPool (s : State) (t : TRef) (th : Thread) (o : OpInfo) (ht : thread? s t = some th)
    (h : storedSrc th o = false) : refillSrcs s t o = .ok s := by
  unfold refillSrcs
  rw [ht]
  simp only
  apply foldl_id
  intro d hd
  simp only [ht]
  rw [if_neg]
  intro hs
  simp only [storedSrc, List.any_eq_false] at h
  simp only [List.mem_flatMap] at hd
  obtain ⟨x, hx, hd⟩ := hd
  obtain ⟨lu, te, k, j, hop, hj, rfl⟩ := mem_srcDepths hd
  have hx' := h x hx
  rw [hop] at hx'
  apply hx'
  simp only [List.any_eq_true, List.mem_range]
  exact ⟨j, hj, hs⟩

theorem srcsNow_sub (t : TRef) (th : Thread) (o : OpInfo) : ∀ x ∈ srcsNow t th o, x ∈ o.srcs := by
  intro x hx
  unfold srcsNow at hx
  split at hx <;> split at hx <;> try split at hx
  all_goals simp_all

theorem storedSrc_now (t : TRef) (th : Thread) (o : OpInfo) (h : storedSrc th o = false) :
    storedSrc th (nowInfo t th o) = false := by
  simp only [storedSrc, List.any_eq_false] at h ⊢
  exact fun x hx => h x (srcsNow_sub t th o x hx)

theorem poolFree_lanesSee (s : State) (c : Nat) : poolFree s.lanesSee c = poolFree s c := rfl

/-- Nothing is to be done before the lanes run. -/
theorem prepare_alone {s : State} {i : Instr} {o : OpInfo} {t : TRef} {th : Thread} {vals : List (List Val)} {void : Bool}
    {pops : Pops} (h : Alone s i o t th vals void pops) : prepare s.lanesSee o [t] = (s.lanesSee, [], []) := by
  have ht : thread? s.lanesSee t = some th := h.thread
  have hr : readsNow th o = true := by simp [readsNow, h.guard]
  have hk : needSum s.lanesSee o [t] = entriesNeeded th (nowInfo t th o) := by simp [needSum, laneNeed, ht, hr]
  have hroom : entriesNeeded th (nowInfo t th o) ≤ poolFree s.lanesSee (coreOf s.lanesSee t.team) := h.room
  have hob : obtain s.lanesSee t.team t.gid (entriesNeeded th (nowInfo t th o)) = (s.lanesSee, true) := by
    unfold obtain
    simp only [hroom, if_true]
  unfold prepare
  rw [groupsIn_one]
  split
  · rfl
  · simp [obtainEach, shortLanes, refillLane, hk, hob, hroom, ht, hr,
      refillSrcs_inPool _ _ _ _ ht (storedSrc_now t th o h.inPool)]

theorem laneRes_alone {s : State} {i : Instr} {o : OpInfo} {t : TRef} {th : Thread} {vals : List (List Val)} {void : Bool}
    {pops : Pops} (h : Alone s i o t th vals void pops) (f : LaneIn → LaneEff) (he : (f (laneOf s t th vals)).exc = none) :
    laneRes s.lanesSee t o f = .on (f (laneOf s t th vals)) vals pops (readFlags vals void) := by
  have ht : thread? s.lanesSee t = some th := h.thread
  have hb : blockOf s.lanesSee t th o = none := h.unblocked
  have hl : operandExc s.lanesSee t th o = none := h.legal
  have hv : readSrcs s.lanesSee t th [] o.srcs = (vals, void, pops) := h.reads
  unfold laneOf at he ⊢
  simp [laneRes, ht, h.able, h.clear, hb, h.guard, hl, hv, he]

theorem raiseAll_nil (s : State) (also : List (TRef × Exc)) : raiseAll s also [] = s := by simp [raiseAll, raiseList, groupsIn]

theorem commitLanes_on (s : State) (o : OpInfo) (ins : Instr) (lat : Nat) (t : TRef) (e : LaneEff) (vals : List (List Val))
    (pops : Pops) (fl : BitVec 7) :
    commitLanes s o ins lat [(t, .on e vals pops fl)] =
      advance (applyEff (afterReads s t o true vals pops fl) t true e) t o.ctl e.pc := by
  simp [commitLanes, gWriter, raiseAll_nil]

/-- An instruction whose effect is one of the state at issue: with no fault, the thread's reads, writes and next instruction. -/
theorem runLanes_alone {s : State} {i : Instr} {o : OpInfo} {t : TRef} {th : Thread} {vals : List (List Val)} {void : Bool}
    {pops : Pops} (h : Alone s i o t th vals void pops) (f : State → LaneIn → LaneEff)
    (he : (f s.lanesSee (laneOf s t th vals)).exc = none) :
    runLanes s i f = .next (laneNext s t o vals void pops (f s.lanesSee (laneOf s t th vals))) := by
  obtain ⟨core, sub, pc, word, hc⟩ := h.cur
  have hp := prepare_alone h
  have hl := laneRes_alone h (f s.lanesSee) he
  unfold State.lanesSee at hp hl
  simp only [runLanes, h.info, runWith, hc, hp, List.map_cons, List.map_nil, List.contains_nil, Bool.false_eq_true, if_false,
    List.find?_nil, hl, commitLanes_on]
  rfl

/-- A pure instruction whose conditions do not trap, while no shadow can open: its function's result. -/
theorem runAlu_alone {s : State} {i : Instr} {o : OpInfo} {t : TRef} {th : Thread} {vals : List (List Val)} {void : Bool}
    {pops : Pops} (h : Alone s i o t th vals void pops) (look : Instr → Option Alu) (a : Alu) (ha : a.info = o)
    (hten : a.traps = true → tenOf s t.team = 0) (hstat : a.quiet = true → statPending s t = false) :
    runAlu look s i a = .next (laneNext s t o vals (void && !a.quiet) pops (a.eval (laneOf s t th vals))) := by
  obtain ⟨core, sub, pc, word, hc⟩ := h.cur
  have ht : thread? s.lanesSee t = some th := h.thread
  have hb : blockOf s.lanesSee t th a.info = none := ha ▸ h.unblocked
  have hl : operandExc s.lanesSee t th a.info = none := ha ▸ h.legal
  have hv : readSrcs s.lanesSee t th [] a.info.srcs = (vals, void, pops) := ha ▸ h.reads
  have hg : guardOf th a.info.ctl = true := ha ▸ h.guard
  have hten' : a.traps = true → tenOf s.lanesSee t.team = 0 := hten
  have hstat' : (a.quiet && statPending s.lanesSee t) = false := by
    cases hq : a.quiet with
    | false => rfl
    | true => exact hstat hq
  have hr : aluRes look s.lanesSee t a = .on (a.eval (laneOf s t th vals)) vals pops (readFlags vals (void && !a.quiet)) := by
    unfold laneOf
    cases hq : a.traps with
    | false => simp [aluRes, ht, h.able, h.clear, hb, hl, hv, hg, hq, Bool.and_true, hstat', -Bool.and_eq_true, -Bool.and_eq_false_imp]
    | true =>
      have h0 := hten' hq
      simp [aluRes, ht, h.able, h.clear, hb, hl, hv, hg, hq, Bool.and_true, hstat', -Bool.and_eq_true, -Bool.and_eq_false_imp, h0, arithTrap, enabled]
  have hp := prepare_alone h
  rw [← ha] at hp ⊢
  unfold State.lanesSee at hp hr
  simp only [runAlu, runWith, hc, hp, List.map_cons, List.map_nil, List.contains_nil, Bool.false_eq_true, if_false,
    List.find?_nil, hr, commitLanes_on]
  rfl

/-! Instructions through the state. -/

/-- What the lane's function answers when thread `t` issues alone. -/
def seqAlone (s : State) (t : TRef) (th : Thread) (o : OpInfo) (vals : List (List Val)) (void : Bool) (pops : Pops)
    (f : (State → State) → State → LaneIn → SeqOut) : SeqOut :=
  f (fun s => afterReads s t (keepG o) true vals pops (readFlags vals void)) s.lanesSee (laneOf s t th vals)

/-- What becomes of that answer. -/
def seqNext (t : TRef) (o : OpInfo) (vals : List (List Val)) (void : Bool) (pops : Pops) (q : SeqOut) : Result :=
  match q.stop with
  | some pa => .fault (.reservedPackage pa)
  | none => match q.exc with
    | some e => .next (raiseAll (trapPre (keepG o) (modThread q.s t fun th => { th with tstat := th.tstat ||| 0 }) t e) [] [(t, e)])
    | none =>
      if q.busy then .next (modThread (keepReads q.s t vals pops (readFlags vals void) q.cmd) t fun th =>
        { th with st := .blocked .busy, since := (keepReads q.s t vals pops (readFlags vals void) q.cmd).now + 1 })
      else if q.own then .next q.s
      else .next (advance (applyEff (afterReads q.s t (keepG o) true vals pops (readFlags vals void)) t true
            { preds := q.preds, writes := q.writes }) t o.ctl none)

theorem heldReads_fresh {th : Thread} (h : th.win = none) (vals : List (List Val)) (pops : List (Nat × Nat)) (fl : BitVec 7) :
    heldReads th vals pops fl = (vals, pops, fl) := by simp [heldReads, h]

theorem keepG_ctl (o : OpInfo) : (keepG o).ctl = o.ctl := rfl

theorem runSeqR_alone {s : State} {i : Instr} {o : OpInfo} {t : TRef} {th : Thread} {vals : List (List Val)} {void : Bool}
    {pops : Pops} (h : Alone s i o t th vals void pops) (f : (State → State) → State → LaneIn → SeqOut) :
    runSeqR s i f = seqNext t o vals void pops (seqAlone s t th o vals void pops f) := by
  obtain ⟨core, sub, pc, word, hc⟩ := h.cur
  have ht : thread? s.lanesSee t = some th := h.thread
  have hp := prepare_alone h
  have hl := laneRes_alone h (fun _ => {}) rfl
  unfold seqAlone laneOf
  unfold State.lanesSee at hp hl ht ⊢
  simp only [runSeqR, h.info, hc, hp, List.map_cons, List.map_nil, List.any_cons, List.any_nil, Bool.or_false, if_true,
    List.foldl_cons, List.foldl_nil, seqLane, Option.isSome_none, Bool.false_eq_true, if_false, List.contains_nil,
    List.find?_nil, hl, ht, heldReads_fresh h.fresh]
  generalize f _ _ _ = q
  unfold seqNext
  cases hs : q.stop with
  | some pa => rfl
  | none =>
    cases he : q.exc with
    | some e => simp [commitLanes, modThread]
    | none =>
      cases hb : q.busy with
      | true => simp [commitLanes, raiseAll_nil]
      | false =>
        cases ho : q.own with
        | true => simp [commitLanes, raiseAll_nil]
        | false => simp [commitLanes_on, keepG_ctl]

theorem runSeq_alone {s : State} {i : Instr} {o : OpInfo} {t : TRef} {th : Thread} {vals : List (List Val)} {void : Bool}
    {pops : Pops} (h : Alone s i o t th vals void pops) (f : State → LaneIn → SeqOut) :
    runSeq s i f = seqNext t o vals void pops (f s.lanesSee (laneOf s t th vals)) := runSeqR_alone h fun _ => f

/-! A thread that passes with a false guard. -/

theorem prepare_off {s : State} {i : Instr} {o : OpInfo} {t : TRef} {th : Thread} (h : GuardedOff s i o t th)
    (ho : o.supply = .own) : prepare s.lanesSee o [t] = (s.lanesSee, [], []) := by
  have ht : thread? s.lanesSee t = some th := h.thread
  have hr : readsNow th o = false := by simp [readsNow, h.guard, ho]
  simp [prepare, needSum, laneNeed, ht, hr]

theorem blockOf_off {s : State} {i : Instr} {o : OpInfo} {t : TRef} {th : Thread} (h : GuardedOff s i o t th)
    (ho : o.supply = .own) : blockOf s.lanesSee t th o = none := by
  simp [blockOf, srcsNow, h.guard, ho, firstWait]

theorem operandExc_off {s : State} {i : Instr} {o : OpInfo} {t : TRef} {th : Thread} (h : GuardedOff s i o t th)
    (ho : o.supply = .own) : operandExc s.lanesSee t th o = none := by
  simp [operandExc, srcsNow, h.guard, ho, firstWait]

theorem laneRes_off {s : State} {i : Instr} {o : OpInfo} {t : TRef} {th : Thread} (h : GuardedOff s i o t th)
    (ho : o.supply = .own) (f : LaneIn → LaneEff) : laneRes s.lanesSee t o f = .off := by
  have ht : thread? s.lanesSee t = some th := h.thread
  simp [laneRes, ht, h.able, h.clear, blockOf_off h ho, h.guard]

theorem commitLanes_off (s : State) (o : OpInfo) (ins : Instr) (lat : Nat) (t : TRef) :
    commitLanes s o ins lat [(t, .off)] = advance (afterReads s t o false [] [] 0) t o.ctl none := by
  simp [commitLanes, raiseAll_nil]

theorem runLanes_off {s : State} {i : Instr} {o : OpInfo} {t : TRef} {th : Thread} (h : GuardedOff s i o t th)
    (ho : o.supply = .own) (f : State → LaneIn → LaneEff) : runLanes s i f = .next (offNext s t o) := by
  obtain ⟨core, sub, pc, word, hc⟩ := h.cur
  have hp := prepare_off h ho
  have hl := laneRes_off h ho (f s.lanesSee)
  unfold State.lanesSee at hp hl
  simp only [runLanes, h.info, runWith, hc, hp, List.map_cons, List.map_nil, List.contains_nil, Bool.false_eq_true, if_false,
    List.find?_nil, hl, commitLanes_off]
  rfl

theorem runAlu_off {s : State} {i : Instr} {o : OpInfo} {t : TRef} {th : Thread} (h : GuardedOff s i o t th)
    (ho : o.supply = .own) (look : Instr → Option Alu) (a : Alu) (ha : a.info = o) :
    runAlu look s i a = .next (offNext s t o) := by
  obtain ⟨core, sub, pc, word, hc⟩ := h.cur
  have ht : thread? s.lanesSee t = some th := h.thread
  have hp := prepare_off h ho
  have hb := blockOf_off h ho
  have hg := h.guard
  rw [← ha] at hp hb hg ⊢
  have hr : aluRes look s.lanesSee t a = .off := by simp [aluRes, ht, h.able, h.clear, hb, hg]
  unfold State.lanesSee at hp hr
  simp only [runAlu, runWith, hc, hp, List.map_cons, List.map_nil, List.contains_nil, Bool.false_eq_true, if_false,
    List.find?_nil, hr, commitLanes_off]
  rfl

theorem runSeqR_off {s : State} {i : Instr} {o : OpInfo} {t : TRef} {th : Thread} (h : GuardedOff s i o t th)
    (ho : o.supply = .own) (f : (State → State) → State → LaneIn → SeqOut) : runSeqR s i f = .next (offNext s t o) := by
  obtain ⟨core, sub, pc, word, hc⟩ := h.cur
  have hp := prepare_off h ho
  have hl := laneRes_off h ho fun _ => {}
  unfold State.lanesSee at hp hl
  simp only [runSeqR, h.info, hc, hp, List.map_cons, List.map_nil, List.any_cons, List.any_nil, Bool.or_false,
    List.foldl_cons, List.foldl_nil, seqLane, Option.isSome_none, Bool.false_eq_true, if_false,
    List.contains_nil, List.find?_nil, hl, List.nil_append, commitLanes_off]
  rfl

end Sys2Proof.Machine
end

