-- ==== Sys2Proof/Laws/Mem.lean ====
section
/-! SUPPORT. Laws of tables and byte memories: a read after a write, places that a write leaves alone, and the canonical form that
every write keeps. -/

namespace Sys2Proof.Machine

theorem tab_get_set_same {α : Type} (t : Tab α) (k : Nat) (v : α) : Tab.get? (Tab.set t k v) k = some v := by
  induction t with
  | nil => simp [Tab.set, Tab.get?]
  | cons p t ih =>
    obtain ⟨j, a⟩ := p
    simp only [Tab.set]
    split
    · simp [Tab.get?]
    · split
      · simp [Tab.get?]
      · rename_i h1 h2
        simp [Tab.get?, ih, Ne.symm h2]

theorem tab_get_set_other {α : Type} (t : Tab α) (j k : Nat) (v : α) (h : j ≠ k) :
    Tab.get? (Tab.set t k v) j = Tab.get? t j := by
  induction t with
  | nil => simp [Tab.set, Tab.get?, Ne.symm h]
  | cons p t ih =>
    obtain ⟨i, a⟩ := p
    simp only [Tab.set]
    split
    · simp [Tab.get?, Ne.symm h]
    · split
      · rename_i h1 h2
        subst h2
        simp [Tab.get?, Ne.symm h]
      · simp only [Tab.get?]
        split <;> simp [*]

theorem tab_get_modify_same {α : Type} (t : Tab α) (k : Nat) (f : α → α) :
    Tab.get? (Tab.modify t k f) k = (Tab.get? t k).map f := by
  induction t with
  | nil => simp [Tab.modify, Tab.get?]
  | cons p t ih =>
    obtain ⟨i, a⟩ := p
    simp only [Tab.modify]
    split <;> simp_all [Tab.get?]

theorem tab_get_modify_other {α : Type} (t : Tab α) (j k : Nat) (f : α → α) (h : j ≠ k) :
    Tab.get? (Tab.modify t k f) j = Tab.get? t j := by
  induction t with
  | nil => simp [Tab.modify, Tab.get?]
  | cons p t ih =>
    obtain ⟨i, a⟩ := p
    simp only [Tab.modify]
    split
    · rename_i h1
      subst h1
      simp [Tab.get?, Ne.symm h]
    · simp only [Tab.get?]
      split <;> simp [*]

/-! Byte memories. -/

theorem memGet_memPut_same (m : ByteMem) (a : Nat) (b : Byte) (lo : Option Nat) (h : memWfFrom lo m = true) :
    memGet (memPut m a b) a = b := by
  have low : ∀ (m : ByteMem) (k : Nat), memWfFrom (some k) m = true → ∀ x, x ≤ k → memGet m x = 0 := by
    intro m
    induction m with
    | nil => intros; rfl
    | cons c t ih =>
      intro k hk x hx
      simp only [memWfFrom, Bool.and_eq_true, decide_eq_true_eq] at hk
      simp only [memGet]
      rw [if_neg (by omega)]
      exact ih c.1 hk.2 x (by omega)
  induction m generalizing lo with
  | nil => simp only [memPut]; split <;> simp_all [memGet]
  | cons c t ih =>
    simp only [memWfFrom, Bool.and_eq_true] at h
    simp only [memPut]
    split
    · split
      · rename_i h1 h2
        simp only [memGet]
        rw [if_neg (by omega), h2]
        exact low t c.1 h.2 a (by omega)
      · simp [memGet]
    · split
      · rename_i h1 h2
        split
        · rename_i h3
          rw [h3]
          exact low t c.1 h.2 a (by omega)
        · simp [memGet]
      · rename_i h1 h2
        simp only [memGet]
        rw [if_neg (by omega)]
        exact ih _ h.2

theorem memGet_memPut_other (m : ByteMem) (a x : Nat) (b : Byte) (h : x ≠ a) : memGet (memPut m a b) x = memGet m x := by
  induction m with
  | nil =>
    simp only [memPut]
    split
    · rfl
    · simp [memGet, Ne.symm h]
  | cons c t ih =>
    simp only [memPut]
    split
    · split
      · rfl
      · simp [memGet, Ne.symm h]
    · split
      · rename_i h1 h2
        split
        · simp only [memGet]
          rw [if_neg (by omega)]
        · simp only [memGet]
          rw [if_neg (by omega), if_neg (by omega)]
      · simp only [memGet, ih]

theorem memWfFrom_memPut (m : ByteMem) (a : Nat) (b : Byte) (lo : Option Nat) (h : memWfFrom lo m = true)
    (hlo : ∀ k, lo = some k → k < a) : memWfFrom lo (memPut m a b) = true := by
  have weak : ∀ (m : ByteMem) (j k : Nat), memWfFrom (some k) m = true → j ≤ k → memWfFrom (some j) m = true := by
    intro m
    cases m with
    | nil => intros; rfl
    | cons c t =>
      intro j k hk hj
      simp only [memWfFrom, Bool.and_eq_true, decide_eq_true_eq] at hk ⊢
      exact ⟨⟨by omega, hk.1.2⟩, hk.2⟩
  have up : ∀ (m : ByteMem) (k : Nat), memWfFrom (some k) m = true → (∀ j, lo = some j → j ≤ k) →
      memWfFrom lo m = true := by
    intro m k hk hj
    cases lo with
    | none =>
      cases m with
      | nil => rfl
      | cons c t => simp_all [memWfFrom]
    | some j => exact weak m j k hk (hj j rfl)
  induction m generalizing lo with
  | nil =>
    simp only [memPut]
    split
    · rfl
    · rename_i hb
      simp only [memWfFrom, Bool.and_true, Bool.and_eq_true, bne_iff_ne]
      refine ⟨?_, hb⟩
      split
      · rfl
      · simp [hlo _ rfl]
  | cons c t ih =>
    have h0 := h
    simp only [memWfFrom, Bool.and_eq_true] at h
    simp only [memPut]
    split
    · split
      · exact h0
      · rename_i h1 hb
        simp only [memWfFrom, Bool.and_eq_true, bne_iff_ne, decide_eq_true_eq]
        refine ⟨⟨?_, hb⟩, ⟨h1, by simpa using h.1.2⟩, h.2⟩
        split
        · rfl
        · simp [hlo _ rfl]
    · split
      · rename_i h1 h2
        split
        · exact up t c.1 h.2 (by intro j hj; have := hlo j hj; omega)
        · rename_i hb
          simp only [memWfFrom, Bool.and_eq_true, bne_iff_ne]
          refine ⟨⟨?_, hb⟩, h2 ▸ h.2⟩
          split
          · rfl
          · simp [hlo _ rfl]
      · rename_i h1 h2
        simp only [memWfFrom, Bool.and_eq_true]
        refine ⟨h.1, ih (some c.1) h.2 (by intro k hk; cases hk; omega) ?_⟩
        intro m k hk hj
        exact weak m c.1 k hk (hj c.1 rfl)

/-- Writing one byte keeps the canonical form. -/
theorem memPut_wf (m : ByteMem) (a : Nat) (b : Byte) (h : Memory.wf m = true) : Memory.wf (memPut m a b) = true :=
  memWfFrom_memPut m a b none h (by intro k hk; cases hk)

/-- Storing bytes keeps the canonical form. -/
theorem memStore_wf (n : Nat) : ∀ (m : ByteMem) (a x : Nat), Memory.wf m = true → Memory.wf (memStore m a n x) = true := by
  induction n with
  | zero => intro m a x h; exact h
  | succ n ih => intro m a x h; exact ih _ _ _ (memPut_wf m a _ h)

/-- A store leaves every byte outside it alone. -/
theorem memGet_memStore_other (n : Nat) : ∀ (m : ByteMem) (a x y : Nat), y < a ∨ a + n ≤ y →
    memGet (memStore m a n x) y = memGet m y := by
  induction n with
  | zero => intros; rfl
  | succ n ih =>
    intro m a x y h
    simp only [memStore]
    rw [ih _ _ _ _ (by omega), memGet_memPut_other _ _ _ _ (by omega)]

/-- What has been stored reads back, byte for byte. -/
theorem memGet_memStore_same (n : Nat) : ∀ (m : ByteMem) (a x i : Nat), Memory.wf m = true → i < n →
    memGet (memStore m a n x) (a + i) = BitVec.ofNat 8 (x / 256 ^ i) := by
  induction n with
  | zero => intro m a x i _ h; omega
  | succ n ih =>
    intro m a x i hm h
    simp only [memStore]
    cases i with
    | zero =>
      rw [memGet_memStore_other _ _ _ _ _ (by omega)]
      simpa using memGet_memPut_same m a (BitVec.ofNat 8 x) none hm
    | succ i =>
      have := ih (memPut m a (BitVec.ofNat 8 x)) (a + 1) (x / 256) i (memPut_wf _ _ _ hm) (by omega)
      rw [show a + (i + 1) = a + 1 + i by omega, this, Nat.div_div_eq_div_mul, Nat.pow_succ, Nat.mul_comm]

/-- A load of what has been stored. -/
theorem memLoad_memStore (n : Nat) (m : ByteMem) (a x : Nat) (hm : Memory.wf m = true) :
    memLoad (memStore m a n x) a n = x % 256 ^ n := by
  have key : ∀ (k : Nat) (m : ByteMem) (a x : Nat), (∀ i, i < k → memGet m (a + i) = BitVec.ofNat 8 (x / 256 ^ i)) →
      memLoad m a k = x % 256 ^ k := by
    intro k
    induction k with
    | zero => intro m a x _; simp [memLoad, Nat.mod_one]
    | succ k ih =>
      intro m a x h
      have h0 := h 0 (by omega)
      have h1 := ih m (a + 1) (x / 256) (by
        intro i hi
        have := h (i + 1) (by omega)
        rw [show a + (i + 1) = a + 1 + i by omega] at this
        rw [this, Nat.div_div_eq_div_mul, Nat.pow_succ, Nat.mul_comm])
      simp only [memLoad, h1]
      rw [show a = a + 0 by rfl, h0]
      simp only [Nat.pow_zero, Nat.div_one, BitVec.toNat_ofNat]
      have e : (256 : Nat) ^ (k + 1) = 256 * 256 ^ k := by rw [Nat.pow_succ, Nat.mul_comm]
      rw [e, Nat.mod_mul]
  exact key n _ a x fun i hi => memGet_memStore_same n m a x i hm hi

end Sys2Proof.Machine
end

