-- ==== Sys2Proof/Laws/State.lean ====
section
/-! SUPPORT. Laws of the updates of a state: each named update leaves every field but its own alone, and what a lookup finds after
it. -/

namespace Sys2Proof.Machine

/-! `modThread`. -/

@[simp] theorem modThread_phase (s : State) (t : TRef) (f : Thread → Thread) : (modThread s t f).phase = s.phase := rfl
@[simp] theorem modThread_now (s : State) (t : TRef) (f : Thread → Thread) : (modThread s t f).now = s.now := rfl
@[simp] theorem modThread_agenda (s : State) (t : TRef) (f : Thread → Thread) : (modThread s t f).agenda = s.agenda := rfl
@[simp] theorem modThread_todo (s : State) (t : TRef) (f : Thread → Thread) : (modThread s t f).todo = s.todo := rfl
@[simp] theorem modThread_cur (s : State) (t : TRef) (f : Thread → Thread) : (modThread s t f).cur = s.cur := rfl
@[simp] theorem modThread_free (s : State) (t : TRef) (f : Thread → Thread) : (modThread s t f).free = s.free := rfl
@[simp] theorem modThread_claims (s : State) (t : TRef) (f : Thread → Thread) : (modThread s t f).claims = s.claims := rfl
@[simp] theorem modThread_ids (s : State) (t : TRef) (f : Thread → Thread) : (modThread s t f).ids = s.ids := rfl
@[simp] theorem modThread_hstat (s : State) (t : TRef) (f : Thread → Thread) : (modThread s t f).hstat = s.hstat := rfl
@[simp] theorem modThread_hpkg (s : State) (t : TRef) (f : Thread → Thread) : (modThread s t f).hpkg = s.hpkg := rfl
@[simp] theorem modThread_hubRun (s : State) (t : TRef) (f : Thread → Thread) : (modThread s t f).hubRun = s.hubRun := rfl
@[simp] theorem modThread_log (s : State) (t : TRef) (f : Thread → Thread) : (modThread s t f).log = s.log := rfl
@[simp] theorem modThread_counters (s : State) (t : TRef) (f : Thread → Thread) : (modThread s t f).counters = s.counters := rfl
@[simp] theorem modThread_errs (s : State) (t : TRef) (f : Thread → Thread) : (modThread s t f).errs = s.errs := rfl
@[simp] theorem modThread_power (s : State) (t : TRef) (f : Thread → Thread) : (modThread s t f).power = s.power := rfl
@[simp] theorem modThread_vs (s : State) (t : TRef) (f : Thread → Thread) : (modThread s t f).vs = s.vs := rfl
@[simp] theorem modThread_qdtbase (s : State) (t : TRef) (f : Thread → Thread) : (modThread s t f).qdtbase = s.qdtbase := rfl
@[simp] theorem modThread_qsize (s : State) (t : TRef) (f : Thread → Thread) : (modThread s t f).qsize = s.qsize := rfl
@[simp] theorem modThread_qstat (s : State) (t : TRef) (f : Thread → Thread) : (modThread s t f).qstat = s.qstat := rfl
@[simp] theorem modThread_qrun (s : State) (t : TRef) (f : Thread → Thread) : (modThread s t f).qrun = s.qrun := rfl
@[simp] theorem modThread_queues (s : State) (t : TRef) (f : Thread → Thread) : (modThread s t f).queues = s.queues := rfl
@[simp] theorem modThread_ctxs (s : State) (t : TRef) (f : Thread → Thread) : (modThread s t f).ctxs = s.ctxs := rfl
@[simp] theorem modThread_teams (s : State) (t : TRef) (f : Thread → Thread) : (modThread s t f).teams = s.teams := rfl
@[simp] theorem modThread_groups (s : State) (t : TRef) (f : Thread → Thread) : (modThread s t f).groups = s.groups := rfl
@[simp] theorem modThread_cores (s : State) (t : TRef) (f : Thread → Thread) : (modThread s t f).cores = s.cores := rfl
@[simp] theorem modThread_clusters (s : State) (t : TRef) (f : Thread → Thread) : (modThread s t f).clusters = s.clusters := rfl
@[simp] theorem modThread_lostDies (s : State) (t : TRef) (f : Thread → Thread) : (modThread s t f).lostDies = s.lostDies := rfl
@[simp] theorem modThread_l1 (s : State) (t : TRef) (f : Thread → Thread) : (modThread s t f).l1 = s.l1 := rfl
@[simp] theorem modThread_ag (s : State) (t : TRef) (f : Thread → Thread) : (modThread s t f).ag = s.ag := rfl
@[simp] theorem modThread_llc (s : State) (t : TRef) (f : Thread → Thread) : (modThread s t f).llc = s.llc := rfl
@[simp] theorem modThread_dir (s : State) (t : TRef) (f : Thread → Thread) : (modThread s t f).dir = s.dir := rfl
@[simp] theorem modThread_homeQ (s : State) (t : TRef) (f : Thread → Thread) : (modThread s t f).homeQ = s.homeQ := rfl
@[simp] theorem modThread_txns (s : State) (t : TRef) (f : Thread → Thread) : (modThread s t f).txns = s.txns := rfl
@[simp] theorem modThread_pwrites (s : State) (t : TRef) (f : Thread → Thread) : (modThread s t f).pwrites = s.pwrites := rfl
@[simp] theorem modThread_mem (s : State) (t : TRef) (f : Thread → Thread) : (modThread s t f).mem = s.mem := rfl
@[simp] theorem modThread_mpsn (s : State) (t : TRef) (f : Thread → Thread) : (modThread s t f).mpsn = s.mpsn := rfl
@[simp] theorem modThread_msgs (s : State) (t : TRef) (f : Thread → Thread) : (modThread s t f).msgs = s.msgs := rfl
@[simp] theorem modThread_links (s : State) (t : TRef) (f : Thread → Thread) : (modThread s t f).links = s.links := rfl
@[simp] theorem modThread_barxs (s : State) (t : TRef) (f : Thread → Thread) : (modThread s t f).barxs = s.barxs := rfl
@[simp] theorem modThread_slots (s : State) (t : TRef) (f : Thread → Thread) : (modThread s t f).slots = s.slots := rfl
@[simp] theorem modThread_rreqs (s : State) (t : TRef) (f : Thread → Thread) : (modThread s t f).rreqs = s.rreqs := rfl
@[simp] theorem modThread_rdy (s : State) (t : TRef) (f : Thread → Thread) : (modThread s t f).rdy = s.rdy := rfl
@[simp] theorem modThread_hcmd (s : State) (t : TRef) (f : Thread → Thread) : (modThread s t f).hcmd = s.hcmd := rfl
@[simp] theorem modThread_harg0 (s : State) (t : TRef) (f : Thread → Thread) : (modThread s t f).harg0 = s.harg0 := rfl
@[simp] theorem modThread_harg1 (s : State) (t : TRef) (f : Thread → Thread) : (modThread s t f).harg1 = s.harg1 := rfl
@[simp] theorem modThread_harg2 (s : State) (t : TRef) (f : Thread → Thread) : (modThread s t f).harg2 = s.harg2 := rfl
@[simp] theorem modThread_hresult (s : State) (t : TRef) (f : Thread → Thread) : (modThread s t f).hresult = s.hresult := rfl
@[simp] theorem modThread_hreject (s : State) (t : TRef) (f : Thread → Thread) : (modThread s t f).hreject = s.hreject := rfl
@[simp] theorem modThread_rlog (s : State) (t : TRef) (f : Thread → Thread) : (modThread s t f).rlog = s.rlog := rfl
@[simp] theorem modThread_mr0 (s : State) (t : TRef) (f : Thread → Thread) : (modThread s t f).mr0 = s.mr0 := rfl
@[simp] theorem modThread_mr1 (s : State) (t : TRef) (f : Thread → Thread) : (modThread s t f).mr1 = s.mr1 := rfl
@[simp] theorem modThread_order (s : State) (t : TRef) (f : Thread → Thread) : (modThread s t f).order = s.order := rfl
@[simp] theorem modThread_serial (s : State) (t : TRef) (f : Thread → Thread) : (modThread s t f).serial = s.serial := rfl
@[simp] theorem modThread_logSeq (s : State) (t : TRef) (f : Thread → Thread) : (modThread s t f).logSeq = s.logSeq := rfl
@[simp] theorem modThread_logLost (s : State) (t : TRef) (f : Thread → Thread) : (modThread s t f).logLost = s.logLost := rfl
@[simp] theorem modThread_retired (s : State) (t : TRef) (f : Thread → Thread) : (modThread s t f).retired = s.retired := rfl
@[simp] theorem modThread_retiring (s : State) (t : TRef) (f : Thread → Thread) : (modThread s t f).retiring = s.retiring := rfl
@[simp] theorem modThread_spareRows (s : State) (t : TRef) (f : Thread → Thread) : (modThread s t f).spareRows = s.spareRows := rfl
@[simp] theorem modThread_remaps (s : State) (t : TRef) (f : Thread → Thread) : (modThread s t f).remaps = s.remaps := rfl
@[simp] theorem modThread_halved (s : State) (t : TRef) (f : Thread → Thread) : (modThread s t f).halved = s.halved := rfl
@[simp] theorem modThread_moduleLogged (s : State) (t : TRef) (f : Thread → Thread) : (modThread s t f).moduleLogged = s.moduleLogged := rfl
@[simp] theorem modThread_storeUsed (s : State) (t : TRef) (f : Thread → Thread) : (modThread s t f).storeUsed = s.storeUsed := rfl
@[simp] theorem modThread_refusedOff (s : State) (t : TRef) (f : Thread → Thread) : (modThread s t f).refusedOff = s.refusedOff := rfl
@[simp] theorem modThread_discarded (s : State) (t : TRef) (f : Thread → Thread) : (modThread s t f).discarded = s.discarded := rfl
@[simp] theorem modThread_qturn (s : State) (t : TRef) (f : Thread → Thread) : (modThread s t f).qturn = s.qturn := rfl
@[simp] theorem modThread_tictl (s : State) (t : TRef) (f : Thread → Thread) : (modThread s t f).tictl = s.tictl := rfl
@[simp] theorem modThread_tiva (s : State) (t : TRef) (f : Thread → Thread) : (modThread s t f).tiva = s.tiva := rfl
@[simp] theorem modThread_tistat (s : State) (t : TRef) (f : Thread → Thread) : (modThread s t f).tistat = s.tistat := rfl
@[simp] theorem modThread_shoot (s : State) (t : TRef) (f : Thread → Thread) : (modThread s t f).shoot = s.shoot := rfl
@[simp] theorem modThread_shootQ (s : State) (t : TRef) (f : Thread → Thread) : (modThread s t f).shootQ = s.shootQ := rfl
@[simp] theorem modThread_ages (s : State) (t : TRef) (f : Thread → Thread) : (modThread s t f).ages = s.ages := rfl
@[simp] theorem modThread_saveSeq (s : State) (t : TRef) (f : Thread → Thread) : (modThread s t f).saveSeq = s.saveSeq := rfl
@[simp] theorem modThread_l2tlb (s : State) (t : TRef) (f : Thread → Thread) : (modThread s t f).l2tlb = s.l2tlb := rfl
@[simp] theorem modThread_probes (s : State) (t : TRef) (f : Thread → Thread) : (modThread s t f).probes = s.probes := rfl
@[simp] theorem modThread_probeAt (s : State) (t : TRef) (f : Thread → Thread) : (modThread s t f).probeAt = s.probeAt := rfl
@[simp] theorem modThread_linkLanes (s : State) (t : TRef) (f : Thread → Thread) : (modThread s t f).linkLanes = s.linkLanes := rfl
@[simp] theorem modThread_clock (s : State) (t : TRef) (f : Thread → Thread) : (modThread s t f).clock = s.clock := rfl
@[simp] theorem modThread_settle (s : State) (t : TRef) (f : Thread → Thread) : (modThread s t f).settle = s.settle := rfl
@[simp] theorem modThread_sent (s : State) (t : TRef) (f : Thread → Thread) : (modThread s t f).sent = s.sent := rfl
@[simp] theorem modThread_applied (s : State) (t : TRef) (f : Thread → Thread) : (modThread s t f).applied = s.applied := rfl
@[simp] theorem modThread_homeSettle (s : State) (t : TRef) (f : Thread → Thread) : (modThread s t f).homeSettle = s.homeSettle := rfl
@[simp] theorem modThread_dieSettle (s : State) (t : TRef) (f : Thread → Thread) : (modThread s t f).dieSettle = s.dieSettle := rfl
@[simp] theorem modThread_predictor (s : State) (t : TRef) (f : Thread → Thread) : (modThread s t f).predictor = s.predictor := rfl
@[simp] theorem modThread_ccode (s : State) (t : TRef) (f : Thread → Thread) : (modThread s t f).ccode = s.ccode := rfl
@[simp] theorem modThread_mdcache (s : State) (t : TRef) (f : Thread → Thread) : (modThread s t f).mdcache = s.mdcache := rfl
@[simp] theorem modThread_vinvs (s : State) (t : TRef) (f : Thread → Thread) : (modThread s t f).vinvs = s.vinvs := rfl
@[simp] theorem modThread_barRecs (s : State) (t : TRef) (f : Thread → Thread) : (modThread s t f).barRecs = s.barRecs := rfl
@[simp] theorem modThread_peers (s : State) (t : TRef) (f : Thread → Thread) : (modThread s t f).peers = s.peers := rfl
@[simp] theorem modThread_colls (s : State) (t : TRef) (f : Thread → Thread) : (modThread s t f).colls = s.colls := rfl
@[simp] theorem modThread_relayReady (s : State) (t : TRef) (f : Thread → Thread) : (modThread s t f).relayReady = s.relayReady := rfl
@[simp] theorem modThread_ports (s : State) (t : TRef) (f : Thread → Thread) : (modThread s t f).ports = s.ports := rfl
@[simp] theorem modThread_rtag (s : State) (t : TRef) (f : Thread → Thread) : (modThread s t f).rtag = s.rtag := rfl
@[simp] theorem modThread_rdone (s : State) (t : TRef) (f : Thread → Thread) : (modThread s t f).rdone = s.rdone := rfl
@[simp] theorem modThread_fenced (s : State) (t : TRef) (f : Thread → Thread) : (modThread s t f).fenced = s.fenced := rfl

/-! `setThread`. -/

@[simp] theorem setThread_phase (s : State) (t : TRef) (th : Thread) : (setThread s t th).phase = s.phase := rfl
@[simp] theorem setThread_now (s : State) (t : TRef) (th : Thread) : (setThread s t th).now = s.now := rfl
@[simp] theorem setThread_agenda (s : State) (t : TRef) (th : Thread) : (setThread s t th).agenda = s.agenda := rfl
@[simp] theorem setThread_todo (s : State) (t : TRef) (th : Thread) : (setThread s t th).todo = s.todo := rfl
@[simp] theorem setThread_cur (s : State) (t : TRef) (th : Thread) : (setThread s t th).cur = s.cur := rfl
@[simp] theorem setThread_free (s : State) (t : TRef) (th : Thread) : (setThread s t th).free = s.free := rfl
@[simp] theorem setThread_claims (s : State) (t : TRef) (th : Thread) : (setThread s t th).claims = s.claims := rfl
@[simp] theorem setThread_ids (s : State) (t : TRef) (th : Thread) : (setThread s t th).ids = s.ids := rfl
@[simp] theorem setThread_hstat (s : State) (t : TRef) (th : Thread) : (setThread s t th).hstat = s.hstat := rfl
@[simp] theorem setThread_hpkg (s : State) (t : TRef) (th : Thread) : (setThread s t th).hpkg = s.hpkg := rfl
@[simp] theorem setThread_hubRun (s : State) (t : TRef) (th : Thread) : (setThread s t th).hubRun = s.hubRun := rfl
@[simp] theorem setThread_log (s : State) (t : TRef) (th : Thread) : (setThread s t th).log = s.log := rfl
@[simp] theorem setThread_counters (s : State) (t : TRef) (th : Thread) : (setThread s t th).counters = s.counters := rfl
@[simp] theorem setThread_errs (s : State) (t : TRef) (th : Thread) : (setThread s t th).errs = s.errs := rfl
@[simp] theorem setThread_power (s : State) (t : TRef) (th : Thread) : (setThread s t th).power = s.power := rfl
@[simp] theorem setThread_vs (s : State) (t : TRef) (th : Thread) : (setThread s t th).vs = s.vs := rfl
@[simp] theorem setThread_qdtbase (s : State) (t : TRef) (th : Thread) : (setThread s t th).qdtbase = s.qdtbase := rfl
@[simp] theorem setThread_qsize (s : State) (t : TRef) (th : Thread) : (setThread s t th).qsize = s.qsize := rfl
@[simp] theorem setThread_qstat (s : State) (t : TRef) (th : Thread) : (setThread s t th).qstat = s.qstat := rfl
@[simp] theorem setThread_qrun (s : State) (t : TRef) (th : Thread) : (setThread s t th).qrun = s.qrun := rfl
@[simp] theorem setThread_queues (s : State) (t : TRef) (th : Thread) : (setThread s t th).queues = s.queues := rfl
@[simp] theorem setThread_ctxs (s : State) (t : TRef) (th : Thread) : (setThread s t th).ctxs = s.ctxs := rfl
@[simp] theorem setThread_teams (s : State) (t : TRef) (th : Thread) : (setThread s t th).teams = s.teams := rfl
@[simp] theorem setThread_groups (s : State) (t : TRef) (th : Thread) : (setThread s t th).groups = s.groups := rfl
@[simp] theorem setThread_cores (s : State) (t : TRef) (th : Thread) : (setThread s t th).cores = s.cores := rfl
@[simp] theorem setThread_clusters (s : State) (t : TRef) (th : Thread) : (setThread s t th).clusters = s.clusters := rfl
@[simp] theorem setThread_lostDies (s : State) (t : TRef) (th : Thread) : (setThread s t th).lostDies = s.lostDies := rfl
@[simp] theorem setThread_l1 (s : State) (t : TRef) (th : Thread) : (setThread s t th).l1 = s.l1 := rfl
@[simp] theorem setThread_ag (s : State) (t : TRef) (th : Thread) : (setThread s t th).ag = s.ag := rfl
@[simp] theorem setThread_llc (s : State) (t : TRef) (th : Thread) : (setThread s t th).llc = s.llc := rfl
@[simp] theorem setThread_dir (s : State) (t : TRef) (th : Thread) : (setThread s t th).dir = s.dir := rfl
@[simp] theorem setThread_homeQ (s : State) (t : TRef) (th : Thread) : (setThread s t th).homeQ = s.homeQ := rfl
@[simp] theorem setThread_txns (s : State) (t : TRef) (th : Thread) : (setThread s t th).txns = s.txns := rfl
@[simp] theorem setThread_pwrites (s : State) (t : TRef) (th : Thread) : (setThread s t th).pwrites = s.pwrites := rfl
@[simp] theorem setThread_mem (s : State) (t : TRef) (th : Thread) : (setThread s t th).mem = s.mem := rfl
@[simp] theorem setThread_mpsn (s : State) (t : TRef) (th : Thread) : (setThread s t th).mpsn = s.mpsn := rfl
@[simp] theorem setThread_msgs (s : State) (t : TRef) (th : Thread) : (setThread s t th).msgs = s.msgs := rfl
@[simp] theorem setThread_links (s : State) (t : TRef) (th : Thread) : (setThread s t th).links = s.links := rfl
@[simp] theorem setThread_barxs (s : State) (t : TRef) (th : Thread) : (setThread s t th).barxs = s.barxs := rfl
@[simp] theorem setThread_slots (s : State) (t : TRef) (th : Thread) : (setThread s t th).slots = s.slots := rfl
@[simp] theorem setThread_rreqs (s : State) (t : TRef) (th : Thread) : (setThread s t th).rreqs = s.rreqs := rfl
@[simp] theorem setThread_rdy (s : State) (t : TRef) (th : Thread) : (setThread s t th).rdy = s.rdy := rfl
@[simp] theorem setThread_hcmd (s : State) (t : TRef) (th : Thread) : (setThread s t th).hcmd = s.hcmd := rfl
@[simp] theorem setThread_harg0 (s : State) (t : TRef) (th : Thread) : (setThread s t th).harg0 = s.harg0 := rfl
@[simp] theorem setThread_harg1 (s : State) (t : TRef) (th : Thread) : (setThread s t th).harg1 = s.harg1 := rfl
@[simp] theorem setThread_harg2 (s : State) (t : TRef) (th : Thread) : (setThread s t th).harg2 = s.harg2 := rfl
@[simp] theorem setThread_hresult (s : State) (t : TRef) (th : Thread) : (setThread s t th).hresult = s.hresult := rfl
@[simp] theorem setThread_hreject (s : State) (t : TRef) (th : Thread) : (setThread s t th).hreject = s.hreject := rfl
@[simp] theorem setThread_rlog (s : State) (t : TRef) (th : Thread) : (setThread s t th).rlog = s.rlog := rfl
@[simp] theorem setThread_mr0 (s : State) (t : TRef) (th : Thread) : (setThread s t th).mr0 = s.mr0 := rfl
@[simp] theorem setThread_mr1 (s : State) (t : TRef) (th : Thread) : (setThread s t th).mr1 = s.mr1 := rfl
@[simp] theorem setThread_order (s : State) (t : TRef) (th : Thread) : (setThread s t th).order = s.order := rfl
@[simp] theorem setThread_serial (s : State) (t : TRef) (th : Thread) : (setThread s t th).serial = s.serial := rfl
@[simp] theorem setThread_logSeq (s : State) (t : TRef) (th : Thread) : (setThread s t th).logSeq = s.logSeq := rfl
@[simp] theorem setThread_logLost (s : State) (t : TRef) (th : Thread) : (setThread s t th).logLost = s.logLost := rfl
@[simp] theorem setThread_retired (s : State) (t : TRef) (th : Thread) : (setThread s t th).retired = s.retired := rfl
@[simp] theorem setThread_retiring (s : State) (t : TRef) (th : Thread) : (setThread s t th).retiring = s.retiring := rfl
@[simp] theorem setThread_spareRows (s : State) (t : TRef) (th : Thread) : (setThread s t th).spareRows = s.spareRows := rfl
@[simp] theorem setThread_remaps (s : State) (t : TRef) (th : Thread) : (setThread s t th).remaps = s.remaps := rfl
@[simp] theorem setThread_halved (s : State) (t : TRef) (th : Thread) : (setThread s t th).halved = s.halved := rfl
@[simp] theorem setThread_moduleLogged (s : State) (t : TRef) (th : Thread) : (setThread s t th).moduleLogged = s.moduleLogged := rfl
@[simp] theorem setThread_storeUsed (s : State) (t : TRef) (th : Thread) : (setThread s t th).storeUsed = s.storeUsed := rfl
@[simp] theorem setThread_refusedOff (s : State) (t : TRef) (th : Thread) : (setThread s t th).refusedOff = s.refusedOff := rfl
@[simp] theorem setThread_discarded (s : State) (t : TRef) (th : Thread) : (setThread s t th).discarded = s.discarded := rfl
@[simp] theorem setThread_qturn (s : State) (t : TRef) (th : Thread) : (setThread s t th).qturn = s.qturn := rfl
@[simp] theorem setThread_tictl (s : State) (t : TRef) (th : Thread) : (setThread s t th).tictl = s.tictl := rfl
@[simp] theorem setThread_tiva (s : State) (t : TRef) (th : Thread) : (setThread s t th).tiva = s.tiva := rfl
@[simp] theorem setThread_tistat (s : State) (t : TRef) (th : Thread) : (setThread s t th).tistat = s.tistat := rfl
@[simp] theorem setThread_shoot (s : State) (t : TRef) (th : Thread) : (setThread s t th).shoot = s.shoot := rfl
@[simp] theorem setThread_shootQ (s : State) (t : TRef) (th : Thread) : (setThread s t th).shootQ = s.shootQ := rfl
@[simp] theorem setThread_ages (s : State) (t : TRef) (th : Thread) : (setThread s t th).ages = s.ages := rfl
@[simp] theorem setThread_saveSeq (s : State) (t : TRef) (th : Thread) : (setThread s t th).saveSeq = s.saveSeq := rfl
@[simp] theorem setThread_l2tlb (s : State) (t : TRef) (th : Thread) : (setThread s t th).l2tlb = s.l2tlb := rfl
@[simp] theorem setThread_probes (s : State) (t : TRef) (th : Thread) : (setThread s t th).probes = s.probes := rfl
@[simp] theorem setThread_probeAt (s : State) (t : TRef) (th : Thread) : (setThread s t th).probeAt = s.probeAt := rfl
@[simp] theorem setThread_linkLanes (s : State) (t : TRef) (th : Thread) : (setThread s t th).linkLanes = s.linkLanes := rfl
@[simp] theorem setThread_clock (s : State) (t : TRef) (th : Thread) : (setThread s t th).clock = s.clock := rfl
@[simp] theorem setThread_settle (s : State) (t : TRef) (th : Thread) : (setThread s t th).settle = s.settle := rfl
@[simp] theorem setThread_sent (s : State) (t : TRef) (th : Thread) : (setThread s t th).sent = s.sent := rfl
@[simp] theorem setThread_applied (s : State) (t : TRef) (th : Thread) : (setThread s t th).applied = s.applied := rfl
@[simp] theorem setThread_homeSettle (s : State) (t : TRef) (th : Thread) : (setThread s t th).homeSettle = s.homeSettle := rfl
@[simp] theorem setThread_dieSettle (s : State) (t : TRef) (th : Thread) : (setThread s t th).dieSettle = s.dieSettle := rfl
@[simp] theorem setThread_predictor (s : State) (t : TRef) (th : Thread) : (setThread s t th).predictor = s.predictor := rfl
@[simp] theorem setThread_ccode (s : State) (t : TRef) (th : Thread) : (setThread s t th).ccode = s.ccode := rfl
@[simp] theorem setThread_mdcache (s : State) (t : TRef) (th : Thread) : (setThread s t th).mdcache = s.mdcache := rfl
@[simp] theorem setThread_vinvs (s : State) (t : TRef) (th : Thread) : (setThread s t th).vinvs = s.vinvs := rfl
@[simp] theorem setThread_barRecs (s : State) (t : TRef) (th : Thread) : (setThread s t th).barRecs = s.barRecs := rfl
@[simp] theorem setThread_peers (s : State) (t : TRef) (th : Thread) : (setThread s t th).peers = s.peers := rfl
@[simp] theorem setThread_colls (s : State) (t : TRef) (th : Thread) : (setThread s t th).colls = s.colls := rfl
@[simp] theorem setThread_relayReady (s : State) (t : TRef) (th : Thread) : (setThread s t th).relayReady = s.relayReady := rfl
@[simp] theorem setThread_ports (s : State) (t : TRef) (th : Thread) : (setThread s t th).ports = s.ports := rfl
@[simp] theorem setThread_rtag (s : State) (t : TRef) (th : Thread) : (setThread s t th).rtag = s.rtag := rfl
@[simp] theorem setThread_rdone (s : State) (t : TRef) (th : Thread) : (setThread s t th).rdone = s.rdone := rfl
@[simp] theorem setThread_fenced (s : State) (t : TRef) (th : Thread) : (setThread s t th).fenced = s.fenced := rfl

/-! `modGroup`. -/

@[simp] theorem modGroup_phase (s : State) (m g : Nat) (f : Group → Group) : (modGroup s m g f).phase = s.phase := rfl
@[simp] theorem modGroup_now (s : State) (m g : Nat) (f : Group → Group) : (modGroup s m g f).now = s.now := rfl
@[simp] theorem modGroup_agenda (s : State) (m g : Nat) (f : Group → Group) : (modGroup s m g f).agenda = s.agenda := rfl
@[simp] theorem modGroup_todo (s : State) (m g : Nat) (f : Group → Group) : (modGroup s m g f).todo = s.todo := rfl
@[simp] theorem modGroup_cur (s : State) (m g : Nat) (f : Group → Group) : (modGroup s m g f).cur = s.cur := rfl
@[simp] theorem modGroup_free (s : State) (m g : Nat) (f : Group → Group) : (modGroup s m g f).free = s.free := rfl
@[simp] theorem modGroup_claims (s : State) (m g : Nat) (f : Group → Group) : (modGroup s m g f).claims = s.claims := rfl
@[simp] theorem modGroup_ids (s : State) (m g : Nat) (f : Group → Group) : (modGroup s m g f).ids = s.ids := rfl
@[simp] theorem modGroup_hstat (s : State) (m g : Nat) (f : Group → Group) : (modGroup s m g f).hstat = s.hstat := rfl
@[simp] theorem modGroup_hpkg (s : State) (m g : Nat) (f : Group → Group) : (modGroup s m g f).hpkg = s.hpkg := rfl
@[simp] theorem modGroup_hubRun (s : State) (m g : Nat) (f : Group → Group) : (modGroup s m g f).hubRun = s.hubRun := rfl
@[simp] theorem modGroup_log (s : State) (m g : Nat) (f : Group → Group) : (modGroup s m g f).log = s.log := rfl
@[simp] theorem modGroup_counters (s : State) (m g : Nat) (f : Group → Group) : (modGroup s m g f).counters = s.counters := rfl
@[simp] theorem modGroup_errs (s : State) (m g : Nat) (f : Group → Group) : (modGroup s m g f).errs = s.errs := rfl
@[simp] theorem modGroup_power (s : State) (m g : Nat) (f : Group → Group) : (modGroup s m g f).power = s.power := rfl
@[simp] theorem modGroup_vs (s : State) (m g : Nat) (f : Group → Group) : (modGroup s m g f).vs = s.vs := rfl
@[simp] theorem modGroup_qdtbase (s : State) (m g : Nat) (f : Group → Group) : (modGroup s m g f).qdtbase = s.qdtbase := rfl
@[simp] theorem modGroup_qsize (s : State) (m g : Nat) (f : Group → Group) : (modGroup s m g f).qsize = s.qsize := rfl
@[simp] theorem modGroup_qstat (s : State) (m g : Nat) (f : Group → Group) : (modGroup s m g f).qstat = s.qstat := rfl
@[simp] theorem modGroup_qrun (s : State) (m g : Nat) (f : Group → Group) : (modGroup s m g f).qrun = s.qrun := rfl
@[simp] theorem modGroup_queues (s : State) (m g : Nat) (f : Group → Group) : (modGroup s m g f).queues = s.queues := rfl
@[simp] theorem modGroup_ctxs (s : State) (m g : Nat) (f : Group → Group) : (modGroup s m g f).ctxs = s.ctxs := rfl
@[simp] theorem modGroup_teams (s : State) (m g : Nat) (f : Group → Group) : (modGroup s m g f).teams = s.teams := rfl
@[simp] theorem modGroup_threads (s : State) (m g : Nat) (f : Group → Group) : (modGroup s m g f).threads = s.threads := rfl
@[simp] theorem modGroup_cores (s : State) (m g : Nat) (f : Group → Group) : (modGroup s m g f).cores = s.cores := rfl
@[simp] theorem modGroup_clusters (s : State) (m g : Nat) (f : Group → Group) : (modGroup s m g f).clusters = s.clusters := rfl
@[simp] theorem modGroup_lostDies (s : State) (m g : Nat) (f : Group → Group) : (modGroup s m g f).lostDies = s.lostDies := rfl
@[simp] theorem modGroup_l1 (s : State) (m g : Nat) (f : Group → Group) : (modGroup s m g f).l1 = s.l1 := rfl
@[simp] theorem modGroup_ag (s : State) (m g : Nat) (f : Group → Group) : (modGroup s m g f).ag = s.ag := rfl
@[simp] theorem modGroup_llc (s : State) (m g : Nat) (f : Group → Group) : (modGroup s m g f).llc = s.llc := rfl
@[simp] theorem modGroup_dir (s : State) (m g : Nat) (f : Group → Group) : (modGroup s m g f).dir = s.dir := rfl
@[simp] theorem modGroup_homeQ (s : State) (m g : Nat) (f : Group → Group) : (modGroup s m g f).homeQ = s.homeQ := rfl
@[simp] theorem modGroup_txns (s : State) (m g : Nat) (f : Group → Group) : (modGroup s m g f).txns = s.txns := rfl
@[simp] theorem modGroup_pwrites (s : State) (m g : Nat) (f : Group → Group) : (modGroup s m g f).pwrites = s.pwrites := rfl
@[simp] theorem modGroup_mem (s : State) (m g : Nat) (f : Group → Group) : (modGroup s m g f).mem = s.mem := rfl
@[simp] theorem modGroup_mpsn (s : State) (m g : Nat) (f : Group → Group) : (modGroup s m g f).mpsn = s.mpsn := rfl
@[simp] theorem modGroup_msgs (s : State) (m g : Nat) (f : Group → Group) : (modGroup s m g f).msgs = s.msgs := rfl
@[simp] theorem modGroup_links (s : State) (m g : Nat) (f : Group → Group) : (modGroup s m g f).links = s.links := rfl
@[simp] theorem modGroup_barxs (s : State) (m g : Nat) (f : Group → Group) : (modGroup s m g f).barxs = s.barxs := rfl
@[simp] theorem modGroup_slots (s : State) (m g : Nat) (f : Group → Group) : (modGroup s m g f).slots = s.slots := rfl
@[simp] theorem modGroup_rreqs (s : State) (m g : Nat) (f : Group → Group) : (modGroup s m g f).rreqs = s.rreqs := rfl
@[simp] theorem modGroup_rdy (s : State) (m g : Nat) (f : Group → Group) : (modGroup s m g f).rdy = s.rdy := rfl
@[simp] theorem modGroup_hcmd (s : State) (m g : Nat) (f : Group → Group) : (modGroup s m g f).hcmd = s.hcmd := rfl
@[simp] theorem modGroup_harg0 (s : State) (m g : Nat) (f : Group → Group) : (modGroup s m g f).harg0 = s.harg0 := rfl
@[simp] theorem modGroup_harg1 (s : State) (m g : Nat) (f : Group → Group) : (modGroup s m g f).harg1 = s.harg1 := rfl
@[simp] theorem modGroup_harg2 (s : State) (m g : Nat) (f : Group → Group) : (modGroup s m g f).harg2 = s.harg2 := rfl
@[simp] theorem modGroup_hresult (s : State) (m g : Nat) (f : Group → Group) : (modGroup s m g f).hresult = s.hresult := rfl
@[simp] theorem modGroup_hreject (s : State) (m g : Nat) (f : Group → Group) : (modGroup s m g f).hreject = s.hreject := rfl
@[simp] theorem modGroup_rlog (s : State) (m g : Nat) (f : Group → Group) : (modGroup s m g f).rlog = s.rlog := rfl
@[simp] theorem modGroup_mr0 (s : State) (m g : Nat) (f : Group → Group) : (modGroup s m g f).mr0 = s.mr0 := rfl
@[simp] theorem modGroup_mr1 (s : State) (m g : Nat) (f : Group → Group) : (modGroup s m g f).mr1 = s.mr1 := rfl
@[simp] theorem modGroup_order (s : State) (m g : Nat) (f : Group → Group) : (modGroup s m g f).order = s.order := rfl
@[simp] theorem modGroup_serial (s : State) (m g : Nat) (f : Group → Group) : (modGroup s m g f).serial = s.serial := rfl
@[simp] theorem modGroup_logSeq (s : State) (m g : Nat) (f : Group → Group) : (modGroup s m g f).logSeq = s.logSeq := rfl
@[simp] theorem modGroup_logLost (s : State) (m g : Nat) (f : Group → Group) : (modGroup s m g f).logLost = s.logLost := rfl
@[simp] theorem modGroup_retired (s : State) (m g : Nat) (f : Group → Group) : (modGroup s m g f).retired = s.retired := rfl
@[simp] theorem modGroup_retiring (s : State) (m g : Nat) (f : Group → Group) : (modGroup s m g f).retiring = s.retiring := rfl
@[simp] theorem modGroup_spareRows (s : State) (m g : Nat) (f : Group → Group) : (modGroup s m g f).spareRows = s.spareRows := rfl
@[simp] theorem modGroup_remaps (s : State) (m g : Nat) (f : Group → Group) : (modGroup s m g f).remaps = s.remaps := rfl
@[simp] theorem modGroup_halved (s : State) (m g : Nat) (f : Group → Group) : (modGroup s m g f).halved = s.halved := rfl
@[simp] theorem modGroup_moduleLogged (s : State) (m g : Nat) (f : Group → Group) : (modGroup s m g f).moduleLogged = s.moduleLogged := rfl
@[simp] theorem modGroup_storeUsed (s : State) (m g : Nat) (f : Group → Group) : (modGroup s m g f).storeUsed = s.storeUsed := rfl
@[simp] theorem modGroup_refusedOff (s : State) (m g : Nat) (f : Group → Group) : (modGroup s m g f).refusedOff = s.refusedOff := rfl
@[simp] theorem modGroup_discarded (s : State) (m g : Nat) (f : Group → Group) : (modGroup s m g f).discarded = s.discarded := rfl
@[simp] theorem modGroup_qturn (s : State) (m g : Nat) (f : Group → Group) : (modGroup s m g f).qturn = s.qturn := rfl
@[simp] theorem modGroup_tictl (s : State) (m g : Nat) (f : Group → Group) : (modGroup s m g f).tictl = s.tictl := rfl
@[simp] theorem modGroup_tiva (s : State) (m g : Nat) (f : Group → Group) : (modGroup s m g f).tiva = s.tiva := rfl
@[simp] theorem modGroup_tistat (s : State) (m g : Nat) (f : Group → Group) : (modGroup s m g f).tistat = s.tistat := rfl
@[simp] theorem modGroup_shoot (s : State) (m g : Nat) (f : Group → Group) : (modGroup s m g f).shoot = s.shoot := rfl
@[simp] theorem modGroup_shootQ (s : State) (m g : Nat) (f : Group → Group) : (modGroup s m g f).shootQ = s.shootQ := rfl
@[simp] theorem modGroup_ages (s : State) (m g : Nat) (f : Group → Group) : (modGroup s m g f).ages = s.ages := rfl
@[simp] theorem modGroup_saveSeq (s : State) (m g : Nat) (f : Group → Group) : (modGroup s m g f).saveSeq = s.saveSeq := rfl
@[simp] theorem modGroup_l2tlb (s : State) (m g : Nat) (f : Group → Group) : (modGroup s m g f).l2tlb = s.l2tlb := rfl
@[simp] theorem modGroup_probes (s : State) (m g : Nat) (f : Group → Group) : (modGroup s m g f).probes = s.probes := rfl
@[simp] theorem modGroup_probeAt (s : State) (m g : Nat) (f : Group → Group) : (modGroup s m g f).probeAt = s.probeAt := rfl
@[simp] theorem modGroup_linkLanes (s : State) (m g : Nat) (f : Group → Group) : (modGroup s m g f).linkLanes = s.linkLanes := rfl
@[simp] theorem modGroup_clock (s : State) (m g : Nat) (f : Group → Group) : (modGroup s m g f).clock = s.clock := rfl
@[simp] theorem modGroup_settle (s : State) (m g : Nat) (f : Group → Group) : (modGroup s m g f).settle = s.settle := rfl
@[simp] theorem modGroup_sent (s : State) (m g : Nat) (f : Group → Group) : (modGroup s m g f).sent = s.sent := rfl
@[simp] theorem modGroup_applied (s : State) (m g : Nat) (f : Group → Group) : (modGroup s m g f).applied = s.applied := rfl
@[simp] theorem modGroup_homeSettle (s : State) (m g : Nat) (f : Group → Group) : (modGroup s m g f).homeSettle = s.homeSettle := rfl
@[simp] theorem modGroup_dieSettle (s : State) (m g : Nat) (f : Group → Group) : (modGroup s m g f).dieSettle = s.dieSettle := rfl
@[simp] theorem modGroup_predictor (s : State) (m g : Nat) (f : Group → Group) : (modGroup s m g f).predictor = s.predictor := rfl
@[simp] theorem modGroup_ccode (s : State) (m g : Nat) (f : Group → Group) : (modGroup s m g f).ccode = s.ccode := rfl
@[simp] theorem modGroup_mdcache (s : State) (m g : Nat) (f : Group → Group) : (modGroup s m g f).mdcache = s.mdcache := rfl
@[simp] theorem modGroup_vinvs (s : State) (m g : Nat) (f : Group → Group) : (modGroup s m g f).vinvs = s.vinvs := rfl
@[simp] theorem modGroup_barRecs (s : State) (m g : Nat) (f : Group → Group) : (modGroup s m g f).barRecs = s.barRecs := rfl
@[simp] theorem modGroup_peers (s : State) (m g : Nat) (f : Group → Group) : (modGroup s m g f).peers = s.peers := rfl
@[simp] theorem modGroup_colls (s : State) (m g : Nat) (f : Group → Group) : (modGroup s m g f).colls = s.colls := rfl
@[simp] theorem modGroup_relayReady (s : State) (m g : Nat) (f : Group → Group) : (modGroup s m g f).relayReady = s.relayReady := rfl
@[simp] theorem modGroup_ports (s : State) (m g : Nat) (f : Group → Group) : (modGroup s m g f).ports = s.ports := rfl
@[simp] theorem modGroup_rtag (s : State) (m g : Nat) (f : Group → Group) : (modGroup s m g f).rtag = s.rtag := rfl
@[simp] theorem modGroup_rdone (s : State) (m g : Nat) (f : Group → Group) : (modGroup s m g f).rdone = s.rdone := rfl
@[simp] theorem modGroup_fenced (s : State) (m g : Nat) (f : Group → Group) : (modGroup s m g f).fenced = s.fenced := rfl

/-! `modTeam`. -/

@[simp] theorem modTeam_phase (s : State) (m : Nat) (f : Team → Team) : (modTeam s m f).phase = s.phase := rfl
@[simp] theorem modTeam_now (s : State) (m : Nat) (f : Team → Team) : (modTeam s m f).now = s.now := rfl
@[simp] theorem modTeam_agenda (s : State) (m : Nat) (f : Team → Team) : (modTeam s m f).agenda = s.agenda := rfl
@[simp] theorem modTeam_todo (s : State) (m : Nat) (f : Team → Team) : (modTeam s m f).todo = s.todo := rfl
@[simp] theorem modTeam_cur (s : State) (m : Nat) (f : Team → Team) : (modTeam s m f).cur = s.cur := rfl
@[simp] theorem modTeam_free (s : State) (m : Nat) (f : Team → Team) : (modTeam s m f).free = s.free := rfl
@[simp] theorem modTeam_claims (s : State) (m : Nat) (f : Team → Team) : (modTeam s m f).claims = s.claims := rfl
@[simp] theorem modTeam_ids (s : State) (m : Nat) (f : Team → Team) : (modTeam s m f).ids = s.ids := rfl
@[simp] theorem modTeam_hstat (s : State) (m : Nat) (f : Team → Team) : (modTeam s m f).hstat = s.hstat := rfl
@[simp] theorem modTeam_hpkg (s : State) (m : Nat) (f : Team → Team) : (modTeam s m f).hpkg = s.hpkg := rfl
@[simp] theorem modTeam_hubRun (s : State) (m : Nat) (f : Team → Team) : (modTeam s m f).hubRun = s.hubRun := rfl
@[simp] theorem modTeam_log (s : State) (m : Nat) (f : Team → Team) : (modTeam s m f).log = s.log := rfl
@[simp] theorem modTeam_counters (s : State) (m : Nat) (f : Team → Team) : (modTeam s m f).counters = s.counters := rfl
@[simp] theorem modTeam_errs (s : State) (m : Nat) (f : Team → Team) : (modTeam s m f).errs = s.errs := rfl
@[simp] theorem modTeam_power (s : State) (m : Nat) (f : Team → Team) : (modTeam s m f).power = s.power := rfl
@[simp] theorem modTeam_vs (s : State) (m : Nat) (f : Team → Team) : (modTeam s m f).vs = s.vs := rfl
@[simp] theorem modTeam_qdtbase (s : State) (m : Nat) (f : Team → Team) : (modTeam s m f).qdtbase = s.qdtbase := rfl
@[simp] theorem modTeam_qsize (s : State) (m : Nat) (f : Team → Team) : (modTeam s m f).qsize = s.qsize := rfl
@[simp] theorem modTeam_qstat (s : State) (m : Nat) (f : Team → Team) : (modTeam s m f).qstat = s.qstat := rfl
@[simp] theorem modTeam_qrun (s : State) (m : Nat) (f : Team → Team) : (modTeam s m f).qrun = s.qrun := rfl
@[simp] theorem modTeam_queues (s : State) (m : Nat) (f : Team → Team) : (modTeam s m f).queues = s.queues := rfl
@[simp] theorem modTeam_ctxs (s : State) (m : Nat) (f : Team → Team) : (modTeam s m f).ctxs = s.ctxs := rfl
@[simp] theorem modTeam_groups (s : State) (m : Nat) (f : Team → Team) : (modTeam s m f).groups = s.groups := rfl
@[simp] theorem modTeam_threads (s : State) (m : Nat) (f : Team → Team) : (modTeam s m f).threads = s.threads := rfl
@[simp] theorem modTeam_cores (s : State) (m : Nat) (f : Team → Team) : (modTeam s m f).cores = s.cores := rfl
@[simp] theorem modTeam_clusters (s : State) (m : Nat) (f : Team → Team) : (modTeam s m f).clusters = s.clusters := rfl
@[simp] theorem modTeam_lostDies (s : State) (m : Nat) (f : Team → Team) : (modTeam s m f).lostDies = s.lostDies := rfl
@[simp] theorem modTeam_l1 (s : State) (m : Nat) (f : Team → Team) : (modTeam s m f).l1 = s.l1 := rfl
@[simp] theorem modTeam_ag (s : State) (m : Nat) (f : Team → Team) : (modTeam s m f).ag = s.ag := rfl
@[simp] theorem modTeam_llc (s : State) (m : Nat) (f : Team → Team) : (modTeam s m f).llc = s.llc := rfl
@[simp] theorem modTeam_dir (s : State) (m : Nat) (f : Team → Team) : (modTeam s m f).dir = s.dir := rfl
@[simp] theorem modTeam_homeQ (s : State) (m : Nat) (f : Team → Team) : (modTeam s m f).homeQ = s.homeQ := rfl
@[simp] theorem modTeam_txns (s : State) (m : Nat) (f : Team → Team) : (modTeam s m f).txns = s.txns := rfl
@[simp] theorem modTeam_pwrites (s : State) (m : Nat) (f : Team → Team) : (modTeam s m f).pwrites = s.pwrites := rfl
@[simp] theorem modTeam_mem (s : State) (m : Nat) (f : Team → Team) : (modTeam s m f).mem = s.mem := rfl
@[simp] theorem modTeam_mpsn (s : State) (m : Nat) (f : Team → Team) : (modTeam s m f).mpsn = s.mpsn := rfl
@[simp] theorem modTeam_msgs (s : State) (m : Nat) (f : Team → Team) : (modTeam s m f).msgs = s.msgs := rfl
@[simp] theorem modTeam_links (s : State) (m : Nat) (f : Team → Team) : (modTeam s m f).links = s.links := rfl
@[simp] theorem modTeam_barxs (s : State) (m : Nat) (f : Team → Team) : (modTeam s m f).barxs = s.barxs := rfl
@[simp] theorem modTeam_slots (s : State) (m : Nat) (f : Team → Team) : (modTeam s m f).slots = s.slots := rfl
@[simp] theorem modTeam_rreqs (s : State) (m : Nat) (f : Team → Team) : (modTeam s m f).rreqs = s.rreqs := rfl
@[simp] theorem modTeam_rdy (s : State) (m : Nat) (f : Team → Team) : (modTeam s m f).rdy = s.rdy := rfl
@[simp] theorem modTeam_hcmd (s : State) (m : Nat) (f : Team → Team) : (modTeam s m f).hcmd = s.hcmd := rfl
@[simp] theorem modTeam_harg0 (s : State) (m : Nat) (f : Team → Team) : (modTeam s m f).harg0 = s.harg0 := rfl
@[simp] theorem modTeam_harg1 (s : State) (m : Nat) (f : Team → Team) : (modTeam s m f).harg1 = s.harg1 := rfl
@[simp] theorem modTeam_harg2 (s : State) (m : Nat) (f : Team → Team) : (modTeam s m f).harg2 = s.harg2 := rfl
@[simp] theorem modTeam_hresult (s : State) (m : Nat) (f : Team → Team) : (modTeam s m f).hresult = s.hresult := rfl
@[simp] theorem modTeam_hreject (s : State) (m : Nat) (f : Team → Team) : (modTeam s m f).hreject = s.hreject := rfl
@[simp] theorem modTeam_rlog (s : State) (m : Nat) (f : Team → Team) : (modTeam s m f).rlog = s.rlog := rfl
@[simp] theorem modTeam_mr0 (s : State) (m : Nat) (f : Team → Team) : (modTeam s m f).mr0 = s.mr0 := rfl
@[simp] theorem modTeam_mr1 (s : State) (m : Nat) (f : Team → Team) : (modTeam s m f).mr1 = s.mr1 := rfl
@[simp] theorem modTeam_order (s : State) (m : Nat) (f : Team → Team) : (modTeam s m f).order = s.order := rfl
@[simp] theorem modTeam_serial (s : State) (m : Nat) (f : Team → Team) : (modTeam s m f).serial = s.serial := rfl
@[simp] theorem modTeam_logSeq (s : State) (m : Nat) (f : Team → Team) : (modTeam s m f).logSeq = s.logSeq := rfl
@[simp] theorem modTeam_logLost (s : State) (m : Nat) (f : Team → Team) : (modTeam s m f).logLost = s.logLost := rfl
@[simp] theorem modTeam_retired (s : State) (m : Nat) (f : Team → Team) : (modTeam s m f).retired = s.retired := rfl
@[simp] theorem modTeam_retiring (s : State) (m : Nat) (f : Team → Team) : (modTeam s m f).retiring = s.retiring := rfl
@[simp] theorem modTeam_spareRows (s : State) (m : Nat) (f : Team → Team) : (modTeam s m f).spareRows = s.spareRows := rfl
@[simp] theorem modTeam_remaps (s : State) (m : Nat) (f : Team → Team) : (modTeam s m f).remaps = s.remaps := rfl
@[simp] theorem modTeam_halved (s : State) (m : Nat) (f : Team → Team) : (modTeam s m f).halved = s.halved := rfl
@[simp] theorem modTeam_moduleLogged (s : State) (m : Nat) (f : Team → Team) : (modTeam s m f).moduleLogged = s.moduleLogged := rfl
@[simp] theorem modTeam_storeUsed (s : State) (m : Nat) (f : Team → Team) : (modTeam s m f).storeUsed = s.storeUsed := rfl
@[simp] theorem modTeam_refusedOff (s : State) (m : Nat) (f : Team → Team) : (modTeam s m f).refusedOff = s.refusedOff := rfl
@[simp] theorem modTeam_discarded (s : State) (m : Nat) (f : Team → Team) : (modTeam s m f).discarded = s.discarded := rfl
@[simp] theorem modTeam_qturn (s : State) (m : Nat) (f : Team → Team) : (modTeam s m f).qturn = s.qturn := rfl
@[simp] theorem modTeam_tictl (s : State) (m : Nat) (f : Team → Team) : (modTeam s m f).tictl = s.tictl := rfl
@[simp] theorem modTeam_tiva (s : State) (m : Nat) (f : Team → Team) : (modTeam s m f).tiva = s.tiva := rfl
@[simp] theorem modTeam_tistat (s : State) (m : Nat) (f : Team → Team) : (modTeam s m f).tistat = s.tistat := rfl
@[simp] theorem modTeam_shoot (s : State) (m : Nat) (f : Team → Team) : (modTeam s m f).shoot = s.shoot := rfl
@[simp] theorem modTeam_shootQ (s : State) (m : Nat) (f : Team → Team) : (modTeam s m f).shootQ = s.shootQ := rfl
@[simp] theorem modTeam_ages (s : State) (m : Nat) (f : Team → Team) : (modTeam s m f).ages = s.ages := rfl
@[simp] theorem modTeam_saveSeq (s : State) (m : Nat) (f : Team → Team) : (modTeam s m f).saveSeq = s.saveSeq := rfl
@[simp] theorem modTeam_l2tlb (s : State) (m : Nat) (f : Team → Team) : (modTeam s m f).l2tlb = s.l2tlb := rfl
@[simp] theorem modTeam_probes (s : State) (m : Nat) (f : Team → Team) : (modTeam s m f).probes = s.probes := rfl
@[simp] theorem modTeam_probeAt (s : State) (m : Nat) (f : Team → Team) : (modTeam s m f).probeAt = s.probeAt := rfl
@[simp] theorem modTeam_linkLanes (s : State) (m : Nat) (f : Team → Team) : (modTeam s m f).linkLanes = s.linkLanes := rfl
@[simp] theorem modTeam_clock (s : State) (m : Nat) (f : Team → Team) : (modTeam s m f).clock = s.clock := rfl
@[simp] theorem modTeam_settle (s : State) (m : Nat) (f : Team → Team) : (modTeam s m f).settle = s.settle := rfl
@[simp] theorem modTeam_sent (s : State) (m : Nat) (f : Team → Team) : (modTeam s m f).sent = s.sent := rfl
@[simp] theorem modTeam_applied (s : State) (m : Nat) (f : Team → Team) : (modTeam s m f).applied = s.applied := rfl
@[simp] theorem modTeam_homeSettle (s : State) (m : Nat) (f : Team → Team) : (modTeam s m f).homeSettle = s.homeSettle := rfl
@[simp] theorem modTeam_dieSettle (s : State) (m : Nat) (f : Team → Team) : (modTeam s m f).dieSettle = s.dieSettle := rfl
@[simp] theorem modTeam_predictor (s : State) (m : Nat) (f : Team → Team) : (modTeam s m f).predictor = s.predictor := rfl
@[simp] theorem modTeam_ccode (s : State) (m : Nat) (f : Team → Team) : (modTeam s m f).ccode = s.ccode := rfl
@[simp] theorem modTeam_mdcache (s : State) (m : Nat) (f : Team → Team) : (modTeam s m f).mdcache = s.mdcache := rfl
@[simp] theorem modTeam_vinvs (s : State) (m : Nat) (f : Team → Team) : (modTeam s m f).vinvs = s.vinvs := rfl
@[simp] theorem modTeam_barRecs (s : State) (m : Nat) (f : Team → Team) : (modTeam s m f).barRecs = s.barRecs := rfl
@[simp] theorem modTeam_peers (s : State) (m : Nat) (f : Team → Team) : (modTeam s m f).peers = s.peers := rfl
@[simp] theorem modTeam_colls (s : State) (m : Nat) (f : Team → Team) : (modTeam s m f).colls = s.colls := rfl
@[simp] theorem modTeam_relayReady (s : State) (m : Nat) (f : Team → Team) : (modTeam s m f).relayReady = s.relayReady := rfl
@[simp] theorem modTeam_ports (s : State) (m : Nat) (f : Team → Team) : (modTeam s m f).ports = s.ports := rfl
@[simp] theorem modTeam_rtag (s : State) (m : Nat) (f : Team → Team) : (modTeam s m f).rtag = s.rtag := rfl
@[simp] theorem modTeam_rdone (s : State) (m : Nat) (f : Team → Team) : (modTeam s m f).rdone = s.rdone := rfl
@[simp] theorem modTeam_fenced (s : State) (m : Nat) (f : Team → Team) : (modTeam s m f).fenced = s.fenced := rfl

/-! `modCore`. -/

@[simp] theorem modCore_phase (s : State) (c : Nat) (f : Core → Core) : (modCore s c f).phase = s.phase := rfl
@[simp] theorem modCore_now (s : State) (c : Nat) (f : Core → Core) : (modCore s c f).now = s.now := rfl
@[simp] theorem modCore_agenda (s : State) (c : Nat) (f : Core → Core) : (modCore s c f).agenda = s.agenda := rfl
@[simp] theorem modCore_todo (s : State) (c : Nat) (f : Core → Core) : (modCore s c f).todo = s.todo := rfl
@[simp] theorem modCore_cur (s : State) (c : Nat) (f : Core → Core) : (modCore s c f).cur = s.cur := rfl
@[simp] theorem modCore_free (s : State) (c : Nat) (f : Core → Core) : (modCore s c f).free = s.free := rfl
@[simp] theorem modCore_claims (s : State) (c : Nat) (f : Core → Core) : (modCore s c f).claims = s.claims := rfl
@[simp] theorem modCore_ids (s : State) (c : Nat) (f : Core → Core) : (modCore s c f).ids = s.ids := rfl
@[simp] theorem modCore_hstat (s : State) (c : Nat) (f : Core → Core) : (modCore s c f).hstat = s.hstat := rfl
@[simp] theorem modCore_hpkg (s : State) (c : Nat) (f : Core → Core) : (modCore s c f).hpkg = s.hpkg := rfl
@[simp] theorem modCore_hubRun (s : State) (c : Nat) (f : Core → Core) : (modCore s c f).hubRun = s.hubRun := rfl
@[simp] theorem modCore_log (s : State) (c : Nat) (f : Core → Core) : (modCore s c f).log = s.log := rfl
@[simp] theorem modCore_counters (s : State) (c : Nat) (f : Core → Core) : (modCore s c f).counters = s.counters := rfl
@[simp] theorem modCore_errs (s : State) (c : Nat) (f : Core → Core) : (modCore s c f).errs = s.errs := rfl
@[simp] theorem modCore_power (s : State) (c : Nat) (f : Core → Core) : (modCore s c f).power = s.power := rfl
@[simp] theorem modCore_vs (s : State) (c : Nat) (f : Core → Core) : (modCore s c f).vs = s.vs := rfl
@[simp] theorem modCore_qdtbase (s : State) (c : Nat) (f : Core → Core) : (modCore s c f).qdtbase = s.qdtbase := rfl
@[simp] theorem modCore_qsize (s : State) (c : Nat) (f : Core → Core) : (modCore s c f).qsize = s.qsize := rfl
@[simp] theorem modCore_qstat (s : State) (c : Nat) (f : Core → Core) : (modCore s c f).qstat = s.qstat := rfl
@[simp] theorem modCore_qrun (s : State) (c : Nat) (f : Core → Core) : (modCore s c f).qrun = s.qrun := rfl
@[simp] theorem modCore_queues (s : State) (c : Nat) (f : Core → Core) : (modCore s c f).queues = s.queues := rfl
@[simp] theorem modCore_ctxs (s : State) (c : Nat) (f : Core → Core) : (modCore s c f).ctxs = s.ctxs := rfl
@[simp] theorem modCore_teams (s : State) (c : Nat) (f : Core → Core) : (modCore s c f).teams = s.teams := rfl
@[simp] theorem modCore_groups (s : State) (c : Nat) (f : Core → Core) : (modCore s c f).groups = s.groups := rfl
@[simp] theorem modCore_threads (s : State) (c : Nat) (f : Core → Core) : (modCore s c f).threads = s.threads := rfl
@[simp] theorem modCore_clusters (s : State) (c : Nat) (f : Core → Core) : (modCore s c f).clusters = s.clusters := rfl
@[simp] theorem modCore_lostDies (s : State) (c : Nat) (f : Core → Core) : (modCore s c f).lostDies = s.lostDies := rfl
@[simp] theorem modCore_l1 (s : State) (c : Nat) (f : Core → Core) : (modCore s c f).l1 = s.l1 := rfl
@[simp] theorem modCore_ag (s : State) (c : Nat) (f : Core → Core) : (modCore s c f).ag = s.ag := rfl
@[simp] theorem modCore_llc (s : State) (c : Nat) (f : Core → Core) : (modCore s c f).llc = s.llc := rfl
@[simp] theorem modCore_dir (s : State) (c : Nat) (f : Core → Core) : (modCore s c f).dir = s.dir := rfl
@[simp] theorem modCore_homeQ (s : State) (c : Nat) (f : Core → Core) : (modCore s c f).homeQ = s.homeQ := rfl
@[simp] theorem modCore_txns (s : State) (c : Nat) (f : Core → Core) : (modCore s c f).txns = s.txns := rfl
@[simp] theorem modCore_pwrites (s : State) (c : Nat) (f : Core → Core) : (modCore s c f).pwrites = s.pwrites := rfl
@[simp] theorem modCore_mem (s : State) (c : Nat) (f : Core → Core) : (modCore s c f).mem = s.mem := rfl
@[simp] theorem modCore_mpsn (s : State) (c : Nat) (f : Core → Core) : (modCore s c f).mpsn = s.mpsn := rfl
@[simp] theorem modCore_msgs (s : State) (c : Nat) (f : Core → Core) : (modCore s c f).msgs = s.msgs := rfl
@[simp] theorem modCore_links (s : State) (c : Nat) (f : Core → Core) : (modCore s c f).links = s.links := rfl
@[simp] theorem modCore_barxs (s : State) (c : Nat) (f : Core → Core) : (modCore s c f).barxs = s.barxs := rfl
@[simp] theorem modCore_slots (s : State) (c : Nat) (f : Core → Core) : (modCore s c f).slots = s.slots := rfl
@[simp] theorem modCore_rreqs (s : State) (c : Nat) (f : Core → Core) : (modCore s c f).rreqs = s.rreqs := rfl
@[simp] theorem modCore_rdy (s : State) (c : Nat) (f : Core → Core) : (modCore s c f).rdy = s.rdy := rfl
@[simp] theorem modCore_hcmd (s : State) (c : Nat) (f : Core → Core) : (modCore s c f).hcmd = s.hcmd := rfl
@[simp] theorem modCore_harg0 (s : State) (c : Nat) (f : Core → Core) : (modCore s c f).harg0 = s.harg0 := rfl
@[simp] theorem modCore_harg1 (s : State) (c : Nat) (f : Core → Core) : (modCore s c f).harg1 = s.harg1 := rfl
@[simp] theorem modCore_harg2 (s : State) (c : Nat) (f : Core → Core) : (modCore s c f).harg2 = s.harg2 := rfl
@[simp] theorem modCore_hresult (s : State) (c : Nat) (f : Core → Core) : (modCore s c f).hresult = s.hresult := rfl
@[simp] theorem modCore_hreject (s : State) (c : Nat) (f : Core → Core) : (modCore s c f).hreject = s.hreject := rfl
@[simp] theorem modCore_rlog (s : State) (c : Nat) (f : Core → Core) : (modCore s c f).rlog = s.rlog := rfl
@[simp] theorem modCore_mr0 (s : State) (c : Nat) (f : Core → Core) : (modCore s c f).mr0 = s.mr0 := rfl
@[simp] theorem modCore_mr1 (s : State) (c : Nat) (f : Core → Core) : (modCore s c f).mr1 = s.mr1 := rfl
@[simp] theorem modCore_order (s : State) (c : Nat) (f : Core → Core) : (modCore s c f).order = s.order := rfl
@[simp] theorem modCore_serial (s : State) (c : Nat) (f : Core → Core) : (modCore s c f).serial = s.serial := rfl
@[simp] theorem modCore_logSeq (s : State) (c : Nat) (f : Core → Core) : (modCore s c f).logSeq = s.logSeq := rfl
@[simp] theorem modCore_logLost (s : State) (c : Nat) (f : Core → Core) : (modCore s c f).logLost = s.logLost := rfl
@[simp] theorem modCore_retired (s : State) (c : Nat) (f : Core → Core) : (modCore s c f).retired = s.retired := rfl
@[simp] theorem modCore_retiring (s : State) (c : Nat) (f : Core → Core) : (modCore s c f).retiring = s.retiring := rfl
@[simp] theorem modCore_spareRows (s : State) (c : Nat) (f : Core → Core) : (modCore s c f).spareRows = s.spareRows := rfl
@[simp] theorem modCore_remaps (s : State) (c : Nat) (f : Core → Core) : (modCore s c f).remaps = s.remaps := rfl
@[simp] theorem modCore_halved (s : State) (c : Nat) (f : Core → Core) : (modCore s c f).halved = s.halved := rfl
@[simp] theorem modCore_moduleLogged (s : State) (c : Nat) (f : Core → Core) : (modCore s c f).moduleLogged = s.moduleLogged := rfl
@[simp] theorem modCore_storeUsed (s : State) (c : Nat) (f : Core → Core) : (modCore s c f).storeUsed = s.storeUsed := rfl
@[simp] theorem modCore_refusedOff (s : State) (c : Nat) (f : Core → Core) : (modCore s c f).refusedOff = s.refusedOff := rfl
@[simp] theorem modCore_discarded (s : State) (c : Nat) (f : Core → Core) : (modCore s c f).discarded = s.discarded := rfl
@[simp] theorem modCore_qturn (s : State) (c : Nat) (f : Core → Core) : (modCore s c f).qturn = s.qturn := rfl
@[simp] theorem modCore_tictl (s : State) (c : Nat) (f : Core → Core) : (modCore s c f).tictl = s.tictl := rfl
@[simp] theorem modCore_tiva (s : State) (c : Nat) (f : Core → Core) : (modCore s c f).tiva = s.tiva := rfl
@[simp] theorem modCore_tistat (s : State) (c : Nat) (f : Core → Core) : (modCore s c f).tistat = s.tistat := rfl
@[simp] theorem modCore_shoot (s : State) (c : Nat) (f : Core → Core) : (modCore s c f).shoot = s.shoot := rfl
@[simp] theorem modCore_shootQ (s : State) (c : Nat) (f : Core → Core) : (modCore s c f).shootQ = s.shootQ := rfl
@[simp] theorem modCore_ages (s : State) (c : Nat) (f : Core → Core) : (modCore s c f).ages = s.ages := rfl
@[simp] theorem modCore_saveSeq (s : State) (c : Nat) (f : Core → Core) : (modCore s c f).saveSeq = s.saveSeq := rfl
@[simp] theorem modCore_l2tlb (s : State) (c : Nat) (f : Core → Core) : (modCore s c f).l2tlb = s.l2tlb := rfl
@[simp] theorem modCore_probes (s : State) (c : Nat) (f : Core → Core) : (modCore s c f).probes = s.probes := rfl
@[simp] theorem modCore_probeAt (s : State) (c : Nat) (f : Core → Core) : (modCore s c f).probeAt = s.probeAt := rfl
@[simp] theorem modCore_linkLanes (s : State) (c : Nat) (f : Core → Core) : (modCore s c f).linkLanes = s.linkLanes := rfl
@[simp] theorem modCore_clock (s : State) (c : Nat) (f : Core → Core) : (modCore s c f).clock = s.clock := rfl
@[simp] theorem modCore_settle (s : State) (c : Nat) (f : Core → Core) : (modCore s c f).settle = s.settle := rfl
@[simp] theorem modCore_sent (s : State) (c : Nat) (f : Core → Core) : (modCore s c f).sent = s.sent := rfl
@[simp] theorem modCore_applied (s : State) (c : Nat) (f : Core → Core) : (modCore s c f).applied = s.applied := rfl
@[simp] theorem modCore_homeSettle (s : State) (c : Nat) (f : Core → Core) : (modCore s c f).homeSettle = s.homeSettle := rfl
@[simp] theorem modCore_dieSettle (s : State) (c : Nat) (f : Core → Core) : (modCore s c f).dieSettle = s.dieSettle := rfl
@[simp] theorem modCore_predictor (s : State) (c : Nat) (f : Core → Core) : (modCore s c f).predictor = s.predictor := rfl
@[simp] theorem modCore_ccode (s : State) (c : Nat) (f : Core → Core) : (modCore s c f).ccode = s.ccode := rfl
@[simp] theorem modCore_mdcache (s : State) (c : Nat) (f : Core → Core) : (modCore s c f).mdcache = s.mdcache := rfl
@[simp] theorem modCore_vinvs (s : State) (c : Nat) (f : Core → Core) : (modCore s c f).vinvs = s.vinvs := rfl
@[simp] theorem modCore_barRecs (s : State) (c : Nat) (f : Core → Core) : (modCore s c f).barRecs = s.barRecs := rfl
@[simp] theorem modCore_peers (s : State) (c : Nat) (f : Core → Core) : (modCore s c f).peers = s.peers := rfl
@[simp] theorem modCore_colls (s : State) (c : Nat) (f : Core → Core) : (modCore s c f).colls = s.colls := rfl
@[simp] theorem modCore_relayReady (s : State) (c : Nat) (f : Core → Core) : (modCore s c f).relayReady = s.relayReady := rfl
@[simp] theorem modCore_ports (s : State) (c : Nat) (f : Core → Core) : (modCore s c f).ports = s.ports := rfl
@[simp] theorem modCore_rtag (s : State) (c : Nat) (f : Core → Core) : (modCore s c f).rtag = s.rtag := rfl
@[simp] theorem modCore_rdone (s : State) (c : Nat) (f : Core → Core) : (modCore s c f).rdone = s.rdone := rfl
@[simp] theorem modCore_fenced (s : State) (c : Nat) (f : Core → Core) : (modCore s c f).fenced = s.fenced := rfl

/-! `setCore`. -/

@[simp] theorem setCore_phase (s : State) (c : Nat) (k : Core) : (setCore s c k).phase = s.phase := rfl
@[simp] theorem setCore_now (s : State) (c : Nat) (k : Core) : (setCore s c k).now = s.now := rfl
@[simp] theorem setCore_agenda (s : State) (c : Nat) (k : Core) : (setCore s c k).agenda = s.agenda := rfl
@[simp] theorem setCore_todo (s : State) (c : Nat) (k : Core) : (setCore s c k).todo = s.todo := rfl
@[simp] theorem setCore_cur (s : State) (c : Nat) (k : Core) : (setCore s c k).cur = s.cur := rfl
@[simp] theorem setCore_free (s : State) (c : Nat) (k : Core) : (setCore s c k).free = s.free := rfl
@[simp] theorem setCore_claims (s : State) (c : Nat) (k : Core) : (setCore s c k).claims = s.claims := rfl
@[simp] theorem setCore_ids (s : State) (c : Nat) (k : Core) : (setCore s c k).ids = s.ids := rfl
@[simp] theorem setCore_hstat (s : State) (c : Nat) (k : Core) : (setCore s c k).hstat = s.hstat := rfl
@[simp] theorem setCore_hpkg (s : State) (c : Nat) (k : Core) : (setCore s c k).hpkg = s.hpkg := rfl
@[simp] theorem setCore_hubRun (s : State) (c : Nat) (k : Core) : (setCore s c k).hubRun = s.hubRun := rfl
@[simp] theorem setCore_log (s : State) (c : Nat) (k : Core) : (setCore s c k).log = s.log := rfl
@[simp] theorem setCore_counters (s : State) (c : Nat) (k : Core) : (setCore s c k).counters = s.counters := rfl
@[simp] theorem setCore_errs (s : State) (c : Nat) (k : Core) : (setCore s c k).errs = s.errs := rfl
@[simp] theorem setCore_power (s : State) (c : Nat) (k : Core) : (setCore s c k).power = s.power := rfl
@[simp] theorem setCore_vs (s : State) (c : Nat) (k : Core) : (setCore s c k).vs = s.vs := rfl
@[simp] theorem setCore_qdtbase (s : State) (c : Nat) (k : Core) : (setCore s c k).qdtbase = s.qdtbase := rfl
@[simp] theorem setCore_qsize (s : State) (c : Nat) (k : Core) : (setCore s c k).qsize = s.qsize := rfl
@[simp] theorem setCore_qstat (s : State) (c : Nat) (k : Core) : (setCore s c k).qstat = s.qstat := rfl
@[simp] theorem setCore_qrun (s : State) (c : Nat) (k : Core) : (setCore s c k).qrun = s.qrun := rfl
@[simp] theorem setCore_queues (s : State) (c : Nat) (k : Core) : (setCore s c k).queues = s.queues := rfl
@[simp] theorem setCore_ctxs (s : State) (c : Nat) (k : Core) : (setCore s c k).ctxs = s.ctxs := rfl
@[simp] theorem setCore_teams (s : State) (c : Nat) (k : Core) : (setCore s c k).teams = s.teams := rfl
@[simp] theorem setCore_groups (s : State) (c : Nat) (k : Core) : (setCore s c k).groups = s.groups := rfl
@[simp] theorem setCore_threads (s : State) (c : Nat) (k : Core) : (setCore s c k).threads = s.threads := rfl
@[simp] theorem setCore_clusters (s : State) (c : Nat) (k : Core) : (setCore s c k).clusters = s.clusters := rfl
@[simp] theorem setCore_lostDies (s : State) (c : Nat) (k : Core) : (setCore s c k).lostDies = s.lostDies := rfl
@[simp] theorem setCore_l1 (s : State) (c : Nat) (k : Core) : (setCore s c k).l1 = s.l1 := rfl
@[simp] theorem setCore_ag (s : State) (c : Nat) (k : Core) : (setCore s c k).ag = s.ag := rfl
@[simp] theorem setCore_llc (s : State) (c : Nat) (k : Core) : (setCore s c k).llc = s.llc := rfl
@[simp] theorem setCore_dir (s : State) (c : Nat) (k : Core) : (setCore s c k).dir = s.dir := rfl
@[simp] theorem setCore_homeQ (s : State) (c : Nat) (k : Core) : (setCore s c k).homeQ = s.homeQ := rfl
@[simp] theorem setCore_txns (s : State) (c : Nat) (k : Core) : (setCore s c k).txns = s.txns := rfl
@[simp] theorem setCore_pwrites (s : State) (c : Nat) (k : Core) : (setCore s c k).pwrites = s.pwrites := rfl
@[simp] theorem setCore_mem (s : State) (c : Nat) (k : Core) : (setCore s c k).mem = s.mem := rfl
@[simp] theorem setCore_mpsn (s : State) (c : Nat) (k : Core) : (setCore s c k).mpsn = s.mpsn := rfl
@[simp] theorem setCore_msgs (s : State) (c : Nat) (k : Core) : (setCore s c k).msgs = s.msgs := rfl
@[simp] theorem setCore_links (s : State) (c : Nat) (k : Core) : (setCore s c k).links = s.links := rfl
@[simp] theorem setCore_barxs (s : State) (c : Nat) (k : Core) : (setCore s c k).barxs = s.barxs := rfl
@[simp] theorem setCore_slots (s : State) (c : Nat) (k : Core) : (setCore s c k).slots = s.slots := rfl
@[simp] theorem setCore_rreqs (s : State) (c : Nat) (k : Core) : (setCore s c k).rreqs = s.rreqs := rfl
@[simp] theorem setCore_rdy (s : State) (c : Nat) (k : Core) : (setCore s c k).rdy = s.rdy := rfl
@[simp] theorem setCore_hcmd (s : State) (c : Nat) (k : Core) : (setCore s c k).hcmd = s.hcmd := rfl
@[simp] theorem setCore_harg0 (s : State) (c : Nat) (k : Core) : (setCore s c k).harg0 = s.harg0 := rfl
@[simp] theorem setCore_harg1 (s : State) (c : Nat) (k : Core) : (setCore s c k).harg1 = s.harg1 := rfl
@[simp] theorem setCore_harg2 (s : State) (c : Nat) (k : Core) : (setCore s c k).harg2 = s.harg2 := rfl
@[simp] theorem setCore_hresult (s : State) (c : Nat) (k : Core) : (setCore s c k).hresult = s.hresult := rfl
@[simp] theorem setCore_hreject (s : State) (c : Nat) (k : Core) : (setCore s c k).hreject = s.hreject := rfl
@[simp] theorem setCore_rlog (s : State) (c : Nat) (k : Core) : (setCore s c k).rlog = s.rlog := rfl
@[simp] theorem setCore_mr0 (s : State) (c : Nat) (k : Core) : (setCore s c k).mr0 = s.mr0 := rfl
@[simp] theorem setCore_mr1 (s : State) (c : Nat) (k : Core) : (setCore s c k).mr1 = s.mr1 := rfl
@[simp] theorem setCore_order (s : State) (c : Nat) (k : Core) : (setCore s c k).order = s.order := rfl
@[simp] theorem setCore_serial (s : State) (c : Nat) (k : Core) : (setCore s c k).serial = s.serial := rfl
@[simp] theorem setCore_logSeq (s : State) (c : Nat) (k : Core) : (setCore s c k).logSeq = s.logSeq := rfl
@[simp] theorem setCore_logLost (s : State) (c : Nat) (k : Core) : (setCore s c k).logLost = s.logLost := rfl
@[simp] theorem setCore_retired (s : State) (c : Nat) (k : Core) : (setCore s c k).retired = s.retired := rfl
@[simp] theorem setCore_retiring (s : State) (c : Nat) (k : Core) : (setCore s c k).retiring = s.retiring := rfl
@[simp] theorem setCore_spareRows (s : State) (c : Nat) (k : Core) : (setCore s c k).spareRows = s.spareRows := rfl
@[simp] theorem setCore_remaps (s : State) (c : Nat) (k : Core) : (setCore s c k).remaps = s.remaps := rfl
@[simp] theorem setCore_halved (s : State) (c : Nat) (k : Core) : (setCore s c k).halved = s.halved := rfl
@[simp] theorem setCore_moduleLogged (s : State) (c : Nat) (k : Core) : (setCore s c k).moduleLogged = s.moduleLogged := rfl
@[simp] theorem setCore_storeUsed (s : State) (c : Nat) (k : Core) : (setCore s c k).storeUsed = s.storeUsed := rfl
@[simp] theorem setCore_refusedOff (s : State) (c : Nat) (k : Core) : (setCore s c k).refusedOff = s.refusedOff := rfl
@[simp] theorem setCore_discarded (s : State) (c : Nat) (k : Core) : (setCore s c k).discarded = s.discarded := rfl
@[simp] theorem setCore_qturn (s : State) (c : Nat) (k : Core) : (setCore s c k).qturn = s.qturn := rfl
@[simp] theorem setCore_tictl (s : State) (c : Nat) (k : Core) : (setCore s c k).tictl = s.tictl := rfl
@[simp] theorem setCore_tiva (s : State) (c : Nat) (k : Core) : (setCore s c k).tiva = s.tiva := rfl
@[simp] theorem setCore_tistat (s : State) (c : Nat) (k : Core) : (setCore s c k).tistat = s.tistat := rfl
@[simp] theorem setCore_shoot (s : State) (c : Nat) (k : Core) : (setCore s c k).shoot = s.shoot := rfl
@[simp] theorem setCore_shootQ (s : State) (c : Nat) (k : Core) : (setCore s c k).shootQ = s.shootQ := rfl
@[simp] theorem setCore_ages (s : State) (c : Nat) (k : Core) : (setCore s c k).ages = s.ages := rfl
@[simp] theorem setCore_saveSeq (s : State) (c : Nat) (k : Core) : (setCore s c k).saveSeq = s.saveSeq := rfl
@[simp] theorem setCore_l2tlb (s : State) (c : Nat) (k : Core) : (setCore s c k).l2tlb = s.l2tlb := rfl
@[simp] theorem setCore_probes (s : State) (c : Nat) (k : Core) : (setCore s c k).probes = s.probes := rfl
@[simp] theorem setCore_probeAt (s : State) (c : Nat) (k : Core) : (setCore s c k).probeAt = s.probeAt := rfl
@[simp] theorem setCore_linkLanes (s : State) (c : Nat) (k : Core) : (setCore s c k).linkLanes = s.linkLanes := rfl
@[simp] theorem setCore_clock (s : State) (c : Nat) (k : Core) : (setCore s c k).clock = s.clock := rfl
@[simp] theorem setCore_settle (s : State) (c : Nat) (k : Core) : (setCore s c k).settle = s.settle := rfl
@[simp] theorem setCore_sent (s : State) (c : Nat) (k : Core) : (setCore s c k).sent = s.sent := rfl
@[simp] theorem setCore_applied (s : State) (c : Nat) (k : Core) : (setCore s c k).applied = s.applied := rfl
@[simp] theorem setCore_homeSettle (s : State) (c : Nat) (k : Core) : (setCore s c k).homeSettle = s.homeSettle := rfl
@[simp] theorem setCore_dieSettle (s : State) (c : Nat) (k : Core) : (setCore s c k).dieSettle = s.dieSettle := rfl
@[simp] theorem setCore_predictor (s : State) (c : Nat) (k : Core) : (setCore s c k).predictor = s.predictor := rfl
@[simp] theorem setCore_ccode (s : State) (c : Nat) (k : Core) : (setCore s c k).ccode = s.ccode := rfl
@[simp] theorem setCore_mdcache (s : State) (c : Nat) (k : Core) : (setCore s c k).mdcache = s.mdcache := rfl
@[simp] theorem setCore_vinvs (s : State) (c : Nat) (k : Core) : (setCore s c k).vinvs = s.vinvs := rfl
@[simp] theorem setCore_barRecs (s : State) (c : Nat) (k : Core) : (setCore s c k).barRecs = s.barRecs := rfl
@[simp] theorem setCore_peers (s : State) (c : Nat) (k : Core) : (setCore s c k).peers = s.peers := rfl
@[simp] theorem setCore_colls (s : State) (c : Nat) (k : Core) : (setCore s c k).colls = s.colls := rfl
@[simp] theorem setCore_relayReady (s : State) (c : Nat) (k : Core) : (setCore s c k).relayReady = s.relayReady := rfl
@[simp] theorem setCore_ports (s : State) (c : Nat) (k : Core) : (setCore s c k).ports = s.ports := rfl
@[simp] theorem setCore_rtag (s : State) (c : Nat) (k : Core) : (setCore s c k).rtag = s.rtag := rfl
@[simp] theorem setCore_rdone (s : State) (c : Nat) (k : Core) : (setCore s c k).rdone = s.rdone := rfl
@[simp] theorem setCore_fenced (s : State) (c : Nat) (k : Core) : (setCore s c k).fenced = s.fenced := rfl

/-! `setQueue`. -/

@[simp] theorem setQueue_phase (s : State) (q : Nat) (x : Queue) : (setQueue s q x).phase = s.phase := rfl
@[simp] theorem setQueue_now (s : State) (q : Nat) (x : Queue) : (setQueue s q x).now = s.now := rfl
@[simp] theorem setQueue_agenda (s : State) (q : Nat) (x : Queue) : (setQueue s q x).agenda = s.agenda := rfl
@[simp] theorem setQueue_todo (s : State) (q : Nat) (x : Queue) : (setQueue s q x).todo = s.todo := rfl
@[simp] theorem setQueue_cur (s : State) (q : Nat) (x : Queue) : (setQueue s q x).cur = s.cur := rfl
@[simp] theorem setQueue_free (s : State) (q : Nat) (x : Queue) : (setQueue s q x).free = s.free := rfl
@[simp] theorem setQueue_claims (s : State) (q : Nat) (x : Queue) : (setQueue s q x).claims = s.claims := rfl
@[simp] theorem setQueue_ids (s : State) (q : Nat) (x : Queue) : (setQueue s q x).ids = s.ids := rfl
@[simp] theorem setQueue_hstat (s : State) (q : Nat) (x : Queue) : (setQueue s q x).hstat = s.hstat := rfl
@[simp] theorem setQueue_hpkg (s : State) (q : Nat) (x : Queue) : (setQueue s q x).hpkg = s.hpkg := rfl
@[simp] theorem setQueue_hubRun (s : State) (q : Nat) (x : Queue) : (setQueue s q x).hubRun = s.hubRun := rfl
@[simp] theorem setQueue_log (s : State) (q : Nat) (x : Queue) : (setQueue s q x).log = s.log := rfl
@[simp] theorem setQueue_counters (s : State) (q : Nat) (x : Queue) : (setQueue s q x).counters = s.counters := rfl
@[simp] theorem setQueue_errs (s : State) (q : Nat) (x : Queue) : (setQueue s q x).errs = s.errs := rfl
@[simp] theorem setQueue_power (s : State) (q : Nat) (x : Queue) : (setQueue s q x).power = s.power := rfl
@[simp] theorem setQueue_vs (s : State) (q : Nat) (x : Queue) : (setQueue s q x).vs = s.vs := rfl
@[simp] theorem setQueue_qdtbase (s : State) (q : Nat) (x : Queue) : (setQueue s q x).qdtbase = s.qdtbase := rfl
@[simp] theorem setQueue_qsize (s : State) (q : Nat) (x : Queue) : (setQueue s q x).qsize = s.qsize := rfl
@[simp] theorem setQueue_qstat (s : State) (q : Nat) (x : Queue) : (setQueue s q x).qstat = s.qstat := rfl
@[simp] theorem setQueue_qrun (s : State) (q : Nat) (x : Queue) : (setQueue s q x).qrun = s.qrun := rfl
@[simp] theorem setQueue_ctxs (s : State) (q : Nat) (x : Queue) : (setQueue s q x).ctxs = s.ctxs := rfl
@[simp] theorem setQueue_teams (s : State) (q : Nat) (x : Queue) : (setQueue s q x).teams = s.teams := rfl
@[simp] theorem setQueue_groups (s : State) (q : Nat) (x : Queue) : (setQueue s q x).groups = s.groups := rfl
@[simp] theorem setQueue_threads (s : State) (q : Nat) (x : Queue) : (setQueue s q x).threads = s.threads := rfl
@[simp] theorem setQueue_cores (s : State) (q : Nat) (x : Queue) : (setQueue s q x).cores = s.cores := rfl
@[simp] theorem setQueue_clusters (s : State) (q : Nat) (x : Queue) : (setQueue s q x).clusters = s.clusters := rfl
@[simp] theorem setQueue_lostDies (s : State) (q : Nat) (x : Queue) : (setQueue s q x).lostDies = s.lostDies := rfl
@[simp] theorem setQueue_l1 (s : State) (q : Nat) (x : Queue) : (setQueue s q x).l1 = s.l1 := rfl
@[simp] theorem setQueue_ag (s : State) (q : Nat) (x : Queue) : (setQueue s q x).ag = s.ag := rfl
@[simp] theorem setQueue_llc (s : State) (q : Nat) (x : Queue) : (setQueue s q x).llc = s.llc := rfl
@[simp] theorem setQueue_dir (s : State) (q : Nat) (x : Queue) : (setQueue s q x).dir = s.dir := rfl
@[simp] theorem setQueue_homeQ (s : State) (q : Nat) (x : Queue) : (setQueue s q x).homeQ = s.homeQ := rfl
@[simp] theorem setQueue_txns (s : State) (q : Nat) (x : Queue) : (setQueue s q x).txns = s.txns := rfl
@[simp] theorem setQueue_pwrites (s : State) (q : Nat) (x : Queue) : (setQueue s q x).pwrites = s.pwrites := rfl
@[simp] theorem setQueue_mem (s : State) (q : Nat) (x : Queue) : (setQueue s q x).mem = s.mem := rfl
@[simp] theorem setQueue_mpsn (s : State) (q : Nat) (x : Queue) : (setQueue s q x).mpsn = s.mpsn := rfl
@[simp] theorem setQueue_msgs (s : State) (q : Nat) (x : Queue) : (setQueue s q x).msgs = s.msgs := rfl
@[simp] theorem setQueue_links (s : State) (q : Nat) (x : Queue) : (setQueue s q x).links = s.links := rfl
@[simp] theorem setQueue_barxs (s : State) (q : Nat) (x : Queue) : (setQueue s q x).barxs = s.barxs := rfl
@[simp] theorem setQueue_slots (s : State) (q : Nat) (x : Queue) : (setQueue s q x).slots = s.slots := rfl
@[simp] theorem setQueue_rreqs (s : State) (q : Nat) (x : Queue) : (setQueue s q x).rreqs = s.rreqs := rfl
@[simp] theorem setQueue_rdy (s : State) (q : Nat) (x : Queue) : (setQueue s q x).rdy = s.rdy := rfl
@[simp] theorem setQueue_hcmd (s : State) (q : Nat) (x : Queue) : (setQueue s q x).hcmd = s.hcmd := rfl
@[simp] theorem setQueue_harg0 (s : State) (q : Nat) (x : Queue) : (setQueue s q x).harg0 = s.harg0 := rfl
@[simp] theorem setQueue_harg1 (s : State) (q : Nat) (x : Queue) : (setQueue s q x).harg1 = s.harg1 := rfl
@[simp] theorem setQueue_harg2 (s : State) (q : Nat) (x : Queue) : (setQueue s q x).harg2 = s.harg2 := rfl
@[simp] theorem setQueue_hresult (s : State) (q : Nat) (x : Queue) : (setQueue s q x).hresult = s.hresult := rfl
@[simp] theorem setQueue_hreject (s : State) (q : Nat) (x : Queue) : (setQueue s q x).hreject = s.hreject := rfl
@[simp] theorem setQueue_rlog (s : State) (q : Nat) (x : Queue) : (setQueue s q x).rlog = s.rlog := rfl
@[simp] theorem setQueue_mr0 (s : State) (q : Nat) (x : Queue) : (setQueue s q x).mr0 = s.mr0 := rfl
@[simp] theorem setQueue_mr1 (s : State) (q : Nat) (x : Queue) : (setQueue s q x).mr1 = s.mr1 := rfl
@[simp] theorem setQueue_order (s : State) (q : Nat) (x : Queue) : (setQueue s q x).order = s.order := rfl
@[simp] theorem setQueue_serial (s : State) (q : Nat) (x : Queue) : (setQueue s q x).serial = s.serial := rfl
@[simp] theorem setQueue_logSeq (s : State) (q : Nat) (x : Queue) : (setQueue s q x).logSeq = s.logSeq := rfl
@[simp] theorem setQueue_logLost (s : State) (q : Nat) (x : Queue) : (setQueue s q x).logLost = s.logLost := rfl
@[simp] theorem setQueue_retired (s : State) (q : Nat) (x : Queue) : (setQueue s q x).retired = s.retired := rfl
@[simp] theorem setQueue_retiring (s : State) (q : Nat) (x : Queue) : (setQueue s q x).retiring = s.retiring := rfl
@[simp] theorem setQueue_spareRows (s : State) (q : Nat) (x : Queue) : (setQueue s q x).spareRows = s.spareRows := rfl
@[simp] theorem setQueue_remaps (s : State) (q : Nat) (x : Queue) : (setQueue s q x).remaps = s.remaps := rfl
@[simp] theorem setQueue_halved (s : State) (q : Nat) (x : Queue) : (setQueue s q x).halved = s.halved := rfl
@[simp] theorem setQueue_moduleLogged (s : State) (q : Nat) (x : Queue) : (setQueue s q x).moduleLogged = s.moduleLogged := rfl
@[simp] theorem setQueue_storeUsed (s : State) (q : Nat) (x : Queue) : (setQueue s q x).storeUsed = s.storeUsed := rfl
@[simp] theorem setQueue_refusedOff (s : State) (q : Nat) (x : Queue) : (setQueue s q x).refusedOff = s.refusedOff := rfl
@[simp] theorem setQueue_discarded (s : State) (q : Nat) (x : Queue) : (setQueue s q x).discarded = s.discarded := rfl
@[simp] theorem setQueue_qturn (s : State) (q : Nat) (x : Queue) : (setQueue s q x).qturn = s.qturn := rfl
@[simp] theorem setQueue_tictl (s : State) (q : Nat) (x : Queue) : (setQueue s q x).tictl = s.tictl := rfl
@[simp] theorem setQueue_tiva (s : State) (q : Nat) (x : Queue) : (setQueue s q x).tiva = s.tiva := rfl
@[simp] theorem setQueue_tistat (s : State) (q : Nat) (x : Queue) : (setQueue s q x).tistat = s.tistat := rfl
@[simp] theorem setQueue_shoot (s : State) (q : Nat) (x : Queue) : (setQueue s q x).shoot = s.shoot := rfl
@[simp] theorem setQueue_shootQ (s : State) (q : Nat) (x : Queue) : (setQueue s q x).shootQ = s.shootQ := rfl
@[simp] theorem setQueue_ages (s : State) (q : Nat) (x : Queue) : (setQueue s q x).ages = s.ages := rfl
@[simp] theorem setQueue_saveSeq (s : State) (q : Nat) (x : Queue) : (setQueue s q x).saveSeq = s.saveSeq := rfl
@[simp] theorem setQueue_l2tlb (s : State) (q : Nat) (x : Queue) : (setQueue s q x).l2tlb = s.l2tlb := rfl
@[simp] theorem setQueue_probes (s : State) (q : Nat) (x : Queue) : (setQueue s q x).probes = s.probes := rfl
@[simp] theorem setQueue_probeAt (s : State) (q : Nat) (x : Queue) : (setQueue s q x).probeAt = s.probeAt := rfl
@[simp] theorem setQueue_linkLanes (s : State) (q : Nat) (x : Queue) : (setQueue s q x).linkLanes = s.linkLanes := rfl
@[simp] theorem setQueue_clock (s : State) (q : Nat) (x : Queue) : (setQueue s q x).clock = s.clock := rfl
@[simp] theorem setQueue_settle (s : State) (q : Nat) (x : Queue) : (setQueue s q x).settle = s.settle := rfl
@[simp] theorem setQueue_sent (s : State) (q : Nat) (x : Queue) : (setQueue s q x).sent = s.sent := rfl
@[simp] theorem setQueue_applied (s : State) (q : Nat) (x : Queue) : (setQueue s q x).applied = s.applied := rfl
@[simp] theorem setQueue_homeSettle (s : State) (q : Nat) (x : Queue) : (setQueue s q x).homeSettle = s.homeSettle := rfl
@[simp] theorem setQueue_dieSettle (s : State) (q : Nat) (x : Queue) : (setQueue s q x).dieSettle = s.dieSettle := rfl
@[simp] theorem setQueue_predictor (s : State) (q : Nat) (x : Queue) : (setQueue s q x).predictor = s.predictor := rfl
@[simp] theorem setQueue_ccode (s : State) (q : Nat) (x : Queue) : (setQueue s q x).ccode = s.ccode := rfl
@[simp] theorem setQueue_mdcache (s : State) (q : Nat) (x : Queue) : (setQueue s q x).mdcache = s.mdcache := rfl
@[simp] theorem setQueue_vinvs (s : State) (q : Nat) (x : Queue) : (setQueue s q x).vinvs = s.vinvs := rfl
@[simp] theorem setQueue_barRecs (s : State) (q : Nat) (x : Queue) : (setQueue s q x).barRecs = s.barRecs := rfl
@[simp] theorem setQueue_peers (s : State) (q : Nat) (x : Queue) : (setQueue s q x).peers = s.peers := rfl
@[simp] theorem setQueue_colls (s : State) (q : Nat) (x : Queue) : (setQueue s q x).colls = s.colls := rfl
@[simp] theorem setQueue_relayReady (s : State) (q : Nat) (x : Queue) : (setQueue s q x).relayReady = s.relayReady := rfl
@[simp] theorem setQueue_ports (s : State) (q : Nat) (x : Queue) : (setQueue s q x).ports = s.ports := rfl
@[simp] theorem setQueue_rtag (s : State) (q : Nat) (x : Queue) : (setQueue s q x).rtag = s.rtag := rfl
@[simp] theorem setQueue_rdone (s : State) (q : Nat) (x : Queue) : (setQueue s q x).rdone = s.rdone := rfl
@[simp] theorem setQueue_fenced (s : State) (q : Nat) (x : Queue) : (setQueue s q x).fenced = s.fenced := rfl

/-! Lookups. -/

@[simp] theorem thread_modThread_same (s : State) (t : TRef) (f : Thread → Thread) :
    thread? (modThread s t f) t = (thread? s t).map f := tab_get_modify_same _ _ _

theorem thread_modThread_other (s : State) (t u : TRef) (f : Thread → Thread) (h : u.key ≠ t.key) :
    thread? (modThread s t f) u = thread? s u := tab_get_modify_other _ _ _ _ h

@[simp] theorem thread_setThread_same (s : State) (t : TRef) (th : Thread) : thread? (setThread s t th) t = some th :=
  tab_get_set_same _ _ _

theorem thread_setThread_other (s : State) (t u : TRef) (th : Thread) (h : u.key ≠ t.key) :
    thread? (setThread s t th) u = thread? s u := tab_get_set_other _ _ _ _ h

@[simp] theorem thread_modGroup (s : State) (m g : Nat) (f : Group → Group) (t : TRef) :
    thread? (modGroup s m g f) t = thread? s t := rfl
@[simp] theorem thread_modTeam (s : State) (m : Nat) (f : Team → Team) (t : TRef) :
    thread? (modTeam s m f) t = thread? s t := rfl
@[simp] theorem thread_modCore (s : State) (c : Nat) (f : Core → Core) (t : TRef) :
    thread? (modCore s c f) t = thread? s t := rfl

@[simp] theorem group_modGroup_same (s : State) (m g : Nat) (f : Group → Group) :
    group? (modGroup s m g f) m g = (group? s m g).map f := tab_get_modify_same _ _ _
theorem group_modGroup_other (s : State) (m g n h : Nat) (f : Group → Group) (ne : groupKey n h ≠ groupKey m g) :
    group? (modGroup s m g f) n h = group? s n h := tab_get_modify_other _ _ _ _ ne
@[simp] theorem group_modThread (s : State) (t : TRef) (f : Thread → Thread) (m g : Nat) :
    group? (modThread s t f) m g = group? s m g := rfl
@[simp] theorem group_modTeam (s : State) (n : Nat) (f : Team → Team) (m g : Nat) :
    group? (modTeam s n f) m g = group? s m g := rfl
@[simp] theorem group_modCore (s : State) (c : Nat) (f : Core → Core) (m g : Nat) :
    group? (modCore s c f) m g = group? s m g := rfl

@[simp] theorem team_modTeam_same (s : State) (m : Nat) (f : Team → Team) : team? (modTeam s m f) m = (team? s m).map f :=
  tab_get_modify_same _ _ _
theorem team_modTeam_other (s : State) (m n : Nat) (f : Team → Team) (h : n ≠ m) : team? (modTeam s m f) n = team? s n :=
  tab_get_modify_other _ _ _ _ h
@[simp] theorem team_modThread (s : State) (t : TRef) (f : Thread → Thread) (m : Nat) :
    team? (modThread s t f) m = team? s m := rfl
@[simp] theorem team_modGroup (s : State) (n g : Nat) (f : Group → Group) (m : Nat) :
    team? (modGroup s n g f) m = team? s m := rfl
@[simp] theorem team_modCore (s : State) (c : Nat) (f : Core → Core) (m : Nat) :
    team? (modCore s c f) m = team? s m := rfl

@[simp] theorem core_modCore_same (s : State) (c : Nat) (f : Core → Core) : getCore (modCore s c f) c = f (getCore s c) := by
  simp [getCore, modCore, setCore, Tab.getD, tab_get_set_same]
theorem core_modCore_other (s : State) (c d : Nat) (f : Core → Core) (h : d ≠ c) : getCore (modCore s c f) d = getCore s d := by
  simp [getCore, modCore, setCore, Tab.getD, tab_get_set_other _ _ _ _ h]
@[simp] theorem core_modThread (s : State) (t : TRef) (f : Thread → Thread) (c : Nat) :
    getCore (modThread s t f) c = getCore s c := rfl
@[simp] theorem core_modGroup (s : State) (m g : Nat) (f : Group → Group) (c : Nat) :
    getCore (modGroup s m g f) c = getCore s c := rfl
@[simp] theorem core_modTeam (s : State) (m : Nat) (f : Team → Team) (c : Nat) :
    getCore (modTeam s m f) c = getCore s c := rfl

end Sys2Proof.Machine
end

