-- ==== Sys2Proof/Laws/Lane.lean ====
section
/-! SUPPORT. What the reads, the writes and the advance of one lane change: the thread itself, its group and its pigeonholes, and
nothing else. -/

namespace Sys2Proof.Machine

/-! Nothing outside threads and groups. -/

theorem SameOutside.refl (s : State) : SameOutside s s := rfl

theorem SameOutside.trans {a b c : State} (h : SameOutside a b) (k : SameOutside b c) : SameOutside a c := by
  unfold SameOutside at *
  rw [h] at k
  exact k

theorem sameOutside_modThread (s : State) (t : TRef) (f : Thread → Thread) : SameOutside s (modThread s t f) := rfl
theorem sameOutside_setThread (s : State) (t : TRef) (th : Thread) : SameOutside s (setThread s t th) := rfl
theorem sameOutside_modGroup (s : State) (m g : Nat) (f : Group → Group) : SameOutside s (modGroup s m g f) := rfl

theorem sameOutside_foldl {α : Type} (f : State → α → State) (h : ∀ s x, SameOutside s (f s x)) (l : List α) :
    ∀ s, SameOutside s (l.foldl f s) := by
  induction l with
  | nil => intro s; exact .refl s
  | cons a l ih => intro s; exact (h s a).trans (ih _)

theorem sameOutside_modPh (s : State) (t : TRef) (j : Nat) (f : List Val → List Val) : SameOutside s (modPh s t j f) := by
  unfold modPh
  split
  · exact .refl s
  · exact sameOutside_modGroup _ _ _ _

theorem sameOutside_gSettle (s : State) (m g n : Nat) : SameOutside s (gSettle s m g n) := by
  unfold gSettle
  split
  · exact .refl s
  · dsimp only
    split
    · exact sameOutside_modGroup _ _ _ _
    · exact .refl s

theorem sameOutside_releaseG (s : State) (t : TRef) (o : SrcOp) : SameOutside s (releaseG s t o) := by
  unfold releaseG
  apply sameOutside_foldl
  intro s i
  unfold seenG
  split
  · exact (sameOutside_modGroup _ _ _ _).trans (sameOutside_gSettle _ _ _ _)
  · exact .refl s

theorem sameOutside_afterReads (s : State) (t : TRef) (i : OpInfo) (r : Bool) (vals : List (List Val)) (pops : Pops)
    (fl : BitVec 7) : SameOutside s (afterReads s t i r vals pops fl) := by
  unfold afterReads
  refine ((sameOutside_foldl _ ?_ _ _).trans (sameOutside_modThread _ _ _)).trans (sameOutside_foldl _ ?_ _ _)
  · intro s x; exact sameOutside_modPh _ _ _ _
  · intro s x; exact sameOutside_releaseG _ _ _

theorem sameOutside_writeDst (s : State) (t : TRef) (b : Bool) (d : Spec) (vals : List Val) :
    SameOutside s (writeDst s t b d vals) := by
  unfold writeDst
  split
  · exact sameOutside_modThread _ _ _
  · split
    · exact sameOutside_modGroup _ _ _ _
    · exact .refl s
  · exact sameOutside_modPh _ _ _ _
  · exact .refl s

theorem sameOutside_applyEff (s : State) (t : TRef) (b : Bool) (e : LaneEff) : SameOutside s (applyEff s t b e) := by
  unfold applyEff
  refine (sameOutside_modThread _ _ _).trans (sameOutside_foldl _ ?_ _ _)
  intro s x
  exact sameOutside_writeDst _ _ _ _ _

theorem sameOutside_advance (s : State) (t : TRef) (c : Ctl) (pc : Option W64) : SameOutside s (advance s t c pc) :=
  sameOutside_modThread _ _ _

/-- An instruction with an effect on its thread leaves everything but threads and groups as the lanes saw it. -/
theorem sameOutside_laneNext (s : State) (t : TRef) (o : OpInfo) (vals : List (List Val)) (void : Bool) (pops : Pops)
    (e : LaneEff) : SameOutside s.lanesSee (laneNext s t o vals void pops e) :=
  ((sameOutside_afterReads _ _ _ _ _ _ _).trans (sameOutside_applyEff _ _ _ _)).trans (sameOutside_advance _ _ _ _)

/-! The thread. -/

theorem thread_foldl {α : Type} (u : TRef) (f : State → α → State) (h : ∀ s x, thread? (f s x) u = thread? s u)
    (l : List α) : ∀ s, thread? (l.foldl f s) u = thread? s u := by
  induction l with
  | nil => intro s; rfl
  | cons a l ih => intro s; rw [List.foldl_cons, ih, h]

@[simp] theorem thread_modPh (s : State) (t : TRef) (j : Nat) (f : List Val → List Val) (u : TRef) :
    thread? (modPh s t j f) u = thread? s u := by
  unfold modPh
  split <;> rfl

@[simp] theorem thread_gSettle (s : State) (m g n : Nat) (u : TRef) : thread? (gSettle s m g n) u = thread? s u := by
  unfold gSettle
  split
  · rfl
  · dsimp only
    split <;> rfl

@[simp] theorem thread_releaseG (s : State) (t : TRef) (o : SrcOp) (u : TRef) :
    thread? (releaseG s t o) u = thread? s u := by
  unfold releaseG
  apply thread_foldl
  intro s i
  unfold seenG
  split
  · rw [thread_gSettle, thread_modGroup]
  · rfl

/-- The thread after its reads. -/
def readThread (th : Thread) (o : OpInfo) (r : Bool) (vals : List (List Val)) (fl : BitVec 7) : Thread :=
  let th := tickLatches (o.srcs.foldl releaseV th)
  let th := if r then applyHold th o vals else th
  { th with tstat := th.tstat ||| fl }

theorem thread_afterReads_same (s : State) (t : TRef) (o : OpInfo) (r : Bool) (vals : List (List Val)) (pops : Pops)
    (fl : BitVec 7) :
    thread? (afterReads s t o r vals pops fl) t = (thread? s t).map fun th => readThread th o r vals fl := by
  unfold afterReads
  rw [thread_foldl t _ (by intro s x; exact thread_releaseG _ _ _ _), thread_modThread_same,
    thread_foldl t _ (by intro s x; exact thread_modPh _ _ _ _ _)]
  rfl

theorem thread_afterReads_other (s : State) (t u : TRef) (o : OpInfo) (r : Bool) (vals : List (List Val)) (pops : Pops)
    (fl : BitVec 7) (h : u.key ≠ t.key) : thread? (afterReads s t o r vals pops fl) u = thread? s u := by
  unfold afterReads
  rw [thread_foldl u _ (by intro s x; exact thread_releaseG _ _ _ _), thread_modThread_other _ _ _ _ h,
    thread_foldl u _ (by intro s x; exact thread_modPh _ _ _ _ _)]

/-- The thread after a write. -/
def writeThread (th : Thread) (d : Spec) (vals : List Val) : Thread :=
  match d with
  | .v k => writeV th (th.wbase + k.toNat) vals
  | _ => th

theorem thread_writeDst_same (s : State) (t : TRef) (b : Bool) (d : Spec) (vals : List Val) :
    thread? (writeDst s t b d vals) t = (thread? s t).map fun th => writeThread th d vals := by
  unfold writeDst writeThread
  cases d <;> simp
  split <;> simp

theorem thread_writeDst_other (s : State) (t u : TRef) (b : Bool) (d : Spec) (vals : List Val) (h : u.key ≠ t.key) :
    thread? (writeDst s t b d vals) u = thread? s u := by
  unfold writeDst
  split
  · exact thread_modThread_other _ _ _ _ h
  · split <;> simp
  · simp
  · rfl

/-- The thread after an effect. -/
def effThread (th : Thread) (e : LaneEff) : Thread :=
  let p := e.preds.foldl (fun th (n, b) => setPred th n b) th
  let st := p.tstat ||| e.flags
  let p := { p with
    tstat := match e.tstat with
      | some (a, m) => (st &&& ~~~m) ||| (a &&& m)
      | none => st
    draws := p.draws + BitVec.ofNat 64 e.draws }
  e.writes.foldl (fun th (d, vals) => writeThread th d vals) p

theorem thread_applyEff_same (s : State) (t : TRef) (b : Bool) (e : LaneEff) :
    thread? (applyEff s t b e) t = (thread? s t).map fun th => effThread th e := by
  have key : ∀ (l : List (Spec × List Val)) (s : State),
      thread? (l.foldl (fun s (d, vals) => writeDst s t b d vals) s) t =
        (thread? s t).map fun th => l.foldl (fun th (d, vals) => writeThread th d vals) th := by
    intro l
    induction l with
    | nil => intro s; simp
    | cons a l ih =>
      intro s
      rw [List.foldl_cons, ih, thread_writeDst_same]
      cases thread? s t <;> rfl
  unfold applyEff
  rw [key, thread_modThread_same]
  cases thread? s t <;> rfl

theorem thread_applyEff_other (s : State) (t u : TRef) (b : Bool) (e : LaneEff) (h : u.key ≠ t.key) :
    thread? (applyEff s t b e) u = thread? s u := by
  unfold applyEff
  rw [thread_foldl u _ (by intro s x; exact thread_writeDst_other _ _ _ _ _ _ h), thread_modThread_other _ _ _ _ h]

/-- The thread after its advance. -/
def goThread (now : Nat) (c : Ctl) (pc : Option W64) (th : Thread) : Thread :=
  { th with
    pc := pc.getD th.next, after := none, joined := false, begun := none, win := none, st := .eligible, since := now + 1 + c.stall.toNat, ready := now + 1 + c.stall.toNat
    yld := if c.yld then some (now + 64) else none }

theorem thread_advance_same (s : State) (t : TRef) (c : Ctl) (pc : Option W64) :
    thread? (advance s t c pc) t = (thread? s t).map (goThread s.now c pc) := thread_modThread_same _ _ _

theorem thread_advance_other (s : State) (t u : TRef) (c : Ctl) (pc : Option W64) (h : u.key ≠ t.key) :
    thread? (advance s t c pc) u = thread? s u := thread_modThread_other _ _ _ _ h

/-- The thread after an instruction with effect `e`. -/
theorem thread_laneNext_same {s : State} {t : TRef} {th : Thread} (ht : thread? s t = some th) (o : OpInfo)
    (vals : List (List Val)) (void : Bool) (pops : Pops) (e : LaneEff) :
    thread? (laneNext s t o vals void pops e) t =
      some (goThread s.now o.ctl e.pc (effThread (readThread th o true vals (readFlags vals void)) e)) := by
  have hn : (applyEff (readState s t o vals void pops) t true e).now = s.now := by
    have := (sameOutside_afterReads s.lanesSee t o true vals pops (readFlags vals void)).trans
      (sameOutside_applyEff _ t true e)
    unfold readState
    rw [this]
    rfl
  have ht' : thread? s.lanesSee t = some th := ht
  unfold laneNext
  rw [thread_advance_same, thread_applyEff_same]
  unfold readState at hn ⊢
  rw [thread_afterReads_same, ht', hn]
  rfl

theorem thread_laneNext_other (s : State) (t u : TRef) (o : OpInfo) (vals : List (List Val)) (void : Bool) (pops : Pops)
    (e : LaneEff) (h : u.key ≠ t.key) : thread? (laneNext s t o vals void pops e) u = thread? s u := by
  unfold laneNext readState
  rw [thread_advance_other _ _ _ _ _ h, thread_applyEff_other _ _ _ _ _ h, thread_afterReads_other _ _ _ _ _ _ _ _ h]
  rfl

/-! Registers of the thread. -/

theorem tab_get_filter {α : Type} (p : Nat → Bool) (k : Nat) (t : Tab α) :
    Tab.get? (t.filter fun x => p x.1) k = if p k then Tab.get? t k else none := by
  induction t with
  | nil => simp [Tab.get?]
  | cons x t ih =>
    obtain ⟨j, a⟩ := x
    simp only [List.filter_cons]
    by_cases hj : j = k
    · subst hj
      cases hp : p j <;> simp_all [Tab.get?]
    · cases hp : p j <;> simp [Tab.get?, hj, ih]

@[simp] theorem writeV_wbase (l : List Val) : ∀ (th : Thread) (d : Nat), (writeV th d l).wbase = th.wbase := by
  induction l with
  | nil => intros; rfl
  | cons x l ih => intro th d; simp [writeV, ih]

theorem getReg_writeV_other (l : List Val) : ∀ (th : Thread) (d i : Nat), i < d ∨ d + l.length ≤ i →
    getReg (writeV th d l) i = getReg th i := by
  induction l with
  | nil => intros; rfl
  | cons x l ih =>
    intro th d i h
    simp only [List.length_cons] at h
    rw [writeV, ih _ _ _ (by omega)]
    exact tab_get_set_other _ _ _ _ (by omega)

theorem getReg_writeV_same (l : List Val) : ∀ (th : Thread) (d j : Nat) (h : j < l.length),
    getReg (writeV th d l) (d + j) = some (Reg.write (getReg th (d + j)) l[j]) := by
  induction l with
  | nil => intro th d j h; simp at h
  | cons x l ih =>
    intro th d j h
    cases j with
    | zero =>
      rw [writeV, getReg_writeV_other _ _ _ _ (by omega)]
      exact tab_get_set_same _ _ _
    | succ j =>
      rw [writeV, show d + (j + 1) = d + 1 + j by omega, ih _ _ j (by simpa using h)]
      simp only [List.getElem_cons_succ]
      congr 2
      exact tab_get_set_other _ _ _ _ (by omega)

theorem releaseV_wbase (th : Thread) (x : SrcOp) : (releaseV th x).wbase = th.wbase := by
  unfold releaseV
  split <;> rfl

theorem foldl_releaseV_wbase (l : List SrcOp) : ∀ th : Thread, (l.foldl releaseV th).wbase = th.wbase := by
  induction l with
  | nil => intro th; rfl
  | cons x l ih => intro th; rw [List.foldl_cons, ih, releaseV_wbase]

theorem getReg_foldl_releaseV (l : List SrcOp) (d : Nat) : ∀ th : Thread,
    (l.any fun x => match x.op with
      | .src ⟨true, _, .v k⟩ => th.wbase + k.toNat ≤ d && d < th.wbase + k.toNat + x.w / 32
      | _ => false) = false →
    getReg (l.foldl releaseV th) d = getReg th d := by
  induction l with
  | nil => intros; rfl
  | cons x l ih =>
    intro th h
    simp only [List.any_cons, Bool.or_eq_false_iff] at h
    rw [List.foldl_cons, ih]
    · unfold releaseV
      split
      · rename_i a k hx
        have h1 := h.1
        simp only [hx] at h1
        unfold getReg
        rw [tab_get_filter (fun i => !(decide (th.wbase + k.toNat ≤ i) && decide (i < th.wbase + k.toNat + x.w / 32))), h1]
        rfl
      · rfl
    · rw [releaseV_wbase]
      exact h.2

theorem applyHold_regs (th : Thread) (o : OpInfo) (vals : List (List Val)) :
    (applyHold th o vals).regs = th.regs ∧ (applyHold th o vals).wbase = th.wbase := by
  unfold applyHold
  split
  · exact ⟨rfl, rfl⟩
  · dsimp only
    split
    · unfold setLatch
      split <;> exact ⟨rfl, rfl⟩
    · exact ⟨rfl, rfl⟩

theorem readThread_wbase (th : Thread) (o : OpInfo) (r : Bool) (vals : List (List Val)) (fl : BitVec 7) :
    (readThread th o r vals fl).wbase = th.wbase := by
  unfold readThread
  cases r
  · exact foldl_releaseV_wbase _ _
  · exact (applyHold_regs _ _ _).2.trans (foldl_releaseV_wbase _ _)

/-- A register that no last-use mark names is the same after the reads. -/
theorem getReg_readThread (th : Thread) (o : OpInfo) (r : Bool) (vals : List (List Val)) (fl : BitVec 7) (d : Nat)
    (h : releasedBy th o d = false) : getReg (readThread th o r vals fl) d = getReg th d := by
  rw [← getReg_foldl_releaseV o.srcs d th h]
  unfold getReg readThread
  cases r
  · rfl
  · exact congrArg (fun l => Tab.get? l d) (applyHold_regs _ _ _).1

theorem setPred_regs (th : Thread) (n : Nat) (b : Bool) :
    (setPred th n b).regs = th.regs ∧ (setPred th n b).wbase = th.wbase := by
  unfold setPred
  split <;> exact ⟨rfl, rfl⟩

theorem foldl_setPred_regs (l : List (Nat × Bool)) : ∀ th : Thread,
    (l.foldl (fun th (n, b) => setPred th n b) th).regs = th.regs ∧
    (l.foldl (fun th (n, b) => setPred th n b) th).wbase = th.wbase := by
  induction l with
  | nil => intro th; exact ⟨rfl, rfl⟩
  | cons x l ih =>
    intro th
    rw [List.foldl_cons]
    exact ⟨(ih _).1.trans (setPred_regs _ _ _).1, (ih _).2.trans (setPred_regs _ _ _).2⟩

theorem writeThread_wbase (th : Thread) (d : Spec) (vals : List Val) : (writeThread th d vals).wbase = th.wbase := by
  unfold writeThread
  split
  · exact writeV_wbase _ _ _
  · rfl

theorem effThread_wbase (th : Thread) (e : LaneEff) : (effThread th e).wbase = th.wbase := by
  have key : ∀ (l : List (Spec × List Val)) (th : Thread),
      (l.foldl (fun th (d, vals) => writeThread th d vals) th).wbase = th.wbase := by
    intro l
    induction l with
    | nil => intro th; rfl
    | cons x l ih => intro th; rw [List.foldl_cons, ih, writeThread_wbase]
  exact (key _ _).trans (foldl_setPred_regs _ _).2

/-- A register that no write names is the same after the effect. -/
theorem getReg_effThread_other (th : Thread) (e : LaneEff) (d : Nat) (h : writtenBy th e d = false) :
    getReg (effThread th e) d = getReg th d := by
  have key : ∀ (l : List (Spec × List Val)) (th : Thread),
      (l.any fun w => match w.1 with
        | .v k => th.wbase + k.toNat ≤ d && d < th.wbase + k.toNat + w.2.length
        | _ => false) = false →
      getReg (l.foldl (fun th (d, vals) => writeThread th d vals) th) d = getReg th d := by
    intro l
    induction l with
    | nil => intros; rfl
    | cons x l ih =>
      intro th h
      obtain ⟨sp, vals⟩ := x
      simp only [List.any_cons, Bool.or_eq_false_iff] at h
      rw [List.foldl_cons, ih]
      · show getReg (writeThread th sp vals) d = _
        unfold writeThread
        split
        · rename_i k
          have h1 := h.1
          simp only [Bool.and_eq_false_iff, decide_eq_false_iff_not] at h1
          exact getReg_writeV_other _ _ _ _ (by omega)
        · rfl
      · rw [show (writeThread th sp vals).wbase = th.wbase from writeThread_wbase _ _ _]
        exact h.2
  unfold effThread
  dsimp only
  have hp := foldl_setPred_regs e.preds th
  rw [key]
  · show Tab.get? _ d = Tab.get? _ d
    rw [hp.1]
  · unfold writtenBy at h
    rw [← hp.2] at h
    exact h

/-- An effect with one write to v registers leaves its values there, at once or behind what the register awaits (R108). -/
theorem getReg_effThread_one (th : Thread) (e : LaneEff) (k : BitVec 6) (vals : List Val) (h : e.writes = [(.v k, vals)])
    (j : Nat) (hj : j < vals.length) : getReg (effThread th e) (th.wbase + k.toNat + j) = some (Reg.write (getReg th (th.wbase + k.toNat + j)) vals[j]) := by
  have hp := foldl_setPred_regs e.preds th
  unfold effThread
  dsimp only
  rw [h, List.foldl_cons, List.foldl_nil]
  show getReg (writeThread _ (.v k) vals) _ = _
  unfold writeThread
  dsimp only
  rw [hp.2, getReg_writeV_same _ _ _ _ hj]
  congr 2
  exact congrArg (fun l => Tab.get? l (th.wbase + k.toNat + j)) hp.1

end Sys2Proof.Machine
end

