-- ==== Sys2Proof/Laws/Coll.lean ====
section
/-! SUPPORT. What the frame of a group collective does with 32 threads that nothing holds back, and what each thread holds after
it. -/

namespace Sys2Proof.Machine

theorem lanesOf_ne (tm gid : Nat) : ∃ t l, lanesOf tm gid = t :: l ∧ t.team = tm ∧ t.gid = gid :=
  ⟨⟨tm, gid, 0⟩, _, rfl, rfl, rfl⟩

theorem runColl_together {s : State} {i : Instr} {o : OpInfo} {tm gid : Nat} (h : Together s i o tm gid)
    (f : State → List CLane → CollRes) (hf : (f s.lanesSee (lanesRead s o tm gid)).completes s tm) :
    runColl s i f = .next (collNext s o tm gid (f s.lanesSee (lanesRead s o tm gid))) := by
  obtain ⟨core, sub, pc, word, hc⟩ := h.cur
  obtain ⟨t0, rest, hl, h1, h2⟩ := lanesOf_ne tm gid
  have hinfo := h.info
  have hp := h.prepared
  have hr := h.ready
  have hop : (lanesOf tm gid).filterMap (fun t => (thread? s.lanesSee t).bind fun th =>
      (operandExc s.lanesSee t th o).map fun e => (t, e, (0 : BitVec 7))) = [] := by
    rw [List.filterMap_eq_nil_iff]
    intro t ht
    cases hth : thread? s.lanesSee t with
    | none => rfl
    | some th => simp [h.legal t ht th hth]
  obtain ⟨hs, hb, he, ha⟩ := hf
  have htr : (f s.lanesSee (lanesRead s o tm gid)).effs.filterMap (fun (t, e) =>
      (arithTrap (tenOf s.lanesSee tm) e).map fun x => (t, x, e.flags)) = [] := by
    rw [List.filterMap_eq_nil_iff]
    intro x hx
    have := ha x hx
    show Option.map _ (arithTrap (tenOf s tm) x.2) = none
    rw [this]
    rfl
  unfold lanesRead State.lanesSee at *
  rw [hl] at hp hr hop hs hb he htr
  unfold runColl
  simp only [hc, hl, List.head?_cons, Option.bind_some, h1, h2, hinfo, hp, hr, hop, List.map_nil, List.append_nil,
    List.isEmpty_nil, Bool.not_true, Bool.or_self, Bool.false_eq_true, if_false, hs, hb, he, htr]
  unfold collNext lanesRead State.lanesSee
  rw [hl]

/-! What a fold over lanes does to one of them. -/

theorem thread_fold_other {α : Type} (key : α → TRef) (f : State → α → State) (u : TRef)
    (other : ∀ s x, u.key ≠ (key x).key → thread? (f s x) u = thread? s u) (l : List α) :
    ∀ s, (∀ x, x ∈ l → u.key ≠ (key x).key) → thread? (l.foldl f s) u = thread? s u := by
  induction l with
  | nil => intros; rfl
  | cons a l ih =>
    intro s h
    rw [List.foldl_cons, ih _ (fun x hx => h x (by simp [hx])), other _ _ (h a (by simp))]

theorem thread_fold_at {α : Type} (key : α → TRef) (f : State → α → State) (P : State → Prop) (g : α → Thread → Thread)
    (keep : ∀ s x, P s → P (f s x))
    (same : ∀ s x, P s → thread? (f s x) (key x) = (thread? s (key x)).map (g x))
    (other : ∀ s x u, u.key ≠ (key x).key → thread? (f s x) u = thread? s u) (l : List α) :
    ∀ s, P s → l.Pairwise (fun a b => (key a).key ≠ (key b).key) → ∀ x, x ∈ l →
      thread? (l.foldl f s) (key x) = (thread? s (key x)).map (g x) := by
  induction l with
  | nil => intro s _ _ x hx; simp at hx
  | cons a l ih =>
    intro s hP hd x hx
    rw [List.pairwise_cons] at hd
    rw [List.foldl_cons]
    rcases List.mem_cons.mp hx with rfl | hx
    · rw [thread_fold_other key f (key x) (fun s y => other s y _) l _ (fun y hy => hd.1 y hy), same _ _ hP]
    · rw [ih _ (keep _ _ hP) hd.2 x hx, other _ _ _ (fun e => hd.1 x hx e.symm)]

/-- The lanes of a group have different keys. -/
theorem lanesOf_keys (tm gid : Nat) : (lanesOf tm gid).Pairwise fun a b => a.key ≠ b.key := by
  unfold lanesOf
  rw [List.pairwise_map]
  refine List.Pairwise.imp ?_ List.pairwise_lt_range
  intro a b h e
  simp only [TRef.key, TRef.gkey, groupKey] at e
  omega

theorem lanesRead_keys (s : State) (o : OpInfo) (tm gid : Nat) :
    (lanesRead s o tm gid).Pairwise fun a b => a.n.t.key ≠ b.n.t.key := by
  unfold lanesRead collLanes
  rw [List.pairwise_filterMap]
  refine List.Pairwise.imp ?_ (lanesOf_keys tm gid)
  intro a b h x hx y hy
  simp only [Option.map_eq_some_iff] at hx hy
  obtain ⟨_, _, rfl⟩ := hx
  obtain ⟨_, _, rfl⟩ := hy
  exact h

/-- A lane that reads is a thread of the state. -/
theorem lanesRead_thread {s : State} {o : OpInfo} {tm gid : Nat} {c : CLane} (h : c ∈ lanesRead s o tm gid) :
    thread? s c.n.t = some c.n.th := by
  unfold lanesRead collLanes at h
  simp only [List.mem_filterMap, Option.map_eq_some_iff] at h
  obtain ⟨t, _, th, hth, rfl⟩ := h
  exact hth

/-- PSN where a poisoned value is written (R331). -/
def psnThread (e : LaneEff) (th : Thread) : Thread :=
  if e.writes.any fun w => valPsn w.2 then { th with tstat := th.tstat ||| fPSN } else th

theorem now_sameOutside {s s' : State} (h : SameOutside s s') : s'.now = s.now := by rw [h]

/-- The reads of a collective in one lane. -/
theorem thread_collReads {s : State} {o : OpInfo} {tm gid : Nat} {c : CLane} (h : c ∈ lanesRead s o tm gid) :
    thread? (collReads s.lanesSee o (lanesRead s o tm gid)) c.n.t =
      some (readThread c.n.th o c.on c.n.v (if c.on then readFlags c.n.v c.void else 0)) := by
  have key := thread_fold_at (fun c : CLane => c.n.t)
    (fun s c => afterReads s c.n.t o c.on c.n.v [] (if c.on then readFlags c.n.v c.void else 0)) (fun _ => True)
    (fun c th => readThread th o c.on c.n.v (if c.on then readFlags c.n.v c.void else 0)) (fun _ _ _ => trivial)
    (fun s x _ => thread_afterReads_same _ _ _ _ _ _ _) (fun s x u hu => thread_afterReads_other _ _ _ _ _ _ _ _ hu)
    (lanesRead s o tm gid) s.lanesSee trivial (lanesRead_keys s o tm gid) c h
  have ht : thread? s.lanesSee c.n.t = some c.n.th := lanesRead_thread h
  rw [ht] at key
  exact key

/-- The write of one lane of a collective. -/
def collWrite (first : Option TRef) (s : State) (t : TRef) (e : LaneEff) : State :=
  let psn := e.writes.any fun w => valPsn w.2
  let s := applyEff s t (some t == first) e
  if psn then modThread s t fun th => { th with tstat := th.tstat ||| fPSN } else s

theorem thread_collWrite_same (first : Option TRef) (s : State) (t : TRef) (e : LaneEff) :
    thread? (collWrite first s t e) t = (thread? s t).map fun th => psnThread e (effThread th e) := by
  unfold collWrite psnThread
  cases h : e.writes.any fun w => valPsn w.2
  · simp [thread_applyEff_same]
  · simp [thread_applyEff_same]
    cases thread? s t <;> rfl

theorem thread_collWrite_other (first : Option TRef) (s : State) (t u : TRef) (e : LaneEff) (h : u.key ≠ t.key) :
    thread? (collWrite first s t e) u = thread? s u := by
  unfold collWrite
  dsimp only
  split
  · rw [thread_modThread_other _ _ _ _ h, thread_applyEff_other _ _ _ _ _ h]
  · exact thread_applyEff_other _ _ _ _ _ h

theorem sameOutside_collWrite (first : Option TRef) (s : State) (t : TRef) (e : LaneEff) :
    SameOutside s (collWrite first s t e) := by
  unfold collWrite
  dsimp only
  split
  · exact (sameOutside_applyEff _ _ _ _).trans (sameOutside_modThread _ _ _)
  · exact sameOutside_applyEff _ _ _ _

theorem collWrites_eq (s : State) (o : OpInfo) (ls : List CLane) (f : CLane → LaneEff) :
    collWrites s o ls (onLanes ls f) =
      ls.foldl (fun s c => advance s c.n.t o.ctl none) (ls.foldl (fun s c =>
        if c.on then collWrite ((ls.find? fun c => c.on).map fun c => c.n.t) s c.n.t (f c) else s) s) := by
  unfold collWrites onLanes
  dsimp only
  rw [List.foldl_filterMap]
  congr 1
  congr 1
  funext s c
  cases c.on <;> rfl

theorem sameOutside_collReads (s : State) (o : OpInfo) (ls : List CLane) : SameOutside s (collReads s o ls) :=
  sameOutside_foldl _ (fun _ _ => sameOutside_afterReads _ _ _ _ _ _ _) _ _

/-- A collective that writes only threads leaves everything outside threads and groups as it was. -/
theorem sameOutside_collNext (s : State) (o : OpInfo) (tm gid : Nat) (f : CLane → LaneEff) :
    SameOutside s.lanesSee (collNext s o tm gid { effs := onLanes (lanesRead s o tm gid) f }) := by
  unfold collNext
  rw [collWrites_eq]
  refine ((sameOutside_collReads _ _ _).trans (sameOutside_foldl _ ?_ _ _)).trans (sameOutside_foldl _ ?_ _ _)
  · intro s c
    split
    · exact sameOutside_collWrite _ _ _ _
    · exact .refl s
  · intro s c; exact sameOutside_advance _ _ _ _

/-- What a thread of G holds after a collective that writes only threads. -/
theorem thread_collNext {s : State} {o : OpInfo} {tm gid : Nat} (f : CLane → LaneEff) {c : CLane}
    (h : c ∈ lanesRead s o tm gid) (on : c.on = true) :
    thread? (collNext s o tm gid { effs := onLanes (lanesRead s o tm gid) f }) c.n.t =
      some (goThread s.now o.ctl none (psnThread (f c)
        (effThread (readThread c.n.th o true c.n.v (readFlags c.n.v c.void)) (f c)))) := by
  unfold collNext
  rw [collWrites_eq]
  have hr := thread_collReads h
  have hnr : (collReads s.lanesSee o (lanesRead s o tm gid)).now = s.now :=
    (now_sameOutside (sameOutside_collReads s.lanesSee o (lanesRead s o tm gid))).trans rfl
  rw [on] at hr
  dsimp only [id]
  generalize collReads s.lanesSee o (lanesRead s o tm gid) = s1 at hr hnr
  have hw := thread_fold_at (fun c : CLane => c.n.t)
    (fun x c => if c.on then collWrite (((lanesRead s o tm gid).find? fun c => c.on).map fun c => c.n.t) x c.n.t (f c) else x)
    (fun _ => True)
    (fun c th => if c.on then psnThread (f c) (effThread th (f c)) else th) (fun _ _ _ => trivial)
    (by
      intro s c _
      cases c.on
      · simp
      · exact thread_collWrite_same _ _ _ _)
    (by
      intro s c u hu
      cases c.on
      · rfl
      · exact thread_collWrite_other _ _ _ _ _ hu)
    (lanesRead s o tm gid) s1 trivial (lanesRead_keys s o tm gid) c h
  have hnw : (((lanesRead s o tm gid).foldl (fun x c => if c.on then
      collWrite (((lanesRead s o tm gid).find? fun c => c.on).map fun c => c.n.t) x c.n.t (f c) else x) s1)).now = s.now := by
    refine (now_sameOutside (sameOutside_foldl _ ?_ _ _)).trans hnr
    intro s c
    split
    · exact sameOutside_collWrite _ _ _ _
    · exact .refl s
  rw [hr] at hw
  simp only [on, if_true] at hw
  have ha := thread_fold_at (fun c : CLane => c.n.t) (fun s c => advance s c.n.t o.ctl none) (fun x => x.now = s.now)
    (fun _ th => goThread s.now o.ctl none th) (fun x c hx => hx)
    (fun x c hx => by rw [thread_advance_same, hx]) (fun x c u hu => thread_advance_other _ _ _ _ _ hu)
    (lanesRead s o tm gid) _ hnw (lanesRead_keys s o tm gid) c h
  rw [hw] at ha
  exact ha

end Sys2Proof.Machine
end

