-- ==== Sys2Proof/Tests/Slice0.lean ====
section
/-! SUPPORT. Tests of the model and witnesses of the statements' hypotheses: each theorem is about one step on a small state. The
states stand on `base`: one context whose page tables map VA 0 to 2^27 to itself and the local areas to 2^27 and up, one team of
one group on core 0, its lane 0 (or all lanes) at 0x30000. -/

open Sys2Proof Sys2Proof.Machine

namespace Sys2Proof.Tests

set_option Elab.async false

/-! The small state. -/

def wc : Ctl := ⟨false, 7, 0, false, .none 0⟩
def wt : TRef := ⟨0, 0, 0⟩
def wv (n : BitVec 6) : Src := ⟨false, false, .v n⟩
def wf (n : Nat) (x : W32) : Nat × Reg := (n, .full ⟨x, false⟩)

def grid : GridRec := { placedGrid with pages := 8 }

def base (all : Bool) (regs : Tab Reg) : State :=
  let live := { Thread.fresh (BitVec.ofNat 64 codeVa) 64 0 with regs := regs }
  let m := memStore [] 0x100000 8 (0x140000 + 1)
  let m := memStore m 0x120000 8 (0x180000 + 1)
  let m := memStore m 0x140000 8 0xF
  let m := memStore m 0x180000 8 (2 ^ 27 + 0xF)
  { State.reset with
    now := 100
    mem := m
    ctxs := [(0, { plan := { cores := false, ptroot := 0x100000, savebase := 0x1000000, saveh := 0x30000, resth := 0x30000
                             constva := 0, constlen := 0, grids := [grid] }
                   prio := 0, placed := 0, vcores := [0], stop := none, coresSince := 0 })]
    teams := [(0, Team.fresh 0 0 0 0 1 0 0)]
    groups := [(0, Group.fresh 0)]
    threads := (List.range 32).map fun l => (l, if l == 0 || all then live else { live with st := .exited, regs := [] })
    cores := [(0, { Core.idle with ctx := some 0 })] }

/-- Lane 0 issues an instruction. -/
def at0 (i : Instr) (s : State) : State := { s with cur := some ⟨0, 0, 0x30000, 0, i, [wt]⟩ }
/-- The group issues an instruction. -/
def atG (i : Instr) (s : State) : State := { s with cur := some ⟨0, 0, 0x30000, 0, i, lanesOf 0 0⟩ }

def th0 (s : State) : Thread := (thread? s wt).getD (Thread.fresh 0 0 0)
def info (i : Instr) : OpInfo := (infoOf i).getD ⟨wc, [], [], .own⟩
def vals0 (s : State) (i : Instr) : List (List Val) := (readSrcs s.lanesSee wt (th0 s) [] (info i).srcs).1
def pops0 (s : State) (i : Instr) : Pops := (readSrcs s.lanesSee wt (th0 s) [] (info i).srcs).2.2

/-- The hypotheses of `Alone`, decided. -/
def aloneB (s : State) (i : Instr) (o : OpInfo) (t : TRef) (th : Thread) (vals : List (List Val)) (void : Bool) (pops : Pops) :
    Bool :=
  infoOf i == some o && (match s.cur with | some x => x.ins == i && x.lanes == [t] | none => false) && thread? s t == some th &&
  th.canIssue && th.unres == none && th.win == none && guardOf th o.ctl && decide (entriesNeeded th (nowInfo t th o) ≤ poolFree s (coreOf s t.team)) &&
  !storedSrc th o && blockOf s.lanesSee t th o == none && operandExc s.lanesSee t th o == none &&
  readSrcs s.lanesSee t th [] o.srcs == (vals, void, pops)

theorem alone_of {s : State} {i : Instr} {o : OpInfo} {t : TRef} {th : Thread} {vals : List (List Val)} {void : Bool} {pops : Pops}
    (h : aloneB s i o t th vals void pops = true) : Alone s i o t th vals void pops := by
  simp only [aloneB, Bool.and_eq_true, beq_iff_eq, decide_eq_true_eq, Bool.not_eq_true'] at h
  obtain ⟨⟨⟨⟨⟨⟨⟨⟨⟨⟨⟨h1, h2⟩, h3⟩, h4⟩, h5⟩, hw⟩, h6⟩, h7⟩, h8⟩, h9⟩, h10⟩, h11⟩ := h
  refine ⟨h1, ?_, h3, h4, h5, hw, h6, h7, h8, h9, h10, h11⟩
  cases hc : s.cur with
  | none => simp [hc] at h2
  | some x =>
    obtain ⟨core, sub, pc, word, ins, lanes⟩ := x
    simp only [hc, Bool.and_eq_true, beq_iff_eq] at h2
    obtain ⟨rfl, rfl⟩ := h2
    exact ⟨core, sub, pc, word, rfl⟩

/-- Lane 0 alone issues `i`, nothing holding it back. -/
def al (s : State) (i : Instr) : Bool := aloneB s i (info i) wt (th0 s) (vals0 s i) false (pops0 s i)

def oks (r : Result) (p : State → Bool) : Bool := match r with | .next s => p s | _ => false

/-- Thread `t` goes on at its next instruction. -/
def goes (s s' : State) (t : TRef) (p : Thread → Bool := fun _ => true) : Bool :=
  match thread? s t, thread? s' t with
  | some th, some th' => th'.pc == th.next && th'.st == .eligible && p th'
  | _, _ => false

def full (th : Thread) (d : Nat) (x : Nat) : Bool := getReg th d == some (.full ⟨BitVec.ofNat 32 x, false⟩)


/-! Words written out from the encoding tables of the spec, one for each of the 143 instructions of R246. -/

/-- A word by its fields (R232), guarded as GP says: OPC, GP, D, A, B, C, M, H, X. -/
def word (opc gp d a b c m h x : Nat) : Nat :=
  opc * 2 ^ 86 + gp * 2 ^ 82 + d * 2 ^ 74 + a * 2 ^ 64 + b * 2 ^ 54 + c * 2 ^ 44 + m * 2 ^ 34 + h * 2 ^ 24 + x

/-- The word of OPC with D, A, B, C, M, X, unguarded and without hints; an unused D or source holds 0x8B (R234). -/
def wd (opc d a b c m x : Nat) : Nat := word opc 7 d a b c m 0 x

def dec (w : Nat) (i : Instr) : Bool := match decodeWord w with | .ok j => j == i | .error _ => false

def wz : Src := ⟨false, false, .zero⟩
def wg (n : BitVec 6) : Src := ⟨false, false, .g n⟩
def wi (n : BitVec 6) : Src := ⟨false, false, .imm n⟩

/-- The spec's own worked examples beside R246: `(p3) fmul.f32.rz v8, v4^, v12 | s2 hB0` and
`iadd.i32 v2, v2, 0x1234_5678`. -/
theorem test_words_of_the_worked_examples :
    (dec 0x508C22040308B51090000000 (.fmul ⟨⟨false, 3, 2, false, .of .b 0⟩, .f32, .rz, false, false, .v 8, ⟨true, false, .v 4⟩,
       .src (wv 12)⟩) &&
     dec (word 0 7 2 2 0x8B 0x12 0x240 0 0x345678)
       (.iadd ⟨wc, .i32, .rn, false, false, .v 2, wv 2, .imm32 0x12345678⟩)) = true := by decide +kernel

/-- R257. -/
theorem test_words_integer :
    (dec (wd 0x000 1 2 3 0x8B (2 * 32) 0) (.iadd ⟨wc, .i32, .rn, false, false, .v 1, wv 2, .src (wv 3)⟩) &&
     dec (wd 0x001 1 0x42 0x8C 0x8B (6 * 32 + 1) 0) (.isub ⟨wc, .n32, .rn, false, true, .v 1, wg 2, .src ⟨false, false, .tid⟩⟩) &&
     dec (wd 0x002 1 2 3 0x8B (2 * 32 + 2) 0) (.imul ⟨wc, .i32, .rn, true, false, .v 1, wv 2, .src (wv 3)⟩) &&
     dec (wd 0x003 2 4 6 8 (3 * 32) 0) (.imad ⟨wc, .i64, .rn, false, false, .v 2, wv 4, wv 6, .src (wv 8)⟩) &&
     dec (wd 0x004 1 2 3 0x8B (1 * 32) 0) (.idiv ⟨wc, .i16, .rn, false, false, .v 1, wv 2, .src (wv 3)⟩) &&
     dec (wd 0x005 1 2 0xC7 0x8B (5 * 32) 0) (.irem ⟨wc, .n16, .rn, false, false, .v 1, wv 2, .src (wi 7)⟩) &&
     dec (wd 0x006 1 2 0x8B 0x8B 0 0) (.ineg ⟨wc, .i8, .rn, false, false, .v 1, wv 2⟩) &&
     dec (wd 0x007 1 2 0x8B 0x8B (2 * 32 + 1) 0) (.iabs ⟨wc, .i32, .rn, false, true, .v 1, wv 2⟩) &&
     dec (wd 0x008 1 2 3 0x8B (4 * 32) 0) (.imin ⟨wc, .n8, .rn, false, false, .v 1, wv 2, .src (wv 3)⟩) &&
     dec (wd 0x009 2 4 6 0x8B (7 * 32) 0) (.imax ⟨wc, .n64, .rn, false, false, .v 2, wv 4, .src (wv 6)⟩) &&
     dec (wd 0x00A 2 4 3 0xC3 (6 * 32) 0) (.lea ⟨wc, .n32, .v 2, wv 4, wv 3, wi 3⟩) &&
     dec (wd 0x00B 2 3 0x8B 0x8B (3 * 32) 0x1) (.cvti ⟨wc, .i64, .rn, false, false, .i16, .v 2, wv 3⟩) &&
     dec (wd 0x00C 1 2 3 4 (2 * 32 + 3) 0) (.idp4 ⟨wc, .i32, .rn, true, true, .v 1, wv 2, wv 3, .src (wv 4)⟩)) = true := by
  decide +kernel

/-- R260, R261. -/
theorem test_words_bit :
    (dec (wd 0x040 1 2 3 0x8B (6 * 32) 0) (.and ⟨wc, .n32, .rn, false, false, .v 1, wv 2, .src (wv 3)⟩) &&
     dec (wd 0x041 2 4 6 0x8B (7 * 32) 0) (.or ⟨wc, .n64, .rn, false, false, .v 2, wv 4, .src (wv 6)⟩) &&
     dec (wd 0x042 1 2 0x8B 0x0FF (0x200 + 2 * 32) 0xFF) (.xor ⟨wc, .i32, .rn, false, false, .v 1, wv 2, .imm32 0xFF0000FF⟩) &&
     dec (wd 0x043 1 2 0x8B 0x8B (2 * 32) 0) (.not ⟨wc, .i32, .rn, false, false, .v 1, wv 2⟩) &&
     dec (wd 0x044 1 2 3 4 (2 * 32) 0xE8) (.bmix ⟨wc, .i32, .v 1, wv 2, wv 3, wv 4, 0xE8⟩) &&
     dec (wd 0x045 2 4 0xC3 0x8B (3 * 32) 0) (.shl ⟨wc, .i64, .rn, false, false, .v 2, wv 4, .src (wi 3)⟩) &&
     dec (wd 0x046 1 2 3 0x8B (6 * 32) 0) (.shr ⟨wc, .n32, .rn, false, false, .v 1, wv 2, .src (wv 3)⟩) &&
     dec (wd 0x047 1 2 3 0x8B (6 * 32 + 2) 0) (.rot ⟨wc, .n32, .rn, true, false, .v 1, wv 2, .src (wv 3)⟩) &&
     dec (wd 0x048 1 2 3 4 (6 * 32) 0) (.shf ⟨wc, .n32, .rn, false, false, .v 1, wv 2, wv 3, .src (wv 4)⟩) &&
     dec (wd 0x049 1 2 0x8B 0x000 (0x200 + 2 * 32) 0x0804) (.bfe ⟨wc, .i32, .rn, false, false, .v 1, wv 2, .imm32 0x804⟩) &&
     dec (wd 0x04A 1 2 3 4 (2 * 32) 0) (.bfi ⟨wc, .i32, .rn, false, false, .v 1, wv 2, wv 3, .src (wv 4)⟩) &&
     dec (wd 0x04B 1 2 0x8B 0x8B (7 * 32) 0) (.popc ⟨wc, .n64, .rn, false, false, .v 1, wv 2⟩) &&
     dec (wd 0x04C 1 2 0x8B 0x8B (2 * 32) 0) (.clz ⟨wc, .i32, .rn, false, false, .v 1, wv 2⟩) &&
     dec (wd 0x04D 1 2 0x8B 0x8B (2 * 32) 0) (.brev ⟨wc, .i32, .rn, false, false, .v 1, wv 2⟩) &&
     dec (wd 0x04E 1 2 0x8B 0x8B (2 * 32) 0) (.ffs ⟨wc, .i32, .rn, false, false, .v 1, wv 2⟩) &&
     dec (wd 0x04F 1 2 3 0x8B (6 * 32) 0x8C5) (.bswz ⟨wc, .n32, .v 1, wv 2, wv 3, .sel 0x8C5⟩) &&
     dec (wd 0x04F 1 2 3 4 (6 * 32 + 2) 0) (.bswz ⟨wc, .n32, .v 1, wv 2, wv 3, .reg (wv 4)⟩)) = true := by decide +kernel

/-- R262-R264, R290-R292. -/
theorem test_words_move :
    (dec (wd 0x080 2 4 0x8B 0x8B (3 * 32) 0) (.mov ⟨wc, true, .v 2, .src (wv 4)⟩) &&
     dec (wd 0x080 2 0x8B 0x8B 0x01 (0x200 + 2 * 32) 2) (.mov ⟨wc, false, .v 2, .imm32 0x01000002⟩) &&
     dec (wd 0x081 2 3 0x8B 0x01 (0x200 + 3 * 32) 2) (.movi ⟨wc, .v 2, wv 3, 0x01000002⟩) &&
     dec (wd 0x082 1 2 3 0x8B (2 * 32) 1) (.movx ⟨wc, false, .v 1, wv 2, wv 3, true, false⟩) &&
     dec (wd 0x083 0x8B 2 3 4 (3 * 32) 0) (.movxw ⟨wc, true, wv 2, wv 3, wv 4⟩) &&
     dec (wd 0x084 0x8B 2 3 0x8B (2 * 32) (3 * 16 + 1)) (.icmp ⟨wc, .i32, false, false, 1, 3, .zero, wv 2, wv 3⟩) &&
     dec (wd 0x085 5 2 3 0x8B (0xA * 32) (2 * 16 + 1)) (.fcmp ⟨wc, .f32, false, false, 1, 2, .v 5, wv 2, wv 3⟩) &&
     dec (wd 0x086 0x8B 2 3 0x8B (0xD * 32) (0 * 16 + 6)) (.tcmp ⟨wc, .t16, false, false, 6, 0, .zero, wv 2, wv 3⟩) &&
     dec (wd 0x087 1 2 3 0x8B (2 * 32) (8 + 5)) (.sel ⟨wc, false, 5, true, .v 1, wv 2, wv 3⟩) &&
     dec (wd 0x088 0x8B 0x8B 0x8B 0x8B 0 (0x96 * 4096 + 3 * 512 + 2 * 64 + 1 * 8 + 0)) (.plop ⟨wc, 0, 1, 2, 3, 0x96⟩) &&
     dec (wd 0x089 0x8B 2 0x8B 0x8B 0 (0x7F * 256 + 1)) (.pmov ⟨wc, true, 0x7F, .zero, wv 2⟩) &&
     dec (wd 0x08A 0x95 2 0xCF 0x8B 0 0) (.movs ⟨wc, wv 2, .src (wi 15)⟩) &&
     dec (wd 0x08B 1 2 0x8B 0x8B (0xA * 32) 0) (.fclass ⟨wc, .f32, .v 1, wv 2⟩)) = true := by decide +kernel

/-- R267, R274, R462. -/
theorem test_words_control_and_system :
    (dec (wd 0x0C0 0x8B 0x8B 0x8B 0x8B 0 5) (.bra ⟨wc, 5⟩) &&
     dec (wd 0x0C1 0x8B 4 0x8B 0x8B 0 0) (.brx ⟨wc, wv 4⟩) &&
     dec (wd 0x0C2 62 0x8B 0x8B 0x8B (31 * 8 + 2) 0xFFFFFF) (.call ⟨wc, .v 62, 31, 2, 0xFFFFFF⟩) &&
     dec (wd 0x0C3 62 4 0x8B 0x8B (31 * 8 + 2) 0) (.callx ⟨wc, .v 62, 31, 2, wv 4⟩) &&
     dec (wd 0x0C4 0x8B 0x8B 0x8B 0x8B 0 0) (.ret ⟨wc, wz⟩) &&
     dec (wd 0x0C5 0x8B 0x8B 0x8B 0x8B 0 0) (.exit ⟨wc⟩) &&
     dec (word 0x0C6 7 0x8B 0x8B 0x8B 0x8B 0 (3 * 64 + 32) 0) (.yield ⟨⟨false, 7, 3, true, .none 0⟩⟩) &&
     dec (wd 0x0C7 0x8B 0xC5 0x8B 0x8B 0 1000) (.pause ⟨wc, wi 5, 1000⟩) &&
     dec (word 0x0C8 (8 + 2) 0x8B 0x8B 0x8B 0x8B 0 0 0) (.nop ⟨⟨true, 2, 0, false, .none 0⟩⟩) &&
     dec (wd 0x0C9 0x8B 0x8B 0x8B 0x8B 0 64) (.join ⟨wc, 64⟩) &&
     dec (wd 0x100 0x8B 2 0x8B 0x8B 0 0x1234) (.trap ⟨wc, wv 2, 0x1234⟩) &&
     dec (wd 0x101 0x8B 0x8B 0x8B 0x8B 0 0) (.rte ⟨wc⟩) &&
     dec (wd 0x102 0x8B 0x8B 0x8B 0x8B 0 7) (.brk ⟨wc, 7⟩) &&
     dec (wd 0x103 2 0x8B 0x8B 0x8B 0 0x08) (.sysr ⟨wc, .v 2, 0x08⟩) &&
     dec (wd 0x104 0x8B 2 0x8B 0x8B 0 0x11) (.sysw ⟨wc, wv 2, 0x11⟩) &&
     dec (wd 0x105 2 0x8B 0x8B 0x8B 0 3) (.stat ⟨wc, .v 2, 3⟩)) = true := by decide +kernel

/-- R282, R286, R288, R289, R293, R294, R296. -/
theorem test_words_float_and_tapered :
    (dec (wd 0x140 1 2 3 0x8B (0x8 * 32 + 4 * 4 + 1) 0) (.fadd ⟨wc, .f16, .rs, false, true, .v 1, wv 2, .src (wv 3)⟩) &&
     dec (wd 0x141 2 4 6 0x8B (0xB * 32 + 1 * 4) 0) (.fsub ⟨wc, .f64, .rz, false, false, .v 2, wv 4, .src (wv 6)⟩) &&
     dec (wd 0x142 2 4 6 0x8B (0xF * 32 + 2 * 4) 0) (.fmul ⟨wc, .f32x2, .ru, false, false, .v 2, wv 4, .src (wv 6)⟩) &&
     dec (wd 0x143 1 2 3 0x3F (0x200 + 0xA * 32) 0x800000) (.ffma ⟨wc, .f32, .rn, false, false, .v 1, wv 2, wv 3, .imm32 0x3F800000⟩) &&
     dec (wd 0x144 1 2 3 0x8B (0xA * 32 + 2) 0) (.fmin ⟨wc, .f32, .rn, true, false, .v 1, wv 2, .src (wv 3)⟩) &&
     dec (wd 0x145 1 2 3 0x8B (0x9 * 32) 0) (.fmax ⟨wc, .bf16, .rn, false, false, .v 1, wv 2, .src (wv 3)⟩) &&
     dec (wd 0x146 1 2 3 0x8B (0xA * 32) 0) (.fdiv ⟨wc, .f32, .rn, false, false, .v 1, wv 2, .src (wv 3)⟩) &&
     dec (wd 0x147 1 2 0x8B 0x8B (0xA * 32 + 3 * 4) 0) (.fsqrt ⟨wc, .f32, .rd, false, false, .v 1, wv 2⟩) &&
     dec (wd 0x148 1 2 0x8B 0x8B (0xA * 32) 0) (.frcp ⟨wc, .f32, .rn, false, false, .v 1, wv 2⟩) &&
     dec (wd 0x149 1 2 0x8B 0x8B (0xA * 32) 0) (.frsq ⟨wc, .f32, .rn, false, false, .v 1, wv 2⟩) &&
     dec (wd 0x14A 1 2 0x8B 0x8B (0xA * 32) 0) (.frnd ⟨wc, .f32, .rn, false, false, .v 1, wv 2⟩) &&
     dec (wd 0x14B 1 2 0xC4 0x8B (0xA * 32) 0) (.fscale ⟨wc, .f32, .rn, false, false, .v 1, wv 2, .src (wi 4)⟩) &&
     dec (wd 0x180 1 2 0x8B 0x8B (0xA * 32) 0) (.fexp2 ⟨wc, .f32, .rn, false, false, .v 1, wv 2⟩) &&
     dec (wd 0x181 1 2 0x8B 0x8B (0x8 * 32) 0) (.flog2 ⟨wc, .f16, .rn, false, false, .v 1, wv 2⟩) &&
     dec (wd 0x182 1 2 0x8B 0x8B (0xA * 32) 0) (.fsin ⟨wc, .f32, .rn, false, false, .v 1, wv 2⟩) &&
     dec (wd 0x183 1 2 0x8B 0x8B (0xA * 32) 0) (.fcos ⟨wc, .f32, .rn, false, false, .v 1, wv 2⟩) &&
     dec (wd 0x184 1 2 0x8B 0x8B (0xA * 32) 0) (.ftanh ⟨wc, .f32, .rn, false, false, .v 1, wv 2⟩) &&
     dec (wd 0x185 1 2 0x8B 0x8B (0xA * 32) 0) (.fsigm ⟨wc, .f32, .rn, false, false, .v 1, wv 2⟩) &&
     dec (wd 0x186 1 2 0x8B 0x8B (0xD * 32) 0xA) (.cvt ⟨wc, .t16, .rn, false, false, .f32, .v 1, wv 2⟩) &&
     dec (wd 0x187 1 2 4 0x8B (0xC * 32) 0xF) (.cvtp ⟨wc, .t8, .rn, false, false, .f32x2, .v 1, wv 2, wv 4⟩)) = true ∧
    (dec (wd 0x1C0 1 2 3 0x8B (0xE * 32) 0) (.tmin ⟨wc, .t32, .rn, false, false, .v 1, wv 2, .src (wv 3)⟩) &&
     dec (wd 0x1C1 1 2 3 0x8B (0xC * 32) 0) (.tmax ⟨wc, .t8, .rn, false, false, .v 1, wv 2, .src (wv 3)⟩) &&
     dec (wd 0x1C2 1 2 0x8B 0x8B (0xD * 32) 0) (.tneg ⟨wc, .t16, .rn, false, false, .v 1, wv 2⟩) &&
     dec (wd 0x1C3 1 2 0x8B 0x8B (0xD * 32) 0) (.tabs ⟨wc, .t16, .rn, false, false, .v 1, wv 2⟩) &&
     dec (wd 0x1C4 8 0x210 0xC0 0x8B (0xD * 32 + 1 * 4 + 1) (5 * 1024 + 2 * 256 + 3 * 16 + 7))
       (.mvt ⟨wc, true, .rz, true, 8, 16, true, false, wi 0, 5, 2, 3, 7⟩) &&
     dec (wd 0x1C5 1 2 0xC0 0x8B (0xA * 32) 0) (.nzcnt ⟨wc, .f32, .rn, false, false, .v 1, wv 2, .src (wi 0)⟩)) = true := by
  decide +kernel

/-- R245, R299, R304, R306. -/
theorem test_words_memory :
    (dec (wd 0x200 1 4 0x8B 0x8B 0x200 (0x7FFFF * 32)) (.ld ⟨wc, ⟨wv 4, 0x7FFFF, .global, 0⟩, .w8, true, .plain, .thread, .v 1⟩) &&
     dec (wd 0x201 0x8B 0x8B 3 0x8B (1 * 64 + 2 * 8 + 5) (8 * 32)) (.st ⟨wc, ⟨wz, 8, .spad, 5⟩, .w32, .plain, .thread, wv 3⟩) &&
     dec (wd 0x202 1 0x44 2 3 (2 * 8) (5 * 65536 + 0x8B * 256 + 8 + 2))
       (.ldv ⟨wc, ⟨wg 4, wv 2, wv 3, .v 5, false⟩, .w32, false, .acq, .team, .v 1⟩) &&
     dec (wd 0x203 0x8B 0x44 2 3 (3 * 8) (0xC1 * 65536 + 6 * 256 + 128 + 64 + 16 + 4))
       (.stv ⟨wc, ⟨wg 4, wv 2, wv 3, .imm 1, true⟩, .w64, .rel, .package, .v 6, true⟩) &&
     dec (wd 0x204 0x8B 4 0x8B 0x8B (4 * 64 + 2 * 8) (64 * 32)) (.pref ⟨wc, .local, 2, wv 4, 64⟩) &&
     dec (wd 0x205 0x8B 4 0x8B 0x8B 0 0) (.flush ⟨wc, .global, wv 4, 0⟩) &&
     dec (wd 0x240 1 4 6 (7 * 128 + 1 * 32 + 1 * 8) (2 * 8) (3 * 8 + 4))
       (.atom ⟨wc, ⟨wv 4, 0, .global, 0⟩, .w32, .acqrel, .package, .cas, .uns, .home, .rn, .v 1, wv 6⟩) &&
     dec (wd 0x241 0x8B 4 6 (0 * 128 + 2 * 32 + 2 * 8 + 4) (2 * 8) 0)
       (.red ⟨wc, ⟨wv 4, 0, .global, 0⟩, .w32, .plain, .thread, .add, .flt, .near, .rs, .zero, wv 6⟩) &&
     dec (wd 0x242 2 0x44 2 3 (2 * 256 + 1 * 64 + 3 * 8) (5 * 65536 + 6 * 256))
       (.atomv ⟨wc, ⟨wg 4, wv 2, wv 3, .v 5, false⟩, .w64, .plain, .thread, .max, .uns, .rn, .v 2, .v 6, false⟩)) = true := by
  decide +kernel

/-- R308, R309, R323. -/
theorem test_words_synchronisation_and_letters :
    (dec (wd 0x280 0x8B 0x8B 0x8B 0x8B 7 4) (.fence ⟨wc, .all, true, .package⟩) &&
     dec (wd 0x281 0x8B 0xC4 0x8B 0x8B 0 9) (.bar ⟨wc, 9, wi 4⟩) &&
     dec (wd 0x282 1 4 0x8B 0x8B 3 (16 * 32)) (.barx ⟨wc, .v 1, 3, wv 4, 16⟩) &&
     dec (wd 0x283 0x8B 4 2 0x8B 0 0) (.barinit ⟨wc, wv 4, 0, wv 2⟩) &&
     dec (wd 0x284 1 4 2 0x8B (1 * 64 + 2 * 8 + 6) (8 + 1)) (.waitv ⟨wc, 6, false, .spad, .acq, .group, .v 1, wv 4, 0, wv 2⟩) &&
     dec (wd 0x285 0x8B 0xC1 0x8B 0x8B 0 63) (.seminc ⟨wc, 63, wi 1⟩) &&
     dec (wd 0x286 0x8B 0x8B 0xC1 0x8B 1 5) (.semwait ⟨wc, 5, true, wi 1⟩) &&
     dec (wd 0x287 0x8B 2 0x8B 0x8B 0 5) (.semset ⟨wc, 5, wv 2⟩) &&
     dec (wd 0x288 0x8B 2 0x8B 0x8B 1 4) (.own ⟨wc, true, 4, wv 2⟩) &&
     dec (wd 0x289 0x8B 2 0x8B 0x8B 0 0) (.ownwait ⟨wc, wv 2⟩) &&
     dec (wd 0x28A 2 0x8B 3 0x8B 0 (4 * 16 + 9)) (.vread ⟨wc, 9, 4, .v 2, wv 3⟩) &&
     dec (wd 0x28B 0x8B 2 3 0x8B 0 (4 * 16 + 9)) (.vwrite ⟨wc, 9, 4, wv 2, wv 3⟩) &&
     dec (wd 0x28C 0x8B 0x44 2 3 0 (5 * 65536 + 128)) (.vinval ⟨wc, false, ⟨wg 4, wv 2, wv 3, .v 5, true⟩⟩) &&
     dec (wd 0x28C 0x8B 0x44 0x8B 0x8B 1 (0x8B * 65536)) (.vinval ⟨wc, true, ⟨wg 4, wz, wz, .zero, false⟩⟩) &&
     dec (wd 0x2C0 1 8 0x8B 4 0 (2 * 4096 + 77)) (.lpost ⟨wc, .v 1, 2, 77, wv 8, wz, wv 4⟩) &&
     dec (wd 0x2C1 8 0x8B 2 0x8B 0 (2 * 8192 + 4096 + 77)) (.ltake ⟨wc, .v 8, true, 2, 77, wv 2⟩) &&
     dec (wd 0x2C2 0x8B 0x8B 2 0x8B 0 (2 * 4096 + 77)) (.ldone ⟨wc, 2, 77, wv 2⟩) &&
     dec (wd 0x2C3 0x8B 2 3 0x8B 0 (2 * 16384 + 256)) (.rdep ⟨wc, 2, 256, wv 2, wv 3⟩) &&
     dec (wd 0x2C4 0x8B 2 0x8B 0x8B 0 0) (.arrwait ⟨wc, wv 2⟩)) = true := by decide +kernel

/-- R334-R349. -/
theorem test_words_group_and_matrix :
    (dec (wd 0x300 1 0x8B 0x8B 0x8B 0 (1 * 128 + 64 + 3 * 8 + 2)) (.vote ⟨wc, .v 1, 2, 3, true, 1⟩) &&
     dec (wd 0x301 1 4 0x8B 0x8B (3 * 32) 2) (.matchg ⟨wc, true, .v 1, 2, wv 4⟩) &&
     dec (wd 0x302 1 2 3 0x8B (2 * 32) (6 * 32 + 5 * 4 + 3)) (.shfl ⟨wc, false, 3, 5, 6, .v 1, wv 2, wv 3⟩) &&
     dec (wd 0x303 0 32 0x8B 0x8B 0 4) (.bfly ⟨wc, 4, .v 0, wv 32⟩) &&
     dec (wd 0x304 1 2 0x8B 0x8B (0xA * 32 + 2) 2) (.redg ⟨wc, .f32, .rn, true, false, .max, false, .v 1, wv 2⟩) &&
     dec (wd 0x305 1 2 0x8B 0x8B (2 * 32 + 1) 8) (.scang ⟨wc, .i32, .rn, false, true, .add, true, .v 1, wv 2⟩) &&
     dec (wd 0x306 1 0x8B 0x8B 0x8B 0 2) (.elect ⟨wc, .v 1, 2⟩) &&
     dec (wd 0x307 0x8B 8 0x8B 0x8B (0xA * 32) (5 * 16 + 3)) (.nzmap ⟨wc, .f32, 3, 5, wv 8⟩) &&
     dec (wd 0x308 0x8B 0x8B 0x8B 0x8B 0 (3 * 4096 + 3 * 256 + 2 * 16 + 1)) (.kop ⟨wc, .andn, 1, 2, 3, .zero, wz⟩) &&
     dec (wd 0x308 5 0x8B 0x8B 0x8B 0 (6 * 4096 + 2 * 16)) (.kop ⟨wc, .st, 0, 2, 0, .v 5, wz⟩) &&
     dec (wd 0x309 1 2 0x8B 3 (0xC * 32 + 1 * 4 + 1) (2 * 8 * 128 + 17 * 4 + 3)) (.cvtb ⟨wc, .rz, true, 3, 17, 2, .v 1, wv 2, wv 3⟩) &&
     dec (wd 0x340 8 16 24 32 (0xC * 32 + 2 * 4 + 2) (16 * 65536 + 32768 + 3 * 2048 + 4 * 64 + 32 + 5 * 2))
       (.mma ⟨wc, .t8, .ru, true, false, 2, some (3, 4), some 5, .v 8, wv 16, wv 24, wv 32⟩) &&
     dec (wd 0x341 8 16 20 0x8B (0xA * 32 + 1) 0) (.mmaz ⟨wc, .f32, .rn, false, true, 0, none, none, .v 8, wv 16, wv 20, wz⟩) &&
     dec (wd 0x342 8 4 2 0x8B (1 * 64 + 2 * 16 + 5) (32 * 32 + 1 * 8)) (.ldm ⟨wc, .spad, 2, 5, 32, .b, wv 4, wv 2, wv 8⟩) &&
     dec (wd 0x343 0x8B 4 2 8 (3 * 16) (2 * 8)) (.stm ⟨wc, .global, 3, 0, 0, .c, wv 4, wv 2, wv 8⟩)) = true := by decide +kernel

/-- R350. -/
theorem test_words_data_engines :
    (dec (wd 0x380 0x8B 4 6 2 (1 * 64 + 0 * 8 + 1 * 2) 9) (.cpy ⟨wc, .spad, .global, 1, wv 4, wv 6, wv 2, 9⟩) &&
     dec (wd 0x381 0x8B 0x44 2 3 0 (5 * 65536 + 6 * 256 + 64 + 9)) (.cpyv ⟨wc, ⟨wg 4, wv 2, wv 3, .v 5, false⟩, .v 6, true, 9⟩) &&
     dec (wd 0x382 0x8B 4 2 3 (1 * 128 + 64 + 2 * 8) (99 * 256 + 9)) (.gath ⟨wc, 1, true, 2, 0, 99, wv 4, wv 2, wv 3, 9⟩) &&
     dec (wd 0x383 0x8B 4 2 3 (0 * 128 + 2 * 2) (99 * 256 + 9)) (.scat ⟨wc, 0, false, 0, 2, 99, wv 4, wv 2, wv 3, 9⟩) &&
     dec (wd 0x384 0x8B 0x8B 0x8B 0x8B 0 0) (.idem ⟨wc⟩) &&
     dec (wd 0x385 0x8B 0x8B 0x8B 0x8B 0 0) (.idemend ⟨wc⟩) &&
     dec (wd 0x386 0x8B 4 2 6 (0xA * 32 + 1 * 4 + 2) 9) (.ared ⟨wc, .f32, .rz, 2, 0, wv 4, wv 2, wv 6, 9⟩) &&
     dec (wd 0x387 0x8B 4 2 6 (2 * 32 + 1) 9) (.rscat ⟨wc, .i32, .rn, 1, 0, wv 4, wv 2, wv 6, 9⟩) &&
     dec (wd 0x388 0x8B 4 2 6 (7 * 32) 9) (.agath ⟨wc, .n64, .rn, 0, 0, wv 4, wv 2, wv 6, 9⟩) &&
     dec (wd 0x389 0x8B 4 2 6 (8 * 32) (5 * 64 + 9)) (.bcast ⟨wc, .f16, .rn, 0, 5, wv 4, wv 2, wv 6, 9⟩) &&
     dec (wd 0x38A 0x8B 0x8B 0x8B 6 0 9) (.cbar ⟨wc, .i8, .rn, 0, 0, wz, wz, wv 6, 9⟩)) = true := by decide +kernel

/-- R366. -/
theorem test_words_physics :
    (dec (wd 0x3C0 0x8B 2 3 4 (2 * 128 + 64 + 32 + 8) (3 * 256 + 1 * 64 + 9))
       (.sort ⟨wc, 2, true, true, false, true, 3, 1, wv 2, wv 3, wv 4, 9⟩) &&
     dec (wd 0x3C1 0x8B 4 2 3 (1 * 128 + 5 * 8) (7 * 256 + 9)) (.trav ⟨wc, 1, 5, 7, wv 4, wv 2, wv 3, 9⟩) &&
     dec (wd 0x3C2 1 2 0x8B 0x8B (0xA * 32 + 2) (20 * 16 + 7)) (.solve ⟨wc, false, false, .rn, 2, 20, 7, .v 1, wv 2, wz⟩) &&
     dec (wd 0x3C2 1 2 3 0x8B (0x200 + 0xB * 32 + 3 * 4 + 1) 15) (.solve ⟨wc, true, true, .rd, 1, 0, 15, .v 1, wv 2, wv 3⟩) &&
     dec (wd 0x3C3 1 2 3 0x8B (0xA * 32 + 4) 0) (.solveb ⟨wc, false, .rz, .v 1, wv 2, wv 3⟩) &&
     dec (wd 0x3C4 2 4 5 0x8B 0 0) (.compact ⟨wc, .v 2, wv 4, wv 5⟩) &&
     dec (wd 0x3C5 4 2 8 0xC0 (2 * 128) 0) (.rnd ⟨wc, 2, false, .rn, .v 4, wv 2, wv 8, wi 0⟩) &&
     dec (wd 0x3C6 4 0x8B 8 3 (1 * 128 + 32 + 2 * 4) 0) (.rndf ⟨wc, 1, true, .ru, .v 4, wz, wv 8, wv 3⟩) &&
     dec (wd 0x3C7 4 2 8 9 0 0) (.epis ⟨wc, .v 4, wv 2, wv 8, wv 9⟩)) = true := by decide +kernel

/-- Words that are no instruction (R234, R235): an unassigned operation, a set H[0], a used "unused" source, HOLD with SLOT 3,
a reserved M bit, an odd pair, an imm with C[9:8]; SLOT without HOLD is ignored (R240). -/
theorem test_words_refused :
    (dec (word 0x0C8 7 0x8B 0x8B 0x8B 0x8B 0 2 0) (.nop ⟨⟨false, 7, 0, false, .none 1⟩⟩) &&
     dec (word 0x000 7 1 2 3 0x8B 64 0x08 0) (.iadd ⟨⟨false, 7, 0, false, .of .a 0⟩, .i32, .rn, false, false, .v 1, wv 2, .src (wv 3)⟩) &&
    [wd 0x00D 1 2 3 0x8B 64 0, word 0x0C8 7 0x8B 0x8B 0x8B 0x8B 0 1 0, wd 0x0C8 0x8B 0x8B 0x8B 2 0 0,
     word 0x000 7 1 2 3 0x8B 64 0x0E 0, wd 0x0C8 0x8B 0x8B 0x8B 0x8B 1 0, wd 0x000 3 4 6 0x8B (3 * 32) 0,
     wd 0 2 2 0x8B 0x112 0x240 0, wd 0x040 1 2 3 0x8B (2 * 32 + 1) 0, wd 0x080 0x8C 2 0x8B 0x8B 64 0,
     wd 0x3C5 4 2 9 0xC0 (2 * 128) 0, wd 0x200 1 5 0x8B 0x8B (2 * 8) 0, wd 0x200 1 4 0x8B 0x8B (2 * 8) 1].all
      (fun w => match decodeWord w with | .ok _ => false | .error _ => true)) = true := by decide +kernel

/-! Ill-formed terms, one for each check of WellFormed.lean; each is refused. -/

def bin (ty : Ty) : Bin := ⟨wc, ty, .rn, false, false, .v 2, wv 4, .src (wv 6)⟩
def tri (ty : Ty) : Tri := ⟨wc, ty, .rn, false, false, .v 2, wv 4, wv 6, .src (wv 8)⟩
def un (ty : Ty) : Un := ⟨wc, ty, .rn, false, false, .v 2, wv 4⟩
def cmp (ty : Ty) : Cmp := ⟨wc, ty, false, false, 1, 0, .zero, wv 2, wv 4⟩
def mg : MemOpnd := ⟨wv 4, 0, .global, 0⟩
def ldw : Ld := ⟨wc, mg, .w32, false, .plain, .thread, .v 2⟩
def stw : St := ⟨wc, mg, .w32, .plain, .thread, wv 2⟩
def vo : VolOpnd := ⟨wg 4, wv 2, wv 3, .v 5, false⟩
def atm : Atom := ⟨wc, mg, .w32, .plain, .thread, .add, .uns, .auto, .rn, .v 2, wv 6⟩
def mm : Mma := ⟨wc, .f32, .rn, false, false, 0, none, none, .v 8, wv 16, wv 24, wv 32⟩
def fr : Frag := ⟨wc, .spad, 2, 0, 0, .a, wv 4, wv 2, wv 8⟩
def col : Coll := ⟨wc, .f32, .rn, 0, 0, wv 4, wv 2, wv 6, 9⟩
def half : Ctl := ⟨false, 3, 0, false, .none 0⟩
def holdA : Ctl := ⟨false, 7, 0, false, .of .a 0⟩
def holdC : Ctl := ⟨false, 7, 0, false, .of .c 0⟩

/-- The terms that the ill-formed ones below differ from in one place. -/
theorem test_wellformed_accepts :
    [.iadd (bin .i32), .imad (tri .i64), .ineg (un .i8), .fadd (bin .f64), .icmp (cmp .n16), .ld ldw, .st stw, .atom atm, .mma mm,
     .ldm fr, .ared col, .ldv ⟨wc, vo, .w32, false, .plain, .thread, .v 2⟩, .tmin (bin .t8), .cvt ⟨wc, .f32, .rn, false, false, .i32, .v 2, wv 4⟩].all
      wellFormed = true := by decide +kernel

theorem test_illformed_integer_bit :
    [.iadd (bin .f32), .iadd { bin .i32 with rnd := .rz }, .iadd { bin .i32 with f1 := true }, .iadd { bin .i64 with d := .v 3 },
     .iadd { bin .i64 with a := wv 5 }, .iadd { bin .i32 with d := .latch 0 }, .iadd { bin .i64 with b := .src ⟨false, false, .latch 0⟩ },
     .iadd { bin .i32 with d := .tid }, .imul { bin .i32 with f1 := true, f0 := true }, .irem { bin .i32 with f0 := true }, .imin { bin .i32 with f0 := true },
     .imad { tri .i64 with c := .src (wv 7) }, .iabs (un .n32), .lea ⟨wc, .i64, .v 2, wv 4, wv 3, wi 3⟩,
     .lea ⟨wc, .i32, .v 2, wv 4, wv 3, wi 8⟩, .lea ⟨wc, .i32, .v 2, wv 4, wv 3, wv 8⟩, .cvti ⟨wc, .i32, .rn, false, false, .f32, .v 2, wv 4⟩,
     .idp4 (tri .i64), .idp4 { tri .n32 with f1 := true }, .and (bin .i8), .shl { bin .i32 with f1 := true }, .not (un .n16),
     .popc (un .i16), .bmix ⟨wc, .i8, .v 1, wv 2, wv 3, wv 4, 0⟩, .shf (tri .i8), .bfi { tri .i32 with f1 := true },
     .bswz ⟨wc, .i64, .v 1, wv 2, wv 3, .sel 0⟩, .bswz ⟨wc, .i32, .v 1, wv 2, wv 3, .sel 18⟩].all (fun i => !wellFormed i) = true := by
  decide +kernel

theorem test_illformed_move_control_system :
    [.mov ⟨wc, true, .v 3, .src (wv 4)⟩, .movi ⟨wc, .v 3, wv 4, 0⟩, .movx ⟨wc, true, .v 3, wv 2, wv 4, false, false⟩,
     .movxw ⟨wc, true, wv 2, wv 4, wv 3⟩, .icmp { cmp .i32 with cc := 6 }, .icmp (cmp .f32), .fcmp (cmp .i32), .fcmp { cmp .f64 with f0 := true },
     .fcmp { cmp .f32 with f1 := true, cc := 1 }, .tcmp (cmp .f32), .tcmp { cmp .t8 with cc := 6 }, .sel ⟨wc, true, 1, false, .v 2, wv 3, wv 4⟩,
     .pmov ⟨wc, true, 0x80, .zero, wv 2⟩, .pmov ⟨wc, true, 1, .v 1, wv 2⟩, .pmov ⟨wc, false, 0, .v 1, wv 2⟩,
     .movs ⟨wc, wv 2, .src ⟨false, false, .imm 0⟩⟩, .fclass ⟨wc, .i32, .v 1, wv 2⟩, .brx ⟨wc, wv 3⟩, .ret ⟨wc, wv 3⟩, .call ⟨wc, .v 2, 0, 0, 0⟩,
     .call ⟨wc, .v 3, 0, 1, 0⟩, .callx ⟨wc, .g 2, 0, 1, wv 2⟩, .callx ⟨wc, .v 2, 0, 1, wv 3⟩, .trap ⟨wc, ⟨false, false, .imm 0⟩, 0⟩, .rte ⟨half⟩,
     .sysr ⟨wc, .v 2, 0x09⟩, .sysr ⟨wc, .v 3, 0⟩, .sysr ⟨wc, .zero, 2⟩, .sysw ⟨wc, wv 2, 0x02⟩, .sysw ⟨wc, wv 3, 0⟩,
     .sysw ⟨wc, ⟨false, false, .tid⟩, 0x11⟩, .stat ⟨wc, .v 2, 6⟩, .stat ⟨wc, .zero, 0⟩].map wellFormed =
    [false, false, false, false, false, false, false, false, false, false, false, false, false, false, false, true, false, false, false,
     false, false, false, false, true, false, false, false, false, false, false, false, false, false] := by
  decide +kernel

theorem test_illformed_float_tapered :
    [.fadd (bin .i32), .fadd { bin .f64 with f0 := true }, .fadd { bin .f32 with f1 := true }, .fmin { bin .f32 with rnd := .rz }, .fdiv (bin .f32x2),
     .fsqrt { un .f32 with f1 := true }, .ffma { tri .f32 with f1 := true }, .ffma (tri .t8), .fscale (bin .t16), .fexp2 (un .f64),
     .cvt ⟨wc, .f32, .rn, false, false, .f32, .v 2, wv 4⟩, .cvt ⟨wc, .n32, .rn, false, false, .i32, .v 2, wv 4⟩,
     .cvt ⟨wc, .f32x2, .rn, false, false, .f32, .v 2, wv 4⟩, .cvt ⟨wc, .i32, .rn, false, true, .t8, .v 2, wv 4⟩,
     .cvt ⟨wc, .i32, .rn, true, false, .f32, .v 2, wv 4⟩, .cvtp ⟨wc, .f16, .rn, false, false, .f32, .v 2, wv 4, wz⟩,
     .cvtp ⟨wc, .f16, .rn, false, false, .f32x2, .v 2, wv 4, wv 6⟩, .tmin (bin .f32), .tmin { bin .t8 with rnd := .rz },
     .tmin { bin .t8 with b := .imm32 0 }, .tneg { un .t8 with f0 := true }, .mvt ⟨wc, false, .rn, false, 60, 0, false, false, wi 0, 0, 0, 0, 15⟩,
     .mvt ⟨wc, false, .rn, false, 0, 60, false, false, wi 0, 0, 0, 15, 0⟩, .nzcnt { bin .f32 with rnd := .rz }].all (fun i => !wellFormed i) = true := by
  decide +kernel

theorem test_illformed_memory :
    [.ld { ldw with m := { mg with addr := wv 5 } }, .ld { ldw with m := { mg with swz := 2 } }, .ld { ldw with m := { mg with space := .cst, swz := 1 } },
     .ld { ldw with d := .q 0 }, .ld { ldw with sx := true }, .ld { ldw with ord := .rel, scope := .team }, .ld { ldw with scope := .team },
     .ld { ldw with m := { mg with swz := 1 }, ord := .acq, scope := .team }, .ld { ldw with width := .w128 },
     .st { stw with ord := .acq, scope := .team }, .st { stw with m := { mg with space := .cst }, ord := .rel, scope := .team },
     .st { stw with width := .w64, b := wv 3 }, .ldv ⟨wc, { vo with vol := wv 4 }, .w32, false, .plain, .thread, .v 2⟩,
     .ldv ⟨wc, vo, .w128, false, .plain, .thread, .v 4⟩, .ldv ⟨wc, { vo with z := .latch 0 }, .w32, false, .plain, .thread, .v 2⟩,
     .stv ⟨wc, vo, .w32, .plain, .thread, .q 0, false⟩, .pref ⟨wc, .spad, 0, wv 4, 0⟩, .flush ⟨wc, .cst, wv 4, 0⟩,
     .atom { atm with width := .w16 }, .atom { atm with m := { mg with swz := 1 } }, .atom { atm with aop := .and, kind := .sgn },
     .atom { atm with aop := .min, kind := .flt, rnd := .rz }, .atom { atm with aop := .cas, b := wv 3 }, .atom { atm with m := { mg with space := .cst }, ord := .acq, scope := .team },
     .red { atm with d := .v 1 }, .red { atm with d := .zero, aop := .exch }, .red { atm with d := .zero, ord := .acq, scope := .team },
     .atomv ⟨wc, vo, .w32, .plain, .thread, .and, .uns, .rn, .v 2, .v 6, false⟩].all (fun i => !wellFormed i) = true := by decide +kernel

theorem test_illformed_synchronisation :
    [.fence ⟨wc, .all, false, .thread⟩, .barx ⟨wc, .q 0, 0, wv 4, 0⟩, .barx ⟨wc, .v 1, 0, wv 3, 0⟩, .barinit ⟨wc, wi 0, 0, wv 2⟩,
     .waitv ⟨wc, 0, false, .cst, .plain, .thread, .v 1, wv 4, 0, wv 2⟩, .waitv ⟨wc, 0, true, .global, .plain, .thread, .v 1, wv 4, 0, wv 2⟩,
     .waitv ⟨wc, 0, false, .global, .rel, .team, .v 1, wv 4, 0, wv 2⟩, .bar ⟨wc, 0, wv 2⟩, .vread ⟨wc, 0, 0, .v 3, wv 2⟩, .vwrite ⟨wc, 0, 0, wv 3, wv 2⟩,
     .vinval ⟨wc, true, ⟨wg 4, wv 2, wz, .zero, false⟩⟩, .vinval ⟨wc, false, ⟨wv 4, wv 2, wv 3, .v 5, false⟩⟩, .lpost ⟨wc, .v 1, 0, 0, wv 4, wz, wz⟩,
     .lpost ⟨wc, .v 1, 0, 0, wv 8, wz, wv 3⟩, .ltake ⟨wc, .v 4, false, 0, 0, wz⟩].map wellFormed =
    [false, false, false, false, false, false, false, true, false, false, false, false, false, false, false] := by decide +kernel

theorem test_illformed_group_matrix :
    [.vote ⟨wc, .q 0, 0, 0, false, 0⟩, .matchg ⟨wc, true, .v 1, 0, wv 3⟩, .shfl ⟨wc, true, 0, 0, 0, .v 1, wv 2, wv 3⟩,
     .shfl ⟨wc, false, 0, 0, 0, .v 1, ⟨false, false, .q 0⟩, wv 3⟩, .bfly ⟨wc, 0, .v 1, wv 32⟩, .bfly ⟨holdA, 0, .v 0, wv 32⟩,
     .redg ⟨wc, .i8, .rn, false, false, .add, false, .v 1, wv 2⟩, .redg ⟨wc, .f32, .rn, false, false, .and, false, .v 1, wv 2⟩,
     .redg ⟨wc, .i32, .rz, false, false, .add, false, .v 1, wv 2⟩, .redg ⟨wc, .i32, .rn, false, false, .add, true, .v 1, wv 2⟩,
     .redg ⟨wc, .f32, .rn, true, false, .add, false, .v 1, wv 2⟩, .scang ⟨wc, .i32, .rn, false, true, .min, false, .v 1, wv 2⟩,
     .nzmap ⟨wc, .i32, 0, 0, wv 8⟩, .nzmap ⟨wc, .f32, 0, 0, wv 2⟩, .nzmap ⟨holdA, .f32, 0, 0, wv 8⟩, .kop ⟨wc, .and, 0, 1, 2, .v 1, wz⟩,
     .kop ⟨wc, .not, 0, 1, 2, .zero, wz⟩, .kop ⟨wc, .ld, 0, 1, 0, .zero, wv 1⟩, .kop ⟨wc, .st, 0, 1, 0, .zero, wz⟩,
     .cvtb ⟨wc, .rn, false, 0, 0, 0, .g 1, wv 2, wv 3⟩, .mma { mm with ctl := half }, .mma { mm with ctl := holdC }, .mma { mm with bs := true },
     .mma { mm with ty := .f64, ftz := true, a := wv 16, b := wv 18, c := wv 20 }, .mma { mm with sb8 := 1 }, .mma { mm with d := .v 4 }, .mma { mm with a := wv 2 }, .mma { mm with ty := .i32 },
     .mmaz mm, .ldm { fr with ctl := half }, .ldm { fr with addr := wv 3 }, .ldm { fr with blk := wv 2 }, .ldm { fr with space := .global, swz := 1 },
     .stm { fr with space := .cst }, .stm { fr with ctl := holdC }].all (fun i => !wellFormed i) = true := by decide +kernel

theorem test_illformed_engines :
    [.cpy ⟨wc, .rspad, .global, 0, wv 4, wv 6, wv 2, 0⟩, .cpy ⟨wc, .spad, .cst, 0, wv 4, wv 6, wv 2, 0⟩, .cpy ⟨wc, .spad, .global, 0, wv 3, wv 6, wv 2, 0⟩,
     .cpyv ⟨wc, { vo with vol := wv 4 }, .v 6, false, 0⟩, .cpyv ⟨wc, vo, .q 0, false, 0⟩, .gath ⟨wc, 0, false, 0, 1, 0, wv 4, wv 2, wv 3, 0⟩,
     .scat ⟨wc, 2, false, 0, 1, 0, wv 4, wv 2, wv 3, 0⟩, .ared { col with ty := .t8 }, .ared { col with rnd := .rs }, .ared { col with root := 1 }, .ared { col with c := wv 3 },
     .agath { col with op := 1 }, .bcast { col with rnd := .rz }, .cbar col, .sort ⟨wc, 0, false, false, false, false, 0, 1, wv 2, wz, wv 4, 0⟩,
     .sort ⟨wc, 0, false, false, false, false, 3, 0, wv 2, wv 3, wv 4, 0⟩, .trav ⟨wc, 0, 0, 0, wv 4, wv 2, wv 3, 0⟩, .trav ⟨wc, 0, 10, 0, wv 4, wv 2, wv 3, 0⟩,
     .solve ⟨wc, false, false, .rn, 0, 1, 3, .v 1, wv 2, wz⟩, .solve ⟨wc, false, false, .rn, 2, 0, 3, .v 1, wv 2, wz⟩, .solve ⟨wc, false, false, .rn, 0, 0, 3, .v 1, wv 2, wv 3⟩,
     .solve ⟨wc, false, false, .rs, 0, 0, 3, .v 1, wv 2, wz⟩, .solveb ⟨wc, false, .rs, .v 1, wv 2, wv 3⟩, .compact ⟨wc, .v 3, wv 4, wv 5⟩, .compact ⟨wc, .g 2, wv 4, wv 5⟩,
     .rnd ⟨wc, 2, false, .rn, .v 2, wv 2, wv 8, wi 0⟩, .rnd ⟨wc, 0, false, .rn, .v 2, wv 2, wv 9, wi 0⟩, .rnd ⟨wc, 0, true, .rn, .v 2, wv 2, wv 8, wi 0⟩,
     .rndf ⟨wc, 0, true, .rn, .v 2, wv 2, wv 8, wi 0⟩, .rndf ⟨wc, 0, false, .rz, .v 2, wv 2, wv 8, wi 0⟩, .epis ⟨wc, .v 3, wv 2, wv 8, wv 9⟩].all
      (fun i => !wellFormed i) = true := by decide +kernel

/-! Witnesses: for each statement, and each of its clauses, a state and operands that meet its hypotheses together, and what its
conclusion says of them. -/

def bin' (ty : Ty) (d a b : BitVec 6) : Bin := ⟨wc, ty, .rn, false, false, .v d, wv a, .src (wv b)⟩
def un' (ty : Ty) (d a : BitVec 6) : Un := ⟨wc, ty, .rn, false, false, .v d, wv a⟩

/-- Lane 0 issues `i` alone with registers `regs`, and `p` holds of the thread afterwards, which goes on. -/
def run1 (i : Instr) (regs : Tab Reg) (p : Thread → Bool) : Bool :=
  al (at0 i (base false regs)) i && oks (exec i (at0 i (base false regs))) fun s' => goes (at0 i (base false regs)) s' wt p

/-- The same, where the thread need not go on at its next instruction. -/
def run1' (i : Instr) (regs : Tab Reg) (p : Thread → Bool) : Bool :=
  al (at0 i (base false regs)) i && oks (exec i (at0 i (base false regs))) fun s' => match thread? s' wt with
    | some th => p th
    | none => false

/-- The next state of the issue, or the state itself where there is none. -/
def after (i : Instr) (s : State) : State := match exec i s with | .next s' => s' | _ => s

theorem test_encoded_instruction_decodes :
    (wellFormed (.iadd (bin .i32)) && (match encode (.iadd (bin .i32)) with
      | some w => w < 2 ^ 96 && dec w (.iadd (bin .i32))
      | none => false)) = true := by decide +kernel

/-- R232's byte order, and an operation that R246 leaves unassigned. -/
theorem test_twelve_bytes :
    ((match decode (leBytes 12 (wd 0x0C8 0x8B 0x8B 0x8B 0x8B 0 0) ++ [7]) with
      | .ok (i, r) => i == .nop ⟨wc⟩ && r == [7]
      | .error _ => false) &&
     [0x00, 0x00, 0x00, 0x90, 0x10, 0xB5, 0x08, 0x03, 0x04, 0x22, 0x8C, 0x50] == leBytes 12 0x508C22040308B51090000000 &&
     decide (opsInClass (bits (wd 0x00D 1 2 3 0x8B 64 0) 95 92) ≤ bits (wd 0x00D 1 2 3 0x8B 64 0) 91 86)) = true := by decide +kernel

/-- A placed word is picked, fetched and executed by the next step; without a thread the clock counts on. -/
theorem test_step_runs_the_placed_word :
    ((match step (State.reset.withFetchWord 96 (wd 0x087 4 0xC5 0xC6 0x8B (2 * 32) 7)) with
      | .next s' => (match thread? s' wt with
        | some th => full th 4 5 && th.pc == BitVec.ofNat 64 (codeVa + 12)
        | none => false)
      | _ => false) &&
     decide (State.reset.agenda = []) && (dueEvent State.reset).isNone && decide (State.reset.todo = []) &&
     (match step State.reset with | .next s' => s'.now == State.reset.now + 1 | _ => false)) = true := by decide +kernel

/-- The lane that a pick has chosen issues what its 12 bytes decode to. -/
theorem test_chosen_lane_issues :
    (let s := { base false [] with mem := placeBytes (base false []).mem codeVa 12 (wd 0x0C8 0x8B 0x8B 0x8B 0x8B 0 0) }
     (match fetchWord s 0 0 (BitVec.ofNat 64 codeVa) with
      | (.word w, s') => decide (s'.threads = s.threads) && dec w (.nop ⟨wc⟩) &&
          oks (issueLanes s 0 0 (BitVec.ofNat 64 codeVa) [wt]) fun s2 => match s2.cur with
            | some x => x.ins == .nop ⟨wc⟩ && x.lanes == [wt]
            | none => false
      | _ => false)) = true := by decide +kernel

theorem test_pure_alone (i : Instr) (s : State) (h : al s i = true) :
    Alone s i (info i) wt (th0 s) (vals0 s i) false (pops0 s i) := alone_of h

/-- IADD wraps, and its last-use source is void after it. -/
theorem test_iadd :
    run1 (.iadd { bin' .n32 1 2 3 with a := ⟨true, false, .v 2⟩ }) [wf 2 0xFFFFFFFF, wf 3 5]
      (fun th => full th 1 4 && (getReg th 2).isNone && full th 3 5) = true := by decide +kernel

theorem test_isub_imul :
    (run1 (.isub (bin' .i32 1 2 3)) [wf 2 3, wf 3 5] (full · 1 0xFFFFFFFE) &&
     run1 (.imul (bin' .i32 1 2 3)) [wf 2 0x10001, wf 3 0x10001] (full · 1 0x20001)) = true := by decide +kernel

theorem test_imad_ineg_iabs :
    (run1 (.imad { tri .n32 with d := .v 1 }) [wf 4 3, wf 6 5, wf 8 0xFFFFFFFF] (full · 1 14) &&
     run1 (.ineg (un' .i32 1 2)) [wf 2 1] (full · 1 0xFFFFFFFF) &&
     run1 (.iabs (un' .i32 1 2)) [wf 2 0xFFFFFFFB] (full · 1 5)) = true := by decide +kernel

/-- IDIV and IREM by zero (R259): all ones and the dividend, with DZ. -/
theorem test_division_by_zero :
    (run1 (.idiv (bin' .n32 1 2 3)) [wf 2 7, wf 3 0] (fun th => full th 1 0xFFFFFFFF && th.tstat == fDZ) &&
     run1 (.irem (bin' .n32 1 2 3)) [wf 2 7, wf 3 0] (fun th => full th 1 7 && th.tstat == fDZ) &&
     run1 (.idiv (bin' .n32 1 2 3)) [wf 2 7, wf 3 2] (fun th => full th 1 3 && th.tstat == 0) &&
     run1 (.irem (bin' .i32 1 2 3)) [wf 2 0xFFFFFFF9, wf 3 2] (full · 1 0xFFFFFFFF)) = true := by decide +kernel

theorem test_bitwise :
    (run1 (.and (bin' .n32 1 2 3)) [wf 2 0b1100, wf 3 0b1010] (full · 1 0b1000) &&
     run1 (.or (bin' .n32 1 2 3)) [wf 2 0b1100, wf 3 0b1010] (full · 1 0b1110) &&
     run1 (.xor (bin' .n32 1 2 3)) [wf 2 0b1100, wf 3 0b1010] (full · 1 0b0110) &&
     run1 (.not (un' .n32 1 2)) [wf 2 1] (full · 1 0xFFFFFFFE)) = true := by decide +kernel

/-- Shifts by the width or more fill (R261). -/
theorem test_shifts :
    (run1 (.shl (bin' .n32 1 2 3)) [wf 2 1, wf 3 32] (full · 1 0) && run1 (.shl (bin' .n32 1 2 3)) [wf 2 1, wf 3 31] (full · 1 0x80000000) &&
     run1 (.shr (bin' .n32 1 2 3)) [wf 2 0x80000000, wf 3 31] (full · 1 1) &&
     run1 (.shr (bin' .i32 1 2 3)) [wf 2 0x80000000, wf 3 99] (full · 1 0xFFFFFFFF)) = true := by decide +kernel

theorem test_icmp :
    (run1 (.icmp { cmp .n32 with cc := 2, d := .v 1, b := wv 3 }) [wf 2 5, wf 3 0xFFFFFFFF] (fun th => full th 1 0xFFFFFFFF && predOf th 1) &&
     run1 (.icmp { cmp .i32 with cc := 2, d := .v 1, b := wv 3 }) [wf 2 5, wf 3 0xFFFFFFFF] (fun th => full th 1 0 && !predOf th 1) &&
     run1 (.icmp { cmp .i32 with b := wv 3 }) [wf 2 5, wf 3 5] (predOf · 1) &&
     run1 (.icmp { cmp .i32 with cc := 1, b := wv 3 }) [wf 2 5, wf 3 5] (fun th => !predOf th 1)) = true := by decide +kernel

theorem test_moves :
    (run1 (.mov ⟨wc, false, .v 1, .src (wv 2)⟩) [(2, .full ⟨9, true⟩)] (fun th => getReg th 1 == some (.full ⟨9, true⟩)) &&
     run1 (.movi ⟨wc, .v 2, wv 4, 77⟩) [wf 4 9] (fun th => full th 2 9 && full th 3 77) &&
     run1 (.sel ⟨wc, false, 1, true, .v 1, wv 2, wv 3⟩) [wf 2 5, wf 3 6] (full · 1 5) &&
     run1 (.plop ⟨wc, 1, 7, 0, 0, 0x10⟩) [] (predOf · 1)) = true := by decide +kernel

theorem test_movs_fclass :
    (run1 (.movs ⟨wc, wv 2, .src (wv 3)⟩) [wf 2 0xFF, wf 3 0x22] (fun th => th.tstat == 0x22) &&
     run1 (.fclass ⟨wc, .f32, .v 1, wv 2⟩) [wf 2 0x80000000] (full · 1 0x20) &&
     run1 (.fclass ⟨wc, .t16, .v 1, wv 2⟩) [wf 2 0x8000] (full · 1 0x400)) = true := by decide +kernel

/-- A pure instruction of two elements writes its pair. -/
theorem test_pair_result :
    run1 (.fadd { bin' .f32x2 2 4 6 with rnd := .rz }) [wf 4 0x3F800000, wf 5 0x40000000, wf 6 0x3F800000, wf 7 0x3F800000]
      (fun th => full th 2 0x40000000 && full th 3 0x40400000) = true := by decide +kernel

/-! Floats against values of IEEE 754 and the spec's own rules. -/

theorem test_float_arithmetic :
    (run1 (.fadd (bin' .f32 1 2 3)) [wf 2 0x3F800000, wf 3 0x33800000] (full · 1 0x3F800000) &&
     run1 (.fadd { bin' .f32 1 2 3 with rnd := .ru }) [wf 2 0x3F800000, wf 3 0x33800000] (full · 1 0x3F800001) &&
     run1 (.fsub (bin' .f32 1 2 3)) [wf 2 0x3F800000, wf 3 0x3F800000] (full · 1 0) &&
     run1 (.fmul (bin' .f16 1 2 3)) [wf 2 0x4200, wf 3 0x4000] (full · 1 0x4600) &&
     run1 (.ffma { tri .f32 with d := .v 1 }) [wf 4 0x40000000, wf 6 0x40400000, wf 8 0x3F800000] (full · 1 0x40E00000) &&
     run1 (.fdiv (bin' .f32 1 2 3)) [wf 2 0x3F800000, wf 3 0] (fun th => full th 1 0x7F800000 && th.tstat == 0x24) &&
     run1 (.fsqrt (un' .f32 1 2)) [wf 2 0x40800000] (full · 1 0x40000000) &&
     run1 (.frcp (un' .f32 1 2)) [wf 2 0x40000000] (full · 1 0x3F000000) &&
     run1 (.frsq (un' .f32 1 2)) [wf 2 0x40800000] (full · 1 0x3F000000)) = true := by decide +kernel

theorem test_float_other :
    (run1 (.fmin (bin' .f32 1 2 3)) [wf 2 0x3F800000, wf 3 0xBF800000] (full · 1 0xBF800000) &&
     run1 (.fmax (bin' .f32 1 2 3)) [wf 2 0x3F800000, wf 3 0xBF800000] (full · 1 0x3F800000) &&
     run1 (.frnd (un' .f32 1 2)) [wf 2 0x40200000] (full · 1 0x40000000) &&
     run1 (.fscale (bin' .f32 1 2 3)) [wf 2 0x3F800000, wf 3 4] (full · 1 0x41800000) &&
     run1 (.fcmp { cmp .f32 with cc := 2, b := wv 3 }) [wf 2 0xBF800000, wf 3 0x3F800000] (predOf · 1) &&
     run1 (.fexp2 (un' .f32 1 2)) [wf 2 0x40400000] (full · 1 0x41000000) && run1 (.flog2 (un' .f32 1 2)) [wf 2 0x41000000] (full · 1 0x40400000) &&
     run1 (.fsin (un' .f32 1 2)) [wf 2 0x3F000000] (full · 1 0x3F800000) && run1 (.fcos (un' .f32 1 2)) [wf 2 0] (full · 1 0x3F800000) &&
     run1 (.ftanh (un' .f32 1 2)) [wf 2 0x7F800000] (full · 1 0x3F800000) && run1 (.fsigm (un' .f32 1 2)) [wf 2 0] (full · 1 0x3F000000) &&
     run1 (.cvt ⟨wc, .f32, .rn, false, false, .i32, .v 1, wv 2⟩) [wf 2 7] (full · 1 0x40E00000) &&
     run1 (.cvtp ⟨wc, .f16, .rn, false, false, .f32x2, .v 1, wv 2, wz⟩) [wf 2 0x3F800000, wf 3 0x40000000] (full · 1 0x40003C00)) = true := by
  decide +kernel

/-- R140 to R144's tapered formats: 1 is 0x4000 in t16; NaR is 0x8000. -/
theorem test_tapered :
    (run1 (.tmin (bin' .t16 1 2 3)) [wf 2 0x4000, wf 3 0xC000] (full · 1 0xFFFFC000) &&
     run1 (.tmax (bin' .t16 1 2 3)) [wf 2 0x4000, wf 3 0xC000] (full · 1 0x4000) &&
     run1 (.tneg (un' .t16 1 2)) [wf 2 0x4000] (full · 1 0xFFFFC000) && run1 (.tabs (un' .t16 1 2)) [wf 2 0xC000] (full · 1 0x4000) &&
     run1 (.tcmp { cmp .t16 with cc := 2, b := wv 3 }) [wf 2 0xC000, wf 3 0x4000] (predOf · 1) &&
     run1 (.nzcnt { bin' .f32 1 2 3 with b := .src (wi 0) }) [wf 2 0x3F800000] (full · 1 1)) = true := by decide +kernel

theorem test_integer_other :
    (run1 (.imin (bin' .i32 1 2 3)) [wf 2 5, wf 3 0xFFFFFFFF] (full · 1 0xFFFFFFFF) && run1 (.imax (bin' .n32 1 2 3)) [wf 2 5, wf 3 0xFFFFFFFF] (full · 1 0xFFFFFFFF) &&
     run1 (.lea ⟨wc, .n32, .v 2, wv 4, wv 3, wi 3⟩) [wf 3 2, wf 4 0xFFFFFFF8, wf 5 1] (fun th => full th 2 8 && full th 3 2) &&
     run1 (.cvti ⟨wc, .i16, .rn, false, true, .i32, .v 1, wv 2⟩) [wf 2 0x12345] (full · 1 0x7FFF) &&
     run1 (.idp4 ⟨wc, .n32, .rn, false, false, .v 1, wv 2, wv 3, .src (wv 4)⟩) [wf 2 0x01020304, wf 3 0x01010101, wf 4 10] (full · 1 20)) = true := by
  decide +kernel

/-- R260, R261 by hand. -/
theorem test_bit_other :
    (run1 (.bmix ⟨wc, .n32, .v 1, wv 2, wv 3, wv 4, 0xE8⟩) [wf 2 0b1100, wf 3 0b1010, wf 4 0b0110] (full · 1 0b1110) &&
     run1 (.rot { bin' .n32 1 2 3 with f1 := true }) [wf 2 1, wf 3 33] (full · 1 0x80000000) &&
     run1 (.shf { tri .n32 with d := .v 1 }) [wf 4 0x80000000, wf 6 1, wf 8 1] (full · 1 3) &&
     run1 (.bfe (bin' .i32 1 2 3)) [wf 2 0xF0, wf 3 0x0404] (full · 1 0xFFFFFFFF) &&
     run1 (.bfi { tri .n32 with d := .v 1 }) [wf 4 5, wf 6 0xFFFF, wf 8 0x0404] (full · 1 0xFF5F) &&
     run1 (.popc (un' .n32 1 2)) [wf 2 0xF0F] (full · 1 8) && run1 (.clz (un' .n32 1 2)) [wf 2 1] (full · 1 31) &&
     run1 (.brev (un' .n32 1 2)) [wf 2 1] (full · 1 0x80000000) && run1 (.ffs (un' .n32 1 2)) [wf 2 0] (full · 1 0xFFFFFFFF)) = true := by decide +kernel

theorem test_bswz_reverses_bytes :
    run1 (.bswz ⟨wc, .n32, .v 1, wv 2, wv 3, .sel 0x443⟩) [wf 2 0x44332211, wf 3 0] (full · 1 0x11223344) = true := by decide +kernel

theorem test_pmov :
    (run1 (.pmov ⟨wc, true, 0x05, .zero, wv 2⟩) [wf 2 0xFF] (fun th => th.preds == 5) &&
     run1 (.pmov ⟨wc, false, 0, .v 1, wz⟩) [] (full · 1 0x80)) = true := by decide +kernel

/-- A false guard: IADD, LD and EXIT go on, write nothing, and release what their last-use marks name (R111). -/
def woff : Ctl := ⟨true, 7, 0, false, .none 0⟩
theorem test_guard_false :
    (let s := base false [wf 2 7, wf 3 8, wf 1 9]
     let lu : Src := ⟨true, false, .v 2⟩
     let p := fun (i : Instr) => guardOf (th0 s) (info i).ctl == false && perThread i && oks (exec i (at0 i s)) fun s' => goes s s' wt fun th =>
       full th 1 9 && full th 3 8 && th.tstat == 0 && th.preds == (th0 s).preds
     let add : Instr := .iadd ⟨woff, .n32, .rn, false, false, .v 1, lu, .src (wv 3)⟩
     p add && p (.exit ⟨woff⟩) && p (.ld ⟨woff, ⟨wv 4, 0, .global, 0⟩, .w32, false, .plain, .thread, .v 1⟩) && p (.yield ⟨woff⟩) &&
     oks (exec add (at0 add s)) fun s' => getReg (th0 s') 2 == none) = true := by decide +kernel

/-- A pair whose high half is void, an expired latch: 0 and VOIDRD, bit 0 of %tstat (R110, R119, R450). -/
theorem test_void_reads :
    (let s := base false [wf 2 7]
     let mv : Instr := .mov ⟨wc, true, .v 4, .src (wv 2)⟩
     let lt : Instr := .mov ⟨wc, false, .v 4, .src ⟨false, false, .latch 1⟩⟩
     oks (exec mv (at0 mv s)) (fun s' => goes s s' wt fun th => full th 4 7 && full th 5 0 && th.tstat == fVOIDRD) &&
     oks (exec lt (at0 lt s)) fun s' => goes s s' wt fun th => full th 4 0 && th.tstat == fVOIDRD) = true := by decide +kernel

/-- YIELD and a NOP with YLD leave their thread the same, with either guard (R271). -/
theorem test_yield_is_nop :
    (let s := base false []
     List.all [wc, woff] fun c =>
       let y : Instr := .yield ⟨c⟩
       let n : Instr := .nop ⟨{ c with yld := true }⟩
       oks (exec y (at0 y s)) fun s1 => oks (exec n (at0 n s)) fun s2 => th0 s1 == th0 s2 && (th0 s1).yld == some 164) = true := by
  decide +kernel

/-- Signed division: toward zero, the least value by −1 and by 0 (R258, R259). -/
theorem test_signed_division :
    (run1 (.idiv (bin' .i32 1 2 3)) [wf 2 0xFFFFFFF9, wf 3 2] (full · 1 0xFFFFFFFD) &&
     run1 (.idiv (bin' .i32 1 2 3)) [wf 2 0x80000000, wf 3 0xFFFFFFFF] (full · 1 0x80000000) &&
     run1 (.idiv { bin' .i32 1 2 3 with f0 := true }) [wf 2 0x80000000, wf 3 0xFFFFFFFF] (full · 1 0x7FFFFFFF) &&
     run1 (.idiv (bin' .i32 1 2 3)) [wf 2 0xFFFFFFF9, wf 3 0] (fun th => full th 1 0x80000000 && th.tstat == fDZ)) = true := by decide +kernel

/-- D in a g register, its last-use source g5 void after it and g4 untouched; a field held in latch 1; D in pigeonhole 2 (R109, R117, R123). -/
theorem test_other_destinations :
    ((let i : Instr := .iadd { bin' .n32 1 2 3 with d := .g 3, a := ⟨true, false, .g 5⟩ }
      let s := at0 i (modGroup (base false [wf 3 4]) 0 0 fun g => { g with gregs := [(4, .full ⟨9, false⟩), (5, .full ⟨2, false⟩)] })
      al s i && oks (exec i s) fun s' => goes s s' wt && gReg s' wt 3 == some (.full ⟨6, false⟩) && gReg s' wt 4 == some (.full ⟨9, false⟩) &&
        (gReg s' wt 5).isNone) &&
     (let i : Instr := .mov ⟨{ wc with hold := .of .a 1 }, false, .v 1, .src (wv 2)⟩
      let s := at0 i (base false [wf 2 4])
      al s i && oks (exec i s) fun s' => goes s s' wt fun th => latchOf th 1 == ⟨⟨4, false⟩, 2⟩ && latchOf th 0 == (latchOf (th0 s) 0).tick) &&
     (let i : Instr := .mov ⟨wc, false, .q 2, .src (wv 2)⟩
      let s0 := base false [wf 2 4]
      let s := at0 i { s0 with
        ctxs := s0.ctxs.map fun (k, c) => (k, { c with plan := { c.plan with grids := [{ grid with nprod := 1, ngrp := 2 }] } })
        groups := s0.groups ++ [(1, Group.fresh 0)] }
      al s i && phGroup s 0 0 == some 1 && oks (exec i s) fun s' => goes s s' wt && phOf s' wt 2 == [⟨4, false⟩] && phOf s' wt 3 == [])) = true := by
  decide +kernel

/-! Control, system registers, traps. -/

/-- The group has halted, lane 0 at `pc`. -/
def haltedAt (pc : W64) (s' : State) : Bool := match group? s' 0 0, thread? s' wt with
  | some g, some th => g.halted && th.st == .halted && th.pc == pc
  | _, _ => false

/-- BRA by −1 and +2 instructions; to an address that is not canonical. -/
theorem test_bra :
    (run1' (.bra ⟨wc, 0xFFFFFF⟩) [] (fun th => th.pc == 0x30000 - 12) && run1' (.bra ⟨wc, 2⟩) [] (fun th => th.pc == 0x30000 + 24) &&
     (let s := modThread (at0 (.bra ⟨wc, 1⟩) (base false [])) wt fun th => { th with pc := 0xFFFFFFFFFFFFFC }
      al s (.bra ⟨wc, 1⟩) && canonical (relTarget (th0 s).pc 1).toNat == false)) =
      true := by decide +kernel

theorem test_brx :
    run1' (.brx ⟨wc, wv 4⟩) [wf 4 0x60000, wf 5 3] (fun th => th.pc == 0x300060000) = true := by decide +kernel

theorem test_nop_join_yield_pause :
    (run1 (.nop ⟨wc⟩) [wf 1 5] (full · 1 5) && run1 (.join ⟨wc, 64⟩) [wf 1 5] (full · 1 5) &&
     run1 (.yield ⟨wc⟩) [] (fun th => th.yld == some 164) &&
     run1' (.pause ⟨wc, wv 2, 3⟩) [wf 2 7] (fun th => th.st == .paused 111 && th.pc == 0x3000C) &&
     run1' (.pause ⟨wc, wv 2, 3⟩) [wf 2 0xFFFFFFFF] (fun th => th.st == .paused (101 + 0xFFFFFF)) &&
     run1 (.pause ⟨wc, wv 2, 0⟩) [wf 2 0] (fun _ => true)) = true := by decide +kernel

/-- CALL by 16 registers with a frame of 8: the window moves and the link pair stands in v2 and v3 of the callee (R104). -/
theorem test_call :
    run1' (.call ⟨wc, .v 2, 7, 2, 5⟩) [wf 0 1] (fun th => th.wbase == 16 && th.nregs == 8 && th.pc == 0x30000 + 60 &&
      (match getReg th 18, getReg th 19 with
       | some (.full a), some (.full b) => a.v.toNat + 2 ^ 32 * b.v.toNat == 0x3000C / 4 + 2 * 2 ^ 55 + 63 * 2 ^ 58
       | _, _ => false)) = true := by decide +kernel

theorem test_callx_ret :
    (run1' (.callx ⟨wc, .v 2, 7, 1, wv 4⟩) [wf 4 0x60000, wf 5 0] (fun th => th.pc == 0x60000 && th.wbase == 8) &&
     (let s0 := base false [wf 10 ((0x60000 / 4)), wf 11 (2 ^ 23 + 9 * 2 ^ 26)]
      let s := at0 (.ret ⟨wc, wv 2⟩) (modThread s0 wt fun th => { th with wbase := 8, regs := th.regs ++ [wf 80 1] })
      al s (.ret ⟨wc, wv 2⟩) && oks (exec (.ret ⟨wc, wv 2⟩) s) fun s' => match thread? s' wt with
        | some th => th.pc == 0x60000 && th.wbase == 0 && th.nregs == 10 && th.st == .eligible && (getReg th 80).isNone
        | none => false)) = true := by decide +kernel

theorem test_exit :
    (let go := fun (i : Instr) =>
       let s := at0 i (base true [wf 0 1])
       al s i && !inHandler s 0 && oks (exec i s) fun s' => match thread? s' wt with
         | some th => th.st == .exited && th.regs == []
         | none => false
     go (.exit ⟨wc⟩) && go (.ret ⟨wc, wz⟩)) = true := by decide +kernel

theorem test_sysr_stat :
    (run1 (.sysr ⟨wc, .v 2, 0x06⟩) [] (full · 2 64) && run1 (.sysr ⟨wc, .v 2, 0x08⟩) [] (fun th => full th 2 0 && full th 3 0) &&
     run1 (.stat ⟨wc, .v 2, 0⟩) [] (fun th => (getReg th 2).isSome)) = true := by decide +kernel

/-- SYSW of DRAWS is at once, of TVEC at the end of the cycle, its bits [1:0] ignored (R454). -/
theorem test_sysw :
    (run1 (.sysw ⟨wc, wv 2, 0x08⟩) [wf 2 5, wf 3 1] (fun th => th.draws == 0x100000005) &&
     (let s := at0 (.sysw ⟨wc, wv 2, 0x10⟩) (base false [wf 2 0x60003, wf 3 0])
      al s (.sysw ⟨wc, wv 2, 0x10⟩) && oks (exec (.sysw ⟨wc, wv 2, 0x10⟩) s) fun s' => match team? s' 0, team? (applySysw s') 0 with
        | some a, some b => a.sysw == [(0x10, 0x60003)] && a.tvec == 0 && b.tvec == 0x60000 && b.sysw == []
        | _, _ => false)) = true := by decide +kernel

/-- MVT of one row and one column: bias 2 in the constant store, weight 3, x 4: 14. -/
theorem test_mvt :
    (let s0 := modCore (base false [wf 2 0x40800000]) 0 fun c => { c with cst := memStore (memStore [] 0 4 0x40000000) 4 4 0x40400000 }
     let i : Instr := .mvt ⟨wc, false, .rn, false, 1, 2, false, false, wi 0, 0, 0, 0, 0⟩
     al (at0 i s0) i && oks (exec i (at0 i s0)) fun s' => goes (at0 i s0) s' wt fun th => full th 1 0x41600000) = true := by decide +kernel

/-- A team with a handler at 0x60000. -/
def handled (all : Bool) (regs : Tab Reg) : State := modTeam (base all regs) 0 fun t => { t with tvec := 0x60000 }

/-- TRAP with a handler: depth 1, the window 64 up, the record's address in v0 and v1, its PC in the record (R457, R458). -/
theorem test_trap_enters :
    (let i : Instr := .trap ⟨wc, ⟨true, false, .v 2⟩, 0x1234⟩
     let s := at0 i (handled false [wf 2 77])
     al s i && oks (exec i s) fun s' => match thread? s' wt with
       | some th => th.pc == 0x60000 && th.tdepth && th.wbase == 64 && th.nregs == 64 && th.seq == 1 && full th 64 (trapRecVa s wt) &&
           (getReg th 2).isNone && (match vaRead s' 0 0 (trapRecVa s wt) 256 with
             | (.ok (v, _), _) => (parseRec v).pc == 0x30000 && (parseRec v).resume == 0x3000C
             | _ => false)
       | none => false) = true := by decide +kernel

/-- The hypotheses of TrapEntersTheHandler's first clause. -/
theorem test_trap_steps_hold :
    (let s := handled false []
     match thread? s wt, team? s 0, callShift s wt 64 with
     | some th, some tm, .ok s1 => !th.tdepth && tm.tvec != 0 && (match obtain s1 0 0 2 with
       | (s2, true) => (match vaWrite s2 0 0 (trapRecVa s wt) 256
             (trapRecord ⟨7, 0, some 77, false, 5⟩ { th with seq := th.seq + 1 } 1 th.pc th.next false (inHandler s 0) []) false with
         | .ok s3 => (let s' := takeTrap s ⟨wt, ⟨7, 0, some 77, false, 5⟩, 1, th.pc, th.next, [], 0x60000⟩
           match thread? s3 wt with
           | some th3 => recordWritable s wt && s'.mem == s3.mem && (match thread? s' wt with
             | some th' => th'.wbase == th3.wbase && th'.seq == th3.seq + 1
             | none => false)
           | none => false)
         | _ => false)
       | _ => false)
     | _, _, _ => false) = true := by decide +kernel

/-- Without a handler, and inside one (R457). -/
theorem test_trap_halts :
    (let go := fun (s : State) (v : W64) (c : Nat) => let s' := takeTrap s ⟨wt, ⟨7, 0, some 77, false, 5⟩, 1, 0x30000, 0x3000C, [], v⟩
       haltedAt 0x30000 s' && trapHalts s wt v == some c
     go (base false []) 0 0x1A && go (modThread (handled false []) wt fun th => { th with tdepth := true }) 0 0x1B &&
     go { handled false [] with mem := [] } 0x60000 0x1B &&
     go { modTeam (handled false []) 0 (fun t => { t with st := .saving 1 false }) with mem := [] } 0 0x1B) = true := by decide +kernel

theorem test_brk :
    (let i : Instr := .brk ⟨wc, 9⟩
     let s := at0 i (base false [])
     al s i && oks (exec i s) (haltedAt 0x30000)) = true := by decide +kernel

/-- An issue of two threads, lane 1 with a false guard: it goes on and halts with the group at its next instruction, CAUSE 0; an
issue without a true guard only goes on (R464). -/
theorem test_brk_issue :
    (let c : Ctl := ⟨false, 0, 0, false, .none 0⟩
     let go := fun (p : Bool) (q : State → Bool) =>
       let s0 := modThread (base true []) wt fun th => { th with preds := if p then 1 else 0 }
       let s : State := { s0 with cur := some ⟨0, 0, 0x30000, 0, .brk ⟨c, 9⟩, [wt, ⟨0, 0, 1⟩]⟩ }
       guardTrue s c wt == p && !guardTrue s c ⟨0, 0, 1⟩ && oks (exec (.brk ⟨c, 9⟩) s) q
     go true (fun s' => haltedAt 0x30000 s' && (match thread? s' ⟨0, 0, 1⟩ with | some th => th.pc == 0x3000C | none => false) &&
       (match vaRead s' 0 0 (trapRecVa s' wt) 8 with | (.ok (v, _), _) => v == 0x1E + 0x4000000 + 2 ^ 32 | _ => false)) &&
     go false (fun s' => match thread? s' wt with | some th => th.pc == 0x3000C && th.st == .eligible | none => false)) = true := by
  decide +kernel

/-- RTE after the TRAP above: the window is back, depth 0, and the thread goes on after the TRAP. -/
theorem test_rte_resumes :
    (let i : Instr := .trap ⟨wc, wv 2, 0x1234⟩
     let s0 := after i (at0 i (handled false [wf 2 77]))
     -- the handler writes ACTION 1, skip
     let s := at0 (.rte ⟨wc⟩) (match vaWrite s0 0 0 (trapRecVa s0 wt + 0x24) 4 1 false with | .ok s => s | _ => s0)
     al s (.rte ⟨wc⟩) && (th0 s).tdepth && !storesOut s wt && !(th0 s).tfix && decide ((th0 s).bot ≤ (th0 s).wbase - 64) &&
     (match vaRead s.lanesSee 0 0 (trapRecVa s wt) 256 with
      | (.ok (v, false), s1) => recordOk s1 0 0 (parseRec v) && (parseRec v).nrep == 0 && (parseRec v).action == 1 &&
         (match wordAt s1 0 0 (parseRec v).pc with
          | (none, s2) => thread? s2 wt == some (th0 s)
          | _ => false)
      | _ => false) &&
     oks (exec (.rte ⟨wc⟩) s) fun s' => match thread? s' wt with
       | some th => th.pc == 0x3000C && th.wbase == 0 && th.nregs == 64 && !th.tdepth && full th 2 77 && (getReg th 64).isNone
       | none => false) = true := by decide +kernel

theorem test_rte_outside :
    (let s := at0 (.rte ⟨wc⟩) (base false [])
     al s (.rte ⟨wc⟩) && !(th0 s).tdepth) = true := by decide +kernel

/-- FDIV with DZ enabled opens a shadow; a quotient that raises nothing is committed when it is due, a zero divisor traps (R456). -/
theorem test_shadow :
    (let i : Instr := .fdiv (bin' .f32 1 2 3)
     let go := fun (d : Nat) =>
       let s := at0 i (modTeam (handled false [wf 2 0x3F800000, wf 3 d]) 0 fun t => { t with ten := 2 })
       al s i && oks (exec i s) fun s' => goes s s' wt fun th => th.unres.isSome && th.regs == (th0 s).regs && th.tstat == 0
     let end_ := fun (d : Nat) =>
       let s := at0 i (modTeam (handled false [wf 2 0x3F800000, wf 3 d]) 0 fun t => { t with ten := 2 })
       let s' := { after i s with now := 200 }
       match exec (.shadowCommit wt) s' with | .next s2 => thread? s2 wt | _ => none
     go 0x40000000 && go 0 &&
     (match end_ 0x40000000 with | some th => full th 1 0x3F000000 && th.unres.isNone && th.held == [] | none => false) &&
     (match end_ 0 with | some th => th.pc == 0x60000 && th.tdepth && th.unres.isNone | none => false)) = true := by decide +kernel

/-- MOVX and MOVXW at index 3 + 2 and at the last register of the frame. -/
theorem test_movx :
    (run1 (.movx ⟨wc, false, .v 1, wv 2, wv 3, false, false⟩) [wf 2 3, wf 3 2, wf 5 9] (fun th => full th 1 9 && full th 5 9) &&
     run1 (.movxw ⟨wc, false, wv 2, wv 3, wv 4⟩) [wf 2 64, wf 3 0xFFFFFFFF, wf 4 8] (fun th => full th 63 8 && full th 4 8)) = true := by
  decide +kernel

/-! Memory: classes 0x8 and 0x9. Lane 0's v4, v5 hold an address pair. -/

def oneAcc (s : State) (p : Acc → Bool) : Bool := match accs s wt with | [a] => p a | _ => false
/-- The next state of an event. -/
def ev (s : State) (i : Instr) (p : State → Bool) : Bool := oks (exec i s) p
def thIs (s : State) (p : Thread → Bool) : Bool := match thread? s wt with | some th => p th | none => false
def emptyReg (th : Thread) (d : Nat) : Bool := match getReg th d with | some (.empty _) => true | _ => false

/-- Memory 0x8000: EF BE AD DE, its line and the one of 0x9000 in the L2; volume 1 has its brick of the origin at 0x9000 in the CLB, volume 2 is empty with background 0x77. -/
def memBase (regs : Tab Reg) : State :=
  let s := modGroup (modTeam (base false regs) 0 fun t => { t with vtbase := 0x400000, spad := memStore [] 0x40 4 0x99 })
    0 0 fun g => { g with gregs := [(4, .full ⟨1, false⟩), (5, .full ⟨2, false⟩)] }
  let s := modCore s 0 fun c => { c with clb := [⟨0, 0x400080, 0, 0x9000, 2, 0⟩] }
  { s with ag := [(agKey 0 (lineOf 0x8000), ⟨.e, ⟨0xDEADBEEF, 0, false⟩, [], false, false, 0⟩),
                  (agKey 0 (lineOf 0x9000), ⟨.e, ⟨0x1234, 0, false⟩, [], false, false, 0⟩)]
           mem := memStore (memStore (memStore (memStore s.mem 0x8000 4 0xDEADBEEF) 0x400100 4 0x46) 0x400108 4 0x77) 0x400110 4 0x500000 }

/-- Issue alone, the access in flight, D claimed; the fill that ends it 2,000 cycles later. -/
def loads (i : Instr) (s0 : State) (d x : Nat) : Bool :=
  let s := at0 i s0
  al s i && oks (exec i s) fun s' => goes s s' wt (fun th => emptyReg th d) && s'.mem == s.mem &&
    oneAcc s' fun a => a.t == wt && ev { s' with now := 2000 } (.loadFill 0 a.id) fun s2 => thIs s2 (full · d x) && (accs s2 wt).isEmpty

def ra : Tab Reg := [wf 2 0, wf 3 0, wf 4 0x8000, wf 5 0, wf 6 5, wf 7 0]
def vz : VolOpnd := ⟨wg 4, wv 2, wv 3, .imm 0, false⟩

/-- LD: a word of memory with a negative offset, a byte sign-extended, a word of the scratchpad. -/
theorem test_ld :
    (loads (.ld ⟨wc, ⟨wv 4, 0x7FFFC, .global, 0⟩, .w32, false, .plain, .thread, .v 1⟩) (memBase (Tab.set ra 4 (.full ⟨0x8004, false⟩))) 1 0xDEADBEEF &&
     loads (.ld ⟨wc, ⟨wv 4, 1, .global, 0⟩, .w8, true, .plain, .thread, .v 1⟩) (memBase ra) 1 0xFFFFFFBE &&
     loads (.ld ⟨wc, ⟨wz, 0x40, .spad, 0⟩, .w32, false, .plain, .thread, .v 1⟩) (memBase ra) 1 0x99) = true := by decide +kernel

/-- LDV of the first element of a brick whose place the CLB holds: it reads the brick's first word. -/
theorem test_ldv :
    ((match volFind (memBase ra) wt 1 (Coord.of 0 0 0) 2 with | .elem va x _ => va == 0x9000 && x == 4 | _ => false) &&
     loads (.ldv ⟨wc, vz, .w32, false, .plain, .thread, .v 1⟩) (memBase ra) 1 0x1234) = true := by decide +kernel

/-- Lane 0 awaits its walk of the origin's brick of volume 2, begun one cycle ago (R197). -/
def walked (s : State) : State := modCore s 0 fun c => { c with walks := [⟨0, 0, 0x400100, 0, 99, [(wt, 0x30000)], none⟩] }

/-- LDV of an absent element begins a walk and waits; the walk ended, it reads the background (R194, R197). -/
theorem test_ldv_absent :
    (let i : Instr := .ldv ⟨wc, { vz with vol := wg 5 }, .w32, false, .plain, .thread, .v 1⟩
     let s := at0 i (walked (memBase ra))
     al s i && (oks (exec i (at0 i (memBase ra))) fun s' => (getCore s' 0).walks.length == 1 && thIs s' fun th => th.pc == 0x30000) &&
     (match volFind s.lanesSee wt 2 (Coord.of 0 0 0) 2 with | .absent d _ _ _ _ => d.bg == 0x77 | _ => false) &&
     oks (exec i s) fun s' => goes s s' wt (full · 1 0x77)) = true := by decide +kernel

/-- ATOM on the scratchpad: the old word in D, the sum in its place; RED without D (R304, R305). -/
theorem test_atom_red :
    (let m : MemOpnd := ⟨wz, 0x40, .spad, 0⟩
     let i : Instr := .atom ⟨wc, m, .w32, .plain, .thread, .add, .uns, .auto, .rn, .v 1, wv 6⟩
     let j : Instr := .red ⟨wc, m, .w32, .plain, .thread, .max, .uns, .auto, .rn, .zero, wv 4⟩
     loads i (memBase ra) 1 0x99 &&
     (let go := fun (i : Instr) (x : Nat) => let s := at0 i (memBase ra)
        al s i && oks (exec i s) fun s' => oneAcc s' fun a => (getCore s' 0).acc == [a] && a.reply == none && !a.inL1 &&
          ev { s' with now := 2000 } (.loadFill 0 a.id) fun s2 => match team? s2 0 with
            | some tm => memLoad tm.spad 0x40 4 == x && memLoad tm.spad 0x44 4 == 0
            | none => false
      go i 0x9E && go j 0x8000)) = true := by decide +kernel

/-- ATOMV goes in flight; an atomic whose answer has come fills its register with it (R107). -/
theorem test_atomv_reply :
    (let i : Instr := .atomv ⟨wc, vz, .w32, .plain, .thread, .add, .uns, .rn, .v 1, .v 6, false⟩
     let s := at0 i (memBase ra)
     al s i && oks (exec i s) fun s' => goes s s' wt (fun th => emptyReg th 1) && oneAcc s' fun a =>
       (match a.kind, a.parts with | .atomic o, [⟨.mem pa _, 4, 0⟩] => o.bytes == 4 && pa == 0x9000 | _, _ => false) &&
       ev (modAcc { s' with now := 2000 } 0 a.id fun a => { a with reply := some (0x55, true) }) (.loadFill 0 a.id) fun s2 =>
         thIs s2 (fun th => getReg th 1 == some (.full ⟨0x55, true⟩)) && (accs s2 wt).isEmpty && s2.mem == s.mem) = true := by decide +kernel

/-- ST of a halfword to the scratchpad; of a word to memory: pending in its L1 line only. -/
theorem test_st :
    (let i : Instr := .st ⟨wc, ⟨wz, 0x42, .spad, 0⟩, .w16, .plain, .thread, wv 4⟩
     let j : Instr := .st ⟨wc, ⟨wv 4, 4, .global, 0⟩, .w32, .plain, .thread, wv 6⟩
     let s := at0 i (memBase ra)
     let u := at0 j (memBase ra)
     al s i && (accs s wt).isEmpty && !teamGang s 0 && (oks (exec i s) fun s' => goes s s' wt && (match team? s' 0 with
       | some tm => memLoad tm.spad 0x40 4 == 0x80000099 && memLoad tm.spad 0x44 4 == 0
       | none => false)) &&
     al u j && oks (exec j u) fun s' => goes u s' wt && s'.mem == u.mem && s'.ag.map (fun x => (x.1, x.2.line)) == u.ag.map (fun x => (x.1, x.2.line)) &&
       match l1Line? s' 0 (lineOf 0x8004) with
       | some l => l.line.get 4 4 == 5 && l.pend == 0xF0
       | none => false) = true := by decide +kernel

/-- STV to the brick of the CLB, then STORE_APPLY_L2 on an L2 line in E: M with the bytes, nothing else of it. -/
theorem test_stv_apply :
    (let i : Instr := .stv ⟨wc, vz, .w32, .plain, .thread, .v 6, false⟩
     let s := at0 i (memBase ra)
     al s i && oks (exec i s) fun s' => goes s s' wt && oneAcc s' fun a => a.inL1 && applyNext s' 0 a && a.parts == [⟨.mem 0x9000 false, 4, 0⟩] &&
       (let s' := { s' with ag := [(agKey 0 (lineOf 0x9000), ⟨.e, ⟨2 ^ 40, 0, false⟩, [0], false, false, 0⟩)] }
        ev s' (.storeApplyL2 0 a.id) fun s2 => match agLine? s2 0 (lineOf 0x9000) with
          | some l => l.st == .m && l.line.data == 2 ^ 40 + 5 && s2.mem == s.mem
          | none => false)) = true := by decide +kernel

theorem test_pref_flush :
    (let i : Instr := .pref ⟨wc, .global, 0, wv 4, 0⟩
     let bad := at0 i (memBase (Tab.set ra 5 (.full ⟨0xFFFFFFFF, false⟩)))
     let j : Instr := .flush ⟨wc, .global, wv 4, 0⟩
     let s := at0 j (memBase ra)
     al bad i && (oks (exec i bad) fun s' => goes bad s' wt && s'.mem == bad.mem) &&
     al s j && (match resolve s.lanesSee wt .global 0 0x8000 1 .load with | .ok (.mem pa _) _ => pa == 0x8000 | _ => false) &&
     oks (exec j s) fun s' => goes s s' wt && oneAcc s' fun a => a.kind == .flush) = true := by decide +kernel

/-- VINVAL of a brick: the CLB loses the entry, the thread waits, VINVAL_COMPLETE lets it go on (R203, R308). -/
theorem test_vinval :
    (let i : Instr := .vinval ⟨wc, false, vz⟩
     let s := at0 i (memBase ra)
     al s i && oks (exec i s) fun s' => thIs s' (fun th => th.st == .blocked .unit && th.pc == 0x30000) && (getCore s' 0).clb.isEmpty &&
       (match s'.vinvs with
        | [j] => vinvalReady s' j && j.key == some 0 && j.dva == 0x400080
        | _ => false) &&
       ev s' (.vinvalComplete 0) fun s2 => goes s s2 wt && s2.vinvs.isEmpty) = true := by decide +kernel

/-- The first store to an empty volume asks for its link and waits; the link of a level-2 entry that has been taken meanwhile finds it,
of a level-2 entry still empty links a block, and of a level-1 entry goes on below; the core keeps what it found (R198, R204). -/
def stv0 : Instr := .stv ⟨wc, { vz with vol := wg 5 }, .w32, .plain, .thread, .v 6, false⟩
theorem test_stv_links :
    (let s := at0 stv0 (walked (memBase ra))
     al s stv0 && oks (exec stv0 s) fun s' => s'.links.length == 1 && thIs s' fun th => th.st == .blocked .busy && th.pc == 0x30000) = true := by
  decide +kernel

def linking (entry : Nat) : State :=
  let s := memBase ra
  let s := modThread { s with mem := memStore (memStore s.mem 0x400118 8 0x600000) 0x500004 4 entry } wt fun th => { th with st := .blocked .busy }
  { s with links := [⟨0, wt, stv0, 0x30000, 2, 0x500004, 0x400100, BitVec.ofNat 1024 ((memLoad s.mem 0x400100 128)), 2, 0, 0, 0, [⟨5, false⟩], 0⟩] }
def linkRes (s' : State) : List (Option WalkEnd) := (getCore s' 0).walks.map (·.res)

theorem test_link :
    (let s := linking (2 ^ 31 + 3)
     let s2 := let s := linking 0; { s with mem := memStore (memStore (memStore s.mem 0x400130 8 0x700000) 0x40014C 4 1) 0x700000 4 5 }
     homesIdle s && (match volRead { s with links := [] } true 0 0 0x500004 4 1 with | (.ok (e, false), _) => e == 2 ^ 31 + 3 | _ => false) &&
     ev s (.linkRequest 0) (fun s' => s'.links.isEmpty && linkRes s' == [some (.brick 0x600300 2)] && thread? s' wt == thread? s wt) &&
     ev s2 (.linkRequest 0) (fun s' => s'.links.isEmpty && linkRes s' == [some (.brick 0x600500 2)] && (cohRead s' 0x500004 4).1 == 2 ^ 31 + 5 &&
       (cohRead s' 0x600500 4).1 == 0x77 && (cohRead s' 0x400148 4).1 == 1) &&
     ev (linking 0) (.linkRequest 0) (fun s' => (linkRes s').isEmpty && haltedAt 0x30000 s')) = true := by decide +kernel

/-- A gang's team; lane 1's store of 7 to 0x9000, pending in the L1. -/
def gangy (s : State) : State :=
  { s with ctxs := s.ctxs.map fun (k, c) => (k, { c with plan := { c.plan with grids := [{ grid with gang := true }] } }) }
def behind (s : State) : State :=
  { modCore s 0 (fun c => { c with acc := [{
      id := 0, t := ⟨0, 0, 1⟩, kind := .store 7 false, parts := [⟨.mem 0x9000 false, 4, 0⟩], dsts := [], bulk := false, ord := .plain
      scope := .thread, inL1 := true, l1seq := 0, due := 0, reply := none, mark := none }] }) with
    ids := 1, l1 := [(l1Key 0 (lineOf 0x9000), ⟨0xF, 0xF, ⟨7, 0, false⟩, 0⟩)] }

/-- ST of 128 bits, of a gang's team, behind a pending store, and as a release (R208, R218, R222, R300). -/
theorem test_st_forms :
    (let st := fun (w : Width) (ord : Ord) (b : BitVec 6) => Instr.st ⟨wc, ⟨wz, 0x40, .spad, 0⟩, w, ord, if ord == .plain then .thread else .team, wv b⟩
     let word := fun (s' : State) (o x : Nat) => match team? s' 0 with | some tm => memLoad tm.spad o 8 == x | none => false
     let go := fun (i : Instr) (s : State) (p : State → Bool) => al (at0 i s) i && oks (exec i (at0 i s)) fun s' => goes (at0 i s) s' wt && p s'
     go (st .w128 .plain 4) (memBase ra) (fun s' => word s' 0x40 0x8000 && word s' 0x48 5) &&
     teamGang (gangy (memBase ra)) 0 && (pendingStores (gangy (memBase ra)) 0).isEmpty && go (st .w32 .plain 6) (gangy (memBase ra)) (fun s' => word s' 0x40 5) &&
     (pendingStores (behind (gangy (memBase ra))) 0).length == 1 && go (st .w32 .plain 6) (behind (gangy (memBase ra))) (fun s' =>
       word s' 0x40 0x99 && ((accs s' wt).getLast?.any fun a => a.kind == .store 5 false && a.parts == [⟨.spad 0 0x40, 4, 0⟩] && a.id == 1)) &&
     relReady (memBase ra) wt .team && go (st .w32 .rel 6) (memBase ra) (fun s' => word s' 0x40 5) &&
     go (.st ⟨wc, ⟨wv 4, 0, .global, 0⟩, .w64, .rel, .package, wv 6⟩) (memBase ra) (fun s' => s'.l1 == [] && oneAcc s' fun a =>
       a.kind == .store 5 false && a.parts == [⟨.mem 0x8000 false, 8, 0⟩]) &&
     go (.st ⟨wc, ⟨wv 4, 0, .global, 0⟩, .w128, .plain, .thread, wv 4⟩) (memBase ra) (fun s' => match l1Line? s' 0 (lineOf 0x8000) with
       | some l => l.pend == 0xFFFF && l.valid == 0xFFFF && l.line.get 0 8 == 0x8000 && l.line.get 8 8 == 5
       | none => false)) = true := by decide +kernel

/-! Synchronisation, letters and queues. -/

/-- Lane 0 of the state issues `i` alone; `p` holds of the next state. -/
def iss (i : Instr) (s0 : State) (p : State → State → Bool) : Bool := al (at0 i s0) i && oks (exec i (at0 i s0)) (p (at0 i s0))
def waits (s' : State) (w : Wait → Bool) : Bool := thIs s' fun th => th.pc == 0x30000 && (match th.st with | .waiting x => w x | _ => false)

theorem test_fence :
    iss (.fence ⟨wc, .all, true, .system⟩) (base false [wf 1 5]) (fun s s' => (accs s wt).isEmpty && (getCore s 0).acks == 0 &&
      goes s s' wt (full · 1 5)) = true := by decide +kernel

/-- BAR of two: the first arrival counts at the end of its cycle and waits; a second one, of lane 1, releases both (R311). -/
theorem test_bar :
    (let i : Instr := .bar ⟨wc, 9, wi 2⟩
     let s0 := base true []
     iss i s0 (fun s s' => !inHandler s 0 && relReady s wt .team && waits s' (fun w => match w with | .bar _ 2 => true | _ => false) &&
       (match team? s' 0, team? (barTick s' 0) 0 with
        | some tm, some t2 => tm.arrivals == [0] && tm.bars == [] && Tab.get? t2.bars 9 == some ⟨1, 2⟩ && t2.arrivals == []
        | _, _ => false) && thread? (barTick s' 0) wt == thread? s' wt) &&
     -- lane 1 has arrived before
     (let s1 := modTeam (modThread s0 ⟨0, 0, 1⟩ fun th => { th with st := .waiting (.bar ⟨wc, 9, wi 2⟩ 2) }) 0 fun t =>
        { t with bars := [(9, ⟨1, 2⟩)] }
      iss i s1 fun s s' => goes s (barTick s' 0) wt && goes s (barTick s' 0) ⟨0, 0, 1⟩ && match team? (barTick s' 0) 0 with
        | some tm => (Tab.get? tm.bars 9).isNone && tm.arrivals == []
        | none => false)) = true := by decide +kernel

/-- A barrier record at PA 0xA000: COUNT 0, EXPECT 2, PHASE 7, ready, context 0 (R313). -/
def barBase (count : Nat) : State :=
  let s := base false [wf 4 0xA000, wf 5 0, wf 2 2]
  { s with mem := memStore (memStore (memStore (memStore s.mem 0xA000 4 count) 0xA004 4 2) 0xA008 4 7) 0xA00C 4 1 }

theorem test_barx :
    (iss (.barx ⟨wc, .v 1, 3, wv 4, 0⟩) (barBase 0) (fun s s' => relReady s wt .package && waits s' (fun w => match w with
       | .barx _ a _ _ => a == 0xA000
       | _ => false) && s'.mem == s.mem) &&
     (let s := { barBase 0 with msgs := [.barx 0 0xA000 0xA000 true 0] }
      recStatus 0 (readRec s 0xA000) == none && ev s (.barxArrive 0) fun s' =>
        (readRec s' 0xA000).count == 1 && (readRec s' 0xA000).phase == 7 && s'.msgs.isEmpty && s'.barxs == [⟨0, 0xA000, 7⟩]) &&
     -- a record that is not ready: its status at once
     (let s := { barBase 0 with msgs := [.barx 0 0xA000 0xA000 true 0], mem := memStore (barBase 0).mem 0xA00C 4 2 }
      (recStatus 0 (readRec s 0xA000)).isSome && !dieLost s (2 + paMdie 0xA000) && ev s (.barxArrive 0) fun s' => s'.msgs.isEmpty) &&
     (let s := { barBase 1 with msgs := [.barx 0 0xA000 0xA000 true 0] }
      ev s (.barxArrive 0) fun s' => (readRec s' 0xA000).count == 0 && (readRec s' 0xA000).phase == 8 && s'.barxs.isEmpty)) = true := by
  decide +kernel

theorem test_barinit :
    (let i : Instr := .barinit ⟨wc, wv 4, 0, wv 2⟩
     iss i (barBase 1) fun s s' => relReady s wt .package && thIs s' (fun th => th.st == .blocked .unit && th.pc == 0x30000) &&
       s'.msgs == [.barinit wt wc 0 0xA000 2 false s.ids] && ev s' (.barinitApply 0) fun s2 => goes s s2 wt &&
         (readRec s2 0xA000).count == 0 && (readRec s2 0xA000).expect == 2 && (readRec s2 0xA000).phase == 0) = true := by decide +kernel

/-- WAITV of the scratchpad word 5: equal goes on, less than waits; a reread after the word has changed goes on (R317). -/
theorem test_waitv :
    (let s0 := modTeam (base false [wf 2 5]) 0 fun t => { t with spad := memStore [] 0x40 4 5 }
     let x : BitVec 3 → Waitv := fun c => ⟨wc, c, false, .spad, .plain, .thread, .v 1, wz, 0x40, wv 2⟩
     iss (.waitv (x 0)) s0 (fun s s' => (pendingStores s 0).isEmpty && goes s s' wt (full · 1 5)) &&
     iss (.waitv (x 1)) s0 (fun s s' => waits s' (fun w => w == .waitv (x 1) 0x40 5) &&
       ev (modTeam s' 0 fun t => { t with spad := memStore [] 0x40 4 6 }) (.waitvReread wt) fun s2 => goes s s2 wt (full · 1 6))) = true := by
  decide +kernel

theorem test_seminc_semset :
    (let s0 := modCore (base false [wf 2 0xFFFFFFFF]) 0 fun c => { c with sems := [(5, 3)] }
     iss (.seminc ⟨wc, 5, wv 2⟩) s0 (fun s s' => (semWaiters s 0 5).isEmpty && goes s s' wt && semOf s' 0 5 == 2 && semOf s' 0 4 == 0) &&
     iss (.semset ⟨wc, 5, wv 2⟩) s0 (fun s s' => goes s s' wt && semOf s' 0 5 == 0xFFFFFFFF)) = true := by decide +kernel

/-- SEMINC brings the value that lane 1 waits for, or one less (R318). -/
theorem test_seminc_wakes :
    (let go := fun (b : W32) =>
       let s0 := modThread (modCore (base true [wf 2 4]) 0 fun c => { c with sems := [(5, 3)] }) ⟨0, 0, 1⟩ fun th =>
         { th with st := .waiting (.semwait ⟨wc, 5, true, wv 2⟩ b) }
       (semWaiters s0 0 5).length == 1 && iss (.seminc ⟨wc, 5, wv 2⟩) s0 fun s s' => goes s s' wt && if b == 7 then
         goes s s' ⟨0, 0, 1⟩ && semOf s' 0 5 == 0 else thread? s' ⟨0, 0, 1⟩ == thread? s ⟨0, 0, 1⟩ && semOf s' 0 5 == 7
     go 7 && go 8) = true := by decide +kernel

theorem test_semwait :
    (let s0 := modCore (base false [wf 2 3, wf 3 4]) 0 fun c => { c with sems := [(5, 3)] }
     iss (.semwait ⟨wc, 5, true, wv 2⟩) s0 (fun s s' => goes s s' wt && semOf s' 0 5 == 0) &&
     iss (.semwait ⟨wc, 5, true, wv 3⟩) s0 (fun _ s' => waits s' (fun w => w == .semwait ⟨wc, 5, true, wv 3⟩ 4) && semOf s' 0 5 == 3)) = true := by
  decide +kernel

/-- OWN: a T page goes to E, an E page back to T; a page that already is what is asked stays (R320). -/
theorem test_own :
    (let s0 := base false [wf 2 0x3000]
     let s1 := modTeam s0 0 fun t => { t with owner := 8 }
     let i : Bool → Instr := fun e => .own ⟨wc, e, 4, wv 2⟩
     iss (i true) s0 (fun s s' => goes s s' wt (predOf · 4) && pageE s' 0 3 && !pageE s' 0 4) &&
     iss (i false) s1 (fun s s' => goes s s' wt (predOf · 4) && !pageE s' 0 3) &&
     iss (i true) s1 (fun s s' => goes s s' wt (fun th => !predOf th 4) && pageE s' 0 3) &&
     iss (i false) s0 (fun s s' => goes s s' wt (fun th => !predOf th 4) && !pageE s' 0 3)) = true := by decide +kernel

theorem test_ownwait :
    (let s0 := base false [wf 2 0x3000]
     iss (.ownwait ⟨wc, wv 2⟩) s0 (fun s s' => goes s s' wt) &&
     iss (.ownwait ⟨wc, wv 2⟩) (modTeam s0 0 fun t => { t with owner := 8 }) fun _ s' => waits s' fun w => w == .ownwait ⟨wc, wv 2⟩ 0x3000) =
      true := by decide +kernel

theorem test_vread :
    (let s0 := { base false [wf 2 7, wf 3 9] with vs := [(9, ⟨0x100000005, 8, false⟩)] }
     iss (.vread ⟨wc, 9, 4, .v 4, wv 2⟩) s0 (fun s s' => goes s s' wt fun th => full th 4 5 && full th 5 1 && !predOf th 4) &&
     iss (.vread ⟨wc, 9, 4, .v 4, wv 3⟩) s0 fun _ s' => waits s' fun w => w == .vread ⟨wc, 9, 4, .v 4, wv 3⟩ 9) = true := by decide +kernel

theorem test_vwrite :
    (let s0 := { base false [wf 2 7, wf 3 1, wf 6 9, wf 7 8] with vs := [(9, ⟨5, 8, false⟩)] }
     iss (.vwrite ⟨wc, 9, 4, wv 2, wv 6⟩) s0 (fun s s' => goes s s' wt (predOf · 4) && vsOf s' 9 == ⟨0x100000007, 9, false⟩) &&
     iss (.vwrite ⟨wc, 9, 4, wv 2, wv 7⟩) s0 fun s s' => goes s s' wt (fun th => !predOf th 4) && vsOf s' 9 == ⟨5, 8, false⟩) = true := by
  decide +kernel

/-- An empty queue of context 0 with the ring in the hub. -/
def que : Queue :=
  { ack := true, dist := false, prio := 0, ctx := 0, ring := 6, spill := 0, spillbase := 0, mailn := 0, letters := [], sphead := 0, sptail := 0
    spseq := [], posted := 0, refused := 0, dropped := 0, returned := 0, taken := [], mail := [], die := 0, store := 2048, waits := []
    range := none, pkgSpans := [], dieSpans := [], cluSpans := [], badChunks := [] }

/-- v8 to v15 hold an inline message: KIND 3, LEN 4, TAG 7, payload 99. -/
def letRegs : Tab Reg := [wf 8 0x00070403, wf 9 0, wf 10 99, wf 11 0, wf 12 0, wf 13 0, wf 14 0, wf 15 0, wf 2 70]
def inlineLet : BitVec 256 := BitVec.ofNat 256 (0x00070403 + 99 * 2 ^ 64)

/-- LPOST is accepted with status 0 and counts; to a queue that is not enabled status 3 (R82, R324). -/
theorem test_lpost :
    (let i : Instr := .lpost ⟨wc, .v 1, 2, 7, wv 8, wv 2, wz⟩
     iss i { base false letRegs with queues := [(77, que)] } (fun s s' => relReady s wt .package && goes s s' wt (fun th => full th 1 0 && predOf th 2) &&
       match getQueue? s' 77 with
       | some q => q.posted == 1 && q.letters == [⟨inlineLet, 0, false⟩]
       | none => false) &&
     iss i (base false letRegs) fun s s' => goes s s' wt fun th => full th 1 3 && !predOf th 2) = true := by decide +kernel

/-- LTAKE of a queue with a letter: v16 on hold it, and it is outstanding; LDONE releases it (R325, R326). -/
theorem test_ltake_ldone :
    (let q := { que with letters := [⟨inlineLet, 0, false⟩], posted := 1 }
     iss (.ltake ⟨wc, .v 16, true, 2, 7, wv 2⟩) { base false letRegs with queues := [(77, q)] } (fun s s' =>
       goes s s' wt (fun th => full th 16 0x00070403 && full th 18 99 && full th 23 0 && predOf th 2) && match getQueue? s' 77 with
         | some q => q.letters == [] && q.taken == [⟨wt, ⟨inlineLet, 0, false⟩, true⟩]
         | none => false) &&
     iss (.ldone ⟨wc, 2, 7, wv 2⟩) { base false letRegs with queues := [(77, { que with taken := [⟨wt, ⟨inlineLet, 0, false⟩, true⟩] })] } (fun s s' =>
       relReady s wt .package && goes s s' wt (predOf · 2) && match getQueue? s' 77 with
         | some q => q.taken == []
         | none => false)) = true := by decide +kernel

/-- A mail-slot letter with a body of 4 bytes at v4; of 0 bytes, which is not valid; to a queue whose slots are all in use (R78, R324). -/
def mailRegs (n : Nat) : Tab Reg :=
  [wf 4 0x8000, wf 5 0, wf 8 4, wf 9 n, wf 10 0, wf 11 0, wf 12 0, wf 13 0, wf 14 0, wf 15 0, wf 2 70]
theorem test_lpost_mail :
    (let i : Instr := .lpost ⟨wc, .v 1, 2, 7, wv 8, wv 2, wv 4⟩
     let s := fun n => { memBase (mailRegs n) with queues := [(77, { que with mailn := 1 })] }
     let l := BitVec.ofNat 256 (4 + 4 * 2 ^ 32)
     (postLetter (s 4).lanesSee 77 l false (some 0) ([], [])).1 == 0 &&
     (match readBody 0 0 3 (s 4).lanesSee 0x8000 4 with | (.ok ps, _) => ps.all (fun y => decide (paPkg y.1 < 192)) | _ => false) &&
     iss i (s 4) (fun a s' => relReady a wt .package && goes a s' wt (fun th => full th 1 0 && predOf th 2) && match getQueue? s' 77 with
       | some q => (match q.mail with | [(0, m)] => m.used && memLoad m.bytes 0 4 == 0xDEADBEEF | _ => false) &&
           q.letters == [⟨letSet l 8 4 (77 * 2 ^ 20), 0, false⟩]
       | none => false) &&
     iss i (s 0) (fun a s' => goes a s' wt (fun th => full th 1 2 && !predOf th 2)) &&
     iss i { s 4 with queues := [(77, que)] } fun a s' => goes a s' wt (fun th => full th 1 4 && !predOf th 2)) = true := by decide +kernel

/-- LTAKE of an empty queue waits, and with .try goes on (R325). -/
theorem test_ltake_empty :
    (let s := { base false letRegs with queues := [(77, que)] }
     (takeQueue s wt 77).isSome &&
     iss (.ltake ⟨wc, .v 16, false, 2, 7, wv 2⟩) s (fun _ s' => waits s' (fun w => w == .ltake ⟨wc, .v 16, false, 2, 7, wv 2⟩ 77) &&
       match getQueue? s' 77 with | some q => q.waits == [⟨wt⟩] | none => false) &&
     iss (.ltake ⟨wc, .v 16, true, 2, 7, wv 2⟩) s fun a s' => goes a s' wt (fun th => !predOf th 2)) = true := by decide +kernel

/-- RDEP to g5 of its own group: at the cycle's end the register is empty, and RDEP_ACCEPT fills it and counts %arr; a deposit to a group
that is not there is not accepted (R125, R327). -/
theorem test_rdep :
    (iss (.rdep ⟨wc, 2, 5 * 256, wv 2, wv 3⟩) (base false [wf 2 44, wf 3 0]) (fun s s' => relReady s wt .cluster && depositOk s 0 0 5 &&
      (match depositTeam s 0 0 with | .ok (some 0) => true | _ => false) &&
      goes s s' wt (predOf · 2) && s'.msgs == [.deposit wt 0 0 5 s.claims ⟨44, false⟩ false] &&
      (let s1 := depositTick s'
       (match group? s' 0 0, group? s1 0 0 with
        | some g, some h => (Tab.get? g.gregs 5).isNone && Tab.get? h.gregs 5 == some (.empty [⟨some s.claims, none⟩]) && h.arr == 0 && s1.msgs == [.deposit wt 0 0 5 s.claims ⟨44, false⟩ true] && depositFirst s1 0
        | _, _ => false) && ev s1 (.rdepAccept 0) fun s2 =>
        s2.msgs == [] && match group? s2 0 0 with
          | some g => Tab.get? g.gregs 5 == some (.full ⟨44, false⟩) && g.arr == 1
          | none => false)) &&
     iss (.rdep ⟨wc, 2, 5 * 256 + 8, wv 2, wv 3⟩) (base false [wf 2 44, wf 3 0]) (fun s s' => !depositOk s 0 1 5 && s'.msgs == [] &&
       goes s s' wt fun th => !predOf th 2) &&
     -- a second deposit to the register waits for the first
     ev { base false [] with msgs := [.deposit wt 0 0 5 8 ⟨1, false⟩ true, .deposit wt 0 0 5 9 ⟨2, false⟩ true] } (.rdepAccept 1) fun s' =>
       s'.msgs.length == 2 && match group? s' 0 0 with | some g => g.arr == 0 && g.gregs.isEmpty | none => false) = true := by decide +kernel

theorem test_arrwait :
    (iss (.arrwait ⟨wc, wv 2⟩) (base false [wf 2 0]) (fun s s' => goes s s' wt) &&
     iss (.arrwait ⟨wc, wv 2⟩) (base false [wf 2 1]) fun _ s' => waits s' fun w => w == .arrwait ⟨wc, wv 2⟩ 1) = true := by decide +kernel

/-- Legal values of QDTBASE and QSIZE at the ends of their ranges; commands end busy with their status (R79-R81). -/
theorem test_queue_registers :
    (let s := base false []
     let on := { s with queues := [(77, que)] }
     isUp s && s.queues.isEmpty && isOwnMem s 0x40000 && ev s (.qdtbaseWrite 0x40000) (fun s' => s'.qdtbase == 0x40000 && s'.qstat == 0) &&
     ev s (.qsizeWrite 32) (fun s' => s'.qsize == 32 && s'.qstat == 0) &&
     ev s (.qsizeWrite 33) (fun s' => s' == { s with qstat := 0x80 }) && ev s (.qdtbaseWrite 0x40001) (fun s' => s' == { s with qstat := 0x80 }) &&
     ev on (.qsizeWrite 1) (fun s' => s' == { on with qstat := 0x84 }) && ev on (.qdtbaseWrite 0) (fun s' => s' == { on with qstat := 0x84 }) &&
     ev on (.queueEnable 0x1000004D) (fun s' => s' == { on with qstat := 1, qrun := some 0x83 }) &&
     ev s (.queueDisable 0x2000004D) (fun s' => s' == { s with qstat := 1, qrun := some 0x83 }) &&
     ev s (.queueDiscardDisable 0x3000004D) (fun s' => s' == { s with qstat := 1, qrun := some 0x83 }) &&
     ev s (.qctlBadOp 0x4000004D) (fun s' => s'.qstat == 0x80)) = true := by decide +kernel

/-- QUEUE_ENABLE of descriptor 77 (RINGLOG 6), then its completion; disabling empty, with letters, and discarding. -/
theorem test_queue_commands :
    (let s := { base false [] with qdtbase := 0x40000, qsize := 1 }
     let s := { s with mem := memStore s.mem (0x40000 + 64 * 77 + 4) 1 6 }
     let one := fun (q : Queue) => { s with queues := [(77, q)] }
     ev s (.queueEnable 0x1000004D) (fun s' => s'.qstat == 1 && s'.qrun == some 0 && (match getQueue? s' 77 with
       | some q => q.ring == 6 && q.store == 32 * 64 && q.ctx == 0
       | none => false) && ev s' .queueCommandComplete fun s2 => s2.qstat == 0 && s2.qrun == none) &&
     ev (one que) (.queueDisable 0x2000004D) (fun s' => s'.queues == [] && s'.qrun == some 0) &&
     ev (one { que with letters := [⟨inlineLet, 0, false⟩] }) (.queueDisable 0x2000004D) (fun s' => s'.qrun == some 0x82) &&
     ev (one { que with letters := [⟨inlineLet, 0, false⟩] }) (.queueDiscardDisable 0x3000004D) fun s' => s'.queues == []) = true := by
  decide +kernel

/-- A host line with one letter; a spilled letter comes back to the ring (R82, R83). -/
theorem test_host_post_refill :
    (let s := { base false [] with queues := [(77, que)] }
     ev s (.hostWindowPost 77 63 (leBytes 32 inlineLet.toNat ++ [0xFF] ++ List.replicate 31 0) false) (fun s' => match getQueue? s' 77 with
       | some q => q.letters == [⟨inlineLet, 0, false⟩]
       | none => false) &&
     ev s (.hostWindowPost 77 0 (leBytes 32 inlineLet.toNat ++ leBytes 32 inlineLet.toNat) false) (fun s' => match getQueue? s' 77 with
       | some q => q.letters == [⟨inlineLet, 0, false⟩, ⟨inlineLet, 1, false⟩]
       | none => false) &&
     ev s (.hostWindowPost 77 0 (leBytes 32 inlineLet.toNat) false) (fun s' => match getQueue? s' 77 with
       | some q => q.letters == [] && q.refused == 1
       | none => false) &&
     (let q := { que with spill := 3, spillbase := 0x7000, spseq := [5], sptail := 1 }
      let s := { s with queues := [(77, q)], mem := memStore s.mem 0x7000 32 inlineLet.toNat }
      hubRead s 0 (q.entryVa q.sphead) 32 == some (inlineLet.toNat, false) && ev s (.spillRefill 77) fun s' => match getQueue? s' 77 with
        | some q => q.letters == [⟨inlineLet, 5, false⟩] && q.sphead == 1 && q.spseq == []
        | none => false)) = true := by decide +kernel

/-- A range of 8 chunks: the whole of it to the one die with takers; half of the richest cluster to a cluster or die without (R87, R88). -/
theorem test_split_and_steal :
    (let rl : Letter := ⟨BitVec.ofNat 256 (0x00010001 + 8 * 2 ^ 32), 0, false⟩
     let s0 := modThread (base false []) wt fun th => { th with st := .waiting (.ltake ⟨wc, .v 8, false, 2, 77, wz⟩ 77) }
     let q := { que with dist := true, range := some rl, pkgSpans := [⟨0, 8⟩], waits := [⟨wt⟩] }
     let s := { s0 with queues := [(77, q)] }
     (weights s 77 0 (dieChildren s)).any (fun x => x.2 != 0) &&
     ev s (.distSplit 77 none) (fun s' => match getQueue? s' 77 with
       | some q => Tab.getD q.dieSpans 0 [] == [⟨0, 8⟩] && q.pkgSpans == []
       | none => false) &&
     (let q1 := { q with pkgSpans := [], dieSpans := [(0, [⟨0, 8⟩])] }
      let s := { s0 with queues := [(77, q1)] }
      (weights s 77 0 (clusterChildren 0)).any (fun x => x.2 != 0) && ev s (.distSplit 77 (some 0)) fun s' => match getQueue? s' 77 with
        | some q => Tab.getD q.dieSpans 0 [] == [] && cluChunks q 0 == 7
        | none => false) &&
     (let q1 := { q with pkgSpans := [], cluSpans := [(1, [⟨0, 8⟩])] }
      let s := { s0 with queues := [(77, q1)] }
      takers s 77 (fun k => k / 8 == 0) != 0 && ev s (.clusterSteal 0 0 77) fun s' => match getQueue? s' 77 with
        | some q => cluChunks q 1 == 4 && cluChunks q 0 ≤ 4
        | none => false) &&
     (let q1 := { q with pkgSpans := [], cluSpans := [(24, [⟨0, 8⟩])] }
      let s := { s0 with queues := [(77, q1)] }
      takers s 77 (fun k => k / 192 == 0) != 0 && ev s (.dieSteal 0 77) fun s' => match getQueue? s' 77 with
        | some q => cluChunks q 24 == 4
        | none => false)) = true := by decide +kernel

/-- LDONE of a thread whose letter a discard took with its queue (R80). -/
theorem test_ldone_discarded :
    iss (.ldone ⟨wc, 2, 7, wv 2⟩) { base false letRegs with discarded := [(77, wt)] } (fun s s' => relReady s wt .package &&
      (getQueue? s 77).isNone && goes s s' wt (fun th => !predOf th 2)) = true := by decide +kernel

/-! The group and the matrix engine. -/

/-- The hypotheses of `Together`, decided. -/
def togetherB (s : State) (i : Instr) (o : OpInfo) (tm gid : Nat) : Bool :=
  infoNow s.lanesSee tm gid i == some o && (match s.cur with | some x => x.ins == i && x.lanes == lanesOf tm gid | none => false) &&
  decide (prepare s.lanesSee o (lanesOf tm gid) = (s.lanesSee, [], [])) && collReady s.lanesSee o (lanesOf tm gid) &&
  (lanesOf tm gid).all fun t => match thread? s t with
    | some th => operandExc s.lanesSee t th o == none
    | none => true

theorem together_of {s : State} {i : Instr} {o : OpInfo} {tm gid : Nat} (h : togetherB s i o tm gid = true) : Together s i o tm gid := by
  simp only [togetherB, Bool.and_eq_true, beq_iff_eq, decide_eq_true_eq, List.all_eq_true] at h
  obtain ⟨⟨⟨⟨h1, h2⟩, h3⟩, h4⟩, h5⟩ := h
  refine ⟨h1, ?_, h3, h4, fun t ht th hth => ?_⟩
  · cases hc : s.cur with
    | none => simp [hc] at h2
    | some x =>
      obtain ⟨core, sub, pc, word, ins, lanes⟩ := x
      simp only [hc, Bool.and_eq_true, beq_iff_eq] at h2
      obtain ⟨rfl, rfl⟩ := h2
      exact ⟨core, sub, pc, word, rfl⟩
  · have := h5 t ht
    simp only [hth, beq_iff_eq] at this
    exact this

/-- The 32 lanes, lane `l` with `v2 = l`, `p1` true in lanes 0 to 15; `gr` are the group's g and k registers. -/
def grp (regs : Nat → Tab Reg) (gr : Tab Reg) (ks : Tab W32) : State :=
  let s := base true []
  { s with threads := s.threads.map (fun (l, th) => (l, { th with regs := regs l, preds := if l < 16 then 2 else 0 }))
           groups := [(0, { Group.fresh 0 with gregs := gr, ks := ks })] }
def l2 (l : Nat) : Tab Reg := [wf 2 l]

/-- The group issues `i` together; `p` holds of every lane afterwards. -/
def collOn (f : Nat → Bool) (i : Instr) (s0 : State) (p : Nat → Thread → Bool) : Bool :=
  let s := atG i s0
  togetherB s i ((infoNow s.lanesSee 0 0 i).getD ⟨wc, [], [], .own⟩) 0 0 && oks (exec i s) fun s' =>
    ((List.range 32).filter f).all fun l => goes s s' ⟨0, 0, l⟩ (p l)
def coll (i : Instr) (s0 : State) (p : Nat → Thread → Bool) : Bool := collOn (fun _ => true) i s0 p

/-- Unguarded, and guarded by p1: G is then lanes 0 to 15. -/
def g1 : Ctl := { wc with gp := 1 }

theorem test_vote :
    (coll (.vote ⟨wc, .v 1, 3, 1, false, 1⟩) (grp l2 [] []) (fun _ th => full th 1 0xFFFF && predOf th 3) &&
     coll (.vote ⟨g1, .v 1, 3, 1, false, 0⟩) (grp l2 [] []) (fun l th => if l < 16 then full th 1 0xFFFF && predOf th 3 else (getReg th 1).isNone)) =
      true := by decide +kernel

theorem test_match_elect :
    (coll (.matchg ⟨wc, false, .v 1, 3, wv 2⟩) (grp (fun l => [wf 2 (l % 2)]) [] []) (fun l th => full th 1 (if l % 2 == 0 then 0x55555555 else 0xAAAAAAAA)
       && !predOf th 3) &&
     coll (.elect ⟨wc, .v 1, 3⟩) (grp l2 [] []) (fun l th => full th 1 0 && predOf th 3 == (l == 0))) = true := by decide +kernel

/-- SHFL up by 1 in segments of 8, and xor 1 (R336). -/
theorem test_shfl :
    (coll (.shfl ⟨wc, false, 1, 3, 4, .v 1, wv 2, wi 1⟩) (grp l2 [] []) (fun l th => full th 1 (if l % 8 == 0 then l else l - 1) && predOf th 4 == (l % 8 != 0)) &&
     coll (.shfl ⟨wc, false, 3, 5, 4, .v 1, wv 2, wi 1⟩) (grp l2 [] []) (fun l th => full th 1 (l ^^^ 1) && predOf th 4)) = true := by decide +kernel

/-- BFLY of stage 0 with lanes 0 and 1 in G: registers of odd and even lanes change places (R337). -/
theorem test_bfly :
    (let s0 := grp (fun l => (List.range 32).map fun j => wf j (100 * l + j)) [] []
     let s0 := { s0 with threads := s0.threads.map fun (l, th) => (l, if l < 2 then { th with preds := 2 } else { th with preds := 0, regs := [] }) }
     collOn (fun l => l < 2) (.bfly ⟨g1, 0, .v 32, wv 0⟩) s0 fun l th => full th 32 (if l == 0 then 0 else 1) && full th 33 (if l == 0 then 100 else 101)) = true := by
  decide +kernel

/-- The sum over G, and the exclusive scan (R338, R339). -/
theorem test_redg_scang :
    (coll (.redg ⟨wc, .n32, .rn, false, false, .add, false, .v 1, wv 2⟩) (grp l2 [] []) (fun _ th => full th 1 496) &&
     coll (.scang ⟨wc, .n32, .rn, false, false, .add, true, .v 1, wv 2⟩) (grp l2 [] []) (fun l th => full th 1 (l * (l - 1) / 2))) = true := by
  decide +kernel

theorem test_kop :
    ((let i : Instr := .kop ⟨wc, .andn, 1, 2, 3, .zero, wz⟩
      let s := atG i (grp l2 [] [(2, 0xFF), (3, 0x0F)])
      togetherB s i ((infoNow s.lanesSee 0 0 i).getD ⟨wc, [], [], .own⟩) 0 0 && oks (exec i s) fun s' => kReg s' 0 0 1 == 0xF0 && kReg s' 0 0 2 == 0xFF) &&
     coll (.kop ⟨wc, .st, 0, 2, 0, .v 5, wz⟩) (grp l2 [] [(2, 0xFF)]) (fun _ th => full th 5 0xFF)) = true := by decide +kernel

/-- NZMAP of an f32 fragment of which lane 3 alone holds a nonzero element: k-step of R341. -/
theorem test_nzmap :
    (let i : Instr := .nzmap ⟨wc, .f32, 1, 5, wv 8⟩
     let s := atG i (grp (fun l => [wf 8 0, wf 9 (if l == 3 then 0x3F800000 else 0), wf 10 0, wf 11 0]) [] [(1, 0xFFFFFFFF)])
     togetherB s i ((infoNow s.lanesSee 0 0 i).getD ⟨wc, [], [], .own⟩) 0 0 && oks (exec i s) fun s' => kReg s' 0 0 1 == 0xFF2FFFFF) = true := by
  decide +kernel

/-- CVTB by the scale byte 127 (2^0), of lane values 1.0: byte 3 of v1 becomes 0x40 in t8 (R344). -/
theorem test_cvtb :
    coll (.cvtb ⟨wc, .rn, false, 3, 0, 0, .v 1, wv 2, wv 3⟩) (grp (fun _ => [wf 2 0x3F800000, wf 3 0x00112233]) [(0, .full ⟨0x7F7F7F7F, false⟩)] [])
      (fun _ th => match getReg th 1 with | some (.full v) => v.v.toNat % 2 ^ 24 == 0x112233 | _ => false) = true := by decide +kernel

/-- A fragment register of an f64 shape from the scratchpad and back (R348, R349). -/
theorem test_ldm :
    (let i : Instr := .ldm ⟨wc, .spad, 3, 0, 0, .a, wv 4, wv 2, wv 8⟩
     let s := atG i (grp (fun _ => [wf 2 64, wf 4 0, wf 5 0]) [] [])
     togetherB s i ((infoNow s.lanesSee 0 0 i).getD ⟨wc, [], [], .own⟩) 0 0 && oks (exec i s) fun s' =>
       (List.range 32).all fun l => goes s s' ⟨0, 0, l⟩ fun th => emptyReg th 8 && emptyReg th 9) = true := by decide +kernel

/-- The lanes of a fragment load whose elements lie in the scratchpad: none faults, no request is out (R349). -/
theorem test_fragment_lanes :
    (let x : Frag := ⟨wc, .spad, 3, 0, 0, .a, wv 4, wv 2, wv 8⟩
     let s := atG (.ldm x) (grp (fun _ => [wf 2 64, wf 4 0, wf 5 0]) [] [])
     let L := lanesRead s ((infoNow s.lanesSee 0 0 (.ldm x)).getD ⟨wc, [], [], .own⟩) 0 0
     let r := fragRes x .load s.lanesSee L (ldmLane x)
     fragBase x L == (0, 64, false) && requests s 0 == 0 && L.length == 32 && (L.all fun c => c.n.t.team == 0 &&
       (match (fragParts s.lanesSee c.n.t x .load 0 64 (fragElems 3 .a c.n.t.lane) []).1 with | .ok _ => true | _ => false)) &&
     r.stop.isNone && !r.busy && r.excs.isEmpty && tenOf s 0 == 0) = true := by decide +kernel

theorem test_stm :
    (let i : Instr := .stm ⟨wc, .spad, 3, 0, 0, .a, wv 4, wv 2, wv 8⟩
     let s := atG i (grp (fun l => [wf 2 64, wf 4 0, wf 5 0, wf 8 l, wf 9 0]) [] [])
     togetherB s i ((infoNow s.lanesSee 0 0 i).getD ⟨wc, [], [], .own⟩) 0 0 && oks (exec i s) fun s' => match team? s' 0 with
       -- lane 5 holds (m, k) = (1, 1)
       | some tm => memLoad tm.spad (64 + 8) 8 == 5
       | none => false) = true := by decide +kernel

/-- A tile predicate that is off leaves all but the pc (R159). -/
theorem test_mma_off :
    coll (.mma ⟨wc, .f64, .rn, false, false, 0, some (3, 4), none, .v 8, wv 16, wv 18, wv 12⟩)
      (grp (fun _ => (List.range 4).flatMap fun j => [wf (8 + j) j, wf (12 + j) j, wf (16 + j) j]) [] [(3, 0)]) (fun _ th => full th 9 1) = true := by
  decide +kernel

/-- MMAZ of f32, A all 1.0 and B all 2.0, through the engine: every sum over 8 k values is 16.0 (R342, R346). -/
def mz : Instr := .mmaz ⟨wc, .f32, .rn, false, false, 0, none, none, .v 8, wv 16, wv 20, wz⟩
def mz0 : State := grp (fun _ => (List.range 4).flatMap fun j => [wf (16 + j) 0x3F800000, wf (20 + j) 0x40000000]) [] []

theorem test_mmaz_enters :
    (let s := atG mz mz0
     togetherB s mz ((infoNow s.lanesSee 0 0 mz).getD ⟨wc, [], [], .own⟩) 0 0 && oks (exec mz s) fun s' =>
       (getCore s' 0).meng.queue.length == 1 && ((List.range 32).all fun l => match thread? s' ⟨0, 0, l⟩ with
         | some th => th.st == .blocked .unit && th.pc == 0x30000
         | none => false) && ev s' (.matrixStart 0) fun s2 => (getCore s2 0).meng.queue == [] && match (getCore s2 0).meng.running with
           | some j => j.started && j.step == 0 && j.due == 116 && (List.range 32).all fun l => goes s s2 ⟨0, 0, l⟩ fun th => emptyReg th 8
           | none => false) = true := by decide +kernel

theorem test_mmaz_completes :
    (let s2 := after (.matrixStart 0) (after mz (atG mz mz0))
     let s3 := { s2 with now := 2000 }
     let s4 := after (.matrixKstepArbitrate 0) s3
     let s7 := (List.range 3).foldl (fun s _ => after (.matrixKstepArbitrate 0) s) s4
     (match (getCore s4 0).meng.running with | some j => j.step == 1 | none => false) &&
     (getCore s7 0).meng.running.isNone && (getCore s7 0).meng.pipe.length == 1 &&
     ev s7 (.matrixComplete 0) fun s' => (getCore s' 0).meng.pipe.isEmpty && thIs s' (full · 8 0x41800000)) = true := by decide +kernel

/-! Engines, physics units and Relay. -/

def theEng (s : State) (p : Eng → Bool) : Bool := match team? s 0 with
  | some tm => (match tm.engs with | [e] => p e | _ => false)
  | none => false
def eng0 (s : State) : Eng := match team? s 0 with
  | some tm => tm.engs.headD (Eng.fresh wt (th0 s) (.nop ⟨wc⟩) 0 0 0 0 0)
  | none => Eng.fresh wt (th0 s) (.nop ⟨wc⟩) 0 0 0 0 0
def sp (s : State) (o n : Nat) : Nat := (spadLoad s 0 o n).1

/-- Lane 0 issues a command: nothing holds it back, it goes on, the command stands alone with its pages owned by E (R351). -/
def cmd (i : Instr) (s0 : State) (cls sem : Nat) (p : State → Eng → Bool) : Bool :=
  iss i s0 fun s s' => relReady s wt .package && unitRoom s 0 cls && goes s s' wt && s'.mem == s.mem &&
    theEng s' fun e => e.cls == cls && e.sem == sem && e.done == 0 && e.ins == i && e.pages.all (fun x => pageE s' x.1 x.2) && p s' e

/-- Scratchpad 0x1000: words 9, 7, 8 and so on for the commands below; memory as in `memBase`. -/
def spadBase (words : List (Nat × Nat)) (regs : Tab Reg) : State :=
  modTeam (memBase regs) 0 fun t => { t with spad := words.foldl (fun m (a, x) => memStore m a 4 x) [] }

/-- CPY of 8 bytes in the scratchpad: its one unit and its end: the pages T again, the semaphore counted (R352, R353). -/
theorem test_cpy :
    (let i : Instr := .cpy ⟨wc, .spad, .spad, 0, wv 4, wv 6, wv 2, 9⟩
     cmd i (spadBase [(0x1000, 9), (0x1004, 7)] [wf 4 0x2000, wf 5 0, wf 6 0x1000, wf 7 0, wf 2 8]) 1 9 fun s' e =>
       e.pages == [(0, 1), (0, 2)] && ev s' (.engineComplete 0 e.id) fun s2 => sp s2 0x2000 4 == 9 && sp s2 0x2004 4 == 7 &&
         (match team? s2 0 with | some t => t.engs == [] | none => false) && semOf s2 0 9 == 1 && !pageE s2 0 1 && !pageE s2 0 2) = true := by
  decide +kernel

/-- A command whose last unit is performed completes at once; a CPY of 8 KiB has a first unit of 4 KiB (R353). -/
theorem test_cpy_units :
    (let i : Instr := .cpy ⟨wc, .spad, .spad, 0, wv 4, wv 6, wv 2, 9⟩
     let s := after i (at0 i (spadBase [] [wf 4 0x4000, wf 5 0, wf 6 0x1000, wf 7 0, wf 2 0x2000]))
     let e := eng0 s
     engRuns s 0 e && engTotal s 0 e == some 8192 && !engPending s 0 e.id && !engStoring s 0 e.id &&
     ev s (.engineComplete 0 e.id) (theEng · fun e => e.done == 4096) &&
     (let s1 := modEng s 0 e.id fun e => { e with done := 8192 }
      ev s1 (.engineComplete 0 e.id) fun s2 => !pageE s2 0 1 && semOf s2 0 9 == 1)) = true := by decide +kernel

theorem test_cpyv :
    (let i : Instr := .cpyv ⟨wc, vz, .v 6, false, 9⟩
     cmd i (spadBase [] [wf 2 0, wf 3 0, wf 6 0x1000]) 1 9 fun s' e => e.brick == some 0x9000 && e.esz == 2 && e.pages == [(0, 1)] &&
       (match (engTotal s' 0 e) with | some n => n == 256 | none => false)) = true := by decide +kernel

/-- GATH of two elements: list 1, 0 at 0x1000; data from 0x8000 on (R355). -/
theorem test_gath :
    (let i : Instr := .gath ⟨wc, 0, false, 2, 0, 1, wv 4, wv 2, wv 3, 9⟩
     cmd i (spadBase [(0x1000, 0), (0x1004, 0)] [wf 4 0x8000, wf 5 0, wf 2 0x1000, wf 3 0x2000]) 2 9 fun s' e =>
       ev s' (.parcelMarker 0 e.id) fun s2 => theEng s2 (fun e => e.done == 2) && sp s2 0x2004 4 == 0xDEADBEEF) = true := by decide +kernel

theorem test_scat :
    (let i : Instr := .scat ⟨wc, 0, false, 2, 1, 0, wv 4, wv 2, wv 3, 9⟩
     cmd i (spadBase [(0x1000, 0), (0x2000, 1)] [wf 4 0x8000, wf 5 0, wf 2 0x1000, wf 3 0x2000]) 2 9 fun s' e =>
       ev s' (.parcelMarker 0 e.id) fun s2 => theEng s2 (fun e => e.done == 1) && (cohRead s2 0x8000 4).1 == 0xDEADBEF0) = true := by decide +kernel

/-- SORT of 3 keys: the events of its first pass, then after four passes the keys ascend (R368, R369, R489). -/
theorem test_sort :
    (let i : Instr := .sort ⟨wc, 1, false, false, false, false, 3, 0, wv 2, wz, wv 4, 9⟩
     cmd i (spadBase [(0x1000, 9), (0x1004, 0xFFFFFFFE), (0x1008, 258)] [wf 2 0x1000, wf 4 3]) 3 9 fun s' e =>
       let go := fun (n : Nat) => (List.range n).foldl (fun s _ => after (.sortPass 0 e.id) s) s'
       unitHead s' 0 e && e.opa == 0x1000 &&
       -- the pass is read, its keys written back, then its end
       (let s1 := go 1; theEng s1 (fun e => e.done == 0 && !e.wback && e.work.isSome && restartable e) && sp s1 0x1000 4 == 9) &&
       (let s2 := go 2; theEng s2 (fun e => e.done == 0 && e.wback && !restartable e) && sp s2 0x1000 4 == 258 && sp s2 0x1004 4 == 9 &&
         sp s2 0x1008 4 == 0xFFFFFFFE) &&
       (let s3 := go 3; theEng s3 (fun e => e.done == 1 && !e.wback && e.work.isNone)) &&
       (let s5 := go 12
        sp s5 0x1000 4 == 0xFFFFFFFE && sp s5 0x1004 4 == 9 && sp s5 0x1008 4 == 258)) = true := by decide +kernel

/-- TRAV of one box query of a tree whose root is empty: one result block with COUNT 0 (R371-R374). -/
theorem test_trav :
    (let i : Instr := .trav ⟨wc, 0, 1, 0, wv 4, wv 2, wv 3, 9⟩
     let s0 := spadBase [(0x1000, 0), (0x2000, 77)] [wf 4 0xC000, wf 5 0, wf 2 0x1000, wf 3 0x2000]
     let s0 := { s0 with mem := memStore s0.mem 0xC060 16 (2 ^ 128 - 1) }
     cmd i s0 4 9 fun s' e => unitHead s' 0 e && ev s' (.travBatch 0 e.id) fun s2 => theEng s2 (fun e => e.done == 1) && sp s2 0x2000 4 == 0) = true := by
  decide +kernel

/-- A retry of a CPY counts; the fourth stops it with reason 0x20; a stop reaches its group (R488, R490). -/
theorem test_engine_errors :
    (let i : Instr := .cpy ⟨wc, .spad, .spad, 0, wv 4, wv 6, wv 2, 9⟩
     let s := after i (at0 i (spadBase [] [wf 4 0x4000, wf 5 0, wf 6 0x1000, wf 7 0, wf 2 0x2000]))
     let e := eng0 s
     ev s (.engineRetry 0 e.id) (fun s2 => theEng s2 fun e => e.retries == 1 && e.failed.isNone) &&
     ev (modEng s 0 e.id fun e => { e with retries := 3 }) (.engineRetry 0 e.id) (fun s2 => theEng s2 fun e => e.failed == some ⟨0x20, 0, false⟩) &&
     ev (modEng s 0 e.id fun e => { e with failed := some ⟨0x20, 0, false⟩ }) (.engineStopFault 0 e.id) fun s2 => match group? s2 0 0 with
       | some g => g.halted
       | none => false) = true := by decide +kernel

theorem test_idem :
    (iss (.idem ⟨wc⟩) (base false []) (fun s s' => goes s s' wt (·.idem)) &&
     iss (.idemend ⟨wc⟩) (modThread (base false []) wt fun th => { th with idem := true }) fun s s' => goes s s' wt fun th => !th.idem) = true := by
  decide +kernel

/-- SOLVE by .chol of order 1: 4 x = 8; x in the block and status 0 in D (R376, R377). -/
theorem test_solve :
    (let i : Instr := .solve ⟨wc, false, false, .rn, 0, 0, 0, .v 1, wv 2, wz⟩
     iss i (spadBase [(0x1000, 0x40800000), (0x1400, 0x41000000)] [wf 2 0x1000]) fun s s' => goes s s' wt (emptyReg · 1) && pageE s' 0 1 &&
       (match (getCore s' 0).solves with | [j] => j.t == wt && j.blk == 0x1000 | _ => false) && ev s' (.solveComplete 0) fun s2 =>
         !pageE s2 0 1 && sp s2 0x1440 4 == 0x40000000 && (getCore s2 0).solves == [] && thIs s2 (full · 1 0)) = true := by decide +kernel

theorem test_solveb :
    (let i : Instr := .solveb ⟨wc, false, .rn, .v 1, wv 2, wv 3⟩
     iss i (spadBase [] [wf 2 0x1000, wf 3 0x2000]) fun s s' => goes s s' wt (emptyReg · 1) && pageE s' 0 1 && pageE s' 0 2 &&
       (match (getCore s' 0).solves with | [j] => j.log == 0x2000 | _ => false) && ev s' (.solveComplete 0) fun s2 => !pageE s2 0 1) = true := by
  decide +kernel

/-- COMPACT of one thread: value and {key, index} (R381, R382). -/
theorem test_compact :
    (let i : Instr := .compact ⟨wc, .v 2, wv 4, wv 5⟩
     iss i (base false [wf 4 3, wf 5 99]) fun s s' => goes s s' wt (fun th => emptyReg th 2 && emptyReg th 3) && (match (getCore s' 0).compacts with
       | [j] => j.due ≥ 126
       | _ => false) && ev { s' with now := 2000 } (.compactFill 0) fun s2 => thIs s2 (fun th => full th 2 99 && full th 3 (3 * 2 ^ 16)) &&
         (getCore s2 0).compacts == []) = true := by decide +kernel

/-- Key 0 and counter 0: the words that R383's rounds give by hand calculation. -/
theorem test_rnd :
    run1 (.rnd ⟨wc, 2, false, .rn, .v 4, wz, wv 8, wi 0⟩) [wf 8 0, wf 9 0, wf 10 0, wf 11 0] (fun th =>
      full th 4 0xA9F187DA && full th 5 0xFB30E3B9 && full th 6 0xE8F42EEE && full th 7 0x60BFE494) = true := by decide +kernel

theorem test_rndf_epis :
    (run1 (.rndf ⟨wc, 0, false, .rn, .v 4, wz, wv 8, wi 0⟩) [wf 8 0, wf 9 0, wf 10 0, wf 11 0] (fun th => (getReg th 4).isSome) &&
     run1 (.rndf ⟨wc, 1, true, .rn, .v 4, wz, wv 8, wi 0⟩) [wf 8 0, wf 9 0, wf 10 0, wf 11 0] (fun th => (getReg th 5).isSome) &&
     run1 (.epis ⟨wc, .v 4, wz, wv 8, wv 9⟩) [wf 8 0, wf 9 0] (fun th => (getReg th 4).isSome && (getReg th 5).isSome)) = true := by decide +kernel

/-- A communicator record at 0xB000 of one rank on this package, COMMID 5 (R360); its STATE and NRANK as given. -/
def commBase (state nrank : Nat) : State :=
  let s := base false [wf 4 0x8000, wf 5 0, wf 2 1, wf 6 0xB000, wf 7 0]
  { s with mem := memStore (memStore (memStore (memStore s.mem 0xB000 4 5) 0xB004 1 nrank) 0xB008 4 state) 0x8000 4 0x3F800000 }
def ar : Instr := .ared ⟨wc, .f32, .rn, 0, 0, wv 4, wv 2, wv 6, 9⟩

theorem test_relay_issues :
    ((List.all [ar, .rscat ⟨wc, .f32, .rn, 0, 0, wv 4, wv 2, wv 6, 9⟩, .agath ⟨wc, .f32, .rn, 0, 0, wv 4, wv 2, wv 6, 9⟩,
        .bcast ⟨wc, .f32, .rn, 0, 0, wv 4, wv 2, wv 6, 9⟩, .cbar ⟨wc, .i8, .rn, 0, 0, wz, wz, wv 6, 9⟩])
       fun i => cmd i (commBase 0 1) 5 9 fun _ e => e.pages == []) = true := by decide +kernel

/-- A command takes up its record: bad, degraded, good; the steps and the end of a collective of one rank (R360-R365). -/
theorem test_relay_forms :
    (let go := fun (s0 : State) => after ar (at0 ar s0)
     let bad := go (commBase 0 0)
     let deg := go (commBase 2 1)
     commFirst bad 0 (eng0 bad) && engRuns bad 0 (eng0 bad) && ev bad (.commForm 0 (eng0 bad).id none) (fun s2 => theEng s2 (·.cstat == 5)) &&
     ev deg (.commForm 0 (eng0 deg).id none) (fun s2 => theEng s2 (·.cstat == 2))) = true := by decide +kernel

theorem test_relay_completes :
    (let s := after ar (at0 ar (commBase 0 1))
     let k := (eng0 s).id
     let s1 := after (.commForm 0 k none) s
     s1.slots.length == 1 && (chooseStep s1 (readySteps s1)).isSome &&
     (let s2 := after .relayChunkStep s1
      s2.mem == s1.mem && (collStatus s2 (eng0 s2)).isSome && ev s2 (.relayCollectiveComplete 0 k) fun s3 =>
        (match team? s3 0 with | some t => t.engs == [] | none => false) && semOf s3 0 9 == 1 && (cohRead s3 0xB054 4).1 == 1)) = true := by
  decide +kernel

/-- A command not formed takes a slot, or ends with 4 where 64 other communicators hold them all; one of a bad record completes (R361). -/
theorem test_relay_slots :
    (let s := after ar (at0 ar (commBase 0 1))
     let k := (eng0 s).id
     let e := eng0 s
     let s1 := after (.commForm 0 k none) s
     (match readComm s 0 0 e.opc.toNat .write with | (.ok (r, false), s2) => commValid r && commField r 8 4 == 0 && freeComm s2 == some 0 | _ => false) &&
     e.slot.isNone && e.cstat == 255 && commFirst s 0 e && engRuns s 0 e &&
     (match s1.slots with
      | [(0, x)] => x.commid == 5 && x.nrank == 1 &&
         ev { s with slots := (List.range 64).map fun i => (i, { x with commid := BitVec.ofNat 32 (100 + i) }) } (.commForm 0 k none)
           (fun s2 => theEng s2 (·.cstat == 4))
      | _ => false) &&
     (let b := after ar (at0 ar (commBase 0 0))
      let b := after (.commForm 0 (eng0 b).id none) b
      (match collStatus b (eng0 b) with | some (5, _, _) => true | _ => false) && ev b (.relayCollectiveComplete 0 (eng0 b).id) fun s3 =>
        (match team? s3 0 with | some t => t.engs == [] | none => false) && (cohRead s3 0xB050 4).1 == 5)) = true := by decide +kernel

theorem test_relay_leave :
    (let s := after (.commForm 0 (eng0 (after ar (at0 ar (commBase 0 2)))).id none) (after ar (at0 ar (commBase 0 2)))
     match s.slots with
     | [(k, x)] => x.nrank == 2 && x.rank == 0 && ev s (.relayLeave k 1) fun s' => match Tab.get? s'.slots k with
         | some y => y.degraded && y.lost == [1]
         | none => false
     | _ => false) = true := by decide +kernel

/-- The record of the slot that `commBase 0 1` forms. -/
def slot0 : Option Slot :=
  let s := after ar (at0 ar (commBase 0 1))
  ((after (.commForm 0 (eng0 s).id none) s).slots.head?).map (·.2)

/-- Records that are ready, with and without their slot; poisoned; of a rank that another record holds (R361, R410). -/
theorem test_relay_records :
    (let rl := fun (st : Nat) => after ar (at0 ar (commBase st 1))
     let is5 := fun (s : State) => ev s (.commForm 0 (eng0 s).id none) fun s2 => theEng s2 (·.cstat == 5)
     is5 (rl 1) && slotFor (rl 1) 5 0 0xB000 == none && is5 { rl 0 with mpsn := [lineOf 0xB000 * 4] } && (match slot0 with
       | some x => ev { rl 1 with slots := [(3, x)] } (.commForm 0 (eng0 (rl 1)).id none) (fun s2 => theEng s2 (·.slot == some 3)) &&
           is5 { rl 1 with slots := [(3, { x with rank := 1 })] } && slotTaken { rl 0 with slots := [(3, { x with va := 0xC000 })] } 5 0 0 0xB000 &&
           is5 { rl 0 with slots := [(3, { x with va := 0xC000 })] }
       | none => false)) = true := by decide +kernel

/-- A collective begins when its rank has issued it; its one step moves chunk 0 to its next place (R361, R362). -/
theorem test_relay_step :
    (let s := after ar (at0 ar (commBase 0 1))
     let s1 := after (.commForm 0 (eng0 s).id none) s
     match s1.slots with
     | [(j, x)] => x.epoch != 0 && (collBegin { s1 with colls := [] } x).colls == s1.colls &&
         (collBegin { modTeam s1 0 (fun t => { t with engs := [] }) with colls := [] } x).colls == [] &&
         (match chooseStep s1 (readySteps s1) with
          | some (st, j', _) => j' == j && (match findColl s1 st.epoch st.num with
            | some c => (match c.kind.bind fun kind => (chunkAt? kind c.nrank c.chunklog st.idx).bind fun d =>
                (chunkNext s1 c kind (lostRanks s1 c.epoch) d.seg (c.chunk st.idx)).map fun n => (kind, d, n) with
              | some (kind, d, i, r, t, e) => (match stepChunk s1 c kind d (c.chunk st.idx) i r t e with
                | (.ok ch, _) => ch.idx == st.idx && ch.pos == i + 1 && findColl (startStep s1 st) st.epoch st.num == some (c.put ch)
                | _ => false)
              | none => false)
            | none => false)
          | none => false)
     | _ => false) = true := by decide +kernel

/-- Units whose writes to other packages were on their way have ended (R354, R358). -/
theorem test_engine_sent :
    (let i : Instr := .cpy ⟨wc, .spad, .spad, 0, wv 4, wv 6, wv 2, 9⟩
     let s := after i (at0 i (spadBase [] [wf 4 0x4000, wf 5 0, wf 6 0x1000, wf 7 0, wf 2 0x2000]))
     let k := (eng0 s).id
     let s1 := modEng s 0 k fun e => { e with sent := true }
     engRuns s1 0 (eng0 s1) && !engStoring s1 0 k && ev s1 (.engineComplete 0 k) (theEng · fun e => e.done == 4096 && !e.sent) &&
     (let i : Instr := .gath ⟨wc, 0, false, 2, 0, 1, wv 4, wv 2, wv 3, 9⟩
      let s := after i (at0 i (spadBase [(0x1000, 0), (0x1004, 0)] [wf 4 0x8000, wf 5 0, wf 2 0x1000, wf 3 0x2000]))
      ev (modEng s 0 (eng0 s).id fun e => { e with sent := true }) (.parcelMarker 0 (eng0 s).id) (theEng · fun e => e.done == 2 && !e.sent))) = true := by
  decide +kernel

/-! Picking, timers, teams; the hub; homes, other packages, errors. -/

def ea : Entry := ⟨0, 0, 0, 0, 0, []⟩

/-- The pick of subcore 0 finds one entry, lane 0 at its NOP, and issues it (R55, R56). -/
theorem test_pick :
    (let s := { base false [] with mem := placeBytes (base false []).mem codeVa 12 (wd 0x0C8 0x8B 0x8B 0x8B 0x8B 0 0) }
     let (s1, l, _) := settleGroup s 0 0 0
     l.length == 1 && compactEntry s1 0 0 0 == [] && (chooseKey [ea, { ea with age := 1 }]).isSome &&
     (match execPick 0 0 s with
      | .next s' => (match s'.cur with | some x => x.ins == .nop ⟨wc⟩ && x.lanes == [wt] | none => false)
      | _ => false) &&
     (groupsOn s 0 == [(0, 0)]) && (match l with | [e] => e.slot ≤ 8 && e.pc == 0x30000 && e.lanes == [wt] | _ => false) &&
     (match execPick 0 0 { s with cur := some ⟨0, 0, 0, 0, .nop ⟨wc⟩, []⟩ } with
      | .next s' => (match s'.cur with | some x => x.pc == 0x30000 && x.lanes == [wt] && x.word == wd 0x0C8 0x8B 0x8B 0x8B 0x8B 0 0 | none => false)
      | _ => false) &&
     (match exec (.poolObtain 0 0 512) s with | .next s' => s'.threads == s.threads | _ => false)) = true := by decide +kernel

/-- A pause, a JOIN and a yield at and one cycle before their ends. -/
theorem test_timers :
    (let s := fun (st : TState) => modThread (base false []) wt fun th => { th with st := st }
     ev (s (.paused 100)) (.pauseExpire wt) (thIs · fun th => th.st == .eligible && th.since == 100) &&
     ev (s (.paused 101)) (.pauseExpire wt) (thIs · fun th => th.st == .paused 101) &&
     ev (s (.blocked (.join 100))) (.joinLimitExpire wt) (thIs · fun th => th.st == .eligible && th.since == 100 && th.joined) &&
     ev (modThread (base false []) wt fun th => { th with yld := some 100 }) (.yieldExpire wt) (thIs · fun th => th.yld == none)) = true := by
  decide +kernel

/-- The convergence timer of a group of which lane 0 alone stands held (R60, R428). -/
def heldBase : State :=
  let s := modThread (base false []) wt fun th => { th with st := .held }
  { modGroup s 0 0 (fun g => { g with conv := some 0 }) with now := 20000000 }
theorem test_convergence :
    ((heldLanes heldBase 0 0).length == 1 && ev heldBase (.convergenceTimeout 0 0) (haltedAt 0x30000)) = true := by decide +kernel

/-- A team that waits at a barrier for more than 20,000 cycles. -/
def fin (s : State) : State := { s with threads := s.threads.map fun (x : Nat × Thread) => (x.1, { x.2 with st := .handlerDone }) }
def parkBase : State :=
  let s := modThread (base false [wf 2 7, wf 10 9]) wt fun th => { th with st := .waiting (.bar ⟨wc, 9, wi 2⟩ 2), since := 0 }
  { s with now := 100000, mem := memStore s.mem 0x180008 8 (2 ^ 28 + 0xF), threads := s.threads.take 1 }
def saved : State := fin (after (.parkDue 0) parkBase)
def restored : State :=
  let s := after (.saveComplete 0) saved
  -- the records of the other lanes, which this small state lacks: exited, NREGS 1
  let m := (List.range 31).foldl (fun m i => memStore m (threadRec s ⟨0, 0, i + 1⟩ + 0x120) 20 (5 + 2 ^ 128)) s.mem
  fin { modTeam s 0 (fun t => { t with st := .restoring }) with cores := [(0, { Core.idle with ctx := some 0 })], mem := m }
def teamSt (s : State) (p : TeamSt → Bool) : Bool := match team? s 0 with | some t => p t.st | none => false

/-- PARK_DUE begins the save, SAVE_COMPLETE parks, RESTORE_COMPLETE brings the thread back to its BAR with its registers (R62, R69, R102). -/
theorem test_park :
    (parkable parkBase 0 && ev parkBase (.parkDue 0) (teamSt · (· == .saving 1 false)) &&
     (saveGaps parkBase 0).1 == [] &&
     -- a save block that is not mapped: the thread takes the fault first (R97)
     (let s := { parkBase with ctxs := parkBase.ctxs.map fun (k, c) => (k, { c with plan := { c.plan with savebase := 0x7000000000000 } }) }
      (match (saveGaps s 0).1 with | [(t, _)] => t == wt | _ => false) && ev s (.parkDue 0) (thIs · fun th => th.bsFault.isSome && th.st == .eligible)) &&
     handlerOver saved 0 && ev saved (.saveComplete 0) (teamSt · (· == .parked))) = true := by decide +kernel

theorem test_restore :
    (handlerOver restored 0 && (restoreGaps restored 0).1 == [] && teamBad restored 0 == none &&
     (match readGroup restored 0 0 with | .ok (_, l) => decide (restoreNeed l ≤ poolFree restored 0) | .error _ => false) &&
     ev restored (.restoreComplete 0) fun s' => teamSt s' (· == .resident) && thIs s' fun th => th.pc == 0x30000 && th.wbase == 0 && th.nregs == 64 &&
       full th 2 7 && full th 10 9) = true := by decide +kernel

/-- A parked team whose semaphore-like wait is met becomes ready (R65). -/
theorem test_wait_list :
    (let s := modTeam (modThread (base false []) wt fun th => { th with st := .waiting (.vread ⟨wc, 9, 4, .v 4, wv 3⟩ 0) }) 0 fun t => { t with st := .parked }
     waitMet s wt (.vread ⟨wc, 9, 4, .v 4, wv 3⟩ 0) && ev s (.waitListRetest 0) fun s' => match team? s' 0 with
       | some t => t.ready && t.claim == 100
       | none => false) = true := by decide +kernel

/-- A stop sent to an engine: acknowledged, and timed out (R94, R441). -/
theorem test_engine_stop :
    (let i : Instr := .cpy ⟨wc, .spad, .spad, 0, wv 4, wv 6, wv 2, 9⟩
     let s := after i (at0 i (spadBase [] [wf 4 0x4000, wf 5 0, wf 6 0x1000, wf 7 0, wf 2 0x2000]))
     let k := (eng0 s).id
     let s := modEng s 0 k fun e => { e with stopSent := some 100 }
     engAtStop s 0 (eng0 s) && ev s (.engineStopAck 0 k) (theEng · fun e => e.stopped && e.done == 0) &&
     (let s := { s with rreqs := [⟨4, 0, 77, 0, 0x10000008000, .load 0x10000008000 4, some 0, 0, some (0, k, 0)⟩] }
      !engAtStop s 0 (eng0 s) && ev s (.engineStopAck 0 k) (theEng · fun e => !e.stopped)) &&
     ev { s with now := 100 + stopLimit + 1 } (.stopTimeout 0 k) (theEng · fun e => e.stopped && e.done == doneLost)) = true := by decide +kernel

/-- A pending team is a candidate, admitted on the context's core, or by a grant on a free one (R66, R90). -/
def pending : State :=
  let s := base false []
  { modTeam s 0 (fun t => { t with st := .pending }) with groups := [], threads := [] }
theorem test_admission :
    (let s := pending
     let two := { s with teams := s.teams ++ [(1, Team.fresh 0 0 1 0 1 0 0)] }
     (match candsOf two 0 with | [c] => (admitCand 0 (coreOwn two 0) c.units two).isSome | _ => false) &&
     ev two (.teamAdmission 0) (fun s' => teamSt s' (· == .resident) && s'.threads.length == 32) &&
     claimants (base false []) == [] && (match claimants s with
       | [(0, _, [c])] => (match admitCand 0 (fun _ => true) c.units s with
         | some _ => ev s .contextGrant (teamSt · (· == .resident))
         | none => false)
       | _ => false)) = true := by decide +kernel

/-- Context 0 has held its core for 2^25 hub cycles while context 1 of the same priority claims one (R91). -/
theorem test_fairness :
    (let s := base false []
     let s := { s with
       now := 2 ^ 27
       ctxs := s.ctxs ++ [(1, { plan := { cores := false, ptroot := 0x100000, savebase := 0x1000000, saveh := 0x30000, resth := 0x30000
                                          constva := 0, constlen := 0, grids := [grid] }
                                prio := 0, placed := 0, vcores := [], stop := none, coresSince := 0 })]
       teams := s.teams ++ [(2 ^ 28, { Team.fresh 1 0 0 0 1 0 0 with st := .pending })] }
     holdsCores s 0 && decide (fairTime ≤ hubCycle s.now) && (claimants s).any (fun x => x.1 == 1) && ev s (.fairnessPreempt 0) fun s' =>
       match Tab.get? s'.ctxs 0 with
       | some c => c.stop.isSome
       | none => false) = true := by decide +kernel

/-! The hub. -/

theorem test_boot_and_power :
    (let off := after .powerRemoved State.reset
     off == { State.reset with phase := .off } && ev off (.powerOnBoot 0 0) (fun s => s.phase == .ready && s.hpkg == 0) &&
     bootUnit 5 unitH && ev off (.powerOnBoot 5 (BitVec.ofNat 16 unitH)) (fun s => s.phase == .recovery 5 true && match s.log with
       | [r] => r.cls == 0x0D && r.sev == 4 && r.detail == 5
       | _ => false) &&
     ev off (.powerOnBoot 4 (BitVec.ofNat 16 (unitHub 0))) (fun s => s.phase == .recovery 4 false) &&
     ev State.reset .hubLost (fun s => s.phase == .hubLost) && ev State.reset (.hpkgWrite 191) (fun s => s.hpkg == 191) &&
     ev State.reset (.hpkgWrite 192) (fun s => s.hpkg == 0)) = true := by decide +kernel

theorem test_hub_registers :
    (ev State.reset (.registerWrite 0x008 7) (fun s => s.harg0 == 7) && ev State.reset (.registerWrite 0x010 7) (fun s => s.harg1 == 7) &&
     ev State.reset (.registerWrite 0x018 7) (fun s => s.harg2 == 7) && ev State.reset (.registerWrite 0x1000 7) (fun s => s.tiva == 7)) = true := by
  decide +kernel

/-- Commands of context 0, which has a plan, and of context 5, which has none. -/
theorem test_hub_commands :
    (let s := base false []
     let ends := fun (i : Instr) (code : Nat) => ev s i fun s' => s'.hstat == 1 && (match s'.hubRun with
       | some r => r.code.toNat == code
       | none => false) && ev s' .hubCommandComplete fun s2 => s2.hstat.toNat == code && s2.hubRun == none
     -- busy, a reserved bit, a bad argument
     ev { s with hstat := 1 } (.attest 0x0006) (fun s' => s' == { s with hstat := 1, hreject := 1 }) &&
     ev { s with hstat := 1 } (.registerWrite 0x000 6) (fun s' => s' == { s with hstat := 1, hreject := 1 }) &&
     ev s (.attest 0x10006) (fun s' => s'.hstat == 0x81) && !argOk s 1 32 32 &&
     ev { s with harg0 := 1 } (.attest 0x0006) (fun s' => s'.hubRun == some ⟨0x81, 0, 0⟩) &&
     ev { s with harg0 := 1 } (.readErrorLog 0x0004) (fun s' => s'.hubRun == some ⟨0x81, 0, 0⟩) &&
     ev { s with harg0 := 1 } (.placePlan 0x0501 true) (fun s' => s'.hubRun == some ⟨0x81, 0, 0⟩) &&
     ends (.placePlan 0x0501 true) 0x82 &&
     ends (.placePlan 0x0001 true) 0x84 && ends (.preEmptContext 0x0502) 0x84 && ends (.preEmptContext 0x0002) 2 && ends (.killContext 0x0003) 2 &&
     ends (.readErrorLog 0x0004) 2 && ends (.setPowerProfile 0x0005) 2 && ends (.attest 0x0006) 2 &&
     ev s (.hcmdUnknownOp 0x0007) fun s' => s'.hstat == 0x80) = true := by decide +kernel

/-- A plan image of one grid record, as R42 and R43 lay it out, at PA 0x20000: placed. -/
theorem test_place_plan :
    (let m := memStore (memStore (memStore (memStore [] 0x20000 4 0x4E414C50) 0x20004 2 1) 0x20006 2 1) 0x20010 8 0x100000
     let m := memStore (memStore (memStore m (0x20040 + 0x10) 4 1) (0x20040 + 0x14) 1 1) (0x20040 + 0x17) 1 16
     let s := { State.reset with mem := m, harg0 := 0x20000, harg1 := 640 }
     argOk s 0x20000 640 64 && (match placeNow s 5 true with | .ok s1 => (Tab.get? s1.ctxs 5).isSome | .error _ => false) &&
     ev s (.placePlan 0x0501 true) fun s' => (match s'.hubRun with | some r => r.code == 2 | none => false) && (Tab.get? s'.ctxs 5).isSome &&
       s'.teams.length == 1) = true := by decide +kernel

theorem test_postmaster :
    (let s := { base false [] with now := 2 ^ 20 }
     intervalDue s 3 && !intervalDue (base false []) 3 && ev (base false []) (.postmasterInterval 3 1 0) (· == base false []) &&
     ev s (.postmasterInterval 3 1 0) (fun s' => (powerOf s' 3).reduce == 1 && (powerOf s' 3).interval == 1 &&
       (powerOf s' 3).since == (powerOf s 3).since + 4096) && intervalDue s 10 && ev s (.postmasterInterval 10 0 7) (·.halved) && ev s (.postmasterInterval 10 0 0) (!·.halved)) = true := by
  decide +kernel

/-! Homes. `ln` is the line of 0x8000, `md` its memory die. -/

def ln : Nat := lineOf 0x8000
def md : Nat := lineMdie ln
def dl : Line := ⟨0x55, 0, false⟩
def held (st : Moesi) : State := { base false [] with
  ag := [(agKey 1 ln, ⟨st, dl, [], false, false, 0⟩)], dir := [(ln, ⟨2, some 1, 0⟩)] }

/-- RdS, RdU and Upg of a line that nobody holds: granted in E with the home's bytes (R175). -/
theorem test_home_grants :
    (List.all [(.homeRds md 0, .rds), (.homeRdu md 0, .rdu), (.homeUpg md 0, .upg)] fun (x : Instr × HKind) =>
      let s := { base false [] with mem := memStore (base false []).mem 0x8000 4 7, homeQ := [⟨ln, 0, x.2, V3.zero⟩] }
      (reqReady s md 0).isSome && dirRoom s ln && (agLine? s 0 ln).isNone && (dirEnt? s ln).isNone && ev s x.1 fun s' => match agLine? s' 0 ln with
        | some a => a.st == .e && a.line.get 0 4 == 7
        | none => false) = true := by decide +kernel

/-- A bulk write-back, one that waits for its postmark and its application, an eviction's notice (R175, R214). -/
theorem test_home_writes :
    (let s := { base false [] with homeQ := [⟨ln, 0, .wbd dl true, V3.zero⟩] }
     ev s (.homeWbd md 0) (fun s' => (match Tab.get? s'.llc ln with | some x => x.line == dl && x.dirty | none => false)) &&
     (let s := { base false [] with homeQ := [⟨ln, 0, .wbd dl false, V3.zero⟩] }
      ev s (.homeWbd md 0) fun s' => s'.pwrites == [⟨ln, 0, V3.zero, false, dl⟩] && covered s' md 0 V3.zero && ev s' (.writeApplyHome md 0) fun s2 =>
        s2.pwrites == [] && (match Tab.get? s2.llc ln with | some x => x.line == dl && x.dirty | none => false)) &&
     (let s := { base false [] with homeQ := [⟨ln, 1, .evc, V3.zero⟩], dir := [(ln, ⟨2, some 1, 0⟩)] }
      ev s (.homeEvc md 0) fun s' => s'.homeQ == [] && (dirEnt? s' ln).isNone)) = true := by decide +kernel

/-- An M line of C1 snooped for C0: shared, invalidated, back-invalidated (R175, R176). -/
theorem test_snoops :
    (let s := fun k => { held .m with txns := [⟨⟨ln, 0, .rds, V3.zero⟩, [1], k, none, false⟩] }
     snoopDue (s 0) md ln 1 0 && snoopDue (s 1) md ln 1 1 && snoopDue (s 2) md ln 1 2 && mayEvict (s 2) 1 ⟨.m, dl, [], false, false, 0⟩ &&
     ev (s 0) (.snoopSnps md ln 1) (fun s' => match agLine? s' 1 ln with | some a => a.st == .o && a.line == dl | none => false) &&
     ev (s 1) (.snoopSnpi md ln 1) (fun s' => (agLine? s' 1 ln).isNone) &&
     ev (s 2) (.backInv md ln 1) fun s' => (agLine? s' 1 ln).isNone && s'.pwrites.length == 1) = true := by decide +kernel

theorem test_settle :
    ev (base false []) (.settleBroadcast 1) (fun s' => (homeView s' 7).get 1 == s'.settle.get 1) = true := by decide +kernel

/-- An atomic at its home adds to the home's line and answers with the old word (R177). -/
theorem test_atomic_home :
    (let i : Instr := .atom ⟨wc, ⟨wv 4, 0, .global, 0⟩, .w32, .plain, .thread, .add, .uns, .home, .rn, .v 1, wv 6⟩
     let s0 := base false ra
     let s := after i (at0 i { s0 with mem := memStore s0.mem 0x8000 4 7 })
     match accs s wt with
     | [a] => (let s := { s with homeQ := [⟨ln, 0, .atomic 0 a.id, V3.zero⟩] }
       (reqReady s md 0).isSome && covered s md 0 V3.zero && ev s (.atomicHomeExec md 0) fun s' => oneAcc s' (fun a => a.reply == some (7, false)) &&
         match Tab.get? s'.llc ln with | some x => x.line.get 0 4 == 12 | none => false)
     | _ => false) = true := by decide +kernel

theorem test_llc_evict :
    (let s := { base false [] with llc := [(ln, ⟨dl, true, 0⟩)] }
     Memory.wf s.mem && ev s (.llcEvict md ln) fun s' => (Tab.get? s'.llc ln).isNone && memLoad s'.mem 0x8000 128 == 0x55 &&
       memLoad s'.mem 0x140000 8 == 0xF) = true := by decide +kernel

/-- Host writes and reads, remote requests, an answer and a timeout (R174, R225, R227, R494, R495). -/
theorem test_host_and_remote :
    (let s := base false []
     paMdie 0x807E == md && homesIdle s && ev s (.hostMemWrite 0x807E [5, 6] false) (fun s' => (cohRead s' 0x807E 2).1 == 0x605 && (cohRead s' 0x8080 4).1 == 0) &&
     ev s (.hostMemRead 0x8000 4) (fun s' => (agLine? s' 2 ln).isSome) &&
     ev s (.remoteRequestApply 3 9 (.store 0x8000 4 0x1122334455 false)) (fun s' => (cohRead s' 0x8000 4).1 == 0x22334455 && (3, 9, 0) ∈ s'.rdone &&
       ev s' (.remoteRequestApply 3 9 (.store 0x8000 4 0 false)) fun s2 => (cohRead s2 0x8000 4).1 == 0x22334455) &&
     (let r : RReq := ⟨4, 0, 77, 0, 0x10000008000, .load 0x10000008000 4, some 0, 0, none⟩
      ev { s with rreqs := [r] } (.remoteAck 0 7 false) (fun s' => s'.rreqs == []) &&
      ev { s with rreqs := [r], now := 2 ^ 28 } (.remoteRequestTimeout 0) fun s' => 1 ∈ s'.fenced && s'.rreqs == [])) = true := by decide +kernel

/-- A shoot-down of every translation; a reserved one; a core that is late (R185, R477). -/
theorem test_shootdown :
    (let s := modCore (base false []) 0 fun c => { c with tlb := [⟨0, 0x10000, 0x10000, 0x10000, true, true, false⟩] }
     !tictlBad 0x30000000 && ev s (.shootdownAll 0x30000000) (fun s' => (getCore s' 0).tlb == [] && s'.shoot.isSome &&
       ev s' .shootdownComplete fun s2 => s2.shoot == none && s2.tistat == 0) &&
     ev s (.shootdownContext 0x20000000) (fun s' => (getCore s' 0).tlb == []) &&
     ev { s with tiva := 0x10000 } (.shootdownPage 0x10000000) (fun s' => (getCore s' 0).tlb == []) &&
     tictlBad 0x40000000 && ev s (.tictlBadOp 0x40000000) (fun s' => s'.tistat == 0x80)) = true := by decide +kernel

theorem test_shootdown_late :
    (let a : Acc := { id := 0, t := wt, kind := .load false 32, parts := [⟨.mem 0x8000 false, 4, 0⟩], dsts := [], bulk := false, ord := .plain
                      scope := .thread, inL1 := false, l1seq := 0, due := 0, reply := none, mark := none }
     let s := modCore (base false []) 0 fun c => { c with acc := [a], tlb := [⟨0, 0x10000, 0x10000, 0x10000, true, true, false⟩] }
     let s := { s with shoot := some ⟨0x30000000, 0, [0], 1, 0⟩, now := 2 ^ 26 }
     oldAccess s 0 1 (shootCtx 0x30000000) && decide (ackLimit < hubCycle s.now) && decide (hubCycle s.now ≤ 2 * ackLimit) &&
     ev s (.shootdownAckTimeout 0) fun s' => (getCore s' 0).tlb == []) = true := by decide +kernel

/-- Ports, dies and errors (R410-R427, R493, R494). -/
theorem test_faults :
    (let s := base false []
     let u := BitVec.ofNat 16 (unitPort 3)
     portUp s 3 && ev s (.flitReplay 3) (fun s' => (portAt s' 3).replays == 1) && ev s (.planeDown 3) (fun s' => !portUp s' 3) &&
     ev s (.laneFail u 5) (fun s' => (portAt s' 3).lanes == 4 && Tab.getD s'.linkLanes u.toNat 0 == 32) &&
     (let s := { s with now := 2 ^ 24 }
      decide (2 ^ 20 ≤ hubCycle s.now) && ev s (.dieProbe 5 false) (fun s' => Tab.getD s'.probes 5 0 == 1) &&
      ev { s with probes := [(5, 2)] } (.dieProbe 5 true) (fun s' => s'.probes == []) &&
      ev { s with probes := [(5, 2)] } (.dieProbe 5 false) (fun s' => dieLost s' 5) && !dieLost s 5)) = true := by decide +kernel

theorem test_error_events :
    (let s := base false [wf 2 7]
     let e : ErrEvent := ⟨.vreg wt 2, false, 3, 0, 9⟩
     (match (logEvent s 5 2 1 7 0 0 9).log with
       | [r] => r.cls == 2 && r.sev == 1 && r.addr == 7 && r.detail == 9
       | _ => false) && ev s (.errorEvent e) (fun s' => thIs s' (fun th => getReg th 2 == some (.full ⟨7, true⟩)) && s'.errs == [⟨0x100, 2, 0, 0, 0, 1, 9⟩] &&
       s'.log.isEmpty && unitCycle s' 0x100 != unitCycle { s' with now := s'.now + 1 } 0x100 && (match (errSettle s').log with
         | [r] => r.cls == 2 && r.unit == 0x100 && r.detail == 1 && r.count == 1
         | _ => false)) &&
     ev s (.errorEvent { e with fixed := true }) (fun s' => thIs s' (full · 2 7) && s'.errs == [⟨0x100, 1, 0, 0, 0, 3, 9⟩]) &&
     ev { s with counters := [(5, ⟨some 0, 3, false⟩)] } (.faultWindowClose 5) (fun s' => Tab.get? s'.counters 5 == some ⟨none, 0, false⟩) &&
     ev { s with remaps := [(2, 3, 0)] } (.rowRemapComplete 2 3) (fun s' => s'.remaps == [] && Tab.getD s'.spareRows (unitHbm 2 3) 0 == 1)) = true := by
  decide +kernel

theorem test_reset :
    (State.reset.phase == .ready && State.reset.hpkg == 0 && State.reset.mem == [] && Memory.wf State.reset.mem &&
     decide (State.reset.qdtbase.toNat % 2 ^ 18 = 0) && State.reset.cur.isNone) = true := by decide +kernel

/-- The invariant holds in the small state and after a step from it. -/
theorem test_invariant :
    (let s := base false []
     Memory.wf s.mem && s.hpkg < 192 && (match step s with | .next s' => Memory.wf s'.mem && s'.log.length ≤ logCap | _ => false)) = true := by
  decide +kernel

/-- A claim of a higher priority that fits nowhere pre-empts the one context below it (R91). -/
theorem test_priority_preempt :
    (let s := base false []
     let p := fun (g : GridRec) => ({ cores := false, ptroot := 0x100000, savebase := 0x1000000, saveh := 0x30000, resth := 0x30000
                                      constva := 0, constlen := 0, grids := [g] } : Plan)
     let s := { s with
       ctxs := s.ctxs ++ [(1, { plan := p { grid with pages := 97 }, prio := 5, placed := 0, vcores := [], stop := none, coresSince := 0 })]
       teams := s.teams ++ [(2 ^ 28, { Team.fresh 1 0 0 0 1 0 0 with st := .pending })] }
     (claimants s).length == 1 && (grantOne s).isNone && (s.ctxs.filter fun y => y.2.prio < 5 && holdsCores s y.1).length == 1 &&
     ev s .contextGrant fun s' => match Tab.get? s'.ctxs 0 with
       | some c => c.stop.isSome
       | none => false) = true := by decide +kernel

/-- A line of which C0 asks for something: the home's word is 7, agent `a` holds 0x55 + a. -/
def asked (k : HKind) (dir : Tab DirEnt) (ag : List (Nat × Moesi)) : State :=
  { base false [] with
    mem := memStore (base false []).mem 0x8000 4 7, homeQ := [⟨ln, 0, k, V3.zero⟩], dir := dir
    ag := ag.map fun (a, st) => (agKey a ln, ⟨st, ⟨0x55 + BitVec.ofNat 1024 a, 0, false⟩, [], false, false, 0⟩) }
def holds0 (s' : State) (st : Moesi) (x : Nat) : Bool := match agLine? s' 0 ln with | some a => a.st == st && a.line.get 0 4 == x | none => false

/-- Upg without and with another holder, RdU, RdS with an owner and with sharers only (R175). -/
theorem test_home_transactions :
    (ev (asked .upg [(ln, ⟨1, none, 0⟩)] [(0, .s)]) (.homeUpg md 0) (fun s' => holds0 s' .m 0x55 && s'.homeQ == []) &&
     ev (asked .upg [(ln, ⟨3, some 1, 0⟩)] [(0, .s), (1, .o)]) (.homeUpg md 0) (fun s' =>
       s'.txns == [⟨⟨ln, 0, .upg, V3.zero⟩, [1], 1, none, false⟩] && s'.homeQ == []) &&
     ev (asked .rdu [(ln, ⟨2, some 1, 0⟩)] [(1, .m)]) (.homeRdu md 0) (fun s' => s'.txns == [⟨⟨ln, 0, .rdu, V3.zero⟩, [1], 1, none, false⟩]) &&
     ev (asked .rds [(ln, ⟨2, some 1, 0⟩)] [(1, .m)]) (.homeRds md 0) (fun s' => s'.txns == [⟨⟨ln, 0, .rds, V3.zero⟩, [1], 0, none, false⟩] &&
       ev s' (.snoopSnps md ln 1) fun s2 => s2.txns == [] && holds0 s2 .s 0x56) &&
     ev (asked .rds [(ln, ⟨2, none, 0⟩)] [(1, .s)]) (.homeRds md 0) (holds0 · .s 7)) = true := by decide +kernel

/-- The last SnpI answer of an Upg, and of an RdU of a dirty and of a clean line; the recall for an atomic (R176, R177). -/
theorem test_last_answer :
    (let go := fun (k : HKind) (mine : List (Nat × Moesi)) (st : Moesi) => { asked .rds [(ln, ⟨3, some 1, 0⟩)] (mine ++ [(1, st)]) with
       homeQ := [], txns := [⟨⟨ln, 0, k, V3.zero⟩, [1], 1, none, false⟩] }
     let p := fun (st : Moesi) (x : Nat) (s' : State) => (agLine? s' 1 ln).isNone && holds0 s' st x
     ev (go .upg [(0, .s)] .o) (.snoopSnpi md ln 1) (p .m 0x55) && ev (go .rdu [] .m) (.snoopSnpi md ln 1) (p .m 0x56) &&
     ev (go .rdu [] .e) (.snoopSnpi md ln 1) (p .e 7) &&
     (let s := { held .m with txns := [⟨⟨ln, 0, .atomic 0 0, V3.zero⟩, [1], 3, none, false⟩] }
      snoopDue s md ln 1 3 && ev s (.snoopSnpi md ln 1) fun s' => (agLine? s' 1 ln).isNone && s'.pwrites.length == 1)) = true := by decide +kernel

/-- An atomic at its home of a line that C1 holds; one whose placement the predictor leaves near, or puts there (R177, R178). -/
theorem test_atomic_forms :
    (let go := fun (pl : Place) (f : State → State) (p : State → Bool) =>
       let i : Instr := .atom ⟨wc, ⟨wv 4, 0, .global, 0⟩, .w32, .plain, .thread, .add, .uns, pl, .rn, .v 1, wv 6⟩
       let s0 := base false ra
       let s := after i (at0 i { s0 with mem := memStore s0.mem 0x8000 4 7 })
       match accs s wt with
       | [a] => ev (f { s with homeQ := [⟨ln, 0, .atomic 0 a.id, V3.zero⟩] }) (.atomicHomeExec md 0) p
       | _ => false
     go .home (fun s => { s with dir := [(ln, ⟨2, some 1, 0⟩)] }) (fun s' => s'.homeQ == [] && (match s'.txns with
       | [x] => x.await == [1] && x.snoop == 3
       | _ => false) && s'.llc == []) &&
     go .auto id (fun s' => oneAcc s' fun a => (match a.kind with | .atomic o => o.place == .near | _ => false) && !a.inL1 && a.reply == none) &&
     go .auto (fun s => { s with predictor := [(md * 1024 + predIndex 0x8000, [(1, memCycle s.now)])] }) (fun s' =>
       oneAcc s' fun a => a.reply == some (7, false))) = true := by decide +kernel

/-- A restore that cannot read its records takes the fault first (R164). -/
theorem test_restore_faults :
    (let s := { restored with ctxs := restored.ctxs.map fun (k, c) => (k, { c with plan := { c.plan with savebase := 0x7000000000000 } }) }
     handlerOver s 0 && (restoreGaps s 0).1.length == 1 && ev s (.restoreComplete 0) fun s' => thIs s' fun th =>
       th.bsFault.isSome && th.st == .eligible && th.fixing) = true := by decide +kernel

/-- The end of a Read error log that took one record reports the records that were lost (R415). -/
theorem test_log_overflow :
    (let s := { base false [] with hubRun := some ⟨2, 64, 1⟩, logLost := 3, logSeq := 9, log := (logEvent (base false []) 5 2 1 7 0 0 9).log }
     ev s .hubCommandComplete fun s' => s'.hstat == 2 && s'.hresult == 64 && s'.logLost == 0 && (match s'.log with
       | [r] => r.cls == 0x0E && r.detail == 3 && r.seq == 9 && r.unit == 0xA000
       | _ => false)) = true := by decide +kernel

end Sys2Proof.Tests
end

section
/-! PROOFS. The bytes and the bit fields of an instruction word (R4, R232), and what an unassigned OPC decodes to (R235, R246). -/

namespace Sys2Proof

/-! Little-endian bytes (R4). -/

@[simp] theorem length_leBytes (n x : Nat) : (leBytes n x).length = n := by
  induction n generalizing x with
  | zero => rfl
  | succ n ih => simp [leBytes, ih]

theorem leNat_leBytes (n x : Nat) : leNat (leBytes n x) = x % 256 ^ n := by
  induction n generalizing x with
  | zero => simp [leBytes, leNat, Nat.mod_one]
  | succ n ih =>
    calc leNat (leBytes (n + 1) x)
        = x % 256 + 256 * (x / 256 % 256 ^ n) := by simp [leBytes, leNat, ih]
      _ = x % 256 ^ (n + 1) := by rw [Nat.pow_succ', Nat.mod_mul]

/-! Parts of a bit field (R4). -/

theorem bits_div_two_pow {h l k : Nat} (x : Nat) (hk : l + k ≤ h + 1) : bits x h l / 2 ^ k = bits x h (l + k) := by
  have hwidth : h + 1 - l = k + (h + 1 - (l + k)) := by omega
  rw [bits, bits, hwidth, Nat.pow_add, Nat.mod_mul_right_div_self, ← Nat.shiftRight_eq_div_pow, Nat.shiftRight_add]

theorem bits_mod_two_pow {h l k : Nat} (x : Nat) (hk : l + k < h + 1) : bits x h l % 2 ^ (k + 1) = bits x (l + k) l := by
  have hwidth : l + k + 1 - l = k + 1 := by omega
  rw [bits, bits, hwidth, Nat.mod_mod_of_dvd _ (Nat.pow_dvd_pow 2 (by omega))]

/-! The decoder, by bytes and by OPC (R232, R246). -/

theorem decode_append {bs : List Byte} (rest : List Byte) (hlen : bs.length = 12) :
    decode (bs ++ rest) = (decodeWord (leNat bs)).map fun i => (i, rest) := by
  have hlong : ¬ (bs ++ rest).length < 12 := by simp [hlen]
  rw [decode, if_neg hlong, List.take_left' hlen, List.drop_left' hlen]
  cases decodeWord (leNat bs) with
  | error e => rfl
  | ok i => rfl

theorem decode_leBytes_append {w : Nat} (rest : List Byte) (hw : w < 2 ^ 96) :
    decode (leBytes 12 w ++ rest) = (decodeWord w).map fun i => (i, rest) := by
  have hword : leNat (leBytes 12 w) = w := (leNat_leBytes 12 w).trans (Nat.mod_eq_of_lt hw)
  rw [decode_append rest (length_leBytes 12 w), hword]

/-- The class is the upper four bits of OPC (R246). -/
theorem opc_div_64 (w : Nat) : (fieldsOf w).opc / 64 = bits w 95 92 :=
  bits_div_two_pow (h := 95) (l := 86) (k := 6) w (by decide)

/-- The operation's number within its class is the lower six bits of OPC (R246). -/
theorem opc_mod_64 (w : Nat) : (fieldsOf w).opc % 64 = bits w 91 86 :=
  bits_mod_two_pow (h := 95) (l := 86) (k := 5) w (by decide)

theorem decodeWord_of_unassigned {w : Nat} (hop : opsInClass (bits w 95 92) ≤ bits w 91 86) :
    decodeWord w = .error (.unassigned (bits w 95 86)) := by
  rw [← opc_div_64, ← opc_mod_64] at hop
  exact if_pos hop

/-- Settles O3: the twelve bytes are read back as the word by induction on their number, and OPC splits into the class and the
operation's number, on which the decoder's first test turns. -/
theorem twelveBytesAreOneWord : Obligations.TwelveBytesAreOneWord := by
  unfold Obligations.TwelveBytesAreOneWord
  refine ⟨fun w rest hw => ?_, fun w hop => decodeWord_of_unassigned hop⟩
  rw [decode_leBytes_append rest hw]
  cases decodeWord w with
  | error e => rfl
  | ok i => rfl

end Sys2Proof
end
